-- ==== Sys2Proof/Word.lean ====
section
/-!
DEFINITION. Word.lean: the word types of the machine and their plainest arithmetic (00_scope.md R7, R9).
-/
namespace Sys2Proof

/-- One byte (R7, `u8`). -/
abbrev Byte := BitVec 8

/-- One 16-bit word (R7, `u16`): register contents, offsets, segment values, port numbers. -/
abbrev Word := BitVec 16

/-- A 20-bit physical address (R9, `u20`). -/
abbrev Phys := BitVec 20

/-- The two operand widths `w` of R7. -/
inductive Width where
  | byte
  | word
  deriving DecidableEq, Repr

/-- The number of bits of a width (R7: 8 or 16). -/
@[reducible] def Width.bits : Width → Nat
  | .byte => 8
  | .word => 16

/-- A value of a given operand width. -/
abbrev Val (w : Width) := BitVec w.bits

/-- Two bytes as a little-endian word, the low byte first (R43). -/
def wordOf (lo hi : Byte) : Word := hi ++ lo

/-- The low byte of a word (R43). -/
def loByte (v : Word) : Byte := v.truncate 8

/-- The high byte of a word (R43). -/
def hiByte (v : Word) : Byte := (v >>> 8).truncate 8

end Sys2Proof
end

