-- ==== Sys2Proof/Syntax.lean ====
section
/-!
DEFINITION. Syntax.lean: the instructions of spec/opcode_table.json as a type.
One constructor per mnemonic and rule of the spec.  The bit fields an opcode byte or a ModRM byte holds (R100, R101:
`d`, `w`, `s`, a register, whether the opcode is the documented one or its undocumented twin, `alt`, an ignored `reg` field) are operands of the constructor, so that rows which
differ only in such a field are values of one constructor and no bit of an encoding is lost.
-/
namespace Sys2Proof

/-- A 3-bit register number (R105): `r16[i]` is AX CX DX BX SP BP SI DI and `r8[i]` is AL CL DL BL AH CH DH BH for
i = 0..7; the operand width decides which is meant.  The same eight values number a ModRM `reg` extension (R109). -/
inductive Reg where
  | r0 | r1 | r2 | r3 | r4 | r5 | r6 | r7
  deriving DecidableEq, Repr

/-- Segment registers (R20, R105), numbered 0 to 3. -/
inductive SReg where
  | es | cs | ss | ds
  deriving DecidableEq, Repr

/-- The base of an effective address, in the order of the `rm` field (R102). -/
inductive Base where
  | bxSi | bxDi | bpSi | bpDi | si | di | bp | bx
  deriving DecidableEq, Repr

/-- A ModRM memory operand (R102): mod = 00, 01, 10, and the direct address of mod = 00 with rm = 110. -/
inductive MemOp where
  | base (b : Base)
  | disp8 (b : Base) (d : BitVec 8)
  | disp16 (b : Base) (d : BitVec 16)
  | direct (a : BitVec 16)
  deriving DecidableEq, Repr

/-- An r/m operand (R101): a register (mod = 11) or a memory operand. -/
inductive Rm where
  | reg (r : Reg)
  | mem (m : MemOp)
  deriving DecidableEq, Repr

/-- The `d` bit of R100: `toRm` is d = 0 (reg is the source), `toReg` is d = 1. -/
inductive Dir where
  | toRm
  | toReg
  deriving DecidableEq, Repr

/-- An immediate (R106) with the width it has in the instruction. -/
inductive Imm where
  | byte (v : BitVec 8)
  | word (v : BitVec 16)
  deriving DecidableEq, Repr

/-- The nine operand forms of R138 (80h and its alias 82h are `rmImm` with a byte immediate). -/
inductive AluForm where
  | rmReg (d : Dir) (w : Width) (rm : Rm) (r : Reg)
  | acc (i : Imm)
  | rmImm (alt : Bool) (rm : Rm) (i : Imm)
  | rmImm8s (rm : Rm) (i : BitVec 8)
  deriving DecidableEq, Repr

/-- The operand forms of INC and DEC (R146, R147). -/
inductive IncForm where
  | reg (r : Reg)
  | rm (w : Width) (rm : Rm)
  deriving DecidableEq, Repr

/-- The operand forms of TEST (R166); `alt` is F6h/F7h with reg = 1. -/
inductive TestForm where
  | rmReg (w : Width) (rm : Rm) (r : Reg)
  | acc (i : Imm)
  | rmImm (alt : Bool) (rm : Rm) (i : Imm)
  deriving DecidableEq, Repr

/-- The count of a shift or rotate (R168): 1 (D0h, D1h) or CL (D2h, D3h). -/
inductive ShiftCount where
  | one
  | cl
  deriving DecidableEq, Repr

/-- The port of IN and OUT (R130, R131). -/
inductive PortOp where
  | imm (p : BitVec 8)
  | dx
  deriving DecidableEq, Repr

/-- The instructions (R111).  Eight constructors are the prefix bytes (R108), each decoded and executed as a step of its own
that adds to the prefix set (log entry 5); the last fourteen are the refused encodings of R113. -/
inductive Instr where
  -- prefixes (R108, R217, R220, R221, R222)
  | segEs
  | segCs
  | segSs
  | segDs
  | lock (alt : Bool)
  | repne
  | rep
  | wait
  -- data transfer (R115 to R137)
  | movRmReg (d : Dir) (w : Width) (rm : Rm) (r : Reg)
  | movFromSreg (rm : Rm) (sr : SReg)
  | movToSreg (sr : SReg) (rm : Rm)
  | movMoffs (store : Bool) (w : Width) (off : BitVec 16)
  | movRegImm (r : Reg) (i : Imm)
  | movRmImm (ext : Reg) (rm : Rm) (i : Imm)
  | pushReg (r : Reg)
  | pushSreg (sr : SReg)
  | pushRm (alt : Bool) (rm : Rm)
  | popReg (r : Reg)
  | popSreg (sr : SReg)
  | popRm (ext : Reg) (rm : Rm)
  | pushf
  | popf
  | xchgRm (w : Width) (rm : Rm) (r : Reg)
  | xchgAx (r : Reg)
  | inp (w : Width) (p : PortOp)
  | out (w : Width) (p : PortOp)
  | xlat
  | lea (r : Reg) (m : MemOp)
  | lds (r : Reg) (m : MemOp)
  | les (r : Reg) (m : MemOp)
  | lahf
  | sahf
  -- arithmetic (R138 to R161)
  | add (f : AluForm)
  | adc (f : AluForm)
  | sub (f : AluForm)
  | sbb (f : AluForm)
  | cmp (f : AluForm)
  | inc (f : IncForm)
  | dec (f : IncForm)
  | neg (w : Width) (rm : Rm)
  | mul (w : Width) (rm : Rm)
  | imul (w : Width) (rm : Rm)
  | div (w : Width) (rm : Rm)
  | idiv (w : Width) (rm : Rm)
  | daa
  | das
  | aaa
  | aas
  | aam (i : BitVec 8)
  | aad (i : BitVec 8)
  | cbw
  | cwd
  | salc
  -- logic, shifts and rotates (R162 to R176)
  | and (f : AluForm)
  | or (f : AluForm)
  | xor (f : AluForm)
  | test (f : TestForm)
  | not (w : Width) (rm : Rm)
  | rol (w : Width) (c : ShiftCount) (rm : Rm)
  | ror (w : Width) (c : ShiftCount) (rm : Rm)
  | rcl (w : Width) (c : ShiftCount) (rm : Rm)
  | rcr (w : Width) (c : ShiftCount) (rm : Rm)
  | shl (w : Width) (c : ShiftCount) (rm : Rm)
  | shr (w : Width) (c : ShiftCount) (rm : Rm)
  | setmo (w : Width) (c : ShiftCount) (rm : Rm)
  | sar (w : Width) (c : ShiftCount) (rm : Rm)
  -- strings (R177 to R186)
  | movsb
  | movsw
  | cmpsb
  | cmpsw
  | scasb
  | scasw
  | lodsb
  | lodsw
  | stosb
  | stosw
  -- control transfer (R187 to R208)
  | jmpShort (rel : BitVec 8)
  | jmpNear (rel : BitVec 16)
  | jmpFar (off seg : BitVec 16)
  | jmpRm (rm : Rm)
  | jmpMem (m : MemOp)
  | callNear (rel : BitVec 16)
  | callFar (off seg : BitVec 16)
  | callRm (rm : Rm)
  | callMem (m : MemOp)
  | ret (alt : Bool)
  | retImm (alt : Bool) (n : BitVec 16)
  | retf (alt : Bool)
  | retfImm (alt : Bool) (n : BitVec 16)
  | jo (alt : Bool) (rel : BitVec 8)
  | jno (alt : Bool) (rel : BitVec 8)
  | jb (alt : Bool) (rel : BitVec 8)
  | jae (alt : Bool) (rel : BitVec 8)
  | je (alt : Bool) (rel : BitVec 8)
  | jne (alt : Bool) (rel : BitVec 8)
  | jbe (alt : Bool) (rel : BitVec 8)
  | ja (alt : Bool) (rel : BitVec 8)
  | js (alt : Bool) (rel : BitVec 8)
  | jns (alt : Bool) (rel : BitVec 8)
  | jp (alt : Bool) (rel : BitVec 8)
  | jnp (alt : Bool) (rel : BitVec 8)
  | jl (alt : Bool) (rel : BitVec 8)
  | jge (alt : Bool) (rel : BitVec 8)
  | jle (alt : Bool) (rel : BitVec 8)
  | jg (alt : Bool) (rel : BitVec 8)
  | loop (rel : BitVec 8)
  | loope (rel : BitVec 8)
  | loopne (rel : BitVec 8)
  | jcxz (rel : BitVec 8)
  | int3
  | int (n : BitVec 8)
  | into
  | iret
  -- processor control (R209 to R219)
  | clc
  | stc
  | cmc
  | cld
  | std
  | cli
  | sti
  | hlt
  | esc (op : Reg) (ext : Reg) (rm : Rm)
  | nop
  -- refused encodings (R113)
  | popCs
  | movSregHigh (d : Dir) (n : BitVec 2) (rm : Rm)
  | movCs (rm : Rm)
  | leaRegister (r rm : Reg)
  | lesRegister (r rm : Reg)
  | ldsRegister (r rm : Reg)
  | fe2 (rm : Rm)
  | fe3 (rm : Rm)
  | fe4 (rm : Rm)
  | fe5 (rm : Rm)
  | fe6 (rm : Rm)
  | fe7 (rm : Rm)
  | callRegisterFar (rm : Reg)
  | jmpRegisterFar (rm : Reg)
  deriving DecidableEq, Repr

end Sys2Proof
end

