-- ==== Sys2Proof/Decode.lean ====
section
/-!
DEFINITION. Decode.lean: from the bytes of one instruction to its term (30_encoding.md), and back.
`decode` reads one prefix byte or one unprefixed instruction from the front of a byte list and answers it with the rest.
It is total: every opcode byte and every ModRM byte has a term (R111), the refused encodings of R113 among them, which their
meanings refuse by name; it answers `none` only for a list that ends inside the instruction.
-/
namespace Sys2Proof

/-- A register number from its three bits (R105). -/
def Reg.ofBits (b : BitVec 3) : Reg :=
  match b.toNat with
  | 0 => .r0
  | 1 => .r1
  | 2 => .r2
  | 3 => .r3
  | 4 => .r4
  | 5 => .r5
  | 6 => .r6
  | _ => .r7

/-- The three bits of a register number (R105). -/
def Reg.toBits : Reg → BitVec 3
  | .r0 => 0
  | .r1 => 1
  | .r2 => 2
  | .r3 => 3
  | .r4 => 4
  | .r5 => 5
  | .r6 => 6
  | .r7 => 7

/-- The base an `rm` field of a memory form names (R102), rm = 110 being BP where a displacement follows. -/
def Base.ofReg : Reg → Base
  | .r0 => .bxSi
  | .r1 => .bxDi
  | .r2 => .bpSi
  | .r3 => .bpDi
  | .r4 => .si
  | .r5 => .di
  | .r6 => .bp
  | .r7 => .bx

/-- The `rm` field of a base (R102). -/
def Base.toReg : Base → Reg
  | .bxSi => .r0
  | .bxDi => .r1
  | .bpSi => .r2
  | .bpDi => .r3
  | .si => .r4
  | .di => .r5
  | .bp => .r6
  | .bx => .r7

/-- The segment register of a two-bit field (R105). -/
def SReg.ofBits (b : BitVec 2) : SReg :=
  match b.toNat with
  | 0 => .es
  | 1 => .cs
  | 2 => .ss
  | _ => .ds

/-- The two bits of a segment register (R105). -/
def SReg.toBits : SReg → BitVec 2
  | .es => 0
  | .cs => 1
  | .ss => 2
  | .ds => 3

/-- The three fields of a ModRM byte (R101). -/
def modField (m : Byte) : BitVec 2 := m.extractLsb' 6 2

/-- `reg = modrm[5:3]` (R101). -/
def regField (m : Byte) : BitVec 3 := m.extractLsb' 3 3

/-- `rm = modrm[2:0]` (R101). -/
def rmField (m : Byte) : BitVec 3 := m.extractLsb' 0 3

/-- One immediate or displacement byte (R106). -/
def takeByte : List Byte → Option (Byte × List Byte)
  | [] => none
  | b :: rest => some (b, rest)

/-- A little-endian word of the stream (R106). -/
def takeWord : List Byte → Option (Word × List Byte)
  | lo :: hi :: rest => some (wordOf lo hi, rest)
  | _ => none

/-- An immediate of a given width (R106). -/
def takeImm (w : Width) (bs : List Byte) : Option (Imm × List Byte) :=
  match w with
  | .byte => (takeByte bs).map fun p => (.byte p.1, p.2)
  | .word => (takeWord bs).map fun p => (.word p.1, p.2)

/-- The memory or register operand of a ModRM byte's `mod` and `rm` fields, with its displacement (R101, R102). -/
def parseRm (mode : BitVec 2) (rm : Reg) (bs : List Byte) : Option (Rm × List Byte) :=
  match mode.toNat with
  | 0 =>
    match rm with
    | .r6 => (takeWord bs).map fun p => (.mem (.direct p.1), p.2)
    | _ => some (.mem (.base (Base.ofReg rm)), bs)
  | 1 => (takeByte bs).map fun p => (.mem (.disp8 (Base.ofReg rm) p.1), p.2)
  | 2 => (takeWord bs).map fun p => (.mem (.disp16 (Base.ofReg rm) p.1), p.2)
  | _ => some (.reg rm, bs)

/-- A ModRM byte and its displacement: the `reg` field, the operand, and the rest (R101, R102). -/
def parseModrm : List Byte → Option (Reg × Rm × List Byte)
  | [] => none
  | m :: bs =>
    (parseRm (modField m) (Reg.ofBits (rmField m)) bs).map fun p => (Reg.ofBits (regField m), p.1, p.2)

/-- A format of ModRM alone: build the instruction from the `reg` field and the operand. -/
def withModrm (bs : List Byte) (f : Reg → Rm → Instr) : Option (Instr × List Byte) :=
  (parseModrm bs).map fun p => (f p.1 p.2.1, p.2.2)

/-- A format of ModRM and an immediate, which follows the displacement (R98, R106). -/
def withModrmImm (w : Width) (bs : List Byte) (f : Reg → Rm → Imm → Instr) : Option (Instr × List Byte) :=
  (parseModrm bs).bind fun p => (takeImm w p.2.2).map fun q => (f p.1 p.2.1 q.1, q.2)

/-- A format of one byte after the opcode. -/
def withByte (bs : List Byte) (f : Byte → Instr) : Option (Instr × List Byte) :=
  (takeByte bs).map fun p => (f p.1, p.2)

/-- A format of one word after the opcode. -/
def withWord (bs : List Byte) (f : Word → Instr) : Option (Instr × List Byte) :=
  (takeWord bs).map fun p => (f p.1, p.2)

/-- A format of one immediate of a given width after the opcode. -/
def withImm (w : Width) (bs : List Byte) (f : Imm → Instr) : Option (Instr × List Byte) :=
  (takeImm w bs).map fun p => (f p.1, p.2)

/-- The `far` format (R106): offset, then segment. -/
def withFar (bs : List Byte) (f : Word → Word → Instr) : Option (Instr × List Byte) :=
  (takeWord bs).bind fun p => (takeWord p.2).map fun q => (f p.1 q.1, q.2)

/-- A format of the opcode alone. -/
def plain (bs : List Byte) (i : Instr) : Option (Instr × List Byte) := some (i, bs)

/-- The eight ALU operations in the order of R100(a) and R109, by number. -/
def aluInstr (k : Reg) (f : AluForm) : Instr :=
  match k with
  | .r0 => .add f
  | .r1 => .or f
  | .r2 => .adc f
  | .r3 => .sbb f
  | .r4 => .and f
  | .r5 => .sub f
  | .r6 => .xor f
  | .r7 => .cmp f

/-- The group-2 operations (R109), by the `reg` field. -/
def shiftInstr (w : Width) (c : ShiftCount) (k : Reg) (rm : Rm) : Instr :=
  match k with
  | .r0 => .rol w c rm
  | .r1 => .ror w c rm
  | .r2 => .rcl w c rm
  | .r3 => .rcr w c rm
  | .r4 => .shl w c rm
  | .r5 => .shr w c rm
  | .r6 => .setmo w c rm
  | .r7 => .sar w c rm

/-- The instruction of an F6h/F7h byte by its `reg` field (R109), the TEST forms taking an immediate (R99). -/
def unaryInstr (w : Width) (bs : List Byte) : Option (Instr × List Byte) :=
  (parseModrm bs).bind fun p =>
    match p.1 with
    | .r0 => (takeImm w p.2.2).map fun q => (.test (.rmImm false p.2.1 q.1), q.2)
    | .r1 => (takeImm w p.2.2).map fun q => (.test (.rmImm true p.2.1 q.1), q.2)
    | .r2 => some (.not w p.2.1, p.2.2)
    | .r3 => some (.neg w p.2.1, p.2.2)
    | .r4 => some (.mul w p.2.1, p.2.2)
    | .r5 => some (.imul w p.2.1, p.2.2)
    | .r6 => some (.div w p.2.1, p.2.2)
    | .r7 => some (.idiv w p.2.1, p.2.2)

/-- FEh by its `reg` field (R109, R113). -/
def incDecByte (k : Reg) (rm : Rm) : Instr :=
  match k with
  | .r0 => .inc (.rm .byte rm)
  | .r1 => .dec (.rm .byte rm)
  | .r2 => .fe2 rm
  | .r3 => .fe3 rm
  | .r4 => .fe4 rm
  | .r5 => .fe5 rm
  | .r6 => .fe6 rm
  | .r7 => .fe7 rm

/-- FFh by its `reg` field (R109, R113). -/
def groupFF (k : Reg) (rm : Rm) : Instr :=
  match k with
  | .r0 => .inc (.rm .word rm)
  | .r1 => .dec (.rm .word rm)
  | .r2 => .callRm rm
  | .r3 => match rm with
    | .reg r => .callRegisterFar r
    | .mem m => .callMem m
  | .r4 => .jmpRm rm
  | .r5 => match rm with
    | .reg r => .jmpRegisterFar r
    | .mem m => .jmpMem m
  | .r6 => .pushRm false rm
  | .r7 => .pushRm true rm

/-- Jcc by the low four bits of its opcode (R107), given as the low half and bit 3. -/
def jccInstr (hi : Bool) (c : Reg) (alt : Bool) (rel : BitVec 8) : Instr :=
  match hi, c with
  | false, .r0 => .jo alt rel
  | false, .r1 => .jno alt rel
  | false, .r2 => .jb alt rel
  | false, .r3 => .jae alt rel
  | false, .r4 => .je alt rel
  | false, .r5 => .jne alt rel
  | false, .r6 => .jbe alt rel
  | false, .r7 => .ja alt rel
  | true, .r0 => .js alt rel
  | true, .r1 => .jns alt rel
  | true, .r2 => .jp alt rel
  | true, .r3 => .jnp alt rel
  | true, .r4 => .jl alt rel
  | true, .r5 => .jge alt rel
  | true, .r6 => .jle alt rel
  | true, .r7 => .jg alt rel

/-- An opcode of the blocks 00h-3Fh (R100(a)): the two-operand forms of ALU operation `k`, or the instruction `x6` or `x7`
that the block's opcodes 6 and 7 hold. -/
def aluBlock (k lo : Reg) (x6 x7 : Instr) (bs : List Byte) : Option (Instr × List Byte) :=
  match lo with
  | .r0 => withModrm bs fun r rm => aluInstr k (.rmReg .toRm .byte rm r)
  | .r1 => withModrm bs fun r rm => aluInstr k (.rmReg .toRm .word rm r)
  | .r2 => withModrm bs fun r rm => aluInstr k (.rmReg .toReg .byte rm r)
  | .r3 => withModrm bs fun r rm => aluInstr k (.rmReg .toReg .word rm r)
  | .r4 => withImm .byte bs fun i => aluInstr k (.acc i)
  | .r5 => withImm .word bs fun i => aluInstr k (.acc i)
  | .r6 => plain bs x6
  | .r7 => plain bs x7

/-- Opcodes 80h-87h. -/
def block80 (lo : Reg) (bs : List Byte) : Option (Instr × List Byte) :=
  match lo with
  | .r0 => withModrmImm .byte bs fun k rm i => aluInstr k (.rmImm false rm i)
  | .r1 => withModrmImm .word bs fun k rm i => aluInstr k (.rmImm false rm i)
  | .r2 => withModrmImm .byte bs fun k rm i => aluInstr k (.rmImm true rm i)
  | .r3 => (parseModrm bs).bind fun p => (takeByte p.2.2).map fun q => (aluInstr p.1 (.rmImm8s p.2.1 q.1), q.2)
  | .r4 => withModrm bs fun r rm => .test (.rmReg .byte rm r)
  | .r5 => withModrm bs fun r rm => .test (.rmReg .word rm r)
  | .r6 => withModrm bs fun r rm => .xchgRm .byte rm r
  | .r7 => withModrm bs fun r rm => .xchgRm .word rm r

/-- 8Ch: MOV r/m16, sreg, the `reg` values 4 to 7 refused (R113). -/
def movFromSregInstr (r : Reg) (rm : Rm) : Instr :=
  match r with
  | .r0 => .movFromSreg rm .es
  | .r1 => .movFromSreg rm .cs
  | .r2 => .movFromSreg rm .ss
  | .r3 => .movFromSreg rm .ds
  | .r4 => .movSregHigh .toRm 0 rm
  | .r5 => .movSregHigh .toRm 1 rm
  | .r6 => .movSregHigh .toRm 2 rm
  | .r7 => .movSregHigh .toRm 3 rm

/-- 8Eh: MOV sreg, r/m16, the `reg` values 1 and 4 to 7 refused (R113). -/
def movToSregInstr (r : Reg) (rm : Rm) : Instr :=
  match r with
  | .r0 => .movToSreg .es rm
  | .r1 => .movCs rm
  | .r2 => .movToSreg .ss rm
  | .r3 => .movToSreg .ds rm
  | .r4 => .movSregHigh .toReg 0 rm
  | .r5 => .movSregHigh .toReg 1 rm
  | .r6 => .movSregHigh .toReg 2 rm
  | .r7 => .movSregHigh .toReg 3 rm

/-- Opcodes 88h-8Fh. -/
def block88 (lo : Reg) (bs : List Byte) : Option (Instr × List Byte) :=
  match lo with
  | .r0 => withModrm bs fun r rm => .movRmReg .toRm .byte rm r
  | .r1 => withModrm bs fun r rm => .movRmReg .toRm .word rm r
  | .r2 => withModrm bs fun r rm => .movRmReg .toReg .byte rm r
  | .r3 => withModrm bs fun r rm => .movRmReg .toReg .word rm r
  | .r4 => withModrm bs movFromSregInstr
  | .r5 => withModrm bs fun r rm => match rm with | .reg q => .leaRegister r q | .mem m => .lea r m
  | .r6 => withModrm bs movToSregInstr
  | .r7 => withModrm bs fun r rm => .popRm r rm

/-- Opcodes 90h-97h (R129, R219). -/
def block90 (lo : Reg) (bs : List Byte) : Option (Instr × List Byte) :=
  match lo with
  | .r0 => plain bs .nop
  | .r1 => plain bs (.xchgAx .r1)
  | .r2 => plain bs (.xchgAx .r2)
  | .r3 => plain bs (.xchgAx .r3)
  | .r4 => plain bs (.xchgAx .r4)
  | .r5 => plain bs (.xchgAx .r5)
  | .r6 => plain bs (.xchgAx .r6)
  | .r7 => plain bs (.xchgAx .r7)

/-- Opcodes 98h-9Fh. -/
def block98 (lo : Reg) (bs : List Byte) : Option (Instr × List Byte) :=
  match lo with
  | .r0 => plain bs .cbw
  | .r1 => plain bs .cwd
  | .r2 => withFar bs .callFar
  | .r3 => plain bs .wait
  | .r4 => plain bs .pushf
  | .r5 => plain bs .popf
  | .r6 => plain bs .sahf
  | .r7 => plain bs .lahf

/-- Opcodes A0h-A7h. -/
def blockA0 (lo : Reg) (bs : List Byte) : Option (Instr × List Byte) :=
  match lo with
  | .r0 => withWord bs (.movMoffs false .byte)
  | .r1 => withWord bs (.movMoffs false .word)
  | .r2 => withWord bs (.movMoffs true .byte)
  | .r3 => withWord bs (.movMoffs true .word)
  | .r4 => plain bs .movsb
  | .r5 => plain bs .movsw
  | .r6 => plain bs .cmpsb
  | .r7 => plain bs .cmpsw

/-- Opcodes A8h-AFh. -/
def blockA8 (lo : Reg) (bs : List Byte) : Option (Instr × List Byte) :=
  match lo with
  | .r0 => withImm .byte bs fun i => .test (.acc i)
  | .r1 => withImm .word bs fun i => .test (.acc i)
  | .r2 => plain bs .stosb
  | .r3 => plain bs .stosw
  | .r4 => plain bs .lodsb
  | .r5 => plain bs .lodsw
  | .r6 => plain bs .scasb
  | .r7 => plain bs .scasw

/-- Opcodes C0h-C7h (R112: C0h and C1h are C2h and C3h). -/
def blockC0 (lo : Reg) (bs : List Byte) : Option (Instr × List Byte) :=
  match lo with
  | .r0 => withWord bs (.retImm true)
  | .r1 => plain bs (.ret true)
  | .r2 => withWord bs (.retImm false)
  | .r3 => plain bs (.ret false)
  | .r4 => withModrm bs fun r rm => match rm with | .reg q => .lesRegister r q | .mem m => .les r m
  | .r5 => withModrm bs fun r rm => match rm with | .reg q => .ldsRegister r q | .mem m => .lds r m
  | .r6 => withModrmImm .byte bs .movRmImm
  | .r7 => withModrmImm .word bs .movRmImm

/-- Opcodes C8h-CFh (R112: C8h and C9h are CAh and CBh). -/
def blockC8 (lo : Reg) (bs : List Byte) : Option (Instr × List Byte) :=
  match lo with
  | .r0 => withWord bs (.retfImm true)
  | .r1 => plain bs (.retf true)
  | .r2 => withWord bs (.retfImm false)
  | .r3 => plain bs (.retf false)
  | .r4 => plain bs .int3
  | .r5 => withByte bs .int
  | .r6 => plain bs .into
  | .r7 => plain bs .iret

/-- Opcodes D0h-D7h. -/
def blockD0 (lo : Reg) (bs : List Byte) : Option (Instr × List Byte) :=
  match lo with
  | .r0 => withModrm bs (shiftInstr .byte .one)
  | .r1 => withModrm bs (shiftInstr .word .one)
  | .r2 => withModrm bs (shiftInstr .byte .cl)
  | .r3 => withModrm bs (shiftInstr .word .cl)
  | .r4 => withByte bs .aam
  | .r5 => withByte bs .aad
  | .r6 => plain bs .salc
  | .r7 => plain bs .xlat

/-- Opcodes E0h-E7h. -/
def blockE0 (lo : Reg) (bs : List Byte) : Option (Instr × List Byte) :=
  match lo with
  | .r0 => withByte bs .loopne
  | .r1 => withByte bs .loope
  | .r2 => withByte bs .loop
  | .r3 => withByte bs .jcxz
  | .r4 => withByte bs fun p => .inp .byte (.imm p)
  | .r5 => withByte bs fun p => .inp .word (.imm p)
  | .r6 => withByte bs fun p => .out .byte (.imm p)
  | .r7 => withByte bs fun p => .out .word (.imm p)

/-- Opcodes E8h-EFh. -/
def blockE8 (lo : Reg) (bs : List Byte) : Option (Instr × List Byte) :=
  match lo with
  | .r0 => withWord bs .callNear
  | .r1 => withWord bs .jmpNear
  | .r2 => withFar bs .jmpFar
  | .r3 => withByte bs .jmpShort
  | .r4 => plain bs (.inp .byte .dx)
  | .r5 => plain bs (.inp .word .dx)
  | .r6 => plain bs (.out .byte .dx)
  | .r7 => plain bs (.out .word .dx)

/-- Opcodes F0h-F7h. -/
def blockF0 (lo : Reg) (bs : List Byte) : Option (Instr × List Byte) :=
  match lo with
  | .r0 => plain bs (.lock false)
  | .r1 => plain bs (.lock true)
  | .r2 => plain bs .repne
  | .r3 => plain bs .rep
  | .r4 => plain bs .hlt
  | .r5 => plain bs .cmc
  | .r6 => unaryInstr .byte bs
  | .r7 => unaryInstr .word bs

/-- Opcodes F8h-FFh. -/
def blockF8 (lo : Reg) (bs : List Byte) : Option (Instr × List Byte) :=
  match lo with
  | .r0 => plain bs .clc
  | .r1 => plain bs .stc
  | .r2 => plain bs .cli
  | .r3 => plain bs .sti
  | .r4 => plain bs .cld
  | .r5 => plain bs .std
  | .r6 => withModrm bs incDecByte
  | .r7 => withModrm bs groupFF

/-- The opcode map (R111) by the opcode's bits 7:3 and 2:0. -/
def decodeOpcode (op : Byte) (bs : List Byte) : Option (Instr × List Byte) :=
  let lo := Reg.ofBits (op.extractLsb' 0 3)
  match (op.extractLsb' 3 5).toNat with
  | 0 => aluBlock .r0 lo (.pushSreg .es) (.popSreg .es) bs
  | 1 => aluBlock .r1 lo (.pushSreg .cs) .popCs bs
  | 2 => aluBlock .r2 lo (.pushSreg .ss) (.popSreg .ss) bs
  | 3 => aluBlock .r3 lo (.pushSreg .ds) (.popSreg .ds) bs
  | 4 => aluBlock .r4 lo .segEs .daa bs
  | 5 => aluBlock .r5 lo .segCs .das bs
  | 6 => aluBlock .r6 lo .segSs .aaa bs
  | 7 => aluBlock .r7 lo .segDs .aas bs
  | 8 => plain bs (.inc (.reg lo))
  | 9 => plain bs (.dec (.reg lo))
  | 10 => plain bs (.pushReg lo)
  | 11 => plain bs (.popReg lo)
  | 12 => withByte bs (jccInstr false lo true)
  | 13 => withByte bs (jccInstr true lo true)
  | 14 => withByte bs (jccInstr false lo false)
  | 15 => withByte bs (jccInstr true lo false)
  | 16 => block80 lo bs
  | 17 => block88 lo bs
  | 18 => block90 lo bs
  | 19 => block98 lo bs
  | 20 => blockA0 lo bs
  | 21 => blockA8 lo bs
  | 22 => withImm .byte bs (.movRegImm lo)
  | 23 => withImm .word bs (.movRegImm lo)
  | 24 => blockC0 lo bs
  | 25 => blockC8 lo bs
  | 26 => blockD0 lo bs
  | 27 => withModrm bs (.esc lo)
  | 28 => blockE0 lo bs
  | 29 => blockE8 lo bs
  | 30 => blockF0 lo bs
  | _ => blockF8 lo bs

/-- Decode one prefix byte or one unprefixed instruction from the front of a byte list (R82, R98). -/
def decode : List Byte → Option (Instr × List Byte)
  | [] => none
  | op :: bs => decodeOpcode op bs

/-! ### Length (R99) and template index (R83) -/

/-- The displacement bytes a ModRM byte adds (R99, R102). -/
def dispLength (m : Byte) : Nat :=
  match (modField m).toNat with
  | 0 => if rmField m = 6 then 2 else 0
  | 1 => 1
  | 2 => 2
  | _ => 0

/-- The fixed part of an opcode's length and whether a ModRM byte follows (R98's table over R111's map). -/
def opcodeFormat (op : Byte) : Nat × Bool :=
  let n := op.toNat
  if n < 0x40 then
    (match n % 8 with | 0 => (2, true) | 1 => (2, true) | 2 => (2, true) | 3 => (2, true) | 4 => (2, false) | 5 => (3, false) | _ => (1, false))
  else if n < 0x60 then (1, false)
  else if n < 0x80 then (2, false)
  else if n < 0x90 then
    (match n with | 0x80 => (3, true) | 0x81 => (4, true) | 0x82 => (3, true) | 0x83 => (3, true) | _ => (2, true))
  else if n < 0xA0 then (if n = 0x9A then (5, false) else (1, false))
  else if n < 0xA4 then (3, false)
  else if n < 0xA8 then (1, false)
  else if n < 0xB0 then (match n with | 0xA8 => (2, false) | 0xA9 => (3, false) | _ => (1, false))
  else if n < 0xB8 then (2, false)
  else if n < 0xC0 then (3, false)
  else if n < 0xD0 then
    (match n with
      | 0xC0 => (3, false) | 0xC2 => (3, false) | 0xC4 => (2, true) | 0xC5 => (2, true) | 0xC6 => (3, true) | 0xC7 => (4, true)
      | 0xC8 => (3, false) | 0xCA => (3, false) | 0xCD => (2, false) | _ => (1, false))
  else if n < 0xD4 then (2, true)
  else if n < 0xD6 then (2, false)
  else if n < 0xD8 then (1, false)
  else if n < 0xE0 then (2, true)
  else if n < 0xE8 then (2, false)
  else if n < 0xF0 then
    (match n with | 0xE8 => (3, false) | 0xE9 => (3, false) | 0xEA => (5, false) | 0xEB => (2, false) | _ => (1, false))
  else (match n with | 0xF6 => (2, true) | 0xF7 => (2, true) | 0xFE => (2, true) | 0xFF => (2, true) | _ => (1, false))

/-- R99: the length, prefixes apart, of the instruction whose opcode byte is `op` and whose next byte is `m` (read as a ModRM
byte only where the opcode has one); TEST of F6h and F7h adds its immediate. -/
def insnLength (op m : Byte) : Nat :=
  let fmt := opcodeFormat op
  let test := if (regField m).toNat < 2 then (if op = 0xF6 then 1 else if op = 0xF7 then 2 else 0) else 0
  if fmt.2 then fmt.1 + dispLength m + test else fmt.1

/-- The group number of an opcode (R83, R109), none for an opcode that is not a group. -/
def groupNumber (op : Byte) : Option Nat :=
  match op.toNat with
  | 0x80 => some 1
  | 0x81 => some 2
  | 0x82 => some 3
  | 0x83 => some 4
  | 0xD0 => some 5
  | 0xD1 => some 6
  | 0xD2 => some 7
  | 0xD3 => some 8
  | 0xF6 => some 9
  | 0xF7 => some 10
  | 0xFE => some 11
  | 0xFF => some 12
  | _ => none

/-- The decode index of R34, R83: the opcode, or `256 + 8 (g - 1) + reg` for a group opcode. -/
def templateIndex (op m : Byte) : Nat :=
  match groupNumber op with
  | none => op.toNat
  | some g => 256 + 8 * (g - 1) + (regField m).toNat

/-! ### The encoder (from the tables of R100 to R111) -/

/-- The bit of a width (R100(e)). -/
def Width.bit : Width → Nat
  | .byte => 0
  | .word => 1

/-- The `d` bit (R100(a)). -/
def Dir.bit : Dir → Nat
  | .toRm => 0
  | .toReg => 1

/-- An opcode byte from its number. -/
def opByte (n : Nat) : Byte := BitVec.ofNat 8 n

/-- The two bytes of a word, low first (R43). -/
def encodeWord (v : Word) : List Byte := [loByte v, hiByte v]

/-- The bytes of an immediate (R106). -/
def encodeImm : Imm → List Byte
  | .byte v => [v]
  | .word v => encodeWord v

/-- The width an immediate has. -/
def Imm.width : Imm → Width
  | .byte _ => .byte
  | .word _ => .word

/-- A ModRM byte from its fields (R101). -/
def modrmByte (mode : BitVec 2) (reg rm : Reg) : Byte := (mode ++ reg.toBits ++ rm.toBits : BitVec 8)

/-- A memory operand as ModRM and displacement (R102). -/
def encodeMem (reg : Reg) : MemOp → List Byte
  | .base b => [modrmByte 0 reg b.toReg]
  | .disp8 b d => [modrmByte 1 reg b.toReg, d]
  | .disp16 b d => modrmByte 2 reg b.toReg :: encodeWord d
  | .direct a => modrmByte 0 reg .r6 :: encodeWord a

/-- An r/m operand as ModRM and displacement (R101, R102). -/
def encodeRm (reg : Reg) : Rm → List Byte
  | .reg r => [modrmByte 3 reg r]
  | .mem m => encodeMem reg m

/-- The number of a register (R105). -/
def Reg.num (r : Reg) : Nat := r.toBits.toNat

/-- The number of a segment register (R105). -/
def SReg.num (s : SReg) : Nat := s.toBits.toNat

/-- The nine encodings of ALU operation `k` (R138). -/
def encodeAlu (k : Reg) : AluForm → List Byte
  | .rmReg d w rm r => opByte (8 * k.num + 2 * d.bit + w.bit) :: encodeRm r rm
  | .acc i => opByte (8 * k.num + 4 + i.width.bit) :: encodeImm i
  | .rmImm alt rm i => opByte (0x80 + (if alt then 2 else 0) + i.width.bit) :: (encodeRm k rm ++ encodeImm i)
  | .rmImm8s rm i => 0x83 :: (encodeRm k rm ++ [i])

/-- INC (`k` = 0) and DEC (`k` = 1) (R146, R147). -/
def encodeInc (k : Reg) : IncForm → List Byte
  | .reg r => [opByte (0x40 + 8 * k.num + r.num)]
  | .rm w rm => opByte (0xFE + w.bit) :: encodeRm k rm

/-- TEST (R166). -/
def encodeTest : TestForm → List Byte
  | .rmReg w rm r => opByte (0x84 + w.bit) :: encodeRm r rm
  | .acc i => opByte (0xA8 + i.width.bit) :: encodeImm i
  | .rmImm alt rm i => opByte (0xF6 + i.width.bit) :: (encodeRm (if alt then .r1 else .r0) rm ++ encodeImm i)

/-- F6h/F7h with extension `k` (R109). -/
def encodeUnary (k : Reg) (w : Width) (rm : Rm) : List Byte := opByte (0xF6 + w.bit) :: encodeRm k rm

/-- D0h-D3h with extension `k` (R109). -/
def encodeShift (k : Reg) (w : Width) (c : ShiftCount) (rm : Rm) : List Byte :=
  opByte (0xD0 + (match c with | .one => 0 | .cl => 2) + w.bit) :: encodeRm k rm

/-- Jcc with condition `c` (R107). -/
def encodeJcc (c : Nat) (alt : Bool) (rel : BitVec 8) : List Byte := [opByte ((if alt then 0x60 else 0x70) + c), rel]

/-- IN and OUT (R130, R131): `o` is 0 for IN and 2 for OUT. -/
def encodePort (o : Nat) (w : Width) : PortOp → List Byte
  | .imm p => [opByte (0xE4 + o + w.bit), p]
  | .dx => [opByte (0xEC + o + w.bit)]

/-- The bytes of a well-formed instruction (R98 to R113). -/
def encode : Instr → List Byte
  | .segEs => [0x26]
  | .segCs => [0x2E]
  | .segSs => [0x36]
  | .segDs => [0x3E]
  | .lock alt => [if alt then 0xF1 else 0xF0]
  | .repne => [0xF2]
  | .rep => [0xF3]
  | .wait => [0x9B]
  | .movRmReg d w rm r => opByte (0x88 + 2 * d.bit + w.bit) :: encodeRm r rm
  | .movFromSreg rm sr => 0x8C :: encodeRm (Reg.ofBits (sr.toBits.zeroExtend 3)) rm
  | .movToSreg sr rm => 0x8E :: encodeRm (Reg.ofBits (sr.toBits.zeroExtend 3)) rm
  | .movMoffs store w off => opByte (0xA0 + (if store then 2 else 0) + w.bit) :: encodeWord off
  | .movRegImm r i => opByte (0xB0 + 8 * i.width.bit + r.num) :: encodeImm i
  | .movRmImm ext rm i => opByte (0xC6 + i.width.bit) :: (encodeRm ext rm ++ encodeImm i)
  | .pushReg r => [opByte (0x50 + r.num)]
  | .pushSreg sr => [opByte (0x06 + 8 * sr.num)]
  | .pushRm alt rm => 0xFF :: encodeRm (if alt then .r7 else .r6) rm
  | .popReg r => [opByte (0x58 + r.num)]
  | .popSreg sr => [opByte (0x07 + 8 * sr.num)]
  | .popRm ext rm => 0x8F :: encodeRm ext rm
  | .pushf => [0x9C]
  | .popf => [0x9D]
  | .xchgRm w rm r => opByte (0x86 + w.bit) :: encodeRm r rm
  | .xchgAx r => [opByte (0x90 + r.num)]
  | .inp w p => encodePort 0 w p
  | .out w p => encodePort 2 w p
  | .xlat => [0xD7]
  | .lea r m => 0x8D :: encodeMem r m
  | .lds r m => 0xC5 :: encodeMem r m
  | .les r m => 0xC4 :: encodeMem r m
  | .lahf => [0x9F]
  | .sahf => [0x9E]
  | .add f => encodeAlu .r0 f
  | .adc f => encodeAlu .r2 f
  | .sub f => encodeAlu .r5 f
  | .sbb f => encodeAlu .r3 f
  | .cmp f => encodeAlu .r7 f
  | .inc f => encodeInc .r0 f
  | .dec f => encodeInc .r1 f
  | .neg w rm => encodeUnary .r3 w rm
  | .mul w rm => encodeUnary .r4 w rm
  | .imul w rm => encodeUnary .r5 w rm
  | .div w rm => encodeUnary .r6 w rm
  | .idiv w rm => encodeUnary .r7 w rm
  | .daa => [0x27]
  | .das => [0x2F]
  | .aaa => [0x37]
  | .aas => [0x3F]
  | .aam i => [0xD4, i]
  | .aad i => [0xD5, i]
  | .cbw => [0x98]
  | .cwd => [0x99]
  | .salc => [0xD6]
  | .and f => encodeAlu .r4 f
  | .or f => encodeAlu .r1 f
  | .xor f => encodeAlu .r6 f
  | .test f => encodeTest f
  | .not w rm => encodeUnary .r2 w rm
  | .rol w c rm => encodeShift .r0 w c rm
  | .ror w c rm => encodeShift .r1 w c rm
  | .rcl w c rm => encodeShift .r2 w c rm
  | .rcr w c rm => encodeShift .r3 w c rm
  | .shl w c rm => encodeShift .r4 w c rm
  | .shr w c rm => encodeShift .r5 w c rm
  | .setmo w c rm => encodeShift .r6 w c rm
  | .sar w c rm => encodeShift .r7 w c rm
  | .movsb => [0xA4]
  | .movsw => [0xA5]
  | .cmpsb => [0xA6]
  | .cmpsw => [0xA7]
  | .scasb => [0xAE]
  | .scasw => [0xAF]
  | .lodsb => [0xAC]
  | .lodsw => [0xAD]
  | .stosb => [0xAA]
  | .stosw => [0xAB]
  | .jmpShort rel => [0xEB, rel]
  | .jmpNear rel => 0xE9 :: encodeWord rel
  | .jmpFar off seg => 0xEA :: (encodeWord off ++ encodeWord seg)
  | .jmpRm rm => 0xFF :: encodeRm .r4 rm
  | .jmpMem m => 0xFF :: encodeMem .r5 m
  | .callNear rel => 0xE8 :: encodeWord rel
  | .callFar off seg => 0x9A :: (encodeWord off ++ encodeWord seg)
  | .callRm rm => 0xFF :: encodeRm .r2 rm
  | .callMem m => 0xFF :: encodeMem .r3 m
  | .ret alt => [if alt then 0xC1 else 0xC3]
  | .retImm alt n => (if alt then 0xC0 else 0xC2) :: encodeWord n
  | .retf alt => [if alt then 0xC9 else 0xCB]
  | .retfImm alt n => (if alt then 0xC8 else 0xCA) :: encodeWord n
  | .jo alt rel => encodeJcc 0 alt rel
  | .jno alt rel => encodeJcc 1 alt rel
  | .jb alt rel => encodeJcc 2 alt rel
  | .jae alt rel => encodeJcc 3 alt rel
  | .je alt rel => encodeJcc 4 alt rel
  | .jne alt rel => encodeJcc 5 alt rel
  | .jbe alt rel => encodeJcc 6 alt rel
  | .ja alt rel => encodeJcc 7 alt rel
  | .js alt rel => encodeJcc 8 alt rel
  | .jns alt rel => encodeJcc 9 alt rel
  | .jp alt rel => encodeJcc 10 alt rel
  | .jnp alt rel => encodeJcc 11 alt rel
  | .jl alt rel => encodeJcc 12 alt rel
  | .jge alt rel => encodeJcc 13 alt rel
  | .jle alt rel => encodeJcc 14 alt rel
  | .jg alt rel => encodeJcc 15 alt rel
  | .loop rel => [0xE2, rel]
  | .loope rel => [0xE1, rel]
  | .loopne rel => [0xE0, rel]
  | .jcxz rel => [0xE3, rel]
  | .int3 => [0xCC]
  | .int n => [0xCD, n]
  | .into => [0xCE]
  | .iret => [0xCF]
  | .clc => [0xF8]
  | .stc => [0xF9]
  | .cmc => [0xF5]
  | .cld => [0xFC]
  | .std => [0xFD]
  | .cli => [0xFA]
  | .sti => [0xFB]
  | .hlt => [0xF4]
  | .esc op ext rm => opByte (0xD8 + op.num) :: encodeRm ext rm
  | .nop => [0x90]
  | .popCs => [0x0F]
  | .movSregHigh d n rm =>
    (match d with | .toRm => 0x8C | .toReg => 0x8E) :: encodeRm (Reg.ofBits ((1 : BitVec 1) ++ n : BitVec 3)) rm
  | .movCs rm => 0x8E :: encodeRm .r1 rm
  | .leaRegister r rm => [0x8D, modrmByte 3 r rm]
  | .lesRegister r rm => [0xC4, modrmByte 3 r rm]
  | .ldsRegister r rm => [0xC5, modrmByte 3 r rm]
  | .fe2 rm => 0xFE :: encodeRm .r2 rm
  | .fe3 rm => 0xFE :: encodeRm .r3 rm
  | .fe4 rm => 0xFE :: encodeRm .r4 rm
  | .fe5 rm => 0xFE :: encodeRm .r5 rm
  | .fe6 rm => 0xFE :: encodeRm .r6 rm
  | .fe7 rm => 0xFE :: encodeRm .r7 rm
  | .callRegisterFar rm => [0xFF, modrmByte 3 .r3 rm]
  | .jmpRegisterFar rm => [0xFF, modrmByte 3 .r5 rm]

/-! ### The host's view of a table word -/

/-- The bytes of an instruction of `nbits` bits given as the number `w` in the table's numbering, followed by zeros up to the
longest unprefixed instruction (6 bytes).  R111: the table's word is 16 bits wide, "bits 15:8 are the opcode byte and bits 7:0
the byte after it", so the first byte in memory is bits 15:8; a word of at most 8 bits is the opcode byte alone. -/
def tableBytes (nbits w : Nat) : List Byte :=
  let b (k : Nat) : Byte := BitVec.ofNat 8 (w / 2 ^ k)
  if nbits ≤ 8 then [b 0, 0, 0, 0, 0, 0]
  else if nbits ≤ 16 then [b 8, b 0, 0, 0, 0, 0]
  else [b 8, b 0, b 24, b 16, b 40, b 32]

/-- The instruction the decoder reads from a table word (R111). -/
def decodeTableWord (nbits w : Nat) : Option Instr := (decode (tableBytes nbits w)).map Prod.fst

end Sys2Proof
end

