-- ==== Sys2Proof/Config.lean ====
section
/-!
DEFINITION. Config.lean: the implementation parameters of 00_scope.md R5 and the free values (R11 `draw()`).
The parameters a machine is created with stand in one record, which State holds, so that a statement over every state
is a statement over every admitted value of them.  The free values are opaque: no proof can see one.
-/
namespace Sys2Proof

/-- `CPU_MODEL` (R5, R6). -/
inductive CpuModel where
  | i8088
  | i8086
  deriving DecidableEq, Repr

/-- `VIDEO_ADAPTER` (R5, R268).  An EGA or VGA configuration is refused by R268: it has no constructor. -/
inductive VideoAdapter where
  | cga
  | mda
  deriving DecidableEq, Repr

/-- `REP_RESUME` (R5, R185). -/
inductive RepResume where
  | firstPrefix
  | lastPrefix
  deriving DecidableEq, Repr

/-- `BCD_AF_LIMIT` (R5, R153): 99h or 9Fh. -/
inductive BcdLimit where
  | x99
  | x9F
  deriving DecidableEq, Repr

/-- A window into the framebuffer field (R294). -/
structure Rect where
  x : Nat
  y : Nat
  w : Nat
  h : Nat
  deriving DecidableEq, Repr

/-- One part of the function `WAIT_STATES(space, address)` (R5, R71): the wait states of the addresses `first` to `last` of a space. -/
structure WaitRange where
  io : Bool
  first : Nat
  last : Nat
  count : Nat
  deriving DecidableEq, Repr

/-- `BIU_TRANSITION_DELAY(from, to)` (R5, R74) between the three owners of the bus. -/
structure BiuDelays where
  idleToEu : Nat
  prefetchToEu : Nat
  idleToPrefetch : Nat
  euToPrefetch : Nat
  euToIdle : Nat
  prefetchToIdle : Nat
  deriving DecidableEq, Repr

/-- The implementation parameters of R5.  `fontRom` is `FONT_ROM` as (64 * char + row, 8 dots) pairs, an unlisted row being blank;
`cgaFbW` and `cgaFbH` are the CGA's `FB_W` and `FB_H`, the MDA's being fixed; the other fields are the parameters of the same
names.  The timed layer's are `cpuClockHz` (`CPU_CLOCK_HZ`), `haltResume` (`HALT_RESUME_DELAY`), `waits` (`WAIT_STATES`: the first range
that holds an address counts, 0 where none does, so that every function of the two spaces is such a list), `biuDelays` (`BIU_TRANSITION_DELAY`), `fetchAbort` (the n of Aborting(n), a part of
`FETCH_SCHEDULE`, R75) and `dmaHold` (how long the DMA controller holds the bus for a byte, R77; log entry 35). -/
structure Config where
  cpuModel : CpuModel
  resetCs : Word
  resetIp : Word
  ramSize : Nat
  repResume : RepResume
  stiInhibit : Bool
  bcdAfLimit : BcdLimit
  videoAdapter : VideoAdapter
  cgaFbW : Nat
  cgaFbH : Nat
  debugDraw : Bool
  debugColor : Byte
  apertureAccurate : Rect
  syncWidth : Nat
  vblankHeight : Nat
  fontRom : List (Nat × BitVec 8)
  cursorBlinkFrames : Nat
  driveCount : Nat
  cpuClockHz : Nat
  haltResume : Nat
  waits : List WaitRange
  biuDelays : BiuDelays
  fetchAbort : Nat
  dmaHold : Nat
  deriving DecidableEq, Repr

/-- R5's defaults.  Where R5 marks a parameter OPEN the value here is the model's (DESIGN CHOICE, log entry 3). -/
def Config.default : Config where
  cpuModel := .i8088
  resetCs := 0xFFFF
  resetIp := 0x0000
  ramSize := 0xA0000
  repResume := .firstPrefix
  stiInhibit := true
  bcdAfLimit := .x99
  videoAdapter := .cga
  cgaFbW := 912
  cgaFbH := 262
  debugDraw := false
  debugColor := 0
  apertureAccurate := ⟨0, 0, 912, 262⟩
  syncWidth := 10
  vblankHeight := 16
  fontRom := []
  cursorBlinkFrames := 8
  driveCount := 1
  cpuClockHz := 4772727
  haltResume := 4
  waits := []
  biuDelays := ⟨0, 0, 0, 0, 0, 0⟩
  fetchAbort := 0
  dmaHold := 4

/-- The admitted values of R5's parameters. -/
abbrev Config.Admitted (c : Config) : Prop :=
  1 ≤ c.ramSize ∧ c.ramSize ≤ 0xA0000 ∧ 6 ≤ c.syncWidth ∧ c.syncWidth ≤ 16 ∧ 1 ≤ c.vblankHeight ∧
    1 ≤ c.cursorBlinkFrames ∧ 1 ≤ c.driveCount ∧ c.driveCount ≤ 4 ∧ c.cpuClockHz ∈ [4772727, 8000000, 14318180] ∧
    4 ≤ c.haltResume ∧ c.haltResume ≤ 7 ∧ 1 ≤ c.dmaHold

/-- `QUEUE_MAX` (R6): fixed by the CPU model. -/
def Config.queueMax (c : Config) : Nat :=
  match c.cpuModel with
  | .i8088 => 4
  | .i8086 => 6

/-- `BUS_WIDTH` (R6). -/
def Config.busWidth (c : Config) : Nat :=
  match c.cpuModel with
  | .i8088 => 8
  | .i8086 => 16

/-- `FB_W` (R5, R293): 882 on the MDA. -/
def Config.fbW (c : Config) : Nat :=
  match c.videoAdapter with
  | .mda => 882
  | .cga => c.cgaFbW

/-- `FB_H` (R5, R293): 369 on the MDA. -/
def Config.fbH (c : Config) : Nat :=
  match c.videoAdapter with
  | .mda => 369
  | .cga => c.cgaFbH

/-- `DOT_CLOCK_HZ` (R5, R279): fixed by the adapter. -/
def Config.dotClockHz (c : Config) : Nat :=
  match c.videoAdapter with
  | .cga => 14318180
  | .mda => 16257000

/-- The dots of one CPU cycle as a fraction (R279): `DOT_CLOCK_HZ / CPU_CLOCK_HZ`, and exactly 3 with the CGA and 4 772 727 Hz, a third
of its dot clock (log entry 10). -/
def Config.dotsPerCycle (c : Config) : Nat × Nat :=
  if c.videoAdapter = .cga ∧ c.cpuClockHz = 4772727 then (3, 1) else (c.dotClockHz, c.cpuClockHz)

/-- `MAX_PREFIXES` (R5). -/
def maxPrefixes : Nat := 4

/-- `MAX_INSN_LEN` (R5). -/
def maxInsnLen : Nat := 15

/-- `DMA_DROPOUT` (R5, R265). -/
def dmaDropout : Nat := 3

/-- `RESET_CYCLES` (R5, R325). -/
def resetCycles : Nat := 6

/-- `FETCH_DELAY` (R5, R76). -/
def fetchDelay : Nat := 2

/-- `FLUSH_PENALTY` (R5, R66). -/
def flushPenalty : Nat := 2

/-- `CORR_CYCLES` (R5, R91). -/
def corrCycles : Nat := 2

/-- Free bit number `n` (R11 `draw()`, one bit): an undefined flag (R168, D40).  No body, no law. -/
opaque Config.freeBit : Nat → Bool

/-- Free byte number `n` (R11 `draw()`): a read no device answers (R48, R54, R308).  No body, no law. -/
opaque Config.freeByte : Nat → BitVec 8

/-- Free word number `n` (R11 `draw()`): a register after a reset step (R37, R254).  No body, no law. -/
opaque Config.freeWord : Nat → BitVec 16

end Sys2Proof
end

