-- ==== Sys2Proof/Machine/State.lean ====
section
/-!
DEFINITION. State.lean: every piece of state the spec gives the machine, as plain data, and the state after reset.
The CPU's registers are 10_state.md, the bus unit's 21_biu_queue.md, memory 20_memory.md, the devices 61 to 64, what the host
holds 80_host_interface.md.
-/
namespace Sys2Proof.Machine

/-! ### CPU registers (R17 to R27) -/

/-- The eight general registers (R17, R18), the byte halves being views of the first four. -/
structure Regs where
  ax : Word
  cx : Word
  dx : Word
  bx : Word
  sp : Word
  bp : Word
  si : Word
  di : Word
  deriving DecidableEq, Repr

/-- The four segment registers (R20). -/
structure SRegs where
  es : Word
  cs : Word
  ss : Word
  ds : Word
  deriving DecidableEq, Repr

/-- The nine flags of FLAGS (R25).  The reserved bits are forced on every write (R26), so they are no state: the word is
`Flags.toWord` of Flags.lean. -/
structure Flags where
  cf : Bool
  pf : Bool
  af : Bool
  zf : Bool
  sf : Bool
  tf : Bool
  if_ : Bool
  df : Bool
  of_ : Bool
  deriving DecidableEq, Repr

/-! ### Bus interface unit (R21, R29, R31) -/

/-- `biu_state` (R31, R74). -/
inductive BiuState where
  | idle
  | toEu (n : Nat)
  | eu
  | toPrefetch (n : Nat)
  | prefetch
  | toIdle (n : Nat)
  deriving DecidableEq, Repr

/-- `t_cycle` (R31, R70). -/
inductive TCycle where
  | ti | t1 | t2 | t3 | tw | t4
  deriving DecidableEq, Repr

/-- `fetch_state` (R31, R75). -/
inductive FetchState where
  | idle
  | scheduled (n : Nat)
  | inProgress
  | delayed (n : Nat)
  | delayDone
  | aborting (n : Nat)
  | suspended
  | blockedByEu
  deriving DecidableEq, Repr

/-- The bus status (R72). -/
inductive BusStatus where
  | inta | ioRead | ioWrite | halt | codeFetch | memRead | memWrite | passive
  deriving DecidableEq, Repr

/-- The bus interface unit: PC (R21), the prefetch queue, head first (R29), the fields of R31, and the LOCK output (R79, R220).  The
timed layer's clock stands here too: `cycle_count` (R35) and `mc_pc` (R32), which a tick advances (R80).  `fresh` and `delay` are the
model's own fields (log entry 27): how many bytes at the end of the queue become available in the next cycle (R73), and the cycles for
which an event still to be counted holds back the next fetch (R66, R76). -/
structure Biu where
  pc : Word
  queue : List Byte
  state : BiuState
  tCycle : TCycle
  fetchState : FetchState
  busAddr : Phys
  busStatus : BusStatus
  busWait : Nat
  dmaWait : Nat
  lock : Bool
  fresh : Nat
  delay : Nat
  cycleCount : Nat
  mcPc : Nat
  deriving DecidableEq, Repr

/-! ### Execution unit (R32 to R35) -/

/-- `rep_type` (R32, R97). -/
inductive RepType where
  | none | rep | repne | repe
  deriving DecidableEq, Repr

/-- The prefix set of the instruction being decoded (R34, R82): the last segment override, the bits of the bitset, and `npfx`.
No byte sets `opSize` or `addrSize` (R34, R108). -/
structure Prefixes where
  seg : Option SReg
  lock : Bool
  repne : Bool
  repe : Bool
  wait : Bool
  opSize : Bool
  addrSize : Bool
  count : Nat
  deriving DecidableEq, Repr

/-- The prefix set with nothing in it (R82). -/
def Prefixes.empty : Prefixes where
  seg := none
  lock := false
  repne := false
  repe := false
  wait := false
  opSize := false
  addrSize := false
  count := 0

/-- The decoded instruction record (R34): mnemonic, width, ALU operation and operands are those of `instr`. -/
structure Decoded where
  opcode : Byte
  index : Nat
  prefixes : Prefixes
  cs : Word
  ip : Word
  linear : Phys
  size : Nat
  instr : Instr
  deriving DecidableEq, Repr

/-- Where the execution unit stands between two of the model's steps (log entry 5): before an instruction, after one of its
prefix bytes, in the execute phase, in the execute phase of HLT, or between two iterations of a repeated string instruction. -/
inductive EuPhase where
  | start
  | prefixed
  | executing
  | halting
  | repeating
  deriving DecidableEq, Repr

/-- Why the CPU stops with a fault (R235).  Both are safe: the CPU agent stops where the spec says it does; the other agents go
on, and a reset revives it. -/
inductive Fault where
  /-- `Fault(InstructionDecodeError, insn_start)`: held past the prefix limit by the prefix instructions and past the length limit by
  the decoder (R82, R235). Safe. -/
  | instructionDecodeError (insnStart : Word)
  /-- `Fault(ExecutionError, insn_start)`: held by the step from a state no rule reaches (a repetition with no string
  instruction recorded; R235). Safe. -/
  | executionError (insnStart : Word)
  deriving DecidableEq, Repr

/-- The execution unit (R32, R33, R34, R35).  `fault` is the fault the CPU holds (R235, R323). -/
structure Eu where
  phase : EuPhase
  insnStart : Word
  prefixes : Prefixes
  decoded : Option Decoded
  inRep : Bool
  repType : RepType
  repMnemonic : Option Instr
  halted : Bool
  haltReported : Bool
  intInhibit : Bool
  nmiLatch : Bool
  nmiPrev : Bool
  tfPrev : Bool
  instrCount : Nat
  fault : Option Fault
  deriving DecidableEq, Repr

/-! ### Memory (R39) -/

/-- A sparse array of bytes by number: addresses strictly rising, and no entry equal to 00h, what an unlisted number reads as. -/
abbrev Memory := List Host.Cell

/-- The tag bits of one cell (R39, R342). -/
structure Tag where
  execBp : Bool
  accessBp : Bool
  retMarker : Bool
  deriving DecidableEq, Repr

/-! ### Interrupt controller (R241) -/

/-- `init` (R241). -/
inductive PicInit where
  | uninit | needIcw2 | needIcw3 | needIcw4 | ready
  deriving DecidableEq, Repr

/-- The 8259 (R241).  Bit i of `lines`, `irr`, `isr` and `imr` belongs to IRi. -/
structure Pic where
  lines : BitVec 8
  irr : BitVec 8
  isr : BitVec 8
  imr : BitVec 8
  init : PicInit
  vectorBase : BitVec 8
  ltim : Bool
  sngl : Bool
  ic4 : Bool
  icw3 : BitVec 8
  upm : Bool
  aeoi : Bool
  icw4Other : BitVec 3
  lowest : BitVec 3
  rotateAeoi : Bool
  smm : Bool
  readIsr : Bool
  pollPending : Bool
  deriving DecidableEq, Repr

/-! ### DMA controller (R254) -/

/-- Four like things, by a two-bit number: the channels of R254, the drives of R298. -/
structure Quad (α : Type) where
  c0 : α
  c1 : α
  c2 : α
  c3 : α
  deriving DecidableEq, Repr

/-- One channel of the 8237 (R254).  `mode` is bits 7:2 of the mode register. -/
structure DmaChannel where
  baseAddr : Word
  curAddr : Word
  baseCount : Word
  curCount : Word
  mode : BitVec 6
  mask : Bool
  req : Bool
  tcStatus : Bool
  tc : Bool
  dropout : Nat
  deriving DecidableEq, Repr

/-- The 8237 with the page ports (R254); `page[c]` is a field of one of them (R261), so it is no state of its own. -/
structure Dma where
  ch : Quad DmaChannel
  command : BitVec 8
  flipflop : Bool
  temp : BitVec 8
  pagePorts : Memory
  deriving DecidableEq, Repr

/-! ### Video card (R270 to R277, R293) -/

/-- The 6845 registers CR0 to CR17 at their widths (R270). -/
structure CrtcRegs where
  horizontalTotal : BitVec 8
  horizontalDisplayed : BitVec 8
  horizontalSyncPos : BitVec 8
  syncWidth : BitVec 8
  verticalTotal : BitVec 7
  verticalTotalAdjust : BitVec 5
  verticalDisplayed : BitVec 7
  verticalSyncPos : BitVec 7
  interlace : BitVec 2
  maxScanline : BitVec 5
  cursorStart : BitVec 7
  cursorEnd : BitVec 5
  startHigh : BitVec 6
  startLow : BitVec 8
  cursorHigh : BitVec 6
  cursorLow : BitVec 8
  lightpenHigh : BitVec 6
  lightpenLow : BitVec 8
  deriving DecidableEq, Repr

/-- The video card: its registers (R270 to R276), the counters and status bits of R277, and the two framebuffers (R293), a dot
`(x, y)` at number `y * FB_W + x`.  `cropX` and `cropY` are the origin of the Cropped aperture (R294). -/
structure Crtc where
  index : BitVec 5
  regs : CrtcRegs
  mode : BitVec 8
  colorSelect : BitVec 8
  lpLatch : Bool
  hcc : Nat
  vcc : Nat
  vlc : Nat
  slc : Nat
  hsc : Nat
  vsc : Nat
  vma : BitVec 14
  vmaSl : BitVec 14
  inHblank : Bool
  inVblank : Bool
  denH : Bool
  denV : Bool
  inVta : Bool
  vtaLines : Nat
  frameStartAddr : BitVec 14
  beamX : Nat
  beamY : Nat
  frameCount : Nat
  cursorBlinkOn : Bool
  charBlinkOn : Bool
  cyclesPerVsync : Nat
  cycleAtLastVsync : Nat
  overscanRightStart : Nat
  front : Memory
  back : Memory
  cropX : Nat
  cropY : Nat
  deriving DecidableEq, Repr

/-! ### Floppy disk controller (R298, R301) -/

/-- One drive (R298).  `motor_on` is a bit of the DOR and `ready` is `present` (R302, R298), so neither is state of its own. -/
structure Drive where
  cyl : BitVec 8
  head : BitVec 8
  sector : BitVec 8
  maxCyl : Nat
  maxHead : Nat
  maxSect : Nat
  present : Bool
  writeProtected : Bool
  error : Bool
  imageSize : Nat
  image : Memory
  deriving DecidableEq, Repr

/-- `phase` (R301). -/
inductive FdcPhase where
  | reset | idle | command | operation | result
  deriving DecidableEq, Repr

/-- The commands that run as operations (R306, R312). -/
inductive OpKind where
  | readData | writeData | readTrack | readSectorId | formatTrack
  deriving DecidableEq, Repr

/-- The operation record (R312); `stalled` says that it stalls on absent media (R317). -/
structure FdcOp where
  kind : OpKind
  d : BitVec 2
  h : BitVec 8
  c : BitVec 8
  s : BitVec 8
  n : BitVec 8
  eot : BitVec 8
  mt : Bool
  started : Bool
  stalled : Bool
  byte : Nat
  sectorsLeft : Nat
  last : Option (BitVec 8 × BitVec 8 × BitVec 8)
  deriving DecidableEq, Repr

/-- `last_error` (R301). -/
inductive FdcError where
  | none | badRead | badWrite | badSeek | writeProtect | dmaError | noMedia
  deriving DecidableEq, Repr

/-- The 765 with its drives (R298, R301). -/
structure Fdc where
  phase : FdcPhase
  dor : BitVec 8
  cmdFifo : List Byte
  cmdLen : Nat
  resFifo : List Byte
  resRead : Nat
  op : Option FdcOp
  fmtFifo : List Byte
  pendingInt : Bool
  lastSt0 : BitVec 8
  lastPcn : BitVec 8
  badSeek : Bool
  resetPoll : Nat
  intOut : Bool
  lastError : FdcError
  specify : BitVec 8 × BitVec 8
  drives : Quad Drive
  deriving DecidableEq, Repr

/-! ### The bus with everything on it -/

/-- A report to the host (R235, R271, R307). -/
inductive Report where
  /-- `ExceptionError(DivideError)` (R225, R235). -/
  | divideError (ip : Word)
  /-- `CpuHaltedError(addr)` (R216, R235). -/
  | cpuHalted (ip : Word)
  /-- A write to a CRTC register that cannot be written (R271). -/
  | crtcWrite (index : BitVec 5)
  /-- A data-register write the FDC ignores (R307). -/
  | fdcWrite (v : BitVec 8)
  deriving DecidableEq, Repr

/-- Memory, the tags, the devices, the reports the host has been given (newest first), and the number of the next free value
(R11 `draw()`; `drawCtr` is the model's own field, log entry 2).  A function of the bus or of a device is a function of this
record alone, so that it cannot touch the CPU. -/
structure Sys where
  mem : Memory
  tags : List (Nat × Tag)
  pic : Pic
  dma : Dma
  crtc : Crtc
  fdc : Fdc
  reports : List Report
  drawCtr : Nat
  deriving DecidableEq, Repr

/-! ### What the host holds (R341, R342) -/

/-- One entry of the instruction history (R341): the decoded instruction (R34), whose `cs` and `ip` are its CS:IP, and a cycle
count. -/
structure HistoryEntry where
  cycle : Nat
  decoded : Decoded
  deriving DecidableEq, Repr

/-- The type of a call-stack entry (R341). -/
inductive CallKind where
  | call | callFar | interrupt
  deriving DecidableEq, Repr

/-- The history, newest first and at most 32; the call stack, top first and at most 128; a breakpoint met in the current
instruction; the flag raised for it at the next boundary (R341, R342); and whether the CPU stands at an instruction boundary at which
no interrupt was entered, which the end of a run asks for (R343). -/
structure HostView where
  history : List HistoryEntry
  callStack : List CallKind
  bpPending : Bool
  breakFlag : Bool
  atBoundary : Bool
  deriving DecidableEq, Repr

/-! ### Scheduling (R55, R322, R338; log entry 6) -/

/-- An action of the host or of the environment during a run (R338).  `setNmi` and `setIrq` come from the launch's schedules (R344). -/
inductive HostAction where
  | setNmi (level : Bool)
  | setIrq (i : BitVec 3) (level : Bool)
  | mount (d : BitVec 2) (size : Nat) (bytes : List Host.Cell) (writeProtected : Bool)
  | eject (d : BitVec 2)
  | setWriteProtect (d : BitVec 2) (writeProtected : Bool)
  | setTag (a : Phys) (t : Tag)
  deriving DecidableEq, Repr

/-- What the OPEN parameters of the timed layer choose at one clock tick: a code fetch planned some cycles ahead (`FETCH_SCHEDULE`,
R75), and where the one microcode step of the tick takes `mc_pc` (`MICROCODE`, R80, R89). -/
structure ClockIn where
  fetch : Option Nat
  mcPc : Option Nat
  deriving DecidableEq, Repr

/-- A step of another agent, the host's included, between two bus transactions of one instruction (R55, R322, R338). -/
inductive MidTurn where
  | prefetch
  | fdc
  | crtc
  | clock (c : ClockIn)
  | host (a : HostAction)
  deriving DecidableEq, Repr

/-- Whose step comes next (R322). -/
inductive Turn where
  | eu
  | prefetch
  | fdc
  | crtc
  | clock (c : ClockIn)
  | host (a : HostAction)
  deriving DecidableEq, Repr

/-! ### The whole machine -/

/-- The machine.  `agenda` is the order in which the agents step, the execution unit where it is empty; `interleave` holds, for
each coming bus transaction of the CPU, the steps of other agents taken before it.  Both are plain data that nothing constrains
(R55, R322): a statement over every state is a statement over every schedule. -/
structure State where
  cfg : Config
  regs : Regs
  sregs : SRegs
  flags : Flags
  biu : Biu
  eu : Eu
  sys : Sys
  host : HostView
  agenda : List Turn
  interleave : List (List MidTurn)
  deriving DecidableEq, Repr

/-- Why an instruction has no meaning (R11 `refuse`).  Each is safe: the model stops where the spec gives no effect. -/
inductive Refusal where
  /-- An instruction the model has not reached: raised by Dispatch only. Safe. -/
  | notModelled (mnemonic : String)
  /-- 0Fh, POP CS (R113): raised by its meaning. Safe. -/
  | popCs
  /-- 8Ch and 8Eh with reg 4 to 7 (R113): raised by its meaning. Safe. -/
  | movSregHigh
  /-- 8Eh with reg 1, MOV CS (R113): raised by its meaning. Safe. -/
  | movCs
  /-- 8Dh with mod 11 (R113): raised by its meaning. Safe. -/
  | leaRegister
  /-- C4h with mod 11 (R113): raised by its meaning. Safe. -/
  | lesRegister
  /-- C5h with mod 11 (R113): raised by its meaning. Safe. -/
  | ldsRegister
  /-- FEh with reg 2 to 7 (R113): raised by the six meanings. Safe. -/
  | feHigh (reg : Reg)
  /-- FFh reg 3 with mod 11 (R113): raised by its meaning. Safe. -/
  | callRegisterFar
  /-- FFh reg 5 with mod 11 (R113): raised by its meaning. Safe. -/
  | jmpRegisterFar
  /-- A REP prefix on MUL, IMUL, DIV or IDIV (R222): raised by their meanings. Safe. -/
  | repMulDiv
  /-- HLT with `tf_prev` = 1 (R216): raised by its meaning. Safe. -/
  | hltSingleStep
  /-- An interrupt frame that overlaps its vector (R226): raised by the interrupt entry. Safe. -/
  | frameOverlapsVector
  /-- A port at or above 0400h (R54): raised by IN and OUT. Safe. -/
  | portAbove3FF
  /-- An acknowledge with the PIC in MCS-80/85 mode (R245): raised by the boundary. Safe. -/
  | intaMcs80
  deriving DecidableEq, Repr

/-! ### Reset (R37, R241, R254, R270 to R277, R298, R301, R326) -/

/-- The general registers where each holds the same word. -/
def Regs.const (v : Word) : Regs where
  ax := v
  cx := v
  dx := v
  bx := v
  sp := v
  bp := v
  si := v
  di := v

/-- DS, SS and ES are 0000h after reset and CS is `RESET_VECTOR.cs` (R37). -/
def SRegs.reset (c : Config) : SRegs where
  es := 0
  cs := c.resetCs
  ss := 0
  ds := 0

/-- FLAGS = F002h: all nine flags are 0 (R37). -/
def Flags.reset : Flags where
  cf := false
  pf := false
  af := false
  zf := false
  sf := false
  tf := false
  if_ := false
  df := false
  of_ := false

/-- The bus unit after reset (R37): IP = PC = `RESET_VECTOR.ip`, the queue empty, all states idle, the cycle count given.  Bus address
00000h, status Passive and LOCK not asserted are the model's choice (log entry 11), `mc_pc` = 0 too (log entry 28). -/
def Biu.reset (c : Config) (cycles : Nat) : Biu where
  pc := c.resetIp
  queue := []
  state := .idle
  tCycle := .ti
  fetchState := .idle
  busAddr := 0
  busStatus := .passive
  busWait := 0
  dmaWait := 0
  lock := false
  fresh := 0
  delay := 0
  cycleCount := cycles
  mcPc := 0

/-- The execution unit after reset (R37), the NMI pin level given.  That there is then no decoded instruction record and no
`rep_mnemonic` is the model's choice: R37 and D50 give them no value (log entry 29). -/
def Eu.reset (c : Config) (nmiPin : Bool) : Eu where
  phase := .start
  insnStart := c.resetIp
  prefixes := Prefixes.empty
  decoded := none
  inRep := false
  repType := .none
  repMnemonic := none
  halted := false
  haltReported := false
  intInhibit := false
  nmiLatch := false
  nmiPrev := nmiPin
  tfPrev := false
  instrCount := 0
  fault := none

/-- The PIC at power-on (R241), the drawn `vector_base` given (its bits 2:0 are zero). -/
def Pic.reset (base : Byte) : Pic where
  lines := 0
  irr := 0
  isr := 0
  imr := 0
  init := .uninit
  vectorBase := base &&& 0xF8
  ltim := false
  sngl := true
  ic4 := false
  icw3 := 0
  upm := false
  aeoi := false
  icw4Other := 0
  lowest := 7
  rotateAeoi := false
  smm := false
  readIsr := false
  pollPending := false

/-- A DMA channel at power-on (R254), its five drawn registers given. -/
def DmaChannel.reset (a b c d : Word) (m : BitVec 6) : DmaChannel where
  baseAddr := a
  curAddr := b
  baseCount := c
  curCount := d
  mode := m
  mask := true
  req := false
  tcStatus := false
  tc := false
  dropout := 0

/-- A channel whose drawn registers are free words `k` to `k + 4` of a source. -/
def DmaChannel.drawn (f : Nat → Word) (k : Nat) : DmaChannel :=
  DmaChannel.reset (f k) (f (k + 1)) (f (k + 2)) (f (k + 3)) ((f (k + 4)).truncate 6)

/-- The DMA controller at power-on (R254), drawing from `k` on. -/
def Dma.reset (f : Nat → Word) (k : Nat) : Dma where
  ch := ⟨DmaChannel.drawn f k, DmaChannel.drawn f (k + 5), DmaChannel.drawn f (k + 10), DmaChannel.drawn f (k + 15)⟩
  command := 0
  flipflop := false
  temp := 0
  pagePorts := []

/-- CR0 to CR15 at power-on are draws within their widths; CR16 and CR17 are 00h (R270). -/
def CrtcRegs.reset (f : Nat → Word) (k : Nat) : CrtcRegs where
  horizontalTotal := (f k).truncate 8
  horizontalDisplayed := (f (k + 1)).truncate 8
  horizontalSyncPos := (f (k + 2)).truncate 8
  syncWidth := (f (k + 3)).truncate 8
  verticalTotal := (f (k + 4)).truncate 7
  verticalTotalAdjust := (f (k + 5)).truncate 5
  verticalDisplayed := (f (k + 6)).truncate 7
  verticalSyncPos := (f (k + 7)).truncate 7
  interlace := (f (k + 8)).truncate 2
  maxScanline := (f (k + 9)).truncate 5
  cursorStart := (f (k + 10)).truncate 7
  cursorEnd := (f (k + 11)).truncate 5
  startHigh := (f (k + 12)).truncate 6
  startLow := (f (k + 13)).truncate 8
  cursorHigh := (f (k + 14)).truncate 6
  cursorLow := (f (k + 15)).truncate 8
  lightpenHigh := 0
  lightpenLow := 0

/-- The video card at power-on (R271 to R277, R293).  `crtc_index` = 0 is the model's choice: no rule gives it a value (log entry
29). -/
def Crtc.reset (f : Nat → Word) (k : Nat) : Crtc where
  index := 0
  regs := CrtcRegs.reset f k
  mode := 0
  colorSelect := 0
  lpLatch := false
  hcc := 0
  vcc := 0
  vlc := 0
  slc := 0
  hsc := 0
  vsc := 0
  vma := 0
  vmaSl := 0
  inHblank := false
  inVblank := false
  denH := true
  denV := true
  inVta := false
  vtaLines := 0
  frameStartAddr := 0
  beamX := 0
  beamY := 0
  frameCount := 0
  cursorBlinkOn := true
  charBlinkOn := true
  cyclesPerVsync := 0
  cycleAtLastVsync := 0
  overscanRightStart := 0
  front := []
  back := []
  cropX := 0
  cropY := 0

/-- A drive at power-on with nothing mounted (R298; `MEDIA` is none, R5). -/
def Drive.reset : Drive where
  cyl := 0
  head := 0
  sector := 1
  maxCyl := 0
  maxHead := 0
  maxSect := 0
  present := false
  writeProtected := false
  error := false
  imageSize := 0
  image := []

/-- A drive after a machine reset (R324, R298): a mounted image stays mounted, with its geometry and write protection; everything else,
and the whole of a drive without one, takes its power-on value. -/
def Drive.machineReset (d : Drive) : Drive :=
  if d.present then
    { Drive.reset with
      present := true, writeProtected := d.writeProtected, imageSize := d.imageSize, image := d.image, maxCyl := d.maxCyl,
      maxHead := d.maxHead, maxSect := d.maxSect }
  else Drive.reset

/-- The FDC at power-on (R301) with given drives. -/
def Fdc.reset (drives : Quad Drive) : Fdc where
  phase := .reset
  dor := 0
  cmdFifo := []
  cmdLen := 0
  resFifo := []
  resRead := 0
  op := none
  fmtFifo := []
  pendingInt := false
  lastSt0 := 0
  lastPcn := 0
  badSeek := false
  resetPoll := 0
  intOut := false
  lastError := .none
  specify := (0, 0)
  drives := drives

/-- The host's records at power-on (R341). -/
def HostView.reset : HostView where
  history := []
  callStack := []
  bpPending := false
  breakFlag := false
  atBoundary := false

/-- The machine at power-on (R326): every table's value, and the general registers, `vector_base`, the DMA registers of R254 and
CR0 to CR15, which the spec calls draws, 0 (log entry 1).  The six reset cycles have been counted (R325). -/
def State.powerOn (c : Config) : State where
  cfg := c
  regs := Regs.const 0
  sregs := SRegs.reset c
  flags := Flags.reset
  biu := Biu.reset c resetCycles
  eu := Eu.reset c false
  sys :=
    { mem := [], tags := [], pic := Pic.reset 0, dma := Dma.reset (fun _ => 0) 0, crtc := Crtc.reset (fun _ => 0) 0,
      fdc := Fdc.reset ⟨Drive.reset, Drive.reset, Drive.reset, Drive.reset⟩, reports := [], drawCtr := 0 }
  host := HostView.reset
  agenda := []
  interleave := []

/-- The machine right after reset, with R5's defaults. -/
def State.reset : State := State.powerOn Config.default

end Sys2Proof.Machine
end

