-- ==== Sys2Proof/Machine/BusCycle.lean ====
section
/-!
DEFINITION. BusCycle.lean: the bus unit's clock (21_biu_queue.md R69 to R80): one T-state, the bus cycles of the execution unit, and the
start of a code fetch.  Everything here works on the bus unit alone, so it can touch neither registers nor memory.
-/
namespace Sys2Proof.Machine

/-! ### Status lines and wait states (R71, R72) -/

/-- The status lines S2-S0 (R72). -/
def BusStatus.lines (s : BusStatus) : BitVec 3 :=
  match s with
  | .inta => 0b000
  | .ioRead => 0b001
  | .ioWrite => 0b010
  | .halt => 0b011
  | .codeFetch => 0b100
  | .memRead => 0b101
  | .memWrite => 0b110
  | .passive => 0b111

/-- The wait states of an address of a space: those of the first range that holds it, 0 where none does. -/
def waitsAt (io : Bool) (a : Nat) : List WaitRange → Nat
  | [] => 0
  | r :: rs => if r.io == io && decide (r.first ≤ a) && decide (a ≤ r.last) then r.count else waitsAt io a rs

/-- `WAIT_STATES(space, address)` (R5, R71), RAM included; a halt or acknowledge cycle addresses no space (log entry 30). -/
def waitStates (cfg : Config) (st : BusStatus) (a : Phys) : Nat :=
  match st with
  | .memRead => waitsAt false a.toNat cfg.waits
  | .memWrite => waitsAt false a.toNat cfg.waits
  | .codeFetch => waitsAt false a.toNat cfg.waits
  | .ioRead => waitsAt true a.toNat cfg.waits
  | .ioWrite => waitsAt true a.toNat cfg.waits
  | .inta => 0
  | .halt => 0
  | .passive => 0

/-! ### One T-state -/

/-- What T1 latches (R69, R71, R79): the status, the address, the device's wait states, the LOCK output. -/
structure CycleStart where
  status : BusStatus
  addr : Phys
  wait : Nat
  lock : Bool
  deriving DecidableEq, Repr

/-- The T-cycle after one tick (R70), whether both wait counters are 0 and whether a transfer starts given. -/
def nextTCycle (ready start : Bool) (t : TCycle) : TCycle :=
  match t with
  | .ti => if start then .t1 else .ti
  | .t1 => .t2
  | .t2 => .t3
  | .t3 => if ready then .t4 else .tw
  | .tw => if ready then .t4 else .tw
  | .t4 => if start then .t1 else .ti

/-- A BIU state after one tick (R74): a transition counts down and completes.  One with n = 0 completes at the next tick, as with
n = 1: R74 does not say when (DESIGN CHOICE, log entry 30). -/
def nextBiuState (b : BiuState) : BiuState :=
  match b with
  | .toEu n => if n ≤ 1 then .eu else .toEu (n - 1)
  | .toPrefetch n => if n ≤ 1 then .prefetch else .toPrefetch (n - 1)
  | .toIdle n => if n ≤ 1 then .idle else .toIdle (n - 1)
  | .idle => .idle
  | .eu => .eu
  | .prefetch => .prefetch

/-- A fetch state after one tick (R75): the counters count down.  Delayed(n) ends in DelayDone, with n = 0 at the next tick, as with
n = 1; Aborting(n) ends in Idle, for which R75 gives no transition; a Scheduled fetch that is due waits for its T1 (DESIGN CHOICE, log
entry 30). -/
def nextFetchState (f : FetchState) : FetchState :=
  match f with
  | .scheduled n => .scheduled (n - 1)
  | .delayed n => if n ≤ 1 then .delayDone else .delayed (n - 1)
  | .aborting n => if n ≤ 1 then .idle else .aborting (n - 1)
  | .idle => .idle
  | .inProgress => .inProgress
  | .delayDone => .delayDone
  | .suspended => .suspended
  | .blockedByEu => .blockedByEu

/-- A BIU transition of `n` cycles to an owner; of none, the owner itself. -/
def enRoute (n : Nat) (moving : Nat → BiuState) (owner : BiuState) : BiuState := if n = 0 then owner else moving n

/-- Whether a code fetch is between its T1 and its T4 (R75). -/
def Biu.fetching (b : Biu) : Bool :=
  match b.fetchState with
  | .inProgress => true
  | .idle => false
  | .scheduled _ => false
  | .delayed _ => false
  | .delayDone => false
  | .aborting _ => false
  | .suspended => false
  | .blockedByEu => false

/-- Whether a code fetch is scheduled (R75). -/
def Biu.scheduled (b : Biu) : Bool :=
  match b.fetchState with
  | .scheduled _ => true
  | .idle => false
  | .inProgress => false
  | .delayed _ => false
  | .delayDone => false
  | .aborting _ => false
  | .suspended => false
  | .blockedByEu => false

/-- Whether a code fetch is scheduled or in flight. -/
def Biu.planned (b : Biu) : Bool := b.fetching || b.scheduled

/-- The BIU state after a tick in which the bus is idle (R74): an owner with nothing to do gives the bus up (log entry 30). -/
def Biu.restState (cfg : Config) (b : Biu) : BiuState :=
  match b.state with
  | .eu => if b.scheduled then .eu else enRoute cfg.biuDelays.euToIdle .toIdle .idle
  | .prefetch => if b.scheduled then .prefetch else enRoute cfg.biuDelays.prefetchToIdle .toIdle .idle
  | .idle => .idle
  | .toEu n => nextBiuState (.toEu n)
  | .toPrefetch n => nextBiuState (.toPrefetch n)
  | .toIdle n => nextBiuState (.toIdle n)

/-- An event's delay of the next fetch turns into Delayed(n) at the next tick at which no fetch is in flight or aborting, fetching is not
suspended and the execution unit's cycle is over.  Until then it is held and does not count down: R76 does not say whether it runs
meanwhile (DESIGN CHOICE, log entry 30). -/
def Biu.inject (b : Biu) : Biu :=
  if b.delay = 0 then b
  else
    match b.fetchState with
    | .idle => { b with fetchState := .delayed b.delay, delay := 0 }
    | .scheduled _ => { b with fetchState := .delayed b.delay, delay := 0 }
    | .delayed _ => { b with fetchState := .delayed b.delay, delay := 0 }
    | .delayDone => { b with fetchState := .delayed b.delay, delay := 0 }
    | .inProgress => b
    | .aborting _ => b
    | .suspended => b
    | .blockedByEu => b

/-- What the T-cycle reached does to the latches (R69, R72): T1 takes those of the cycle that starts, Ti has status Passive. -/
def Biu.latch (start : Option CycleStart) (b : Biu) : Biu :=
  match b.tCycle, start with
  | .t1, some c => { b with busStatus := c.status, busAddr := c.addr, busWait := c.wait, lock := c.lock }
  | .t1, none => b
  | .ti, _ => { b with busStatus := .passive, lock := false }
  | .t2, _ => b
  | .t3, _ => b
  | .tw, _ => b
  | .t4, _ => b

/-- One T-state of the bus unit (R70, R71, R74, R75, R80): the cycle is counted, the T-cycle advances, the counters count down, the
bytes of the last cycle become available (R73).  The wait counters count down from T1 on, as R71 and R80 read, so that a count of n
gives n - 2 states Tw (DEDUCED, log entry 30). -/
def Biu.advance (cfg : Config) (start : Option CycleStart) (b : Biu) : Biu :=
  let b := b.inject
  let t := nextTCycle (b.busWait == 0 && b.dmaWait == 0) start.isSome b.tCycle
  let state := if t = .ti then b.restState cfg else nextBiuState b.state
  Biu.latch start
    { b with
      tCycle := t, state := state, fetchState := nextFetchState b.fetchState, busWait := b.busWait - 1, dmaWait := b.dmaWait - 1,
      fresh := 0, cycleCount := b.cycleCount + 1 }

/-- `n` T-states in which no transfer starts. -/
def Biu.run (cfg : Config) : Nat → Biu → Biu
  | 0, b => b
  | n + 1, b => Biu.run cfg n (b.advance cfg none)

/-! ### Bus cycles -/

/-- T-states up to the T4 of the cycle in progress, at most the number given. -/
def Biu.untilT4 (cfg : Config) : Nat → Biu → Biu
  | 0, b => b
  | n + 1, b => if b.tCycle = .t4 then b else Biu.untilT4 cfg n (b.advance cfg none)

/-- The bus cycle in progress, where there is one, completes (R68). -/
def Biu.endCycle (cfg : Config) (b : Biu) : Biu := if b.tCycle = .ti then b else b.untilT4 cfg (b.busWait + b.dmaWait + 4)

/-- One whole bus cycle from a bus at rest (R69): T1 to T4 with its wait states. -/
def Biu.cycle (cfg : Config) (c : CycleStart) (b : Biu) : Biu := (b.advance cfg (some c)).endCycle cfg

/-- A BIU transition in progress completes (R74). -/
def Biu.settle (cfg : Config) (b : Biu) : Biu :=
  match b.state with
  | .toEu n => b.run cfg (max n 1)
  | .toPrefetch n => b.run cfg (max n 1)
  | .toIdle n => b.run cfg (max n 1)
  | .idle => b
  | .eu => b
  | .prefetch => b

/-- The bus passes to an owner after its transition delay (R74, log entry 30). -/
def Biu.moveTo (cfg : Config) (n : Nat) (moving : Nat → BiuState) (owner : BiuState) (b : Biu) : Biu :=
  Biu.run cfg n { b with state := enRoute n moving owner }

/-- The execution unit becomes the owner of the bus (R74). -/
def Biu.claimEu (cfg : Config) (b : Biu) : Biu :=
  let b := b.settle cfg
  b.moveTo cfg (match b.state with
    | .idle => cfg.biuDelays.idleToEu
    | .prefetch => cfg.biuDelays.prefetchToEu
    | .eu => 0
    | .toEu _ => 0
    | .toPrefetch _ => 0
    | .toIdle _ => 0) .toEu .eu

/-- The prefetcher becomes the owner of the bus (R74). -/
def Biu.claimPrefetch (cfg : Config) (b : Biu) : Biu :=
  let b := b.settle cfg
  b.moveTo cfg (match b.state with
    | .idle => cfg.biuDelays.idleToPrefetch
    | .eu => cfg.biuDelays.euToPrefetch
    | .prefetch => 0
    | .toEu _ => 0
    | .toPrefetch _ => 0
    | .toIdle _ => 0) .toPrefetch .prefetch

/-- A scheduled fetch is cancelled because the execution unit claims the bus (R75, Aborting(n), log entry 30). -/
def Biu.abortFetch (cfg : Config) (b : Biu) : Biu :=
  match b.fetchState with
  | .scheduled _ =>
    Biu.run cfg cfg.fetchAbort { b with fetchState := if cfg.fetchAbort = 0 then .idle else .aborting cfg.fetchAbort }
  | .aborting n => b.run cfg (max n 1)
  | .idle => b
  | .inProgress => b
  | .delayed _ => b
  | .delayDone => b
  | .suspended => b
  | .blockedByEu => b

/-- The execution unit owns the bus, so a fetch is not planned (R75, BlockedByEU, log entry 30). -/
def FetchState.block (f : FetchState) : FetchState :=
  match f with
  | .idle => .blockedByEu
  | .delayDone => .blockedByEu
  | .scheduled n => .scheduled n
  | .inProgress => .inProgress
  | .delayed n => .delayed n
  | .aborting n => .aborting n
  | .suspended => .suspended
  | .blockedByEu => .blockedByEu

/-- The execution unit's cycle is over. -/
def FetchState.unblock (f : FetchState) : FetchState :=
  match f with
  | .blockedByEu => .idle
  | .idle => .idle
  | .delayDone => .delayDone
  | .scheduled n => .scheduled n
  | .inProgress => .inProgress
  | .delayed n => .delayed n
  | .aborting n => .aborting n
  | .suspended => .suspended

/-- One bus cycle of the execution unit, to its T4 (R68, R69, R90). -/
def Biu.euCycle (cfg : Config) (c : CycleStart) (b : Biu) : Biu :=
  let b := ((b.endCycle cfg).abortFetch cfg).claimEu cfg
  let b := Biu.cycle cfg c { b with fetchState := b.fetchState.block }
  { b with fetchState := b.fetchState.unblock }

/-- How many T-states a fetch is still held back (R66, R75, R76). -/
def Biu.heldBack (b : Biu) : Nat :=
  if b.delay ≠ 0 then b.delay
  else
    match b.fetchState with
    | .scheduled n => n - 1
    | .delayed n => n
    | .aborting n => n
    | .idle => 0
    | .inProgress => 0
    | .delayDone => 0
    | .suspended => 0
    | .blockedByEu => 0

/-- A code fetch starts: what holds it back runs out, the prefetcher takes the bus, and T1 latches it (R69, R74, R75). -/
def Biu.startFetch (cfg : Config) (c : CycleStart) (b : Biu) : Biu :=
  let b := b.endCycle cfg
  let b := (b.run cfg b.heldBack).claimPrefetch cfg
  Biu.advance cfg (some c) { b with fetchState := .inProgress }

end Sys2Proof.Machine
end

