-- ==== Sys2Proof/Machine/Memory.lean ====
section
/-!
DEFINITION. Memory.lean: the sparse byte array, the memory map of 20_memory.md R48 and R51, and one byte access at a physical address.
What a number that the array does not list reads as is 00h (log entry 4).
-/
namespace Sys2Proof.Machine

/-! ### The sparse array -/

/-- The byte at a number: the first entry listed for it, 00h where there is none. -/
def Memory.get : Memory → Nat → Byte
  | [], _ => 0
  | c :: m, k => if c.1 = k then c.2 else Memory.get m k

/-- The array without the entries for a number. -/
def Memory.erase : Memory → Nat → Memory
  | [], _ => []
  | c :: m, k => if c.1 = k then Memory.erase m k else c :: Memory.erase m k

/-- The array with an entry for a number, at its place in the rising order. -/
def Memory.insert : Memory → Nat → Byte → Memory
  | [], k, v => [(k, v)]
  | c :: m, k, v => if k < c.1 then (k, v) :: c :: m else if k = c.1 then (k, v) :: m else c :: Memory.insert m k v

/-- Write a byte, keeping the canonical form: writing 00h removes the entry. -/
def Memory.set (m : Memory) (k : Nat) (v : Byte) : Memory := if v = 0 then m.erase k else m.insert k v

/-- The canonical form from a lower bound on. -/
def Memory.wfFrom : Nat → Memory → Bool
  | _, [] => true
  | lo, c :: m => decide (lo ≤ c.1) && (c.2 != 0) && Memory.wfFrom (c.1 + 1) m

/-- The canonical form: numbers strictly rising, no entry equal to 00h. -/
def Memory.wf (m : Memory) : Bool := Memory.wfFrom 0 m

/-- An array from any list of entries below a size, a later entry winning (R339: an image is a byte array of a given size). -/
def Memory.ofCells (size : Nat) (cells : List Host.Cell) : Memory :=
  cells.foldl (fun m c => if c.1 < size then m.set c.1 c.2 else m) []

/-! ### The memory map (R48, R51) -/

/-- The number under which a physical address is held and whether it can be written; `none` where the map has nothing (R48).
RAM is below `RAM_SIZE`; the MDA's 8 KiB and the CGA's 16 KiB repeat through their apertures (R51); the ROM ignores writes. -/
def cellOf (c : Config) (a : Phys) : Option (Nat × Bool) :=
  let n := a.toNat
  if n < min c.ramSize 0xA0000 then some (n, true)
  else if 0xF0000 ≤ n then some (n, false)
  else
    match c.videoAdapter with
    | .mda => if 0xB0000 ≤ n && n < 0xB8000 then some (0xB0000 + n % 0x2000, true) else none
    | .cga => if 0xB8000 ≤ n && n < 0xC0000 then some (0xB8000 + n % 0x4000, true) else none

/-- What one address holds, `none` where a read is a draw (R48).  Frames are stated with it. -/
def peek (c : Config) (m : Memory) (a : Phys) : Option Byte := (cellOf c a).map fun p => m.get p.1

/-- The memory after a byte is written at an address; ROM and unpopulated addresses ignore it (R48). -/
def poke (c : Config) (m : Memory) (a : Phys) (v : Byte) : Memory :=
  match cellOf c a with
  | some (k, true) => m.set k v
  | some (_, false) => m
  | none => m

/-- The host's load of a byte, ROM included (R344 `memory`, `ROM_IMAGE`). -/
def loadByte (c : Config) (m : Memory) (a : Phys) (v : Byte) : Memory :=
  match cellOf c a with
  | some (k, _) => m.set k v
  | none => m

/-! ### Draws (R11) -/

/-- One free bit. -/
def Sys.drawBit (y : Sys) : Bool × Sys := (Config.freeBit y.drawCtr, { y with drawCtr := y.drawCtr + 1 })

/-- One free byte. -/
def Sys.drawByte (y : Sys) : Byte × Sys := (Config.freeByte y.drawCtr, { y with drawCtr := y.drawCtr + 1 })

/-! ### One byte access (R47, R48) -/

/-- Read the byte at a physical address; an unpopulated address answers a draw (R48). -/
def Sys.readByte (c : Config) (a : Phys) (y : Sys) : Byte × Sys :=
  match peek c y.mem a with
  | some v => (v, y)
  | none => y.drawByte

/-- Write the byte at a physical address (R48). -/
def Sys.writeByte (c : Config) (a : Phys) (v : Byte) (y : Sys) : Sys := { y with mem := poke c y.mem a v }

/-- Give the host a report (R235). -/
def Sys.report (r : Report) (y : Sys) : Sys := { y with reports := r :: y.reports }

/-! ### Tags (R39, R342) -/

/-- No tag. -/
def Tag.clear : Tag where
  execBp := false
  accessBp := false
  retMarker := false

/-- The tag of a physical address. -/
def tagAt : List (Nat × Tag) → Nat → Tag
  | [], _ => Tag.clear
  | t :: ts, k => if t.1 = k then t.2 else tagAt ts k

/-- Set the tag of a physical address, its place in the rising order kept and a clear tag not listed. -/
def setTagAt : List (Nat × Tag) → Nat → Tag → List (Nat × Tag)
  | [], k, t => if t = Tag.clear then [] else [(k, t)]
  | u :: ts, k, t =>
    if k < u.1 then (if t = Tag.clear then u :: ts else (k, t) :: u :: ts)
    else if k = u.1 then (if t = Tag.clear then ts else (k, t) :: ts)
    else u :: setTagAt ts k t

/-! ### Four like things -/

/-- Item `i`. -/
def Quad.get {α : Type} (q : Quad α) (i : BitVec 2) : α :=
  match i.toNat with
  | 0 => q.c0
  | 1 => q.c1
  | 2 => q.c2
  | _ => q.c3

/-- Replace item `i`. -/
def Quad.set {α : Type} (q : Quad α) (i : BitVec 2) (v : α) : Quad α :=
  match i.toNat with
  | 0 => { q with c0 := v }
  | 1 => { q with c1 := v }
  | 2 => { q with c2 := v }
  | _ => { q with c3 := v }

/-- Change every item. -/
def Quad.map {α β : Type} (f : α → β) (q : Quad α) : Quad β := ⟨f q.c0, f q.c1, f q.c2, f q.c3⟩

/-! ### Bits -/

/-- Bit `i` of a byte. -/
def bitOf (v : Byte) (i : Nat) : Bool := v.getLsbD i

/-- A byte with bit `i` set or cleared. -/
def setBit (v : Byte) (i : Nat) (b : Bool) : Byte :=
  if b then v ||| ((1 : BitVec 8) <<< i) else v &&& ~~~((1 : BitVec 8) <<< i)

/-- 1 or 0 in a byte. -/
def bit8 (b : Bool) : Byte := if b then 1 else 0

end Sys2Proof.Machine
end

