-- ==== Sys2Proof/Machine/Crtc.lean ====
section
/-!
DEFINITION. Crtc.lean: the video card of 63_crtc_video.md: the 6845's ports, one character tick, and the rasterizer of the CGA and the
MDA.
-/
namespace Sys2Proof.Machine

/-! ### Mode bits and widths (R272, R274, R279) -/

/-- CGA mode bit 0, HIRES_TEXT (R272). -/
def Crtc.hiresText (c : Crtc) : Bool := bitOf c.mode 0

/-- CGA mode bit 1, GRAPHICS (R272). -/
def Crtc.graphics (c : Crtc) : Bool := bitOf c.mode 1

/-- CGA mode bit 2, BW (R272). -/
def Crtc.bw (c : Crtc) : Bool := bitOf c.mode 2

/-- Mode bit 3, VIDEO_ENABLE (R272, R274). -/
def Crtc.videoEnable (c : Crtc) : Bool := bitOf c.mode 3

/-- CGA mode bit 4, HIRES_GFX (R272). -/
def Crtc.hiresGfx (c : Crtc) : Bool := bitOf c.mode 4

/-- Mode bit 5, BLINK (R272, R274). -/
def Crtc.blink (c : Crtc) : Bool := bitOf c.mode 5

/-- `char_w` (R279): with GRAPHICS and HIRES_TEXT both 1 the 8-dot timing is kept (R291, log entry 15). -/
def Crtc.charW (cfg : Config) (c : Crtc) : Nat :=
  match cfg.videoAdapter with
  | .mda => 9
  | .cga => if c.hiresText then 8 else 16

/-- `crtc_start_address` (R270). -/
def CrtcRegs.startAddress (r : CrtcRegs) : BitVec 14 := r.startHigh ++ r.startLow

/-- `cursor_address` (R270). -/
def CrtcRegs.cursorAddress (r : CrtcRegs) : BitVec 14 := r.cursorHigh ++ r.cursorLow

/-- `display_enable()` (R278). -/
def Crtc.displayEnable (c : Crtc) : Bool := c.denH && c.denV && !c.inVta && !c.inHblank && !c.inVblank

/-! ### Ports (R269, R271, R275, R276) -/

/-- Write register `index` (R270, R271): 0 to 15, each at its width; 16 to 31 are ignored, which the answer says. -/
def CrtcRegs.write (index : BitVec 5) (v : Byte) (r : CrtcRegs) : Option CrtcRegs :=
  match index.toNat with
  | 0 => some { r with horizontalTotal := v }
  | 1 => some { r with horizontalDisplayed := v }
  | 2 => some { r with horizontalSyncPos := v }
  | 3 => some { r with syncWidth := v }
  | 4 => some { r with verticalTotal := v.truncate 7 }
  | 5 => some { r with verticalTotalAdjust := v.truncate 5 }
  | 6 => some { r with verticalDisplayed := v.truncate 7 }
  | 7 => some { r with verticalSyncPos := v.truncate 7 }
  | 8 => some { r with interlace := v.truncate 2 }
  | 9 => some { r with maxScanline := v.truncate 5 }
  | 10 => some { r with cursorStart := v.truncate 7 }
  | 11 => some { r with cursorEnd := v.truncate 5 }
  | 12 => some { r with startHigh := v.truncate 6 }
  | 13 => some { r with startLow := v }
  | 14 => some { r with cursorHigh := v.truncate 6 }
  | 15 => some { r with cursorLow := v }
  | _ => none

/-- Read register `index` (R271): CR14 to CR17, and 00h for the others. -/
def CrtcRegs.read (index : BitVec 5) (r : CrtcRegs) : Byte :=
  match index.toNat with
  | 14 => r.cursorHigh.zeroExtend 8
  | 15 => r.cursorLow
  | 16 => r.lightpenHigh.zeroExtend 8
  | 17 => r.lightpenLow
  | _ => 0

/-- The status register (R275): bits 2 and 7:4 come from a draw. -/
def Crtc.status (free : Byte) (c : Crtc) : Byte :=
  bit8 (!c.displayEnable) ||| (bit8 c.lpLatch <<< 1) ||| (free &&& 0xF4) ||| (bit8 c.inVblank <<< 3)

/-- A write to port `B + k` (R269). -/
def Sys.crtcWrite (cfg : Config) (k : BitVec 4) (v : Byte) (y : Sys) : Sys :=
  let c := y.crtc
  if k < 8 then
    if k.getLsbD 0 then
      match c.regs.write c.index v with
      | some r => { y with crtc := { c with regs := r } }
      | none => y.report (.crtcWrite c.index)
    else { y with crtc := { c with index := v.truncate 5 } }
  else
    match k.toNat, cfg.videoAdapter with
    | 8, _ => { y with crtc := { c with mode := v } }
    | 9, .cga => { y with crtc := { c with colorSelect := v } }
    | 11, .cga => { y with crtc := { c with lpLatch := false } }
    | 12, .cga =>
      { y with
        crtc :=
          { c with
            lpLatch := true
            regs := { c.regs with lightpenHigh := c.vma.extractLsb' 8 6, lightpenLow := c.vma.extractLsb' 0 8 } } }
    | _, _ => y

/-- A read of port `B + k` (R269). -/
def Sys.crtcRead (k : BitVec 4) (y : Sys) : Byte × Sys :=
  if k < 8 then
    if k.getLsbD 0 then (y.crtc.regs.read y.crtc.index, y) else y.drawByte
  else if k = 10 then
    let r := y.drawByte
    (y.crtc.status r.1, r.2)
  else y.drawByte

/-! ### The character's dots (R285 to R292) -/

/-- `vram(i)` (R285). -/
def vram (cfg : Config) (m : Memory) (i : Nat) : Byte :=
  match cfg.videoAdapter with
  | .mda => m.get (0xB0000 + i % 0x2000)
  | .cga => m.get (0xB8000 + i % 0x4000)

/-- `FONT_ROM(char, row)` (R288). -/
def glyph (cfg : Config) (ch : Byte) (row : Nat) : Byte :=
  if row < 64 then Memory.get cfg.fontRom (64 * ch.toNat + row) else 0

/-- Whether the cursor covers the character at the current position and scanline (R289). -/
def Crtc.cursorHere (c : Crtc) : Bool :=
  let lo : BitVec 5 := c.regs.cursorStart.extractLsb' 0 5
  let kind : BitVec 2 := c.regs.cursorStart.extractLsb' 5 2
  kind != 1 && decide (lo.toNat ≤ c.vlc) && decide (c.vlc ≤ c.regs.cursorEnd.toNat) && c.vma == c.regs.cursorAddress &&
    c.cursorBlinkOn

/-- Foreground and background of a CGA attribute (R286). -/
def Crtc.cgaColors (c : Crtc) (attr : Byte) : Byte × Byte :=
  (attr &&& 0x0F, if c.blink then (attr >>> 4) &&& 0x07 else attr >>> 4)

/-- Foreground and background of an MDA attribute (R287). -/
def mdaColors (attr : Byte) : Byte × Byte :=
  if attr &&& 0x77 = 0x00 then (0, 0)
  else if attr &&& 0x77 = 0x70 then (0, 7)
  else (if bitOf attr 3 then 15 else 7, 0)

/-- Whether the blink phase draws the foreground as background (R286, R287). -/
def Crtc.blinkedOff (c : Crtc) (attr : Byte) : Bool := c.blink && bitOf attr 7 && !c.charBlinkOn

/-- The colour of one text dot (R288, R289): the cursor in the foreground colour, else the glyph. -/
def Crtc.textDot (c : Crtc) (attr : Byte) (col : Byte × Byte) (on : Bool) : Byte :=
  if c.cursorHere then col.1 else if on && !c.blinkedOff attr then col.1 else col.2

/-- A text character's dots on the CGA (R288, R289), `w` being `char_w`. -/
def Crtc.cgaText (cfg : Config) (m : Memory) (w : Nat) (c : Crtc) : List Byte :=
  let ch := vram cfg m (2 * c.vma.toNat)
  let attr := vram cfg m (2 * c.vma.toNat + 1)
  let g := glyph cfg ch c.vlc
  (List.range w).map fun d => c.textDot attr (c.cgaColors attr) (bitOf g (7 - (if w = 8 then d else d / 2)))

/-- A text character's dots on the MDA (R287, R288, R289). -/
def Crtc.mdaText (cfg : Config) (m : Memory) (c : Crtc) : List Byte :=
  let ch := vram cfg m (2 * c.vma.toNat)
  let attr := vram cfg m (2 * c.vma.toNat + 1)
  let g := glyph cfg ch c.vlc
  let underlined := attr &&& 0x07 = 0x01 && c.vlc == 12
  (List.range 9).map fun d =>
    let on := if d < 8 then bitOf g (7 - d) else decide (0xC0 ≤ ch.toNat) && decide (ch.toNat ≤ 0xDF) && bitOf g 0
    c.textDot attr (mdaColors attr) (underlined || on)

/-- The sixteen bits of a CGA graphics character, `b0` high (R285, R290, R291). -/
def Crtc.graphicsBits (cfg : Config) (m : Memory) (c : Crtc) : BitVec 16 :=
  let bank := (c.vlc % 2) * 0x2000
  let at_ (k : Nat) := vram cfg m (bank + (2 * c.vma.toNat + k) % 0x2000)
  wordOf (at_ 1) (at_ 0)

/-- The palette index of a 320x200 pixel value (R290). -/
def Crtc.pixelColor (c : Crtc) (px : BitVec 2) : Byte :=
  let i : Byte := if bitOf c.colorSelect 4 then 8 else 0
  match px.toNat with
  | 0 => c.colorSelect &&& 0x0F
  | 1 => if c.bw || bitOf c.colorSelect 5 then 3 + i else 2 + i
  | 2 => if c.bw then 4 + i else if bitOf c.colorSelect 5 then 5 + i else 4 + i
  | _ => if c.bw || bitOf c.colorSelect 5 then 7 + i else 6 + i

/-- 320x200: eight two-bit pixels of two dots each (R290). -/
def Crtc.cga320 (cfg : Config) (m : Memory) (c : Crtc) : List Byte :=
  (List.range 16).map fun d => c.pixelColor ((c.graphicsBits cfg m).extractLsb' (14 - 2 * (d / 2)) 2)

/-- 640x200: sixteen one-bit pixels (R291). -/
def Crtc.cga640 (cfg : Config) (m : Memory) (c : Crtc) : List Byte :=
  (List.range 16).map fun d => if (c.graphicsBits cfg m).getLsbD (15 - d) then c.colorSelect &&& 0x0F else 0

/-- `w` drawn dots. -/
def Sys.drawDots : Nat → Sys → List Byte × Sys
  | 0, y => ([], y)
  | w + 1, y =>
    let r := y.drawByte
    let q := Sys.drawDots w r.2
    (r.1 :: q.1, q.2)

/-- The overscan colour of the modes R292 lists. -/
def Crtc.overscan (cfg : Config) (c : Crtc) : Byte :=
  match cfg.videoAdapter with
  | .mda => 0
  | .cga => if c.graphics && c.hiresGfx then 0 else c.colorSelect &&& 0x0F

/-- The dots of the active area (R288 to R292). -/
def Sys.activeDots (cfg : Config) (y : Sys) : List Byte × Sys :=
  let c := y.crtc
  let w := c.charW cfg
  if !c.videoEnable then (List.replicate w 0, y)
  else
    match cfg.videoAdapter with
    | .mda => (c.mdaText cfg y.mem, y)
    | .cga =>
      if !c.graphics then (c.cgaText cfg y.mem w, y)
      else if c.hiresText then Sys.drawDots w y
      else if c.hiresGfx then (c.cga640 cfg y.mem, y)
      else (c.cga320 cfg y.mem, y)

/-- The border's dots (R292): with GRAPHICS and HIRES_TEXT both 1, a mode R292 does not list, each is a draw (DESIGN CHOICE, log entry
15). -/
def Sys.borderDots (cfg : Config) (y : Sys) : List Byte × Sys :=
  let c := y.crtc
  match cfg.videoAdapter with
  | .mda => (List.replicate (c.charW cfg) (c.overscan cfg), y)
  | .cga =>
    if c.graphics && c.hiresText then Sys.drawDots (c.charW cfg) y else (List.replicate (c.charW cfg) (c.overscan cfg), y)

/-- The dots at the beam position (R292). -/
def Sys.dots (cfg : Config) (y : Sys) : List Byte × Sys :=
  let c := y.crtc
  let w := c.charW cfg
  if c.inHblank || c.inVblank then (List.replicate w (if cfg.debugDraw then cfg.debugColor else 0), y)
  else if c.displayEnable then y.activeDots cfg
  else y.borderDots cfg

/-- Write dots into a framebuffer from `(x, y)` on, skipping those outside the field (R293). -/
def putDots (cfg : Config) (fb : Memory) (x y : Nat) : List Byte → Memory
  | [] => fb
  | v :: vs => putDots cfg (if x < cfg.fbW && y < cfg.fbH then fb.set (y * cfg.fbW + x) v else fb) (x + 1) y vs

/-- `draw_char()` (R293), noting the origin of the Cropped aperture (R294). -/
def Sys.drawChar (cfg : Config) (y : Sys) : Sys :=
  let r := y.dots cfg
  let c := r.2.crtc
  let first := c.hcc == 0 && c.vcc == 0 && c.vlc == 0
  { r.2 with
    crtc :=
      { c with
        back := putDots cfg c.back c.beamX c.beamY r.1
        cropX := if first then c.beamX else c.cropX
        cropY := if first then c.beamY else c.cropY } }

/-! ### The character tick (R280 to R282) -/

/-- `do_vsync()` (R282), the CPU's cycle count given. -/
def Crtc.doVsync (cfg : Config) (cycle : Nat) (c : Crtc) : Crtc :=
  let n := c.frameCount + 1
  { c with
    cyclesPerVsync := cycle - c.cycleAtLastVsync
    cycleAtLastVsync := cycle
    frameCount := n
    cursorBlinkOn := if n % cfg.cursorBlinkFrames = 0 then !c.cursorBlinkOn else c.cursorBlinkOn
    charBlinkOn := if n % (2 * cfg.cursorBlinkFrames) = 0 then !c.charBlinkOn else c.charBlinkOn
    front := c.back
    back := c.front
    slc := 0
    beamY := 0 }

/-- The first two checks of `vertical_checks()` (R281). -/
def Crtc.verticalEdges (c : Crtc) : Crtc :=
  let c := if c.vcc = c.regs.verticalSyncPos.toNat then { c with inVblank := true, vsc := 0 } else c
  if c.vcc = c.regs.verticalDisplayed.toNat then { c with denV := false } else c

/-- `new_frame()` (R281).  Its `vertical_checks()` runs with `vcc` = 0, where the third check, `vcc` = CR4 + 1, never holds. -/
def Crtc.newFrame (c : Crtc) : Crtc :=
  let a := c.regs.startAddress
  Crtc.verticalEdges { c with vcc := 0, vlc := 0, inVta := false, denV := true, frameStartAddr := a, vmaSl := a, vma := a }

/-- `vertical_checks()` (R281). -/
def Crtc.verticalChecks (c : Crtc) : Crtc :=
  let c := c.verticalEdges
  if c.vcc = c.regs.verticalTotal.toNat + 1 then
    let c := { c with inVta := true, vtaLines := 0 }
    if c.regs.verticalTotalAdjust = 0 then c.newFrame else c
  else c

/-- `row_step()` (R281).  `vcc` counts on past R277's 127 where CR4 was lowered below it, as the pseudocode reads (log entry 32). -/
def Crtc.rowStep (c : Crtc) : Crtc :=
  let c := { c with hcc := 0, denH := true }
  let c :=
    if c.inVta then
      let c := { c with vtaLines := c.vtaLines + 1 }
      if c.regs.verticalTotalAdjust.toNat ≤ c.vtaLines then c.newFrame else c
    else if c.regs.maxScanline.toNat < c.vlc then
      Crtc.verticalChecks
        { c with vlc := 0, vcc := c.vcc + 1, vmaSl := c.vmaSl + c.regs.horizontalDisplayed.zeroExtend 14 }
    else c
  { c with vma := c.vmaSl }

/-- Steps 3 to 5 and 7 of a character tick (R280). -/
def Crtc.hblankStep (cfg : Config) (cycle : Nat) (c : Crtc) : Crtc :=
  if c.hcc = c.regs.horizontalSyncPos.toNat then { c with inHblank := true, hsc := 0 }
  else if c.inHblank then
    let c := { c with hsc := c.hsc + 1 }
    if c.hsc = cfg.syncWidth then
      let c := { c with inHblank := false, slc := c.slc + 1, beamY := c.beamY + 1, beamX := 0, vlc := c.vlc + 1 }
      if c.inVblank then
        let c := { c with vsc := c.vsc + 1 }
        if c.vsc = cfg.vblankHeight then Crtc.doVsync cfg cycle { c with inVblank := false } else c
      else c
    else c
  else c

/-- A character tick after the character is drawn (R280).  `hcc` counts on past R277's CR0 + 1 where CR0 was lowered below it, as the
pseudocode reads (log entry 32). -/
def Crtc.advance (cfg : Config) (cycle : Nat) (c : Crtc) : Crtc :=
  let n := c.hcc + 1
  let c := { c with hcc := n, vma := c.vmaSl + BitVec.ofNat 14 n, beamX := c.beamX + c.charW cfg }
  let c := if c.hcc = c.regs.horizontalDisplayed.toNat then { c with denH := false, overscanRightStart := c.beamX } else c
  let c := c.hblankStep cfg cycle
  if c.hcc = c.regs.horizontalTotal.toNat + 1 then c.rowStep else c

/-- `char_tick()` (R280): the step of the video card (R322). -/
def Sys.crtcStep (cfg : Config) (cycle : Nat) (y : Sys) : Sys :=
  let y := y.drawChar cfg
  { y with crtc := y.crtc.advance cfg cycle }

/-! ### What the host sees (R294, R295) -/

/-- The four windows (R294). -/
inductive Aperture where
  | cropped | accurate | full | debug
  deriving DecidableEq, Repr

/-- A window clipped to the field, so that `left + w ≤ field_w` and `top + h ≤ field_h` (R294). -/
def clipRect (cfg : Config) (r : Rect) : Rect where
  x := min r.x cfg.fbW
  y := min r.y cfg.fbH
  w := min r.w (cfg.fbW - min r.x cfg.fbW)
  h := min r.h (cfg.fbH - min r.y cfg.fbH)

/-- The aperture tuple the card publishes (R294). -/
def Crtc.aperture (cfg : Config) (k : Aperture) (c : Crtc) : Rect :=
  match k with
  | .full => ⟨0, 0, cfg.fbW, cfg.fbH⟩
  | .debug => ⟨0, 0, cfg.fbW, cfg.fbH⟩
  | .accurate => clipRect cfg cfg.apertureAccurate
  | .cropped =>
    clipRect cfg
      ⟨c.cropX, c.cropY, c.regs.horizontalDisplayed.toNat * c.charW cfg,
        c.regs.verticalDisplayed.toNat * (c.regs.maxScanline.toNat + 1)⟩

/-- The CGA palette as RGB, by index (R295). -/
def cgaPalette : List (BitVec 24) :=
  [0x000000, 0x0000AA, 0x00AA00, 0x00AAAA, 0xAA0000, 0xAA00AA, 0xAA5500, 0xAAAAAA, 0x555555, 0x5555FF, 0x55FF55, 0x55FFFF,
    0xFF5555, 0xFF55FF, 0xFFFF55, 0xFFFFFF]

end Sys2Proof.Machine
end

