-- ==== Sys2Proof/Machine/Dma.lean ====
section
/-!
DEFINITION. Dma.lean: the DMA controller of 62_dma_8237.md.  It has no step of its own (R322): it changes in port accesses and in
the channel-2 services of the FDC.
-/
namespace Sys2Proof.Machine

/-- Change one channel. -/
def Dma.modify (c : BitVec 2) (f : DmaChannel → DmaChannel) (x : Dma) : Dma := { x with ch := x.ch.set c (f (x.ch.get c)) }

/-! ### Fields of the mode and command registers (R257, R258) -/

/-- The transfer type, mode bits 3:2 (R257). -/
def DmaChannel.transferType (c : DmaChannel) : BitVec 2 := c.mode.extractLsb' 0 2

/-- Autoinitialise, mode bit 4 (R257). -/
def DmaChannel.autoInit (c : DmaChannel) : Bool := c.mode.getLsbD 2

/-- Address decrement, mode bit 5 (R257). -/
def DmaChannel.decrement (c : DmaChannel) : Bool := c.mode.getLsbD 3

/-- Mode bits 7:6 (R257). -/
def DmaChannel.modeSelect (c : DmaChannel) : BitVec 2 := c.mode.extractLsb' 4 2

/-! ### The channel interface (R261 to R263) -/

/-- The page port of each channel (R261). -/
def pagePortOf (c : BitVec 2) : Nat :=
  match c.toNat with
  | 0 => 0x87
  | 1 => 0x83
  | 2 => 0x81
  | _ => 0x82

/-- `page[c]` (R261). -/
def Dma.page (x : Dma) (c : BitVec 2) : BitVec 4 := (x.pagePorts.get (pagePortOf c)).truncate 4

/-- `phys_dma(c)` (R261), `get_dma_transfer_address` (R262). -/
def Dma.address (x : Dma) (c : BitVec 2) : Phys := x.page c ++ (x.ch.get c).curAddr

/-- `get_dma_transfer_size(c)` (R262). -/
def Dma.size (x : Dma) (c : BitVec 2) : Nat := (x.ch.get c).curCount.toNat + 1

/-- `check_dma_ready(c)` (R263). -/
def Dma.ready (x : Dma) (c : BitVec 2) : Bool :=
  let k := x.ch.get c
  !bitOf x.command 2 && !k.mask && k.modeSelect != 3 && k.transferType != 3 && k.dropout == 0

/-- `check_terminal_count(c)` (R264). -/
def Dma.terminalCount (x : Dma) (c : BitVec 2) : Bool := (x.ch.get c).tc

/-- The registers of a channel after one serviced byte (R264). -/
def DmaChannel.advance (k : DmaChannel) : DmaChannel :=
  let a := if k.decrement then k.curAddr - 1 else k.curAddr + 1
  let n := k.curCount - 1
  let q := { k with curAddr := a, curCount := n, tc := false, dropout := dmaDropout }
  if n = 0xFFFF then
    let q := { q with tc := true, tcStatus := true }
    if k.autoInit then { q with curAddr := k.baseAddr, curCount := k.baseCount } else { q with mask := true }
  else q

/-- `do_dma_write_u8(bus, c, v)` (R264): device to memory; verify makes no memory access. -/
def Sys.dmaWrite (cfg : Config) (c : BitVec 2) (v : Byte) (y : Sys) : Sys :=
  let y1 := if (y.dma.ch.get c).transferType = 0 then y else y.writeByte cfg (y.dma.address c) v
  { y1 with dma := y1.dma.modify c DmaChannel.advance }

/-- `do_dma_read_u8(bus, c)` (R264): memory to device; verify returns a draw. -/
def Sys.dmaRead (cfg : Config) (c : BitVec 2) (y : Sys) : Byte × Sys :=
  let r := if (y.dma.ch.get c).transferType = 0 then y.drawByte else y.readByte cfg (y.dma.address c)
  (r.1, { r.2 with dma := r.2.dma.modify c DmaChannel.advance })

/-- The end of an operation tick in which channel `c` serviced no byte (R265). -/
def Dma.tick (c : BitVec 2) (x : Dma) : Dma := x.modify c fun k => { k with dropout := k.dropout - 1 }

/-! ### Ports (R255 to R261) -/

/-- Replace the half of a word that the byte pointer selects (R256). -/
def setHalf (hi : Bool) (v : Byte) (w : Word) : Word := if hi then wordOf (loByte w) v else wordOf v (hiByte w)

/-- The half of a word that the byte pointer selects (R256). -/
def getHalf (hi : Bool) (w : Word) : Byte := if hi then hiByte w else loByte w

/-- Master clear (R260). -/
def Dma.masterClear (x : Dma) : Dma :=
  { x with
    command := 0, temp := 0, flipflop := false
    ch := x.ch.map fun k => { k with tcStatus := false, tc := false, req := false, mask := true, dropout := 0 } }

/-- A write to a port of 00h-0Fh (R255). -/
def Dma.write (port : BitVec 4) (v : Byte) (x : Dma) : Dma :=
  let c : BitVec 2 := port.extractLsb' 1 2
  let sel : BitVec 2 := v.extractLsb' 0 2
  if port < 8 then
    let hi := x.flipflop
    let y := x.modify c fun k =>
      if port.getLsbD 0 then { k with baseCount := setHalf hi v k.baseCount, curCount := setHalf hi v k.curCount, tc := false }
      else { k with baseAddr := setHalf hi v k.baseAddr, curAddr := setHalf hi v k.curAddr, tc := false }
    { y with flipflop := !hi }
  else
    match port.toNat with
    | 8 => { x with command := v }
    | 9 => x.modify sel fun k => { k with req := bitOf v 2 }
    | 10 => x.modify sel fun k => { k with mask := bitOf v 2 }
    | 11 => x.modify sel fun k => { k with mode := v.extractLsb' 2 6, tc := false }
    | 12 => { x with flipflop := false }
    | 13 => x.masterClear
    | 14 => { x with ch := x.ch.map fun k => { k with mask := false } }
    | _ =>
      { x with
        ch := ⟨{ x.ch.c0 with mask := bitOf v 0 }, { x.ch.c1 with mask := bitOf v 1 }, { x.ch.c2 with mask := bitOf v 2 },
          { x.ch.c3 with mask := bitOf v 3 }⟩ }

/-- The status register (R259), the FDC's request on channel 2 given. -/
def Dma.status (fdcRequest : Bool) (x : Dma) : Byte :=
  bit8 x.ch.c0.tcStatus ||| (bit8 x.ch.c1.tcStatus <<< 1) ||| (bit8 x.ch.c2.tcStatus <<< 2) ||| (bit8 x.ch.c3.tcStatus <<< 3) |||
    (bit8 x.ch.c0.req <<< 4) ||| (bit8 x.ch.c1.req <<< 5) ||| (bit8 (x.ch.c2.req || fdcRequest) <<< 6) |||
    (bit8 x.ch.c3.req <<< 7)

/-- A read of a port of 00h-0Fh (R255): `none` is a draw. -/
def Dma.read (fdcRequest : Bool) (port : BitVec 4) (x : Dma) : Option Byte × Dma :=
  let k := x.ch.get (port.extractLsb' 1 2)
  if port < 8 then
    (some (getHalf x.flipflop (if port.getLsbD 0 then k.curCount else k.curAddr)), { x with flipflop := !x.flipflop })
  else
    match port.toNat with
    | 8 => (some (x.status fdcRequest), { x with ch := x.ch.map fun k => { k with tcStatus := false } })
    | 13 => (some x.temp, x)
    | _ => (none, x)

/-- A write to a page port 80h-8Fh (R261). -/
def Dma.writePage (port : Nat) (v : Byte) (x : Dma) : Dma := { x with pagePorts := x.pagePorts.set port v }

/-- A read of a page port 80h-8Fh (R261). -/
def Dma.readPage (port : Nat) (x : Dma) : Byte := x.pagePorts.get port

end Sys2Proof.Machine
end

