-- ==== Sys2Proof/Machine/Pic.lean ====
section
/-!
DEFINITION. Pic.lean: the interrupt controller of 61_pic_8259.md.  It has no step of its own (R241): it changes in port accesses,
in `set_irq` and in the acknowledge.
-/
namespace Sys2Proof.Machine

/-! ### Request lines, the resolver and INTR (R242 to R244) -/

/-- `set_irq(i, level)` (R242): in edge mode a rising edge requests and a low level withdraws; in level mode IRR follows. -/
def Pic.setIrq (i : BitVec 3) (level : Bool) (p : Pic) : Pic :=
  let old := bitOf p.lines i.toNat
  let q := { p with lines := setBit p.lines i.toNat level }
  if p.ltim then { q with irr := setBit p.irr i.toNat level }
  else if level then (if old then q else { q with irr := setBit p.irr i.toNat true })
  else { q with irr := setBit p.irr i.toNat false }

/-- `rank(i)` (R243): the place of level i in the priority order, which begins after `lowest`. -/
def Pic.rank (p : Pic) (i : BitVec 3) : Nat := (i - p.lowest - 1).toNat

/-- The eight levels by number. -/
def irLevels : List (BitVec 3) := [0, 1, 2, 3, 4, 5, 6, 7]

/-- `order` (R243). -/
def Pic.order (p : Pic) : List (BitVec 3) := irLevels.map fun k => p.lowest + 1 + k

/-- `permitted(i)` (R243). -/
def Pic.permitted (p : Pic) (i : BitVec 3) : Bool :=
  bitOf p.irr i.toNat && !bitOf p.imr i.toNat &&
    (if p.smm then !bitOf p.isr i.toNat
     else irLevels.all fun j => !(bitOf p.isr j.toNat && decide (p.rank j ≤ p.rank i)))

/-- `best()` (R243). -/
def Pic.best (p : Pic) : Option (BitVec 3) := p.order.find? p.permitted

/-- `pic_intr_out()` (R244). -/
def Pic.intr (p : Pic) : Bool := (p.init == .ready) && p.best.isSome

/-- The state change of an acknowledge of level r (R245). -/
def Pic.ack (r : BitVec 3) (p : Pic) : Pic :=
  let q := if p.ltim then p else { p with irr := setBit p.irr r.toNat false }
  if !q.aeoi then { q with isr := setBit q.isr r.toNat true }
  else if q.rotateAeoi then { q with lowest := r }
  else q

/-- `pic_inta()` (R245, R246): `none` is the refusal of MCS-80/85 mode. -/
def Pic.inta (p : Pic) : Option (Byte × Pic) :=
  if !p.upm then none
  else
    match p.best with
    | none => some (p.vectorBase + 7, p)
    | some r => some (p.vectorBase + r.zeroExtend 8, p.ack r)

/-! ### Command words (R247 to R250) -/

/-- ICW1 (R247). -/
def Pic.icw1 (v : Byte) (p : Pic) : Pic :=
  let q : Pic :=
    { p with
      ic4 := bitOf v 0, sngl := bitOf v 1, ltim := bitOf v 3, imr := 0, isr := 0,
      irr := if bitOf v 3 then p.lines else 0,
      lowest := 7, smm := false, readIsr := false, pollPending := false, rotateAeoi := false, init := .needIcw2 }
  if bitOf v 0 then q else { q with upm := false, aeoi := false, icw4Other := 0 }

/-- The in-service level of smallest rank (R249). -/
def Pic.highestInService (p : Pic) : Option (BitVec 3) := p.order.find? fun i => bitOf p.isr i.toNat

/-- OCW2 (R249), by R, SL and EOI. -/
def Pic.ocw2 (v : Byte) (p : Pic) : Pic :=
  let l : BitVec 3 := v.extractLsb' 0 3
  match bitOf v 7, bitOf v 6, bitOf v 5 with
  | false, false, true =>
    match p.highestInService with
    | none => p
    | some h => { p with isr := setBit p.isr h.toNat false }
  | false, true, true => { p with isr := setBit p.isr l.toNat false }
  | true, false, true =>
    match p.highestInService with
    | none => p
    | some h => { p with isr := setBit p.isr h.toNat false, lowest := h }
  | true, true, true => { p with isr := setBit p.isr l.toNat false, lowest := l }
  | true, false, false => { p with rotateAeoi := true }
  | false, false, false => { p with rotateAeoi := false }
  | true, true, false => { p with lowest := l }
  | false, true, false => p

/-- OCW3 (R250). -/
def Pic.ocw3 (v : Byte) (p : Pic) : Pic :=
  { p with
    smm := if bitOf v 6 then bitOf v 5 else p.smm
    readIsr := if bitOf v 1 then bitOf v 0 else p.readIsr
    pollPending := if bitOf v 2 then true else p.pollPending }

/-! ### Ports (R240, R248, R251, R252) -/

/-- A write to port 20h (R240). -/
def Pic.write20 (v : Byte) (p : Pic) : Pic :=
  if bitOf v 4 then p.icw1 v else if bitOf v 3 then p.ocw3 v else p.ocw2 v

/-- A write to port 21h (R240, R247, R248). -/
def Pic.write21 (v : Byte) (p : Pic) : Pic :=
  match p.init with
  | .uninit => { p with imr := v }
  | .needIcw2 =>
    { p with vectorBase := v &&& 0xF8, init := if p.sngl then (if p.ic4 then .needIcw4 else .ready) else .needIcw3 }
  | .needIcw3 => { p with icw3 := v, init := if p.ic4 then .needIcw4 else .ready }
  | .needIcw4 => { p with upm := bitOf v 0, aeoi := bitOf v 1, icw4Other := v.extractLsb' 2 3, init := .ready }
  | .ready => { p with imr := v }

/-- The poll word (R252). -/
def Pic.poll (p : Pic) : Byte × Pic :=
  let q := { p with pollPending := false }
  match q.best with
  | none => (0, q)
  | some r => (0x80 ||| r.zeroExtend 8, q.ack r)

/-- A read of port 20h (R251, R252). -/
def Pic.read20 (p : Pic) : Byte × Pic :=
  if p.pollPending then p.poll else (if p.readIsr then p.isr else p.irr, p)

/-- A read of port 21h (R251). -/
def Pic.read21 (p : Pic) : Byte := p.imr

end Sys2Proof.Machine
end

