-- ==== Sys2Proof/Machine/Fdc.lean ====
section
/-!
DEFINITION. Fdc.lean: the floppy disk controller of 64_fdc_765.md: its registers, its commands, one operation tick, and its lines
to the PIC and the DMA controller.
-/
namespace Sys2Proof.Machine

/-! ### Drives and images (R298 to R300) -/

/-- The geometry of an image size (R299): cylinders, heads, sectors; `none` for a size the host interface refuses. -/
def geometryOf (size : Nat) : Option (Nat × Nat × Nat) :=
  match size with
  | 163840 => some (40, 1, 8)
  | 184320 => some (40, 1, 9)
  | 327680 => some (40, 2, 8)
  | 368640 => some (40, 2, 9)
  | 737280 => some (80, 2, 9)
  | 1228800 => some (80, 2, 15)
  | 1474560 => some (80, 2, 18)
  | _ => none

/-- `ready` (R298). -/
def Drive.ready (d : Drive) : Bool := d.present

/-- `motor_on(d)` (R302). -/
def Fdc.motorOn (f : Fdc) (d : BitVec 2) : Bool := bitOf f.dor (4 + d.toNat)

/-- `offset(c, h, s)` (R299) in a drive's geometry. -/
def Drive.offset (d : Drive) (c h s : Byte) : Nat := ((c.toNat * d.maxHead + h.toNat) * d.maxSect + (s.toNat - 1)) * 512

/-- `valid(d, c, h, s)` (R300). -/
def Drive.valid (d : Drive) (c h s : Byte) : Bool :=
  decide (c.toNat < d.maxCyl) && decide (h.toNat < d.maxHead) && decide (1 ≤ s.toNat) && decide (s.toNat ≤ d.maxSect)

/-- Change one drive. -/
def Fdc.modifyDrive (d : BitVec 2) (g : Drive → Drive) (f : Fdc) : Fdc := { f with drives := f.drives.set d (g (f.drives.get d)) }

/-! ### Outputs (R318, R319) -/

/-- `update_irq_line()` (R318): IRQ 6 follows `int_out and dor[3]`, `set_irq` being called when the value changes. -/
def Sys.fdcUpdateIrq (y : Sys) : Sys :=
  let level := y.fdc.intOut && bitOf y.fdc.dor 3
  if bitOf y.pic.lines 6 = level then y else { y with pic := y.pic.setIrq 6 level }

/-- `int_out <- b; update_irq_line()`. -/
def Sys.fdcSetInt (b : Bool) (y : Sys) : Sys := Sys.fdcUpdateIrq { y with fdc := { y.fdc with intOut := b } }

/-- `fdc_dma_request()` (R319). -/
def Fdc.dmaRequest (f : Fdc) : Bool :=
  match f.op with
  | none => false
  | some op =>
    (f.phase == .operation) && (op.kind != .readSectorId) && op.started && (f.drives.get op.d).present && bitOf f.dor 3

/-! ### Status bytes (R303 to R305) -/

/-- `st0(ic, h, d)` (R304). -/
def st0 (ic : BitVec 2) (h : Bool) (d : BitVec 2) : Byte :=
  (ic.zeroExtend 8 <<< 6) ||| (bit8 h <<< 2) ||| d.zeroExtend 8

/-- `st3(d, h)` (R305). -/
def Fdc.st3 (f : Fdc) (d : BitVec 2) (h : Bool) : Byte :=
  let v := f.drives.get d
  (bit8 v.error <<< 7) ||| (bit8 v.writeProtected <<< 6) ||| (bit8 v.ready <<< 5) ||| (bit8 (v.cyl == 0) <<< 4) |||
    (bit8 (v.maxHead == 2) <<< 3) ||| (bit8 h <<< 2) ||| d.zeroExtend 8

/-- The main status register (R303). -/
def Fdc.msr (f : Fdc) : Byte :=
  match f.phase with
  | .reset => 0x00
  | .idle => 0x80
  | .command => 0x90
  | .operation => 0x10
  | .result => 0xD0

/-! ### Digital output register (R302) -/

/-- `enter_reset()` (R302). -/
def Fdc.enterReset (f : Fdc) : Fdc :=
  { f with
    phase := .reset, cmdFifo := [], resFifo := [], fmtFifo := [], op := none, pendingInt := false, resetPoll := 0,
    badSeek := false, intOut := false }

/-- `leave_reset()` (R302). -/
def Fdc.leaveReset (f : Fdc) : Fdc := { f with phase := .idle, pendingInt := true, resetPoll := 4, intOut := true }

/-- `write_dor(v)` (R302). -/
def Sys.fdcWriteDor (v : Byte) (y : Sys) : Sys :=
  let old := y.fdc.dor
  let f := { y.fdc with dor := v }
  let f :=
    if !bitOf v 2 then f.enterReset
    else if !bitOf old 2 || f.phase == .reset then f.leaveReset
    else f
  Sys.fdcUpdateIrq { y with fdc := f }

/-! ### Results (R309, R314) -/

/-- `finish_result(bytes)` without interrupt (R309). -/
def Fdc.finishResult (bytes : List Byte) (f : Fdc) : Fdc := { f with resFifo := bytes, resRead := 0, phase := .result }

/-- The end of an operation with its seven result bytes (R314). -/
def Sys.fdcFinishWith (d : BitVec 2) (bytes : List Byte) (y : Sys) : Sys :=
  Sys.fdcSetInt true
    { y with
      fdc :=
        { y.fdc with
          resFifo := bytes, resRead := 0, pendingInt := true, lastSt0 := bytes.headD 0, lastPcn := (y.fdc.drives.get d).cyl,
          op := none, phase := .result } }

/-- `finish(ic, st1, st2)` (R314). -/
def Sys.fdcFinish (op : FdcOp) (ic : BitVec 2) (st1 st2 : Byte) (y : Sys) : Sys :=
  let chr : Byte × Byte × Byte :=
    match op.last with
    | some (c, h, s) => (c, h, s + 1)
    | none => (op.c, op.h, op.s)
  y.fdcFinishWith op.d [st0 ic (bitOf op.h 0) op.d, st1, st2, chr.1, chr.2.1, chr.2.2, op.n]

/-- Record the host-visible last error (R301). -/
def Sys.fdcError (e : FdcError) (y : Sys) : Sys := { y with fdc := { y.fdc with lastError := e } }

/-! ### Commands (R306 to R312) -/

/-- The bytes a command takes (R306), by bits 4:0 of its first byte. -/
def commandBytes (code : BitVec 5) : Nat :=
  match code.toNat with
  | 0x02 => 9
  | 0x03 => 3
  | 0x04 => 2
  | 0x05 => 9
  | 0x06 => 9
  | 0x07 => 2
  | 0x08 => 1
  | 0x0A => 2
  | 0x0D => 6
  | 0x0F => 3
  | _ => 1

/-- Byte `k` of the command being received. -/
def Fdc.cmdByte (f : Fdc) (k : Nat) : Byte := f.cmdFifo.getD k 0

/-- `sense_interrupt()` (R310). -/
def Sys.fdcSenseInterrupt (y : Sys) : Sys :=
  let y := y.fdcSetInt false
  let f := y.fdc
  if 0 < f.resetPoll then
    let k : BitVec 2 := BitVec.ofNat 2 (4 - f.resetPoll)
    let f' :=
      { f with
        resetPoll := f.resetPoll - 1, pendingInt := if f.resetPoll = 1 then false else f.pendingInt }
    { y with fdc := f'.finishResult [st0 3 false k, (f.drives.get k).cyl] }
  else if f.pendingInt then
    { y with fdc := ({ f with pendingInt := false } : Fdc).finishResult [f.lastSt0, f.lastPcn] }
  else { y with fdc := f.finishResult [0x80] }

/-- The common end of `seek` and `recalibrate` (R311): record the status and send the interrupt. -/
def Sys.fdcSeekEnd (d : BitVec 2) (st : Byte) (y : Sys) : Sys :=
  Sys.fdcSetInt true
    { y with
      fdc := { y.fdc with pendingInt := true, lastSt0 := st, lastPcn := (y.fdc.drives.get d).cyl, phase := .idle } }

/-- `seek(d, h, ncn)` (R311). -/
def Sys.fdcSeek (d : BitVec 2) (h : Bool) (ncn : Byte) (y : Sys) : Sys :=
  let v := y.fdc.drives.get d
  if v.present && !(decide (ncn.toNat < v.maxCyl) && decide ((bit8 h).toNat < v.maxHead)) then
    Sys.fdcSeekEnd d (st0 1 h d ||| 0x20) { y with fdc := { y.fdc with badSeek := true, lastError := .badSeek } }
  else
    Sys.fdcSeekEnd d (st0 0 h d ||| 0x20)
      { y with
        fdc := { (y.fdc.modifyDrive d fun v => { v with cyl := ncn, head := bit8 h, sector := 1 }) with badSeek := false } }

/-- `recalibrate(d)` (R311). -/
def Sys.fdcRecalibrate (d : BitVec 2) (y : Sys) : Sys :=
  Sys.fdcSeekEnd d (st0 0 false d ||| 0x20)
    { y with fdc := { (y.fdc.modifyDrive d fun v => { v with cyl := 0, head := 0, sector := 1 }) with badSeek := false } }

/-- The operation record of the command received (R312). -/
def Fdc.buildOp (kind : OpKind) (f : Fdc) : FdcOp :=
  let d : BitVec 2 := (f.cmdByte 1).extractLsb' 0 2
  let hd : Byte := bit8 (bitOf (f.cmdByte 1) 2)
  let v := f.drives.get d
  let base : FdcOp :=
    { kind := kind, d := d, h := hd, c := v.cyl, s := v.sector, n := 2, eot := 0, mt := false, started := false, stalled := false,
      byte := 0, sectorsLeft := 0, last := none }
  match kind with
  | .readData =>
    { base with
      c := f.cmdByte 2, h := f.cmdByte 3, s := f.cmdByte 4, n := f.cmdByte 5, eot := f.cmdByte 6, mt := bitOf (f.cmdByte 0) 7 }
  | .writeData =>
    { base with
      c := f.cmdByte 2, h := f.cmdByte 3, s := f.cmdByte 4, n := f.cmdByte 5, eot := f.cmdByte 6, mt := bitOf (f.cmdByte 0) 7 }
  | .readTrack => { base with c := f.cmdByte 2, h := f.cmdByte 3, s := 1, n := f.cmdByte 5, eot := f.cmdByte 6 }
  | .readSectorId => base
  | .formatTrack => { base with n := f.cmdByte 2, eot := f.cmdByte 3, s := 1 }

/-- The kinds that write the disk (R312). -/
def OpKind.writes : OpKind → Bool
  | .writeData => true
  | .formatTrack => true
  | .readData => false
  | .readTrack => false
  | .readSectorId => false

/-- The kinds that move sectors (R312, R313). -/
def OpKind.transfers : OpKind → Bool
  | .readData => true
  | .writeData => true
  | .readTrack => true
  | .formatTrack => false
  | .readSectorId => false

/-- `start_operation()` (R312), with the stall of R317.  A format is validated too (R300, log entry 13). -/
def Sys.fdcStartOperation (kind : OpKind) (y : Sys) : Sys :=
  let op := y.fdc.buildOp kind
  let v := y.fdc.drives.get op.d
  let y := { y with fdc := { y.fdc with op := some op, phase := .operation } }
  if !v.present then { y with fdc := { y.fdc with op := some { op with stalled := true }, lastError := .noMedia } }
  else if kind.writes && v.writeProtected then Sys.fdcFinish op 3 0x03 0x00 (y.fdcError .writeProtect)
  else if kind.transfers && (op.n != 2 || !v.valid op.c op.h op.s) then
    let bad := !v.valid op.c op.h op.s
    Sys.fdcFinish op 1 0x04 0x00
      { y with fdc := { y.fdc with badSeek := bad, lastError := if bad then .badSeek else .badRead } }
  else if kind = .formatTrack && !v.valid op.c op.h op.s then
    Sys.fdcFinish op 1 0x04 0x00 { y with fdc := { y.fdc with badSeek := true, lastError := .badSeek } }
  else y

/-- `dispatch()` (R309). -/
def Sys.fdcDispatch (y : Sys) : Sys :=
  let f := y.fdc
  let code : BitVec 5 := (f.cmdByte 0).extractLsb' 0 5
  let d : BitVec 2 := (f.cmdByte 1).extractLsb' 0 2
  let h := bitOf (f.cmdByte 1) 2
  if code = 0x08 then y.fdcSenseInterrupt
  else
    let y := { y with fdc := { f with resetPoll := 0 } }
    match code.toNat with
    | 0x03 => { y with fdc := { y.fdc with specify := (f.cmdByte 1, f.cmdByte 2), phase := .idle } }
    | 0x04 => { y with fdc := y.fdc.finishResult [y.fdc.st3 d h] }
    | 0x07 => y.fdcRecalibrate d
    | 0x0F => y.fdcSeek d h (f.cmdByte 2)
    | 0x02 => y.fdcStartOperation .readTrack
    | 0x05 => y.fdcStartOperation .writeData
    | 0x06 => y.fdcStartOperation .readData
    | 0x0A => y.fdcStartOperation .readSectorId
    | 0x0D => y.fdcStartOperation .formatTrack
    | _ => { y with fdc := y.fdc.finishResult [0x80] }

/-! ### The data register (R307, R308) -/

/-- `write_data(v)` (R307). -/
def Sys.fdcWriteData (v : Byte) (y : Sys) : Sys :=
  match y.fdc.phase with
  | .idle =>
    let y := y.fdcSetInt false
    let n := commandBytes (v.extractLsb' 0 5)
    let y := { y with fdc := { y.fdc with cmdFifo := [v], cmdLen := n } }
    if n = 1 then y.fdcDispatch else { y with fdc := { y.fdc with phase := .command } }
  | .command =>
    let fifo := y.fdc.cmdFifo ++ [v]
    let y := { y with fdc := { y.fdc with cmdFifo := fifo } }
    if fifo.length = y.fdc.cmdLen then y.fdcDispatch else y
  | .reset => y.report (.fdcWrite v)
  | .operation => y.report (.fdcWrite v)
  | .result => y.report (.fdcWrite v)

/-- `read_data()` (R308): a draw outside the result phase. -/
def Sys.fdcReadData (y : Sys) : Byte × Sys :=
  match y.fdc.phase, y.fdc.resFifo with
  | .result, v :: rest =>
    let f := { y.fdc with resFifo := rest, resRead := y.fdc.resRead + 1 }
    let y := { y with fdc := f }
    let y := if f.resRead = 1 then y.fdcSetInt false else y
    (v, if rest = [] then { y with fdc := { y.fdc with phase := .idle, resRead := 0 } } else y)
  | _, _ => y.drawByte

/-- A read of port 3F0h + k (R297): `none` is a draw. -/
def Sys.fdcRead (k : BitVec 3) (y : Sys) : Byte × Sys :=
  match k.toNat with
  | 4 => (y.fdc.msr, y)
  | 5 => y.fdcReadData
  | _ => y.drawByte

/-- A write to port 3F0h + k (R297). -/
def Sys.fdcWrite (k : BitVec 3) (v : Byte) (y : Sys) : Sys :=
  match k.toNat with
  | 2 => y.fdcWriteDor v
  | 5 => y.fdcWriteData v
  | _ => y

/-! ### The operation phase (R313, R315, R316) -/

/-- `next_sector()` (R313): `none` is the end of the cylinder. -/
def FdcOp.nextSector (op : FdcOp) (heads : Nat) : Option FdcOp :=
  if op.s < op.eot then some { op with s := op.s + 1 }
  else if op.mt && op.h == 0 && heads == 2 then some { op with h := 1, s := 1 }
  else none

/-- Store the operation record. -/
def Sys.fdcSetOp (op : FdcOp) (y : Sys) : Sys := { y with fdc := { y.fdc with op := some op } }

/-- A transfer's first tick (R313). -/
def Sys.fdcFirstTick (op : FdcOp) (y : Sys) : Sys :=
  let op := { op with started := true }
  let size := y.dma.size 2
  if size % 512 != 0 then Sys.fdcFinish op 1 0x00 0x00 ((y.fdcSetOp op).fdcError .dmaError)
  else y.fdcSetOp { op with sectorsLeft := size / 512 }

/-- What follows the transfer of one byte (R313), the terminal count given. -/
def Sys.fdcAfterByte (op : FdcOp) (tc : Bool) (y : Sys) : Sys :=
  let op := { op with byte := op.byte + 1, last := some (op.c, op.h, op.s) }
  let heads := (y.fdc.drives.get op.d).maxHead
  if op.byte = 512 then
    let op := { op with byte := 0, sectorsLeft := op.sectorsLeft - 1 }
    let y := { y with fdc := y.fdc.modifyDrive op.d fun v => { v with head := op.h, sector := op.s } }
    if op.sectorsLeft = 0 || tc then y.fdcFinish op 0 0x00 0x00
    else
      match op.nextSector heads with
      | none => Sys.fdcFinish op 1 0x80 0x00 (y.fdcError .badRead)
      | some op =>
        if (y.fdc.drives.get op.d).valid op.c op.h op.s then y.fdcSetOp op
        else Sys.fdcFinish op 1 0x04 0x00 (y.fdcError .badRead)
  else if tc then y.fdcFinish op 0 0x00 0x00
  else y.fdcSetOp op

/-- A transfer's later tick (R313), and whether it serviced a byte. -/
def Sys.fdcTransferTick (cfg : Config) (op : FdcOp) (y : Sys) : Sys × Bool :=
  if !bitOf y.fdc.dor 3 || !y.dma.ready 2 then (y, false)
  else
    let v := y.fdc.drives.get op.d
    let a := v.offset op.c op.h op.s + op.byte
    if v.imageSize ≤ a then (Sys.fdcFinish op 1 0x04 0x00 (y.fdcError .badRead), false)
    else
      let y :=
        if op.kind = .writeData then
          let r := y.dmaRead cfg 2
          { r.2 with fdc := r.2.fdc.modifyDrive op.d fun v => { v with image := v.image.set a r.1 } }
        else y.dmaWrite cfg 2 (v.image.get a)
      (y.fdcAfterByte op (y.dma.terminalCount 2), true)

/-- FormatTrack's later tick (R316), and whether it serviced a byte. -/
def Sys.fdcFormatTick (cfg : Config) (op : FdcOp) (y : Sys) : Sys × Bool :=
  let go := bitOf y.fdc.dor 3 && y.dma.ready 2
  let y :=
    if go then
      let r := y.dmaRead cfg 2
      { r.2 with fdc := { r.2.fdc with fmtFifo := r.2.fdc.fmtFifo ++ [r.1] } }
    else y
  if y.fdc.fmtFifo.length = 4 * op.eot.toNat || y.dma.terminalCount 2 then
    let chrn : Byte × Byte × Byte × Byte :=
      match y.fdc.fmtFifo.reverse with
      | n :: r :: h :: c :: _ => (c, h, r, n)
      | _ => ((y.fdc.drives.get op.d).cyl, op.h, 0, op.n)
    let y := { y with fdc := { y.fdc with fmtFifo := [] } }
    (y.fdcFinishWith op.d [st0 0 (bitOf op.h 0) op.d, 0x00, 0x00, chrn.1, chrn.2.1, chrn.2.2.1 + 1, chrn.2.2.2], go)
  else (y, go)

/-- One operation tick of an operation that does not stall (R313, R315, R316), and whether it serviced a byte. -/
def Sys.fdcOpTick (cfg : Config) (op : FdcOp) (y : Sys) : Sys × Bool :=
  match op.kind with
  | .readSectorId => (y.fdcFinish op 0 0x00 0x00, false)
  | .formatTrack => if op.started then y.fdcFormatTick cfg op else (y.fdcSetOp { op with started := true }, false)
  | .readData => if op.started then y.fdcTransferTick cfg op else (y.fdcFirstTick op, false)
  | .writeData => if op.started then y.fdcTransferTick cfg op else (y.fdcFirstTick op, false)
  | .readTrack => if op.started then y.fdcTransferTick cfg op else (y.fdcFirstTick op, false)

/-- Whether the FDC agent has an enabled step (R322, R323): an operation that does not stall. -/
def Fdc.ticking (f : Fdc) : Bool :=
  match f.phase, f.op with
  | .operation, some op => !op.stalled
  | _, _ => false

/-- The step of the FDC agent (R322): one operation tick with the dropout of R265, nothing where it has no enabled step; and whether a
DMA byte was serviced. -/
def Sys.fdcStep (cfg : Config) (y : Sys) : Sys × Bool :=
  match y.fdc.phase, y.fdc.op with
  | .operation, some op =>
    if op.stalled then (y, false)
    else
      let r := y.fdcOpTick cfg op
      (if r.2 then r.1 else { r.1 with dma := r.1.dma.tick 2 }, r.2)
  | _, _ => (y, false)

/-! ### Media (R339) -/

/-- Whether the FDC is in the Operation phase on drive `d` (R338). -/
def Fdc.busyOn (f : Fdc) (d : BitVec 2) : Bool :=
  match f.phase, f.op with
  | .operation, some op => op.d == d
  | _, _ => false

/-- Put an image into a drive (R339): a size that R299 does not list and a drive beyond `DRIVE_COUNT` are refused at the mount. -/
def Fdc.insert (cfg : Config) (d : BitVec 2) (size : Nat) (bytes : List Host.Cell) (wp : Bool) (f : Fdc) : Fdc :=
  if d.toNat < cfg.driveCount then
    match geometryOf size with
    | none => f
    | some (cs, hs, ss) =>
      f.modifyDrive d fun v =>
        { v with
          present := true, writeProtected := wp, imageSize := size, image := Memory.ofCells size bytes, maxCyl := cs, maxHead := hs,
          maxSect := ss }
  else f

/-- Mount an image (R339); nothing is mounted during an operation on the drive (R338). -/
def Fdc.mount (cfg : Config) (d : BitVec 2) (size : Nat) (bytes : List Host.Cell) (wp : Bool) (f : Fdc) : Fdc :=
  if f.busyOn d then f else f.insert cfg d size bytes wp

/-- Eject (R339). -/
def Fdc.eject (d : BitVec 2) (f : Fdc) : Fdc :=
  if f.busyOn d then f else f.modifyDrive d fun v => { v with present := false }

/-- Set the write protection of a mounted image (R338).  The flag is the drive's (R298), so it is set also where no image is mounted
and on a drive beyond `DRIVE_COUNT`, which R338 does not speak of (DESIGN CHOICE, log entry 16). -/
def Fdc.setWriteProtect (d : BitVec 2) (wp : Bool) (f : Fdc) : Fdc :=
  if f.busyOn d then f else f.modifyDrive d fun v => { v with writeProtected := wp }

end Sys2Proof.Machine
end

