-- ==== Sys2Proof/Machine/Bus.lean ====
section
/-!
DEFINITION. Bus.lean: the bus transactions of the CPU (20_memory.md, 21_biu_queue.md): code fetches, the clock tick, memory accesses, I/O
dispatch, the host's actions (R338), and the steps other agents, the host among them, take between two transactions (R55).
-/
namespace Sys2Proof.Machine

/-- The outcome of a part of a step. -/
abbrev Res (α : Type) := Host.Outcome α Fault Refusal

/-- Go on from a next state; a fault or a refusal ends the step (R14). -/
def andThen {α β : Type} (r : Res α) (f : α → Res β) : Res β :=
  match r with
  | .next a => f a
  | .fault e => .fault e
  | .refused e => .refused e

/-- `phys(seg, off)` (R9, R41). -/
def phys (seg off : Word) : Phys := (seg.zeroExtend 20 <<< 4) + off.zeroExtend 20

/-- The instruction pointer (R22). -/
def ip (s : State) : Word := s.biu.pc - BitVec.ofNat 16 s.biu.queue.length

/-! ### Code fetch (R63, R64, R68, R73) -/

/-- The bytes one code fetch takes (R64). -/
def fetchWidth (s : State) : Nat :=
  match s.cfg.cpuModel with
  | .i8088 => 1
  | .i8086 => if s.biu.pc.getLsbD 0 then 1 else 2

/-- The bytes of one code fetch (R63): `k` bytes at `phys(CS, PC)` are appended to the queue and PC advances. -/
def codeFetchBytes : Nat → State → State
  | 0, s => s
  | k + 1, s =>
    let r := s.sys.readByte s.cfg (phys s.sregs.cs s.biu.pc)
    codeFetchBytes k { s with sys := r.2, biu := { s.biu with queue := s.biu.queue ++ [r.1], pc := s.biu.pc + 1 } }

/-- T4 of a code fetch (R70, R73): its bytes are pushed and are available from the next cycle on. -/
def pushFetched (s : State) : State :=
  let k := fetchWidth s
  let t := codeFetchBytes k s
  { t with biu := { t.biu with fetchState := .idle, fresh := k } }

/-- A code fetch past its T1 completes (R68). -/
def finishFetch (s : State) : State :=
  if s.biu.fetching then pushFetched { s with biu := s.biu.endCycle s.cfg } else s

/-- What the T1 of a code fetch latches (R63, R69).  LOCK is not asserted, also within an instruction with the LOCK prefix: R220 and R55
do not say whether a code fetch is one of that instruction's bus cycles (DESIGN CHOICE, log entry 36). -/
def fetchStart (s : State) : CycleStart :=
  let a := phys s.sregs.cs s.biu.pc
  ⟨.codeFetch, a, waitStates s.cfg .codeFetch a, false⟩

/-- One code-fetch transaction, to its T4 (R63); the one in flight where there is one. -/
def codeFetch (s : State) : State :=
  finishFetch (if s.biu.fetching then s else { s with biu := s.biu.startFetch s.cfg (fetchStart s) })

/-- Whether `prefetch_step` is enabled (R63, R323). -/
def prefetchEnabled (s : State) : Bool :=
  !s.eu.halted && s.eu.fault.isNone && s.biu.fetchState != .suspended &&
    decide (s.biu.queue.length + fetchWidth s ≤ s.cfg.queueMax)

/-- `prefetch_step` (R63), nothing where it is not enabled. -/
def prefetchStep (s : State) : State := if prefetchEnabled s then codeFetch s else s

/-! ### The clock (R69 to R76, R80) -/

/-- A settled BIU state may be left for the prefetcher (R74). -/
def BiuState.settled (b : BiuState) : Bool :=
  match b with
  | .idle => true
  | .eu => true
  | .prefetch => true
  | .toEu _ => false
  | .toPrefetch _ => false
  | .toIdle _ => false

/-- The transition to the prefetcher (R74). -/
def BiuState.towardsPrefetch (d : BiuDelays) (b : BiuState) : BiuState :=
  match b with
  | .idle => enRoute d.idleToPrefetch .toPrefetch .prefetch
  | .eu => enRoute d.euToPrefetch .toPrefetch .prefetch
  | .prefetch => .prefetch
  | .toEu n => .toEu n
  | .toPrefetch n => .toPrefetch n
  | .toIdle n => .toIdle n

/-- Schedule a code fetch that starts its T1 in `n` cycles (R75, `FETCH_SCHEDULE`), where none is planned and none is held back; the BIU
state goes to the prefetcher at once.  In a transition (ToEU, ToPrefetch, ToIdle) the choice is dropped and nothing is scheduled:
FETCH_SCHEDULE is OPEN, and R74 and R75 do not say whether a fetch may be scheduled there (DESIGN CHOICE, log entry 30). -/
def planFetch (n : Nat) (s : State) : State :=
  if (s.biu.fetchState == .idle || s.biu.fetchState == .delayDone) && s.biu.delay == 0 && s.biu.state.settled && prefetchEnabled s then
    { s with
      biu := { s.biu with fetchState := .scheduled n, state := s.biu.state.towardsPrefetch s.cfg.biuDelays } }
  else s

/-- Whether a scheduled fetch starts its T1 at this tick (R70, R75): it is due, the bus is at rest and the prefetcher's. -/
def fetchDue (s : State) : Bool :=
  match s.biu.fetchState with
  | .scheduled n =>
    decide (n ≤ 1) && s.biu.delay == 0 && (s.biu.tCycle == .ti || s.biu.tCycle == .t4) && s.biu.state == .prefetch
  | .idle => false
  | .inProgress => false
  | .delayed _ => false
  | .delayDone => false
  | .aborting _ => false
  | .suspended => false
  | .blockedByEu => false

/-- The T-state of a tick: a fetch that is due starts, and is cancelled where there is no longer room for it (log entry 30). -/
def tickBiu (s : State) : Biu :=
  if fetchDue s then
    if prefetchEnabled s then Biu.advance s.cfg (some (fetchStart s)) { s.biu with fetchState := .inProgress }
    else Biu.advance s.cfg none { s.biu with fetchState := .idle }
  else s.biu.advance s.cfg none

/-- One T-state (R80): `mc_pc` moves where a value is given, and at the T4 of a code fetch its bytes are pushed (R70). -/
def tick (mcPc : Option Nat) (s : State) : State :=
  let b := tickBiu s
  let s := { s with biu := { b with mcPc := mcPc.getD b.mcPc } }
  if s.biu.fetching && s.biu.tCycle == .t4 then pushFetched s else s

/-- One CPU tick with its choices (R75, R80): a fetch is scheduled where the choice says so, then the T-state runs. -/
def clockTick (c : ClockIn) (s : State) : State :=
  tick c.mcPc
    (match c.fetch with
      | some n => planFetch n s
      | none => s)

/-- A T-state in which nothing is chosen: no fetch is scheduled and `mc_pc` stays. -/
def idleTick (s : State) : State := tick none s

/-! ### Other agents between two transactions (R55) -/

/-- `set_irq` from outside the CORE (R231): IR6 belongs to the FDC. -/
def envIrq (i : BitVec 3) (level : Bool) (y : Sys) : Sys := if i = 6 then y else { y with pic := y.pic.setIrq i level }

/-- One step of the FDC agent (R322); while the DMA controller holds the bus for a byte the CPU's cycle waits (R77, log
entry 35). -/
def fdcTurn (s : State) : State :=
  let r := s.sys.fdcStep s.cfg
  { s with sys := r.1, biu := if r.2 then { s.biu with dmaWait := s.cfg.dmaHold } else s.biu }

/-- One step of the video card (R322). -/
def crtcTurn (s : State) : State := { s with sys := s.sys.crtcStep s.cfg s.biu.cycleCount }

/-! ### Host and environment (R230, R338, R339) -/

/-- `set_nmi(level)` (R230). -/
def setNmi (level : Bool) (s : State) : State :=
  { s with eu := { s.eu with nmiLatch := s.eu.nmiLatch || (level && !s.eu.nmiPrev), nmiPrev := level } }

/-- One action of the host or the environment during a run (R338). -/
def hostStep (a : HostAction) (s : State) : State :=
  match a with
  | .setNmi level => setNmi level s
  | .setIrq i level => { s with sys := envIrq i level s.sys }
  | .mount d size bytes wp => { s with sys := { s.sys with fdc := s.sys.fdc.mount s.cfg d size bytes wp } }
  | .eject d => { s with sys := { s.sys with fdc := s.sys.fdc.eject d } }
  | .setWriteProtect d wp => { s with sys := { s.sys with fdc := s.sys.fdc.setWriteProtect d wp } }
  | .setTag a t => { s with sys := { s.sys with tags := setTagAt s.sys.tags a.toNat t } }

/-- One step of another agent. -/
def midStep (s : State) (t : MidTurn) : State :=
  match t with
  | .prefetch => prefetchStep s
  | .fdc => fdcTurn s
  | .crtc => crtcTurn s
  | .clock c => clockTick c s
  | .host a => hostStep a s

/-- The steps other agents take before the CPU's next transaction or sampling of its interrupt lines (R55): one batch of
`interleave`. -/
def busGap (s : State) : State :=
  match s.interleave with
  | [] => s
  | b :: rest => b.foldl midStep { s with interleave := rest }

/-! ### Bus cycles of the execution unit (R68, R69) -/

/-- Whether the LOCK output is asserted (R220): in the bus cycles of an instruction with the prefix. -/
def lockAsserted (s : State) : Bool := s.eu.prefixes.lock && (s.eu.phase == .executing || s.eu.phase == .repeating)

/-- One bus cycle of the execution unit, after a code fetch in flight (R68). -/
def busCycle (st : BusStatus) (a : Phys) (s : State) : State :=
  let s := finishFetch s
  { s with biu := s.biu.euCycle s.cfg ⟨st, a, waitStates s.cfg st a, lockAsserted s⟩ }

/-- A transaction of the execution unit up to its T4, where its data moves (R69): the gap, then the bus cycle. -/
def beginBus (st : BusStatus) (a : Phys) (s : State) : State := busCycle st a (busGap s)

/-- The halt cycle (R78), other agents stepping before it; it latches no address of its own (log entry 11). -/
def haltCycle (s : State) : State :=
  let s := finishFetch (busGap s)
  busCycle .halt s.biu.busAddr s

/-- The two acknowledge cycles (R79), LOCK asserted in the second; they latch no address of their own (log entry 11). -/
def intaCycles (s : State) : State :=
  let s := finishFetch s
  let c (lock : Bool) : CycleStart := ⟨.inta, s.biu.busAddr, waitStates s.cfg .inta s.biu.busAddr, lock⟩
  { s with biu := Biu.euCycle s.cfg (c true) (s.biu.euCycle s.cfg (c false)) }

/-- Note an access breakpoint on a byte an instruction reads or writes (R342).  The pushes and vector reads of an interrupt entry, for
which R342 does not say whether they count, are noted too; those of an entry at a boundary come after its flag was raised, so that the
flag is raised at the boundary after (DESIGN CHOICE, log entry 37). -/
def noteAccess (a : Phys) (s : State) : State :=
  if (tagAt s.sys.tags a.toNat).accessBp then { s with host := { s.host with bpPending := true } } else s

/-! ### Memory transactions (R44, R62) -/

/-- Read one byte, within a transaction. -/
def readCell (a : Phys) (s : State) : Byte × State :=
  let s := noteAccess a s
  let r := s.sys.readByte s.cfg a
  (r.1, { s with sys := r.2 })

/-- Write one byte, within a transaction. -/
def writeCell (a : Phys) (v : Byte) (s : State) : State :=
  let s := noteAccess a s
  { s with sys := s.sys.writeByte s.cfg a v }

/-- A byte read transaction. -/
def busRead (a : Phys) (s : State) : Byte × State := readCell a (beginBus .memRead a s)

/-- A byte write transaction. -/
def busWrite (a : Phys) (v : Byte) (s : State) : State := writeCell a v (beginBus .memWrite a s)

/-- Whether a word at a physical address is one transaction (R44): on the 8086, at an even address. -/
def oneTransaction (s : State) (a : Phys) : Bool := s.cfg.cpuModel == .i8086 && !a.getLsbD 0

/-- A word read, the low byte at `a0` and the high byte at `a1` (R43, R44). -/
def busReadWord (a0 a1 : Phys) (s : State) : Word × State :=
  let lo := busRead a0 s
  let hi := if oneTransaction s a0 then readCell a1 lo.2 else busRead a1 lo.2
  (wordOf lo.1 hi.1, hi.2)

/-- A word write, the low byte at `a0` and the high byte at `a1` (R43, R44). -/
def busWriteWord (a0 a1 : Phys) (v : Word) (s : State) : State :=
  let s1 := busWrite a0 (loByte v) s
  if oneTransaction s a0 then writeCell a1 (hiByte v) s1 else busWrite a1 (hiByte v) s1

/-- `SegRead(seg, off, w)` (R9): a word's high byte is at offset `off + 1` of the same segment (R42). -/
def segRead (w : Width) (seg off : Word) (s : State) : Val w × State :=
  match w with
  | .byte => busRead (phys seg off) s
  | .word => busReadWord (phys seg off) (phys seg (off + 1)) s

/-- `SegWrite(seg, off, w, v)` (R9). -/
def segWrite (w : Width) (seg off : Word) (v : Val w) (s : State) : State :=
  match w with
  | .byte => busWrite (phys seg off) v s
  | .word => busWriteWord (phys seg off) (phys seg (off + 1)) v s

/-! ### Ports (R52 to R54) -/

/-- The device, or the oracle, that answers a port below 0400h (R53). -/
inductive PortOwner where
  | dma (port : BitVec 4)
  | pic0
  | pic1
  | page (port : Nat)
  | video (port : BitVec 4)
  | fdc (port : BitVec 3)
  | none
  deriving DecidableEq, Repr

/-- Port ownership (R53). -/
def portOwner (cfg : Config) (port : Word) : PortOwner :=
  let n := port.toNat
  if n < 0x10 then .dma (port.truncate 4)
  else if n = 0x20 then .pic0
  else if n = 0x21 then .pic1
  else if 0x80 ≤ n && n < 0x90 then .page n
  else if 0x3B0 ≤ n && n < 0x3C0 && cfg.videoAdapter == .mda then .video (port.truncate 4)
  else if 0x3D0 ≤ n && n < 0x3E0 && cfg.videoAdapter == .cga then .video (port.truncate 4)
  else if 0x3F0 ≤ n && n < 0x3F8 then .fdc (port.truncate 3)
  else .none

/-- A read of a port below 0400h (R54): its owner's rule, and a draw of `IO_ORACLE` where it has none. -/
def Sys.portRead (cfg : Config) (port : Word) (y : Sys) : Byte × Sys :=
  match portOwner cfg port with
  | .dma p =>
    let r := y.dma.read y.fdc.dmaRequest p
    let y := { y with dma := r.2 }
    match r.1 with
    | some v => (v, y)
    | none => y.drawByte
  | .pic0 =>
    let r := y.pic.read20
    (r.1, { y with pic := r.2 })
  | .pic1 => (y.pic.read21, y)
  | .page n => (y.dma.readPage n, y)
  | .video p => y.crtcRead p
  | .fdc p => y.fdcRead p
  | .none => y.drawByte

/-- A write to a port below 0400h (R54). -/
def Sys.portWrite (cfg : Config) (port : Word) (v : Byte) (y : Sys) : Sys :=
  match portOwner cfg port with
  | .dma p => { y with dma := y.dma.write p v }
  | .pic0 => { y with pic := y.pic.write20 v }
  | .pic1 => { y with pic := y.pic.write21 v }
  | .page n => { y with dma := y.dma.writePage n v }
  | .video p => y.crtcWrite cfg p v
  | .fdc p => y.fdcWrite p v
  | .none => y

/-- `IoRead(port, 8)` (R52, R54). -/
def ioReadByte (port : Word) (s : State) : Res (Byte × State) :=
  if 0x400 ≤ port.toNat then .refused .portAbove3FF
  else
    let s := beginBus .ioRead (port.zeroExtend 20) s
    let r := s.sys.portRead s.cfg port
    .next (r.1, { s with sys := r.2 })

/-- `IoWrite(port, 8, v)` (R52, R54). -/
def ioWriteByte (port : Word) (v : Byte) (s : State) : Res State :=
  if 0x400 ≤ port.toNat then .refused .portAbove3FF
  else
    let s := beginBus .ioWrite (port.zeroExtend 20) s
    .next { s with sys := s.sys.portWrite s.cfg port v }

/-- `IoRead(port, w)` (R52): a word is two byte transactions, the low byte from `port`. -/
def ioRead (w : Width) (port : Word) (s : State) : Res (Val w × State) :=
  match w with
  | .byte => ioReadByte port s
  | .word =>
    andThen (ioReadByte port s) fun lo =>
      andThen (ioReadByte (port + 1) lo.2) fun hi => .next ((wordOf lo.1 hi.1 : Word), hi.2)

/-- `IoWrite(port, w, v)` (R52). -/
def ioWrite (w : Width) (port : Word) (v : Val w) (s : State) : Res State :=
  match w with
  | .byte => ioWriteByte port v s
  | .word =>
    let v : Word := v
    andThen (ioWriteByte port (loByte v) s) fun s => ioWriteByte (port + 1) (hiByte v) s

end Sys2Proof.Machine
end

