-- ==== Sys2Proof/Machine/Flags.lean ====
section
/-!
DEFINITION. Flags.lean: FLAGS as a word (R25, R26) and every flag computation: R13, R139, R140, R162, the shift and rotate steps of R168 to
R175, and the conditions of R107.
-/
namespace Sys2Proof.Machine

/-! ### FLAGS as a word -/

/-- A bit at a place of a word. -/
def flagAt (b : Bool) (i : Nat) : Word := if b then (1 : Word) <<< i else 0

/-- FLAGS as software reads it (R25, R26): bits 1 and 12 to 15 are 1, bits 3 and 5 are 0. -/
def Flags.toWord (f : Flags) : Word :=
  0xF002 ||| flagAt f.cf 0 ||| flagAt f.pf 2 ||| flagAt f.af 4 ||| flagAt f.zf 6 ||| flagAt f.sf 7 ||| flagAt f.tf 8 |||
    flagAt f.if_ 9 ||| flagAt f.df 10 ||| flagAt f.of_ 11

/-- A write of FLAGS (R26): the nine flags from the word, its reserved bits dropped. -/
def Flags.ofWord (v : Word) : Flags where
  cf := v.getLsbD 0
  pf := v.getLsbD 2
  af := v.getLsbD 4
  zf := v.getLsbD 6
  sf := v.getLsbD 7
  tf := v.getLsbD 8
  if_ := v.getLsbD 9
  df := v.getLsbD 10
  of_ := v.getLsbD 11

/-- SAHF's write (R137): SF, ZF, AF, PF, CF from a byte. -/
def Flags.ofAh (v : Byte) (f : Flags) : Flags :=
  { f with sf := v.getLsbD 7, zf := v.getLsbD 6, af := v.getLsbD 4, pf := v.getLsbD 2, cf := v.getLsbD 0 }

/-! ### SZP (R13) -/

/-- `parity8` (R7): whether the number of one bits is even. -/
def parity8 (v : Byte) : Bool :=
  !(v.getLsbD 0 ^^ v.getLsbD 1 ^^ v.getLsbD 2 ^^ v.getLsbD 3 ^^ v.getLsbD 4 ^^ v.getLsbD 5 ^^ v.getLsbD 6 ^^ v.getLsbD 7)

/-- `SZP(r, w)` (R13). -/
def Flags.szp {n : Nat} (r : BitVec n) (f : Flags) : Flags :=
  { f with sf := r.msb, zf := r == 0, pf := parity8 (r.truncate 8) }

/-! ### Addition and subtraction (R139, R140) -/

/-- `(a + b + c) mod 2^w`. -/
def addCarry {n : Nat} (a b : BitVec n) (c : Bool) : BitVec n := a + b + BitVec.ofNat n c.toNat

/-- `(a - b - c) mod 2^w`. -/
def subBorrow {n : Nat} (a b : BitVec n) (c : Bool) : BitVec n := a - b - BitVec.ofNat n c.toNat

/-- The flags of an addition with carry-in (R139). -/
def Flags.add {n : Nat} (a b : BitVec n) (c : Bool) (f : Flags) : Flags :=
  let r := addCarry a b c
  Flags.szp r
    { f with
      cf := decide (2 ^ n ≤ a.toNat + b.toNat + c.toNat), af := (a ^^^ b ^^^ r).getLsbD 4,
      of_ := ((a ^^^ r) &&& (b ^^^ r)).msb }

/-- The flags of a subtraction with borrow-in (R140). -/
def Flags.sub {n : Nat} (a b : BitVec n) (c : Bool) (f : Flags) : Flags :=
  let r := subBorrow a b c
  Flags.szp r
    { f with
      cf := decide (a.toNat < b.toNat + c.toNat), af := (a ^^^ b ^^^ r).getLsbD 4, of_ := ((a ^^^ b) &&& (a ^^^ r)).msb }

/-- The flags of INC (R146): CF stays. -/
def Flags.inc {n : Nat} (a : BitVec n) (f : Flags) : Flags := { f.add a 1 false with cf := f.cf }

/-- The flags of DEC (R147): CF stays. -/
def Flags.dec {n : Nat} (a : BitVec n) (f : Flags) : Flags := { f.sub a 1 false with cf := f.cf }

/-- The flags of a logical operation (R162), AF a free bit. -/
def Flags.logic {n : Nat} (r : BitVec n) (freeAf : Bool) (f : Flags) : Flags :=
  Flags.szp r { f with cf := false, of_ := false, af := freeAf }

/-! ### Shift and rotate steps (R168 to R175) -/

/-- What a step of a shift or rotate changes. -/
structure ShiftSt (n : Nat) where
  x : BitVec n
  cf : Bool
  of_ : Bool

/-- One step of ROL (R169). -/
def rolStep {n : Nat} (t : ShiftSt n) : ShiftSt n :=
  let c := t.x.msb
  let y := (t.x <<< 1) ||| BitVec.ofNat n c.toNat
  ⟨y, c, y.msb ^^ c⟩

/-- One step of ROR (R170). -/
def rorStep {n : Nat} (t : ShiftSt n) : ShiftSt n :=
  let c := t.x.getLsbD 0
  let y := (t.x >>> 1) ||| (BitVec.ofNat n c.toNat <<< (n - 1))
  ⟨y, c, y.getLsbD (n - 1) ^^ y.getLsbD (n - 2)⟩

/-- One step of RCL (R171). -/
def rclStep {n : Nat} (t : ShiftSt n) : ShiftSt n :=
  let c := t.x.msb
  let y := (t.x <<< 1) ||| BitVec.ofNat n t.cf.toNat
  ⟨y, c, y.msb ^^ c⟩

/-- One step of RCR (R172). -/
def rcrStep {n : Nat} (t : ShiftSt n) : ShiftSt n :=
  let c := t.x.getLsbD 0
  let y := (t.x >>> 1) ||| (BitVec.ofNat n t.cf.toNat <<< (n - 1))
  ⟨y, c, y.getLsbD (n - 1) ^^ y.getLsbD (n - 2)⟩

/-- One step of SHL (R173). -/
def shlStep {n : Nat} (t : ShiftSt n) : ShiftSt n :=
  let c := t.x.msb
  let y := t.x <<< 1
  ⟨y, c, y.msb ^^ c⟩

/-- One step of SHR (R174). -/
def shrStep {n : Nat} (t : ShiftSt n) : ShiftSt n := ⟨t.x >>> 1, t.x.getLsbD 0, t.x.msb⟩

/-- One step of SAR (R175). -/
def sarStep {n : Nat} (t : ShiftSt n) : ShiftSt n :=
  ⟨(t.x >>> 1) ||| (BitVec.ofNat n t.x.msb.toNat <<< (n - 1)), t.x.getLsbD 0, false⟩

/-- `count` steps (R168). -/
def shiftTimes {n : Nat} (step : ShiftSt n → ShiftSt n) : Nat → ShiftSt n → ShiftSt n
  | 0, t => t
  | k + 1, t => shiftTimes step k (step t)

/-! ### Conditions (R107) -/

/-- O. -/
def condO (f : Flags) : Bool := f.of_

/-- B. -/
def condB (f : Flags) : Bool := f.cf

/-- E. -/
def condE (f : Flags) : Bool := f.zf

/-- BE. -/
def condBe (f : Flags) : Bool := f.cf || f.zf

/-- S. -/
def condS (f : Flags) : Bool := f.sf

/-- P. -/
def condP (f : Flags) : Bool := f.pf

/-- L. -/
def condL (f : Flags) : Bool := f.sf != f.of_

/-- LE. -/
def condLe (f : Flags) : Bool := f.zf || f.sf != f.of_

end Sys2Proof.Machine
end

