-- ==== Sys2Proof/Machine/Ops.lean ====
section
/-!
DEFINITION. Ops.lean: the named operations over registers, flags, the stack and control, and TAKING AN INTERRUPT and returning from one
(60_exceptions.md R226, R228), each in one place.
-/
namespace Sys2Proof.Machine

/-! ### General registers (R17, R18, R105) -/

/-- `r16[r]`. -/
def Regs.get16 (r : Reg) (g : Regs) : Word :=
  match r with
  | .r0 => g.ax
  | .r1 => g.cx
  | .r2 => g.dx
  | .r3 => g.bx
  | .r4 => g.sp
  | .r5 => g.bp
  | .r6 => g.si
  | .r7 => g.di

/-- `r16[r] <- v`. -/
def Regs.set16 (r : Reg) (v : Word) (g : Regs) : Regs :=
  match r with
  | .r0 => { g with ax := v }
  | .r1 => { g with cx := v }
  | .r2 => { g with dx := v }
  | .r3 => { g with bx := v }
  | .r4 => { g with sp := v }
  | .r5 => { g with bp := v }
  | .r6 => { g with si := v }
  | .r7 => { g with di := v }

/-- A word with its low byte replaced (R18). -/
def withLow (w : Word) (v : Byte) : Word := wordOf v (hiByte w)

/-- A word with its high byte replaced (R18). -/
def withHigh (w : Word) (v : Byte) : Word := wordOf (loByte w) v

/-- `r8[r]` (R18, R105). -/
def Regs.get8 (r : Reg) (g : Regs) : Byte :=
  match r with
  | .r0 => loByte g.ax
  | .r1 => loByte g.cx
  | .r2 => loByte g.dx
  | .r3 => loByte g.bx
  | .r4 => hiByte g.ax
  | .r5 => hiByte g.cx
  | .r6 => hiByte g.dx
  | .r7 => hiByte g.bx

/-- `r8[r] <- v` (R18): the other half stays. -/
def Regs.set8 (r : Reg) (v : Byte) (g : Regs) : Regs :=
  match r with
  | .r0 => { g with ax := withLow g.ax v }
  | .r1 => { g with cx := withLow g.cx v }
  | .r2 => { g with dx := withLow g.dx v }
  | .r3 => { g with bx := withLow g.bx v }
  | .r4 => { g with ax := withHigh g.ax v }
  | .r5 => { g with cx := withHigh g.cx v }
  | .r6 => { g with dx := withHigh g.dx v }
  | .r7 => { g with bx := withHigh g.bx v }

/-- `r_w[r]`. -/
def Regs.getW (w : Width) (r : Reg) (g : Regs) : Val w :=
  match w with
  | .byte => g.get8 r
  | .word => g.get16 r

/-- `r_w[r] <- v`. -/
def Regs.setW (w : Width) (r : Reg) (v : Val w) (g : Regs) : Regs :=
  match w with
  | .byte => g.set8 r v
  | .word => g.set16 r v

/-- Read a register of the state. -/
def getReg (w : Width) (r : Reg) (s : State) : Val w := s.regs.getW w r

/-- Write a register of the state. -/
def setReg (w : Width) (r : Reg) (v : Val w) (s : State) : State := { s with regs := s.regs.setW w r v }

/-- Replace AX. -/
def setAx (v : Word) (s : State) : State := { s with regs := { s.regs with ax := v } }

/-- Replace CX. -/
def setCx (v : Word) (s : State) : State := { s with regs := { s.regs with cx := v } }

/-- Replace DX. -/
def setDx (v : Word) (s : State) : State := { s with regs := { s.regs with dx := v } }

/-- Replace SP. -/
def setSp (v : Word) (s : State) : State := { s with regs := { s.regs with sp := v } }

/-- Replace SI. -/
def setSi (v : Word) (s : State) : State := { s with regs := { s.regs with si := v } }

/-- Replace DI. -/
def setDi (v : Word) (s : State) : State := { s with regs := { s.regs with di := v } }

/-! ### Segment registers (R20) -/

/-- `sreg[r]`. -/
def SRegs.get (r : SReg) (g : SRegs) : Word :=
  match r with
  | .es => g.es
  | .cs => g.cs
  | .ss => g.ss
  | .ds => g.ds

/-- `sreg[r] <- v`. -/
def SRegs.set (r : SReg) (v : Word) (g : SRegs) : SRegs :=
  match r with
  | .es => { g with es := v }
  | .cs => { g with cs := v }
  | .ss => { g with ss := v }
  | .ds => { g with ds := v }

/-- Write a segment register of the state: the next fetch is delayed by `FETCH_DELAY` (R76). -/
def setSreg (r : SReg) (v : Word) (s : State) : State :=
  { s with sregs := s.sregs.set r v, biu := { s.biu with delay := fetchDelay } }

/-- Set the one-boundary interrupt inhibit (R95, R96). -/
def inhibitNext (s : State) : State := { s with eu := { s.eu with intInhibit := true } }

/-! ### Flags and draws -/

/-- Replace FLAGS. -/
def setFlags (f : Flags) (s : State) : State := { s with flags := f }

/-- A free bit (R11): an undefined flag (D40). -/
def drawBit (s : State) : Bool × State :=
  let r := s.sys.drawBit
  (r.1, { s with sys := r.2 })

/-! ### Control (R11, R24, R66, R67, R91) -/

/-- `suspend_fetch()` (R67): a fetch in flight completes (R68), and none is planned. -/
def suspendFetch (s : State) : State :=
  let s := finishFetch s
  { s with biu := { s.biu with fetchState := .suspended } }

/-- `queue_flush()` of a suspended bus unit (R66), after CORR (R91): PC takes the target, the queue is empty, the fetch state is Idle,
and the next fetch begins `FLUSH_PENALTY` cycles later, which is the `FETCH_DELAY` of a taken branch (R76, log entry 30). -/
def queueFlush (target : Word) (s : State) : State :=
  { s with
    biu :=
      { s.biu.run s.cfg corrCycles with pc := target, queue := [], fetchState := .idle, fresh := 0, delay := flushPenalty } }

/-- `ip <- target` (R11, R66, R67): fetching is suspended, then the queue is flushed. -/
def setIp (target : Word) (s : State) : State := queueFlush target (suspendFetch s)

/-- `cs_ip <- (seg, off)` (R11). -/
def setCsIp (seg off : Word) (s : State) : State :=
  let s := suspendFetch s
  queueFlush off { s with sregs := { s.sregs with cs := seg } }

/-- A relative target (R187, R188): `IP_next + rel`. -/
def relTarget (rel : Word) (s : State) : Word := ip s + rel

/-- A jump by a sign-extended byte (R187, R200). -/
def jumpShort (rel : Byte) (s : State) : State := setIp (relTarget (rel.signExtend 16) s) s

/-- The execute phase of the instruction is over, or has not begun: where the execution unit stands next. -/
def setPhase (p : EuPhase) (s : State) : State := { s with eu := { s.eu with phase := p } }

/-- The CPU holds a fault: it takes no further step until a reset (R14, R235, R323).  The step that raises it answers a next state, the
machine going on (log entry 7). -/
def holdFault (f : Fault) (s : State) : State := { s with eu := { s.eu with fault := some f, phase := .start } }

/-- `in_rep <- false; rep_type <- None` (R97, R183): `rep_mnemonic` keeps the primitive of the last repetition. -/
def clearRep (s : State) : State := { s with eu := { s.eu with inRep := false, repType := .none } }

/-! ### Stack (R10) -/

/-- `Push(v)`. -/
def push (v : Word) (s : State) : State :=
  let sp := s.regs.sp - 2
  let s := setSp sp s
  segWrite .word s.sregs.ss sp v s

/-- `Pop()`. -/
def pop (s : State) : Word × State :=
  let r := segRead .word s.sregs.ss s.regs.sp s
  (r.1, setSp (r.2.regs.sp + 2) r.2)

/-! ### The host's call stack (R341) -/

/-- Record an entry, the oldest of 128 dropped. -/
def pushCall (k : CallKind) (s : State) : State :=
  { s with host := { s.host with callStack := (k :: s.host.callStack).take 128 } }

/-- Drop the top entry. -/
def popCall (s : State) : State := { s with host := { s.host with callStack := s.host.callStack.tail } }

/-! ### Taking an interrupt and returning (R225, R226, R228, R232) -/

/-- The physical address of vector n (R49). -/
def vectorAddr (n : Byte) : Phys := n.zeroExtend 20 <<< 2

/-- Whether the six frame bytes meet the four vector bytes (R226). -/
def frameOverlapsVector (n : Byte) (s : State) : Bool :=
  [1, 2, 3, 4, 5, 6].any fun k =>
    let a := phys s.sregs.ss (s.regs.sp - k)
    a == vectorAddr n || a == vectorAddr n + 1 || a == vectorAddr n + 2 || a == vectorAddr n + 3

/-- The three pushes of an interrupt entry (R226): FLAGS, then, IF and TF cleared, CS and the return offset. -/
def pushFrame (ret : Word) (s : State) : State :=
  let s := push s.flags.toWord s
  let s := setFlags { s.flags with if_ := false, tf := false } s
  let s := push s.sregs.cs s
  push ret s

/-- `o <- MemRead(4n, 2); s <- MemRead(4n + 2, 2); cs_ip <- (s, o)` (R226). -/
def loadVector (n : Byte) (s : State) : State :=
  let o := busReadWord (vectorAddr n) (vectorAddr n + 1) s
  let c := busReadWord (vectorAddr n + 2) (vectorAddr n + 3) o.2
  setCsIp c.1 o.1 c.2

/-- `enter_interrupt(n, ret)` (R226).  A frame that overlaps its vector is refused (D22).  An end of run needs a boundary at which no
interrupt is entered (R343). -/
def enterInterrupt (n : Byte) (ret : Word) (s : State) : Res State :=
  if frameOverlapsVector n s then .refused .frameOverlapsVector
  else
    let s := loadVector n (pushFrame ret (suspendFetch s))
    let s := clearRep (pushCall .interrupt s)
    .next { s with eu := { s.eu with halted := false }, host := { s.host with atBoundary := false } }

/-- A divide error (R225): interrupt 0 with `IP_next`, and the host is informed. -/
def divideError (s : State) : Res State :=
  enterInterrupt 0 (ip s) { s with sys := s.sys.report (.divideError (ip s)) }

/-- The return of IRET (R208, R228): fetching is suspended (R67, log entry 31), then IP, CS and FLAGS, in that order. -/
def returnFromInterrupt (s : State) : State :=
  let o := pop (suspendFetch s)
  let c := pop o.2
  let f := pop c.2
  popCall (setFlags (Flags.ofWord f.1) (setCsIp c.1 o.1 f.2))

/-- Whether INTR is asserted and enabled (R231). -/
def intrPending (s : State) : Bool := s.sys.pic.intr && s.flags.if_

/-- Enter the pending interrupt, NMI before INTR (R95, R230, R232), with a given return offset.  The INTR sample, the two acknowledge
cycles and the PIC's answer on the second are one step (R79, D53). -/
def takeInterrupt (ret : Word) (s : State) : Res State :=
  if s.eu.nmiLatch then enterInterrupt 2 ret { s with eu := { s.eu with nmiLatch := false } }
  else
    match s.sys.pic.inta with
    | none => .refused .intaMcs80
    | some r =>
      let t := intaCycles s
      enterInterrupt r.1 ret { t with sys := { t.sys with pic := r.2 } }

end Sys2Proof.Machine
end

