-- ==== Sys2Proof/Machine/Boundary.lean ====
section
/-!
DEFINITION. Boundary.lean: what stands around an instruction: consuming its bytes (R65, R82, R86), the instruction boundary (R95, R96, R233,
R234), the halted CPU (R216), the host's resets (R324), and the steps of the other agents (R322).
-/
namespace Sys2Proof.Machine

/-! ### Consuming bytes (R65) -/

/-- `FetchByte()` waiting on an empty queue (R65): the prefetcher steps, other agents before it; a suspended fetch is resumed (R67). -/
def fillQueue (s : State) : State :=
  match s.biu.queue with
  | [] =>
    let s := busGap s
    match s.biu.queue with
    | [] =>
      codeFetch
        { s with biu := { s.biu with fetchState := if s.biu.fetchState == .suspended then .idle else s.biu.fetchState } }
    | _ :: _ => s
  | _ :: _ => s

/-- A byte pushed in the current cycle is available in the next one (R73): the execution unit waits for it. -/
def awaitByte (s : State) : State := if s.biu.queue.length ≤ s.biu.fresh then idleTick s else s

/-- `FetchByte()` (R65): the head of the queue, IP advancing by one. -/
def fetchByte (s : State) : Byte × State :=
  let s := awaitByte (fillQueue s)
  match s.biu.queue with
  | b :: q => (b, { s with biu := { s.biu with queue := q } })
  | [] => (0, s)

/-- Consume bytes until they decode (R82, R86), at most `fuel` of them: the instruction, the bytes consumed, the state. -/
def fetchInstr : Nat → List Byte → State → Option Instr × List Byte × State
  | 0, acc, s => (none, acc, s)
  | fuel + 1, acc, s =>
    let r := fetchByte s
    let acc := acc ++ [r.1]
    match decode acc with
    | some (i, _) => (some i, acc, r.2)
    | none => fetchInstr fuel acc r.2

/-- The longest unprefixed instruction, in bytes (R99). -/
def maxUnprefixed : Nat := 6

/-- The start of an instruction (R81, R82): `insn_start`, `tf_prev`, an empty prefix set, and the execute breakpoint of its first
byte (R39, R342).  That tag is read here, before the byte is fetched or consumed: R39 and R342 say at fetch time, and not whether that is
the bus unit's code fetch or the execution unit's first `FetchByte()` (DESIGN CHOICE, log entry 37).  The break flag raised at the boundary before is lowered here: R342 does not say when it is (DESIGN CHOICE, log entry
37). -/
def beginInsn (s : State) : State :=
  let at_ := phys s.sregs.cs (ip s)
  { s with
    eu := { s.eu with insnStart := ip s, tfPrev := s.flags.tf, prefixes := Prefixes.empty }
    host :=
      { s.host with
        breakFlag := false, bpPending := s.host.bpPending || (tagAt s.sys.tags at_.toNat).execBp, atBoundary := false } }

/-- The record of an instruction (R34) at CS:IP, from its prefix set, its bytes after the prefix bytes and its whole size. -/
def Decoded.ofBytes (cs ip : Word) (p : Prefixes) (bytes : List Byte) (size : Nat) (i : Instr) : Decoded where
  opcode := bytes.headD 0
  index := templateIndex (bytes.headD 0) (bytes.getD 1 0)
  prefixes := p
  cs := cs
  ip := ip
  linear := phys cs ip
  size := size
  instr := i

/-- The decoded instruction record (R34). -/
def decodedRecord (i : Instr) (bytes : List Byte) (s : State) : Decoded :=
  Decoded.ofBytes s.sregs.cs s.eu.insnStart s.eu.prefixes bytes (ip s - s.eu.insnStart).toNat i

/-- Decode the next prefix byte or instruction at IP (R82): the instruction with the state after its bytes are consumed, in which it
executes, or none with the state that holds the decode fault.  A prefix byte is decoded by itself (log entry 5), so after one the record
(R34) is of that byte, and it stays so with the fifth prefix's fault; a decode past the length limit leaves the record before it.  R34
and R82 say of neither what the record holds (DESIGN CHOICE, log entry 39). -/
def decodeNext (s : State) : Option Instr × State :=
  let r := fetchInstr maxUnprefixed [] s
  let t := r.2.2
  let failed := (none, holdFault (.instructionDecodeError s.eu.insnStart) t)
  match r.1 with
  | none => failed
  | some i =>
    if maxInsnLen < (ip t - s.eu.insnStart).toNat then failed
    else (some i, { t with eu := { t.eu with decoded := some (decodedRecord i r.2.1 t), phase := .executing } })

/-! ### The instruction boundary (R95) -/

/-- Count the instruction, put it into the history and raise a pending breakpoint (R342): the CPU is at a boundary (R343).  R341 does
not say which cycle count an entry records: it is the one at this moment, the completion (DESIGN CHOICE, log entry 33). -/
def completeInsn (s : State) : State :=
  { s with
    eu := { s.eu with instrCount := s.eu.instrCount + 1, phase := .start }
    host :=
      { s.host with
        history :=
          (match s.eu.decoded with
            | some d => (⟨s.biu.cycleCount, d⟩ :: s.host.history).take 32
            | none => s.host.history)
        breakFlag := s.host.bpPending
        bpPending := false
        atBoundary := true } }

/-- `halted <- true` after HLT, with its report once per halt (R95, R216). -/
def enterHalt (s : State) : State :=
  let y := if s.eu.haltReported then s.sys else s.sys.report (.cpuHalted s.eu.insnStart)
  { s with eu := { s.eu with halted := true, haltReported := true }, sys := y }

/-- `boundary(I)` (R95): at most one interrupt, in the priority of R234. -/
def boundary (s : State) : Res State :=
  let hlt := s.eu.phase == .halting
  let t := completeInsn s
  if t.eu.intInhibit then
    let t := { t with eu := { t.eu with intInhibit := false } }
    .next (if hlt then enterHalt t else t)
  else if t.eu.nmiLatch || intrPending t then takeInterrupt (ip t) t
  else if t.eu.tfPrev then enterInterrupt 1 (ip t) t
  else .next (if hlt then enterHalt t else t)

/-- What follows an execute phase (R81): the boundary where the instruction is over, other agents stepping before its interrupt lines
are sampled (R55); nothing between prefix bytes, between iterations, and after an interrupted repetition (R185). -/
def finishInsn (s : State) : Res State :=
  match s.eu.phase with
  | .executing => boundary (busGap s)
  | .halting => boundary (busGap s)
  | .start => .next s
  | .prefixed => .next s
  | .repeating => .next s

/-- Whether a halted CPU wakes (R216). -/
def wakes (s : State) : Bool := s.eu.nmiLatch || intrPending s

/-- `eu_step` of a halted CPU that wakes (R216): `HALT_RESUME_DELAY` cycles, then the interrupt is entered. -/
def wakeStep (s : State) : Res State :=
  takeInterrupt (ip s)
    { s with
      biu := s.biu.run s.cfg s.cfg.haltResume
      eu := { s.eu with halted := false, haltReported := false } }

/-! ### Resets (R324) -/

/-- The general registers from eight free words (R37). -/
def Regs.drawn (f : Nat → Word) (k : Nat) : Regs where
  ax := f k
  cx := f (k + 1)
  dx := f (k + 2)
  bx := f (k + 3)
  sp := f (k + 4)
  bp := f (k + 5)
  si := f (k + 6)
  di := f (k + 7)

/-- `reset()` (R37, R324, R325), the six cycles counted: the CPU state, devices and memory unchanged; the general registers are free words. -/
def cpuReset (s : State) : State :=
  let k := s.sys.drawCtr
  { s with
    regs := Regs.drawn Config.freeWord k
    sregs := SRegs.reset s.cfg
    flags := Flags.reset
    biu := Biu.reset s.cfg (s.biu.cycleCount + resetCycles)
    eu := Eu.reset s.cfg s.eu.nmiPrev
    sys := { s.sys with drawCtr := k + 8 } }

/-- The machine reset (R324): as power-on, memory and the mounted images kept; what the tables call draws are free words. -/
def machineReset (s : State) : State :=
  let t := cpuReset s
  let k := t.sys.drawCtr
  { t with
    eu := { t.eu with nmiPrev := false }
    sys :=
      { mem := t.sys.mem, tags := [], pic := Pic.reset (loByte (Config.freeWord k)), dma := Dma.reset Config.freeWord (k + 1),
        crtc := Crtc.reset Config.freeWord (k + 21), fdc := Fdc.reset (t.sys.fdc.drives.map Drive.machineReset),
        reports := t.sys.reports, drawCtr := k + 37 }
    host := HostView.reset }

/-- The resets that are the host's (R324).  The host makes none of them during a run (R338), so no turn is a reset. -/
inductive ResetKind where
  | cpu
  | machine
  deriving DecidableEq, Repr

/-- A reset by the host, outside a run (R324, R338): it also revives a CPU that holds a fault (R235). -/
def hostReset (k : ResetKind) (s : State) : State :=
  match k with
  | .cpu => cpuReset s
  | .machine => machineReset s

/-- One step of an agent that is not the execution unit (R322). -/
def agentStep (t : Turn) (s : State) : State :=
  match t with
  | .eu => s
  | .prefetch => prefetchStep s
  | .fdc => fdcTurn s
  | .crtc => crtcTurn s
  | .clock c => clockTick c s
  | .host a => hostStep a s

/-- Load bytes into memory from an offset of the code segment on, ROM included (R344). -/
def loadCode (c : Config) (cs off : Word) : List Byte → Memory → Memory
  | [], m => m
  | b :: bs, m => loadCode c cs (off + 1) bs (loadByte c m (phys cs off) b)

/-- A state whose next step decodes at IP, as R344 gives the CPU's state at a launch: nothing queued, held back or in flight, no fault,
not halted, no repetition, no inhibit, no latched NMI, `tf_prev` = TF, nothing scheduled. -/
def readyToFetch (s : State) : State :=
  { s with
    biu :=
      { s.biu with pc := ip s, queue := [], state := .idle, tCycle := .ti, fetchState := .idle, lock := false, fresh := 0, delay := 0 }
    eu :=
      { s.eu with
        phase := .start, halted := false, inRep := false, repType := .none, intInhibit := false, nmiLatch := false
        tfPrev := s.flags.tf, fault := none }
    agenda := []
    interleave := [] }

end Sys2Proof.Machine
end

