-- ==== Sys2Proof/Machine/Operands.lean ====
section
/-!
DEFINITION. Operands.lean: effective addresses (R102), the segment of a memory operand (R103, R104), r/m operands (R12), and the operand
forms of the ALU and shift families (R94, R138, R168).
-/
namespace Sys2Proof.Machine

/-! ### Effective address and segment -/

/-- The base of an effective address (R102), modulo 2^16. -/
def baseOffset (b : Base) (s : State) : Word :=
  match b with
  | .bxSi => s.regs.bx + s.regs.si
  | .bxDi => s.regs.bx + s.regs.di
  | .bpSi => s.regs.bp + s.regs.si
  | .bpDi => s.regs.bp + s.regs.di
  | .si => s.regs.si
  | .di => s.regs.di
  | .bp => s.regs.bp
  | .bx => s.regs.bx

/-- `EA` (R102): an 8-bit displacement is sign-extended. -/
def ea (m : MemOp) (s : State) : Word :=
  match m with
  | .base b => baseOffset b s
  | .disp8 b d => baseOffset b s + d.signExtend 16
  | .disp16 b d => baseOffset b s + d
  | .direct a => a

/-- The default segment of a base (R102, R103): SS where BP takes part. -/
def baseSeg (b : Base) : SReg :=
  match b with
  | .bxSi => .ds
  | .bxDi => .ds
  | .bpSi => .ss
  | .bpDi => .ss
  | .si => .ds
  | .di => .ds
  | .bp => .ss
  | .bx => .ds

/-- The default segment of a ModRM memory operand (R103). -/
def defaultSeg (m : MemOp) : SReg :=
  match m with
  | .base b => baseSeg b
  | .disp8 b _ => baseSeg b
  | .disp16 b _ => baseSeg b
  | .direct _ => .ds

/-- `seg_of` (R104): the override in force, or the default. -/
def segOf (dflt : SReg) (s : State) : Word := s.sregs.get (s.eu.prefixes.seg.getD dflt)

/-- The segment of a ModRM memory operand (R104). -/
def memSeg (m : MemOp) (s : State) : Word := segOf (defaultSeg m) s

/-! ### r/m operands (R12) -/

/-- `rm_read(w)`. -/
def rmRead (w : Width) (rm : Rm) (s : State) : Val w × State :=
  match rm with
  | .reg r => (getReg w r s, s)
  | .mem m => segRead w (memSeg m s) (ea m s) s

/-- `rm_write(w, v)`. -/
def rmWrite (w : Width) (rm : Rm) (v : Val w) (s : State) : State :=
  match rm with
  | .reg r => setReg w r v s
  | .mem m => segWrite w (memSeg m s) (ea m s) v s

/-- The two words of a far pointer in memory (R45): the offset at EA, the segment at EA + 2. -/
def readFar (m : MemOp) (s : State) : Word × Word × State :=
  let o := segRead .word (memSeg m s) (ea m s) s
  let g := segRead .word (memSeg m s) (ea m s + 2) o.2
  (o.1, g.1, g.2)

/-! ### Two-operand ALU forms (R94, R138) -/

/-- What an ALU operation does with two operand values: a result, and a state with the flags written. -/
abbrev AluOp := (w : Width) → Val w → Val w → State → Val w × State

/-- The destination is r/m: read it, compute, and write it back unless the operation only compares (R94, R138). -/
def aluToRm (op : AluOp) (wb : Bool) (w : Width) (rm : Rm) (b : Val w) (s : State) : State :=
  let a := rmRead w rm s
  let r := op w a.1 b a.2
  if wb then rmWrite w rm r.1 r.2 else r.2

/-- The destination is a register (R138). -/
def aluToReg (op : AluOp) (wb : Bool) (w : Width) (dst : Reg) (b : Val w) (s : State) : State :=
  let r := op w (getReg w dst s) b s
  if wb then setReg w dst r.1 r.2 else r.2

/-- The nine forms of R138. -/
def aluForm (op : AluOp) (wb : Bool) (f : AluForm) (s : State) : State :=
  match f with
  | .rmReg .toRm w rm r => aluToRm op wb w rm (getReg w r s) s
  | .rmReg .toReg w rm r =>
    let b := rmRead w rm s
    aluToReg op wb w r b.1 b.2
  | .acc (.byte i) => aluToReg op wb .byte .r0 i s
  | .acc (.word i) => aluToReg op wb .word .r0 i s
  | .rmImm _ rm (.byte i) => aluToRm op wb .byte rm i s
  | .rmImm _ rm (.word i) => aluToRm op wb .word rm i s
  | .rmImm8s rm i => aluToRm op wb .word rm (i.signExtend 16) s

/-- The forms of TEST (R166): nothing is written back. -/
def testForm (op : AluOp) (f : TestForm) (s : State) : State :=
  match f with
  | .rmReg w rm r => aluToRm op false w rm (getReg w r s) s
  | .acc (.byte i) => aluToReg op false .byte .r0 i s
  | .acc (.word i) => aluToReg op false .word .r0 i s
  | .rmImm _ rm (.byte i) => aluToRm op false .byte rm i s
  | .rmImm _ rm (.word i) => aluToRm op false .word rm i s

/-! ### One-operand forms (R146 to R148, R167) -/

/-- What a one-operand operation does with its value. -/
abbrev UnaryOp := (w : Width) → Val w → State → Val w × State

/-- Read an r/m operand, compute, write it back (R94). -/
def unaryRm (op : UnaryOp) (w : Width) (rm : Rm) (s : State) : State :=
  let a := rmRead w rm s
  let r := op w a.1 a.2
  rmWrite w rm r.1 r.2

/-- The forms of INC and DEC (R146, R147). -/
def incForm (op : UnaryOp) (f : IncForm) (s : State) : State :=
  match f with
  | .reg r => unaryRm op .word (.reg r) s
  | .rm w m => unaryRm op w m s

/-! ### Shifts and rotates (R168) -/

/-- The count of a shift or rotate (R168): 1, or all eight bits of CL. -/
def shiftCount (c : ShiftCount) (s : State) : Nat :=
  match c with
  | .one => 1
  | .cl => (s.regs.get8 .r1).toNat

/-- CF and OF after a shift or rotate (R168): OF is the step's for a count of 1 and a draw above. -/
def shiftFlags (n : Nat) (cf of_ : Bool) (s : State) : State :=
  if n = 1 then setFlags { s.flags with cf := cf, of_ := of_ } s
  else
    let d := drawBit s
    setFlags { d.2.flags with cf := cf, of_ := d.1 } d.2

/-- A step of a group-2 operation at any width. -/
abbrev ShiftOp := (n : Nat) → ShiftSt n → ShiftSt n

/-- What the rotates do beyond CF and OF: nothing (R169). -/
def keepSzp (w : Width) (_ : Val w) (s : State) : State := s

/-- What the shifts do beyond CF and OF (R173 to R175): SZP, and AF is a draw. -/
def shiftSzp (w : Width) (x : Val w) (s : State) : State :=
  let d := drawBit s
  setFlags (Flags.szp x { d.2.flags with af := d.1 }) d.2

/-- A group-2 operation (R168): a count of 0 reads the operand and changes nothing else. -/
def shiftRm (step : ShiftOp) (after : (w : Width) → Val w → State → State) (w : Width) (c : ShiftCount) (rm : Rm) (s : State) :
    State :=
  let a := rmRead w rm s
  let n := shiftCount c a.2
  if n = 0 then a.2
  else
    let t := shiftTimes (step w.bits) n ⟨a.1, a.2.flags.cf, a.2.flags.of_⟩
    after w t.x (shiftFlags n t.cf t.of_ (rmWrite w rm t.x a.2))

end Sys2Proof.Machine
end

