-- ==== Sys2Proof/Machine/Prefix.lean ====
section
/-!
DEFINITION. Prefix.lean: the prefix bytes (R108, R217, R220, R221, R222), each one pass of the decoder's prefix loop (R82).
-/
namespace Sys2Proof.Machine

/-- Add a prefix byte to the set, one cycle charged for it (R82, R92); the fifth is a decode fault then, in that order. -/
def addPrefix (f : Prefixes → Prefixes) (s : State) : Res State :=
  let n := s.eu.prefixes.count + 1
  let t := idleTick { s with eu := { s.eu with prefixes := { f s.eu.prefixes with count := n }, phase := .prefixed } }
  .next (if maxPrefixes < n then holdFault (.instructionDecodeError s.eu.insnStart) t else t)

/-- A segment override (R221): the last one counts. -/
def overrideWith (r : SReg) (p : Prefixes) : Prefixes := { p with seg := some r }

/-- `prefixes += LOCK` (R220). -/
def withLock (p : Prefixes) : Prefixes := { p with lock := true }

/-- `prefixes += REPNE; prefixes -= REPE` (R82). -/
def withRepne (p : Prefixes) : Prefixes := { p with repne := true, repe := false }

/-- `prefixes += REPE; prefixes -= REPNE` (R82). -/
def withRep (p : Prefixes) : Prefixes := { p with repe := true, repne := false }

/-- `prefixes += WAIT` (R217). -/
def withWait (p : Prefixes) : Prefixes := { p with wait := true }

/-- The cases of R82's prefix loop: what a prefix byte does to the set, none where the byte is an opcode. -/
def prefixByte (b : Byte) : Option (Prefixes → Prefixes) :=
  match b.toNat with
  | 0x26 => some (overrideWith .es)
  | 0x2E => some (overrideWith .cs)
  | 0x36 => some (overrideWith .ss)
  | 0x3E => some (overrideWith .ds)
  | 0xF0 => some withLock
  | 0xF1 => some withLock
  | 0xF2 => some withRepne
  | 0xF3 => some withRep
  | 0x9B => some withWait
  | _ => none

/-- 26h, ES: (R221). -/
def execSegEs (s : State) : Res State := addPrefix (overrideWith .es) s

/-- 2Eh, CS: (R221). -/
def execSegCs (s : State) : Res State := addPrefix (overrideWith .cs) s

/-- 36h, SS: (R221). -/
def execSegSs (s : State) : Res State := addPrefix (overrideWith .ss) s

/-- 3Eh, DS: (R221). -/
def execSegDs (s : State) : Res State := addPrefix (overrideWith .ds) s

/-- F0h and its twin F1h, LOCK (R220), which asserts the LOCK output in the instruction's bus cycles. -/
def execLock (_alt : Bool) (s : State) : Res State := addPrefix withLock s

/-- F2h, REPNE (R82, R222): of F2h and F3h the later one wins. -/
def execRepne (s : State) : Res State := addPrefix withRepne s

/-- F3h, REP (R82, R222). -/
def execRep (s : State) : Res State := addPrefix withRep s

/-- 9Bh, WAIT (R217): TEST is asserted, so it waits zero cycles. -/
def execWait (s : State) : Res State := addPrefix withWait s

/-- Whether a REP prefix is in force (R183, R222). -/
def repPrefixed (s : State) : Bool := s.eu.prefixes.repe || s.eu.prefixes.repne

end Sys2Proof.Machine
end

