-- ==== Sys2Proof/Machine/Arithmetic.lean ====
section
/-!
DEFINITION. Arithmetic.lean: the instructions of 41_arithmetic.md.  A flag the spec calls undefined is a free bit (D40).
-/
namespace Sys2Proof.Machine

/-! ### Addition and subtraction -/

/-- ADD's operation (R141). -/
def addOp : AluOp := fun _ a b s => (addCarry a b false, setFlags (s.flags.add a b false) s)

/-- ADC's operation (R142). -/
def adcOp : AluOp := fun _ a b s => (addCarry a b s.flags.cf, setFlags (s.flags.add a b s.flags.cf) s)

/-- The operation of SUB and CMP (R143, R145). -/
def subOp : AluOp := fun _ a b s => (subBorrow a b false, setFlags (s.flags.sub a b false) s)

/-- SBB's operation (R144). -/
def sbbOp : AluOp := fun _ a b s => (subBorrow a b s.flags.cf, setFlags (s.flags.sub a b s.flags.cf) s)

/-- ADD (R141). -/
def execAdd (f : AluForm) (s : State) : Res State := .next (aluForm addOp true f s)

/-- ADC (R142). -/
def execAdc (f : AluForm) (s : State) : Res State := .next (aluForm adcOp true f s)

/-- SUB (R143). -/
def execSub (f : AluForm) (s : State) : Res State := .next (aluForm subOp true f s)

/-- SBB (R144). -/
def execSbb (f : AluForm) (s : State) : Res State := .next (aluForm sbbOp true f s)

/-- CMP (R145): the result is discarded. -/
def execCmp (f : AluForm) (s : State) : Res State := .next (aluForm subOp false f s)

/-- INC's operation (R146). -/
def incOp : UnaryOp := fun _ a s => (a + 1, setFlags (s.flags.inc a) s)

/-- DEC's operation (R147). -/
def decOp : UnaryOp := fun _ a s => (a - 1, setFlags (s.flags.dec a) s)

/-- NEG's operation (R148). -/
def negOp : UnaryOp := fun _ a s => (subBorrow 0 a false, setFlags (s.flags.sub 0 a false) s)

/-- INC (R146). -/
def execInc (f : IncForm) (s : State) : Res State := .next (incForm incOp f s)

/-- DEC (R147). -/
def execDec (f : IncForm) (s : State) : Res State := .next (incForm decOp f s)

/-- NEG (R148). -/
def execNeg (w : Width) (rm : Rm) (s : State) : Res State := .next (unaryRm negOp w rm s)

/-! ### Undefined flags (D40) -/

/-- SF, ZF, AF and PF are draws (R149, R150). -/
def drawSzap (s : State) : State :=
  let a := drawBit s
  let b := drawBit a.2
  let c := drawBit b.2
  let d := drawBit c.2
  setFlags { d.2.flags with sf := a.1, zf := b.1, af := c.1, pf := d.1 } d.2

/-- CF and OF are draws. -/
def drawCo (s : State) : State :=
  let a := drawBit s
  let b := drawBit a.2
  setFlags { b.2.flags with cf := a.1, of_ := b.1 } b.2

/-- OF is a draw. -/
def drawOf (s : State) : State :=
  let a := drawBit s
  setFlags { a.2.flags with of_ := a.1 } a.2

/-- OF, AF and CF are draws (R157, R158). -/
def drawOac (s : State) : State :=
  let a := drawBit (drawCo s)
  setFlags { a.2.flags with af := a.1 } a.2

/-- OF, SF, ZF and PF are draws (R155, R156). -/
def drawOszp (s : State) : State :=
  let a := drawBit (drawOf s)
  let b := drawBit a.2
  let c := drawBit b.2
  setFlags { c.2.flags with sf := a.1, zf := b.1, pf := c.1 } c.2

/-! ### Multiplication and division -/

/-- The flags of a multiplication (R149, R150): CF and OF, the other four draws. -/
def mulFlags (c : Bool) (s : State) : State := setFlags { (drawSzap s).flags with cf := c, of_ := c } (drawSzap s)

/-- MUL of the accumulator by a value (R149). -/
def mulBy (w : Width) (v : Val w) (s : State) : State :=
  match w with
  | .byte =>
    let p : Word := (s.regs.get8 .r0).zeroExtend 16 * BitVec.zeroExtend 16 v
    mulFlags (hiByte p != 0) (setAx p s)
  | .word =>
    let p : BitVec 32 := s.regs.ax.zeroExtend 32 * BitVec.zeroExtend 32 v
    let hi : Word := p.extractLsb' 16 16
    mulFlags (hi != 0) (setAx (p.truncate 16) (setDx hi s))

/-- MUL (R149); a REP prefix is refused (R222). -/
def execMul (w : Width) (rm : Rm) (s : State) : Res State :=
  if repPrefixed s then .refused .repMulDiv
  else
    let v := rmRead w rm s
    .next (mulBy w v.1 v.2)

/-- IMUL of the accumulator by a value (R150): CF and OF say that the product does not fit in the low half as a signed value. -/
def imulBy (w : Width) (v : Val w) (s : State) : State :=
  match w with
  | .byte =>
    let p : Word := (s.regs.get8 .r0).signExtend 16 * BitVec.signExtend 16 v
    mulFlags (decide (p.toInt ≠ (loByte p).toInt)) (setAx p s)
  | .word =>
    let p : BitVec 32 := s.regs.ax.signExtend 32 * BitVec.signExtend 32 v
    let lo : Word := p.truncate 16
    mulFlags (decide (p.toInt ≠ lo.toInt)) (setAx lo (setDx (p.extractLsb' 16 16) s))

/-- IMUL (R150); a REP prefix is refused (R222). -/
def execImul (w : Width) (rm : Rm) (s : State) : Res State :=
  if repPrefixed s then .refused .repMulDiv
  else
    let v := rmRead w rm s
    .next (imulBy w v.1 v.2)

/-- The dividend (R151, R152): AX, or DX:AX. -/
def dividend (w : Width) (s : State) : BitVec (w.bits + w.bits) :=
  match w with
  | .byte => s.regs.ax
  | .word => s.regs.dx ++ s.regs.ax

/-- Write a quotient and a remainder (R151, R152). -/
def setQuotient (w : Width) (q m : Val w) (s : State) : State :=
  match w with
  | .byte => setAx (wordOf q m) s
  | .word => setDx m (setAx q s)

/-- DIV (R151); a REP prefix is refused (R222).  The divisor is read before the check. -/
def execDiv (w : Width) (rm : Rm) (s : State) : Res State :=
  if repPrefixed s then .refused .repMulDiv
  else
    let v := rmRead w rm s
    let n := (dividend w v.2).toNat
    let d := v.1.toNat
    if d = 0 || 2 ^ w.bits ≤ n / d then divideError v.2
    else .next (setQuotient w (BitVec.ofNat _ (n / d)) (BitVec.ofNat _ (n % d)) (drawCo (drawSzap v.2)))

/-- IDIV (R152): truncation toward zero, the quotient within ±(2^(w-1) - 1); a REP prefix is refused (R222). -/
def execIdiv (w : Width) (rm : Rm) (s : State) : Res State :=
  if repPrefixed s then .refused .repMulDiv
  else
    let v := rmRead w rm s
    let n := (dividend w v.2).toInt
    let d := v.1.toInt
    let q := n.tdiv d
    let lim : Int := 2 ^ (w.bits - 1) - 1
    if d = 0 || lim < q || q < -lim then divideError v.2
    else .next (setQuotient w (BitVec.ofInt _ q) (BitVec.ofInt _ (n.tmod d)) (drawCo (drawSzap v.2)))

/-! ### Decimal adjust -/

/-- Whether the low nibble is adjusted (R153 to R156). -/
def lowAdjust (al : Byte) (f : Flags) : Bool := decide (9 < (al &&& 0x0F).toNat) || f.af

/-- Whether the high nibble is adjusted (R153, R154): `BCD_HI_LIMIT` is 99h where AF was 0 and `BCD_AF_LIMIT` where it was 1. -/
def highAdjust (c : Config) (al : Byte) (f : Flags) : Bool :=
  let limit :=
    match f.af, c.bcdAfLimit with
    | false, _ => 0x99
    | true, .x99 => 0x99
    | true, .x9F => 0x9F
  decide (limit < al.toNat) || f.cf

/-- AL's write of a decimal adjust, with SZP (R153, R154). -/
def setAdjusted (al : Byte) (cf af : Bool) (s : State) : State :=
  setFlags (Flags.szp al { s.flags with cf := cf, af := af }) (setReg .byte .r0 al s)

/-- DAA (R153). -/
def execDaa (s : State) : Res State :=
  let al := s.regs.get8 .r0
  let lo := lowAdjust al s.flags
  let hi := highAdjust s.cfg al s.flags
  let a1 := if lo then al + 6 else al
  let a2 := if hi then a1 + 0x60 else a1
  .next (drawOf (setAdjusted a2 hi lo s))

/-- DAS (R154): a borrow out of the first step is kept as CF = 1. -/
def execDas (s : State) : Res State :=
  let al := s.regs.get8 .r0
  let lo := lowAdjust al s.flags
  let hi := highAdjust s.cfg al s.flags
  let a1 := if lo then al - 6 else al
  let a2 := if hi then a1 - 0x60 else a1
  let c1 := lo && (s.flags.cf || decide (al.toNat < 6))
  .next (drawOf (setAdjusted a2 (hi || c1) lo s))

/-- AAA (R155). -/
def execAaa (s : State) : Res State :=
  let al := s.regs.get8 .r0
  let ah := s.regs.get8 .r4
  let c := lowAdjust al s.flags
  let ax := if c then wordOf ((al + 6) &&& 0x0F) (ah + 1) else wordOf (al &&& 0x0F) ah
  .next (drawOszp (setFlags { s.flags with af := c, cf := c } (setAx ax s)))

/-- AAS (R156). -/
def execAas (s : State) : Res State :=
  let al := s.regs.get8 .r0
  let ah := s.regs.get8 .r4
  let c := lowAdjust al s.flags
  let ax := if c then wordOf ((al - 6) &&& 0x0F) (ah - 1) else wordOf (al &&& 0x0F) ah
  .next (drawOszp (setFlags { s.flags with af := c, cf := c } (setAx ax s)))

/-- AAM (R157): a base of 0 is a divide error. -/
def execAam (i : Byte) (s : State) : Res State :=
  if i = 0 then divideError s
  else
    let al := s.regs.get8 .r0
    let q := BitVec.ofNat 8 (al.toNat / i.toNat)
    let m := BitVec.ofNat 8 (al.toNat % i.toNat)
    .next (drawOac (setFlags (s.flags.szp m) (setAx (wordOf m q) s)))

/-- AAD (R158). -/
def execAad (i : Byte) (s : State) : Res State :=
  let al := s.regs.get8 .r0 + s.regs.get8 .r4 * i
  .next (drawOac (setFlags (s.flags.szp al) (setAx (wordOf al 0) s)))

/-! ### Conversions -/

/-- CBW (R159). -/
def execCbw (s : State) : Res State := .next (setAx ((s.regs.get8 .r0).signExtend 16) s)

/-- CWD (R160). -/
def execCwd (s : State) : Res State := .next (setDx (if s.regs.ax.msb then 0xFFFF else 0) s)

/-- SALC (R161). -/
def execSalc (s : State) : Res State := .next (setReg .byte .r0 (if s.flags.cf then (0xFF : Byte) else (0 : Byte)) s)

end Sys2Proof.Machine
end

