-- ==== Sys2Proof/Machine/Control.lean ====
section
/-!
DEFINITION. Control.lean: the instructions of 44_control_transfer.md.  One that flushes suspends fetching before its first bus
transaction (R67, log entry 31).
-/
namespace Sys2Proof.Machine

/-! ### Unconditional jumps -/

/-- JMP short (R187). -/
def execJmpShort (rel : Byte) (s : State) : Res State := .next (jumpShort rel s)

/-- JMP near, relative (R188). -/
def execJmpNear (rel : Word) (s : State) : Res State := .next (setIp (relTarget rel s) s)

/-- JMP far, direct (R189). -/
def execJmpFar (off seg : Word) (s : State) : Res State := .next (setCsIp seg off s)

/-- JMP near, indirect (R190). -/
def execJmpRm (rm : Rm) (s : State) : Res State :=
  let t := rmRead .word rm (suspendFetch s)
  .next (setIp t.1 t.2)

/-- JMP far, indirect through memory (R191). -/
def execJmpMem (m : MemOp) (s : State) : Res State :=
  let p := readFar m (suspendFetch s)
  .next (setCsIp p.2.1 p.1 p.2.2)

/-! ### Calls and returns -/

/-- CALL near, relative (R192). -/
def execCallNear (rel : Word) (s : State) : Res State :=
  let ret := ip s
  .next (pushCall .call (setIp (ret + rel) (push ret (suspendFetch s))))

/-- The two pushes of a far call, and its transfer (R193, R195). -/
def farCall (seg off ret : Word) (s : State) : State :=
  pushCall .callFar (setCsIp seg off (push ret (push s.sregs.cs s)))

/-- CALL far, direct (R193). -/
def execCallFar (off seg : Word) (s : State) : Res State := .next (farCall seg off (ip s) (suspendFetch s))

/-- CALL near, indirect (R194): the target is read before SP changes. -/
def execCallRm (rm : Rm) (s : State) : Res State :=
  let ret := ip s
  let t := rmRead .word rm (suspendFetch s)
  .next (pushCall .call (setIp t.1 (push ret t.2)))

/-- CALL far, indirect through memory (R195): the pointer is read before the pushes. -/
def execCallMem (m : MemOp) (s : State) : Res State :=
  let ret := ip s
  let p := readFar m (suspendFetch s)
  .next (farCall p.2.1 p.1 ret p.2.2)

/-- RET near, releasing `n` bytes (R196, R197). -/
def retNear (n : Word) (s : State) : State :=
  let t := pop (suspendFetch s)
  popCall (setIp t.1 (setSp (t.2.regs.sp + n) t.2))

/-- RET far, releasing `n` bytes (R198, R199). -/
def retFar (n : Word) (s : State) : State :=
  let o := pop (suspendFetch s)
  let c := pop o.2
  popCall (setCsIp c.1 o.1 (setSp (c.2.regs.sp + n) c.2))

/-- RET near (R196). -/
def execRet (_alt : Bool) (s : State) : Res State := .next (retNear 0 s)

/-- RET near, releasing stack bytes (R197). -/
def execRetImm (_alt : Bool) (n : Word) (s : State) : Res State := .next (retNear n s)

/-- RET far (R198). -/
def execRetf (_alt : Bool) (s : State) : Res State := .next (retFar 0 s)

/-- RET far, releasing stack bytes (R199). -/
def execRetfImm (_alt : Bool) (n : Word) (s : State) : Res State := .next (retFar n s)

/-! ### Conditional transfers and loops -/

/-- A jump taken or not (R200): a jump not taken keeps the queue. -/
def branchIf (c : Bool) (rel : Byte) (s : State) : State := if c then jumpShort rel s else s

/-- JO (R107, R200): OF = 1. -/
def execJo (_alt : Bool) (rel : Byte) (s : State) : Res State := .next (branchIf (condO s.flags) rel s)

/-- JNO (R107, R200): OF = 0. -/
def execJno (_alt : Bool) (rel : Byte) (s : State) : Res State := .next (branchIf (!condO s.flags) rel s)

/-- JB (R107, R200): CF = 1. -/
def execJb (_alt : Bool) (rel : Byte) (s : State) : Res State := .next (branchIf (condB s.flags) rel s)

/-- JAE (R107, R200): CF = 0. -/
def execJae (_alt : Bool) (rel : Byte) (s : State) : Res State := .next (branchIf (!condB s.flags) rel s)

/-- JE (R107, R200): ZF = 1. -/
def execJe (_alt : Bool) (rel : Byte) (s : State) : Res State := .next (branchIf (condE s.flags) rel s)

/-- JNE (R107, R200): ZF = 0. -/
def execJne (_alt : Bool) (rel : Byte) (s : State) : Res State := .next (branchIf (!condE s.flags) rel s)

/-- JBE (R107, R200): CF = 1 or ZF = 1. -/
def execJbe (_alt : Bool) (rel : Byte) (s : State) : Res State := .next (branchIf (condBe s.flags) rel s)

/-- JA (R107, R200): CF = 0 and ZF = 0. -/
def execJa (_alt : Bool) (rel : Byte) (s : State) : Res State := .next (branchIf (!condBe s.flags) rel s)

/-- JS (R107, R200): SF = 1. -/
def execJs (_alt : Bool) (rel : Byte) (s : State) : Res State := .next (branchIf (condS s.flags) rel s)

/-- JNS (R107, R200): SF = 0. -/
def execJns (_alt : Bool) (rel : Byte) (s : State) : Res State := .next (branchIf (!condS s.flags) rel s)

/-- JP (R107, R200): PF = 1. -/
def execJp (_alt : Bool) (rel : Byte) (s : State) : Res State := .next (branchIf (condP s.flags) rel s)

/-- JNP (R107, R200): PF = 0. -/
def execJnp (_alt : Bool) (rel : Byte) (s : State) : Res State := .next (branchIf (!condP s.flags) rel s)

/-- JL (R107, R200): SF != OF. -/
def execJl (_alt : Bool) (rel : Byte) (s : State) : Res State := .next (branchIf (condL s.flags) rel s)

/-- JGE (R107, R200): SF = OF. -/
def execJge (_alt : Bool) (rel : Byte) (s : State) : Res State := .next (branchIf (!condL s.flags) rel s)

/-- JLE (R107, R200): ZF = 1 or SF != OF. -/
def execJle (_alt : Bool) (rel : Byte) (s : State) : Res State := .next (branchIf (condLe s.flags) rel s)

/-- JG (R107, R200): ZF = 0 and SF = OF. -/
def execJg (_alt : Bool) (rel : Byte) (s : State) : Res State := .next (branchIf (!condLe s.flags) rel s)

/-- `CX <- (CX - 1) mod 2^16`. -/
def decCx (s : State) : State := setCx (s.regs.cx - 1) s

/-- LOOP (R201). -/
def execLoop (rel : Byte) (s : State) : Res State :=
  let t := decCx s
  .next (branchIf (t.regs.cx != 0) rel t)

/-- LOOPE (R202). -/
def execLoope (rel : Byte) (s : State) : Res State :=
  let t := decCx s
  .next (branchIf (t.regs.cx != 0 && t.flags.zf) rel t)

/-- LOOPNE (R203). -/
def execLoopne (rel : Byte) (s : State) : Res State :=
  let t := decCx s
  .next (branchIf (t.regs.cx != 0 && !t.flags.zf) rel t)

/-- JCXZ (R204). -/
def execJcxz (rel : Byte) (s : State) : Res State := .next (branchIf (s.regs.cx == 0) rel s)

/-! ### Software interrupts and interrupt return -/

/-- INT3 (R206). -/
def execInt3 (s : State) : Res State := enterInterrupt 3 (ip s) s

/-- INT n (R205). -/
def execInt (n : Byte) (s : State) : Res State := enterInterrupt n (ip s) s

/-- INTO (R207). -/
def execInto (s : State) : Res State := if s.flags.of_ then enterInterrupt 4 (ip s) s else .next s

/-- IRET (R208). -/
def execIret (s : State) : Res State := .next (returnFromInterrupt s)

end Sys2Proof.Machine
end

