-- ==== Sys2Proof/Machine/DataTransfer.lean ====
section
/-!
DEFINITION. DataTransfer.lean: the instructions of 40_data_transfer.md.
-/
namespace Sys2Proof.Machine

/-- MOV r/m, r and MOV r, r/m (R115). -/
def execMovRmReg (d : Dir) (w : Width) (rm : Rm) (r : Reg) (s : State) : Res State :=
  match d with
  | .toRm => .next (rmWrite w rm (getReg w r s) s)
  | .toReg =>
    let v := rmRead w rm s
    .next (setReg w r v.1 v.2)

/-- MOV r/m16, sreg (R116, 8Ch). -/
def execMovFromSreg (rm : Rm) (sr : SReg) (s : State) : Res State := .next (rmWrite .word rm (s.sregs.get sr) s)

/-- MOV sreg, r/m16 (R116, 8Eh): sets the one-boundary interrupt inhibit. -/
def execMovToSreg (sr : SReg) (rm : Rm) (s : State) : Res State :=
  let v := rmRead .word rm s
  .next (inhibitNext (setSreg sr v.1 v.2))

/-- MOV between the accumulator and a direct offset (R117). -/
def execMovMoffs (store : Bool) (w : Width) (off : Word) (s : State) : Res State :=
  if store then .next (segWrite w (segOf .ds s) off (getReg w .r0 s) s)
  else
    let v := segRead w (segOf .ds s) off s
    .next (setReg w .r0 v.1 v.2)

/-- MOV r, imm (R118). -/
def execMovRegImm (r : Reg) (i : Imm) (s : State) : Res State :=
  match i with
  | .byte v => .next (setReg .byte r v s)
  | .word v => .next (setReg .word r v s)

/-- MOV r/m, imm (R119): the ModRM `reg` field is ignored. -/
def execMovRmImm (_ext : Reg) (rm : Rm) (i : Imm) (s : State) : Res State :=
  match i with
  | .byte v => .next (rmWrite .byte rm v s)
  | .word v => .next (rmWrite .word rm v s)

/-- PUSH r16 (R120): PUSH SP pushes the decremented SP. -/
def execPushReg (r : Reg) (s : State) : Res State :=
  let s := setSp (s.regs.sp - 2) s
  .next (segWrite .word s.sregs.ss s.regs.sp (s.regs.get16 r) s)

/-- PUSH sreg (R121). -/
def execPushSreg (sr : SReg) (s : State) : Res State := .next (push (s.sregs.get sr) s)

/-- PUSH r/m16 (R122): with SP as the operand the value is a draw from the old and the decremented SP (D57). -/
def execPushRm (_alt : Bool) (rm : Rm) (s : State) : Res State :=
  let v := rmRead .word rm s
  if rm = .reg .r4 then
    let d := drawBit v.2
    .next (push (if d.1 then d.2.regs.sp else d.2.regs.sp - 2) d.2)
  else .next (push v.1 v.2)

/-- POP r16 (R123): POP SP leaves SP equal to the popped word. -/
def execPopReg (r : Reg) (s : State) : Res State :=
  let v := pop s
  .next (setReg .word r v.1 v.2)

/-- POP sreg (R124): sets the one-boundary interrupt inhibit. -/
def execPopSreg (sr : SReg) (s : State) : Res State :=
  let v := pop s
  .next (inhibitNext (setSreg sr v.1 v.2))

/-- POP r/m16 (R125): no effective address uses SP, so it is the same before and after the pop. -/
def execPopRm (_ext : Reg) (rm : Rm) (s : State) : Res State :=
  let v := pop s
  .next (rmWrite .word rm v.1 v.2)

/-- PUSHF (R126). -/
def execPushf (s : State) : Res State := .next (push s.flags.toWord s)

/-- POPF (R127). -/
def execPopf (s : State) : Res State :=
  let v := pop s
  .next (setFlags (Flags.ofWord v.1) v.2)

/-- XCHG r/m, r (R128). -/
def execXchgRm (w : Width) (rm : Rm) (r : Reg) (s : State) : Res State :=
  let a := rmRead w rm s
  let b := getReg w r a.2
  .next (setReg w r a.1 (rmWrite w rm b a.2))

/-- XCHG AX, r16 (R129). -/
def execXchgAx (r : Reg) (s : State) : Res State :=
  .next (setReg .word r s.regs.ax (setAx (s.regs.get16 r) s))

/-- The port of IN and OUT (R130, R131). -/
def portOf (p : PortOp) (s : State) : Word :=
  match p with
  | .imm i => i.zeroExtend 16
  | .dx => s.regs.dx

/-- IN (R130): a port at or above 0400h is refused (R54). -/
def execIn (w : Width) (p : PortOp) (s : State) : Res State :=
  andThen (ioRead w (portOf p s) s) fun v => .next (setReg w .r0 v.1 v.2)

/-- OUT (R131): a port at or above 0400h is refused (R54). -/
def execOut (w : Width) (p : PortOp) (s : State) : Res State := ioWrite w (portOf p s) (getReg w .r0 s) s

/-- XLAT (R132). -/
def execXlat (s : State) : Res State :=
  let v := segRead .byte (segOf .ds s) (s.regs.bx + (s.regs.get8 .r0).zeroExtend 16) s
  .next (setReg .byte .r0 v.1 v.2)

/-- LEA (R133): no memory access. -/
def execLea (r : Reg) (m : MemOp) (s : State) : Res State := .next (setReg .word r (ea m s) s)

/-- LDS (R134). -/
def execLds (r : Reg) (m : MemOp) (s : State) : Res State :=
  let p := readFar m s
  .next (setSreg .ds p.2.1 (setReg .word r p.1 p.2.2))

/-- LES (R135). -/
def execLes (r : Reg) (m : MemOp) (s : State) : Res State :=
  let p := readFar m s
  .next (setSreg .es p.2.1 (setReg .word r p.1 p.2.2))

/-- LAHF (R136). -/
def execLahf (s : State) : Res State := .next (setReg .byte .r4 (loByte s.flags.toWord) s)

/-- SAHF (R137). -/
def execSahf (s : State) : Res State := .next (setFlags (s.flags.ofAh (s.regs.get8 .r4)) s)

end Sys2Proof.Machine
end

