-- ==== Sys2Proof/Machine/Logic.lean ====
section
/-!
DEFINITION. Logic.lean: the instructions of 42_logic_shift.md.
-/
namespace Sys2Proof.Machine

/-- A logical operation (R162): AF is a draw. -/
def logicOp (g : (n : Nat) → BitVec n → BitVec n → BitVec n) : AluOp := fun w a b s =>
  let r := g w.bits a b
  let d := drawBit s
  (r, setFlags (d.2.flags.logic r d.1) d.2)

/-- AND's operation (R163), which is also TEST's (R166). -/
def andOp : AluOp := logicOp fun _ a b => a &&& b

/-- OR's operation (R164). -/
def orOp : AluOp := logicOp fun _ a b => a ||| b

/-- XOR's operation (R165). -/
def xorOp : AluOp := logicOp fun _ a b => a ^^^ b

/-- NOT's operation (R167): no flag. -/
def notOp : UnaryOp := fun _ a s => (~~~a, s)

/-- AND (R163). -/
def execAnd (f : AluForm) (s : State) : Res State := .next (aluForm andOp true f s)

/-- OR (R164). -/
def execOr (f : AluForm) (s : State) : Res State := .next (aluForm orOp true f s)

/-- XOR (R165). -/
def execXor (f : AluForm) (s : State) : Res State := .next (aluForm xorOp true f s)

/-- TEST (R166). -/
def execTest (f : TestForm) (s : State) : Res State := .next (testForm andOp f s)

/-- NOT (R167). -/
def execNot (w : Width) (rm : Rm) (s : State) : Res State := .next (unaryRm notOp w rm s)

/-- ROL (R169). -/
def execRol (w : Width) (c : ShiftCount) (rm : Rm) (s : State) : Res State :=
  .next (shiftRm (fun _ => rolStep) keepSzp w c rm s)

/-- ROR (R170). -/
def execRor (w : Width) (c : ShiftCount) (rm : Rm) (s : State) : Res State :=
  .next (shiftRm (fun _ => rorStep) keepSzp w c rm s)

/-- RCL (R171). -/
def execRcl (w : Width) (c : ShiftCount) (rm : Rm) (s : State) : Res State :=
  .next (shiftRm (fun _ => rclStep) keepSzp w c rm s)

/-- RCR (R172). -/
def execRcr (w : Width) (c : ShiftCount) (rm : Rm) (s : State) : Res State :=
  .next (shiftRm (fun _ => rcrStep) keepSzp w c rm s)

/-- SHL (R173). -/
def execShl (w : Width) (c : ShiftCount) (rm : Rm) (s : State) : Res State :=
  .next (shiftRm (fun _ => shlStep) shiftSzp w c rm s)

/-- SHR (R174). -/
def execShr (w : Width) (c : ShiftCount) (rm : Rm) (s : State) : Res State :=
  .next (shiftRm (fun _ => shrStep) shiftSzp w c rm s)

/-- SAR (R175). -/
def execSar (w : Width) (c : ShiftCount) (rm : Rm) (s : State) : Res State :=
  .next (shiftRm (fun _ => sarStep) shiftSzp w c rm s)

/-- SETMO (R176): the operand is read and ignored; a count of 0 changes nothing else. -/
def execSetmo (w : Width) (c : ShiftCount) (rm : Rm) (s : State) : Res State :=
  let a := rmRead w rm s
  if shiftCount c a.2 = 0 then .next a.2
  else
    let m : Val w := BitVec.allOnes w.bits
    let t := rmWrite w rm m a.2
    .next (setFlags (Flags.szp m { t.flags with cf := false, of_ := false, af := false }) t)

end Sys2Proof.Machine
end

