-- ==== Sys2Proof/Machine/Processor.lean ====
section
/-!
DEFINITION. Processor.lean: the instructions of 45_processor_control.md, and the encodings of 30_encoding.md R113 that the spec refuses.
-/
namespace Sys2Proof.Machine

/-! ### Flag instructions -/

/-- CLC (R209). -/
def execClc (s : State) : Res State := .next (setFlags { s.flags with cf := false } s)

/-- STC (R210). -/
def execStc (s : State) : Res State := .next (setFlags { s.flags with cf := true } s)

/-- CMC (R211). -/
def execCmc (s : State) : Res State := .next (setFlags { s.flags with cf := !s.flags.cf } s)

/-- CLD (R212). -/
def execCld (s : State) : Res State := .next (setFlags { s.flags with df := false } s)

/-- STD (R213). -/
def execStd (s : State) : Res State := .next (setFlags { s.flags with df := true } s)

/-- CLI (R214). -/
def execCli (s : State) : Res State := .next (setFlags { s.flags with if_ := false } s)

/-- STI (R215): with `STI_INHIBIT` the boundary after it takes no interrupt. -/
def execSti (s : State) : Res State :=
  let t := setFlags { s.flags with if_ := true } s
  .next (if s.cfg.stiInhibit then inhibitNext t else t)

/-! ### HLT, ESC, NOP -/

/-- HLT's execute phase (R78, R216): one Halt bus cycle, fetch suspended; the boundary then halts the CPU.  Under single step the
spec refuses it. -/
def execHlt (s : State) : Res State :=
  if s.eu.tfPrev then .refused .hltSingleStep
  else .next (setPhase .halting (suspendFetch (haltCycle s)))

/-- ESC (R218): a memory operand is read and discarded. -/
def execEsc (_op _ext : Reg) (rm : Rm) (s : State) : Res State := .next (rmRead .word rm s).2

/-- NOP (R219). -/
def execNop (s : State) : Res State := .next s

/-! ### Refused encodings (R113) -/

/-- 0Fh, POP CS (R113). -/
def execPopCs (_ : State) : Res State := .refused .popCs

/-- 8Ch and 8Eh with reg 4 to 7 (R113). -/
def execMovSregHigh (_d : Dir) (_n : BitVec 2) (_rm : Rm) (_ : State) : Res State := .refused .movSregHigh

/-- 8Eh with reg 1, MOV CS (R113). -/
def execMovCs (_rm : Rm) (_ : State) : Res State := .refused .movCs

/-- LEA with mod 11 (R113). -/
def execLeaRegister (_r _rm : Reg) (_ : State) : Res State := .refused .leaRegister

/-- LES with mod 11 (R113). -/
def execLesRegister (_r _rm : Reg) (_ : State) : Res State := .refused .lesRegister

/-- LDS with mod 11 (R113). -/
def execLdsRegister (_r _rm : Reg) (_ : State) : Res State := .refused .ldsRegister

/-- FEh with reg 2 (R113). -/
def execFe2 (_rm : Rm) (_ : State) : Res State := .refused (.feHigh .r2)

/-- FEh with reg 3 (R113). -/
def execFe3 (_rm : Rm) (_ : State) : Res State := .refused (.feHigh .r3)

/-- FEh with reg 4 (R113). -/
def execFe4 (_rm : Rm) (_ : State) : Res State := .refused (.feHigh .r4)

/-- FEh with reg 5 (R113). -/
def execFe5 (_rm : Rm) (_ : State) : Res State := .refused (.feHigh .r5)

/-- FEh with reg 6 (R113). -/
def execFe6 (_rm : Rm) (_ : State) : Res State := .refused (.feHigh .r6)

/-- FEh with reg 7 (R113). -/
def execFe7 (_rm : Rm) (_ : State) : Res State := .refused (.feHigh .r7)

/-- FFh reg 3 with mod 11 (R113). -/
def execCallRegisterFar (_rm : Reg) (_ : State) : Res State := .refused .callRegisterFar

/-- FFh reg 5 with mod 11 (R113). -/
def execJmpRegisterFar (_rm : Reg) (_ : State) : Res State := .refused .jmpRegisterFar

end Sys2Proof.Machine
end

