-- ==== Sys2Proof/Machine/StringOps.lean ====
section
/-!
DEFINITION. StringOps.lean: the string primitives and the REP engine of 43_string.md.  A repeated string instruction takes one step per
iteration (log entry 5).
-/
namespace Sys2Proof.Machine

/-! ### The primitives, one iteration each (R177 to R182) -/

/-- `delta` (R177). -/
def stringDelta (w : Width) (s : State) : Word :=
  let n : Word := match w with | .byte => 1 | .word => 2
  if s.flags.df then 0 - n else n

/-- `SI <- SI + delta` (R177). -/
def stepSi (w : Width) (s : State) : State := setSi (s.regs.si + stringDelta w s) s

/-- `DI <- DI + delta` (R177). -/
def stepDi (w : Width) (s : State) : State := setDi (s.regs.di + stringDelta w s) s

/-- MOVS (R178). -/
def movsOnce (w : Width) (s : State) : State :=
  let v := segRead w (segOf .ds s) s.regs.si s
  stepDi w (stepSi w (segWrite w v.2.sregs.es v.2.regs.di v.1 v.2))

/-- CMPS (R179). -/
def cmpsOnce (w : Width) (s : State) : State :=
  let a := segRead w (segOf .ds s) s.regs.si s
  let b := segRead w a.2.sregs.es a.2.regs.di a.2
  stepDi w (stepSi w (setFlags (b.2.flags.sub a.1 b.1 false) b.2))

/-- SCAS (R180). -/
def scasOnce (w : Width) (s : State) : State :=
  let b := segRead w s.sregs.es s.regs.di s
  stepDi w (setFlags (b.2.flags.sub (getReg w .r0 b.2) b.1 false) b.2)

/-- LODS (R181). -/
def lodsOnce (w : Width) (s : State) : State :=
  let v := segRead w (segOf .ds s) s.regs.si s
  stepSi w (setReg w .r0 v.1 v.2)

/-- STOS (R182). -/
def stosOnce (w : Width) (s : State) : State :=
  stepDi w (segWrite w s.sregs.es s.regs.di (getReg w .r0 s) s)

/-! ### The REP engine (R97, R183 to R185) -/

/-- `rep_type` of a string instruction with a REP prefix (R97). -/
def repTypeOf (compares : Bool) (p : Prefixes) : RepType :=
  if compares then (if p.repe then .repe else .repne) else .rep

/-- The start of `rep_execute` (R97, R183), whatever CX.  A further iteration sets the same values again. -/
def beginRep (i : Instr) (compares : Bool) (s : State) : State :=
  { s with eu := { s.eu with inRep := true, repType := repTypeOf compares s.eu.prefixes, repMnemonic := some i } }

/-- The end of `rep_execute` (R183): the boundary comes next. -/
def endRep (s : State) : State := setPhase .executing (clearRep s)

/-- The ZF exits of REPE and REPNE (R183). -/
def repExit (compares : Bool) (s : State) : Bool :=
  compares && ((s.eu.repType == .repe && !s.flags.zf) || (s.eu.repType == .repne && s.flags.zf))

/-- The return offset of an interrupted repetition (R185). -/
def repResume (s : State) : Word :=
  match s.cfg.repResume with
  | .firstPrefix => s.eu.insnStart
  | .lastPrefix => ip s - 2

/-- `between_iterations` (R185): other agents may step before the interrupt lines are sampled (R55).  Under a LOCK prefix the pushes and
vector reads of the entry do not assert LOCK, the execute phase being over: R185 enters before it ends the instruction, and R220 does not
say (DESIGN CHOICE, log entry 36). -/
def betweenIterations (s : State) : Res State :=
  let s := busGap s
  if s.eu.nmiLatch || intrPending s then takeInterrupt (repResume s) (setPhase .start (clearRep s))
  else .next (setPhase .repeating s)

/-- One iteration of `rep_execute`, and what follows it (R183). -/
def repIterate (compares : Bool) (once : State → State) (s : State) : Res State :=
  let t := once s
  let t := setCx (t.regs.cx - 1) t
  if repExit compares t || t.regs.cx == 0 then .next (endRep t) else betweenIterations t

/-- A string instruction (R183): one iteration without a REP prefix, the loop's next iteration with one. -/
def execString (i : Instr) (compares : Bool) (once : State → State) (s : State) : Res State :=
  if !repPrefixed s then .next (once s)
  else
    let s := beginRep i compares s
    if s.regs.cx = 0 then .next (endRep s) else repIterate compares once s

/-- MOVSB (R178). -/
def execMovsb (s : State) : Res State := execString .movsb false (movsOnce .byte) s

/-- MOVSW (R178). -/
def execMovsw (s : State) : Res State := execString .movsw false (movsOnce .word) s

/-- CMPSB (R179). -/
def execCmpsb (s : State) : Res State := execString .cmpsb true (cmpsOnce .byte) s

/-- CMPSW (R179). -/
def execCmpsw (s : State) : Res State := execString .cmpsw true (cmpsOnce .word) s

/-- SCASB (R180). -/
def execScasb (s : State) : Res State := execString .scasb true (scasOnce .byte) s

/-- SCASW (R180). -/
def execScasw (s : State) : Res State := execString .scasw true (scasOnce .word) s

/-- LODSB (R181). -/
def execLodsb (s : State) : Res State := execString .lodsb false (lodsOnce .byte) s

/-- LODSW (R181). -/
def execLodsw (s : State) : Res State := execString .lodsw false (lodsOnce .word) s

/-- STOSB (R182). -/
def execStosb (s : State) : Res State := execString .stosb false (stosOnce .byte) s

/-- STOSW (R182). -/
def execStosw (s : State) : Res State := execString .stosw false (stosOnce .word) s

end Sys2Proof.Machine
end

