-- ==== Sys2Proof/Machine/Dispatch.lean ====
section
/-!
DEFINITION. Dispatch.lean: one arm per instruction, each one call of its meaning.
-/
namespace Sys2Proof.Machine

/-- The meaning of an instruction, in the state in which its bytes have been consumed (R81 step 4): IP is `IP_next`. -/
def exec (i : Instr) (s : State) : Host.Outcome State Fault Refusal :=
  match i with
  | .segEs => Sys2Proof.Machine.execSegEs s
  | .segCs => Sys2Proof.Machine.execSegCs s
  | .segSs => Sys2Proof.Machine.execSegSs s
  | .segDs => Sys2Proof.Machine.execSegDs s
  | .lock alt => Sys2Proof.Machine.execLock alt s
  | .repne => Sys2Proof.Machine.execRepne s
  | .rep => Sys2Proof.Machine.execRep s
  | .wait => Sys2Proof.Machine.execWait s
  | .movRmReg d w rm r => Sys2Proof.Machine.execMovRmReg d w rm r s
  | .movFromSreg rm sr => Sys2Proof.Machine.execMovFromSreg rm sr s
  | .movToSreg sr rm => Sys2Proof.Machine.execMovToSreg sr rm s
  | .movMoffs store w off => Sys2Proof.Machine.execMovMoffs store w off s
  | .movRegImm r v => Sys2Proof.Machine.execMovRegImm r v s
  | .movRmImm ext rm v => Sys2Proof.Machine.execMovRmImm ext rm v s
  | .pushReg r => Sys2Proof.Machine.execPushReg r s
  | .pushSreg sr => Sys2Proof.Machine.execPushSreg sr s
  | .pushRm alt rm => Sys2Proof.Machine.execPushRm alt rm s
  | .popReg r => Sys2Proof.Machine.execPopReg r s
  | .popSreg sr => Sys2Proof.Machine.execPopSreg sr s
  | .popRm ext rm => Sys2Proof.Machine.execPopRm ext rm s
  | .pushf => Sys2Proof.Machine.execPushf s
  | .popf => Sys2Proof.Machine.execPopf s
  | .xchgRm w rm r => Sys2Proof.Machine.execXchgRm w rm r s
  | .xchgAx r => Sys2Proof.Machine.execXchgAx r s
  | .inp w p => Sys2Proof.Machine.execIn w p s
  | .out w p => Sys2Proof.Machine.execOut w p s
  | .xlat => Sys2Proof.Machine.execXlat s
  | .lea r m => Sys2Proof.Machine.execLea r m s
  | .lds r m => Sys2Proof.Machine.execLds r m s
  | .les r m => Sys2Proof.Machine.execLes r m s
  | .lahf => Sys2Proof.Machine.execLahf s
  | .sahf => Sys2Proof.Machine.execSahf s
  | .add f => Sys2Proof.Machine.execAdd f s
  | .adc f => Sys2Proof.Machine.execAdc f s
  | .sub f => Sys2Proof.Machine.execSub f s
  | .sbb f => Sys2Proof.Machine.execSbb f s
  | .cmp f => Sys2Proof.Machine.execCmp f s
  | .inc f => Sys2Proof.Machine.execInc f s
  | .dec f => Sys2Proof.Machine.execDec f s
  | .neg w rm => Sys2Proof.Machine.execNeg w rm s
  | .mul w rm => Sys2Proof.Machine.execMul w rm s
  | .imul w rm => Sys2Proof.Machine.execImul w rm s
  | .div w rm => Sys2Proof.Machine.execDiv w rm s
  | .idiv w rm => Sys2Proof.Machine.execIdiv w rm s
  | .daa => Sys2Proof.Machine.execDaa s
  | .das => Sys2Proof.Machine.execDas s
  | .aaa => Sys2Proof.Machine.execAaa s
  | .aas => Sys2Proof.Machine.execAas s
  | .aam v => Sys2Proof.Machine.execAam v s
  | .aad v => Sys2Proof.Machine.execAad v s
  | .cbw => Sys2Proof.Machine.execCbw s
  | .cwd => Sys2Proof.Machine.execCwd s
  | .salc => Sys2Proof.Machine.execSalc s
  | .and f => Sys2Proof.Machine.execAnd f s
  | .or f => Sys2Proof.Machine.execOr f s
  | .xor f => Sys2Proof.Machine.execXor f s
  | .test f => Sys2Proof.Machine.execTest f s
  | .not w rm => Sys2Proof.Machine.execNot w rm s
  | .rol w c rm => Sys2Proof.Machine.execRol w c rm s
  | .ror w c rm => Sys2Proof.Machine.execRor w c rm s
  | .rcl w c rm => Sys2Proof.Machine.execRcl w c rm s
  | .rcr w c rm => Sys2Proof.Machine.execRcr w c rm s
  | .shl w c rm => Sys2Proof.Machine.execShl w c rm s
  | .shr w c rm => Sys2Proof.Machine.execShr w c rm s
  | .setmo w c rm => Sys2Proof.Machine.execSetmo w c rm s
  | .sar w c rm => Sys2Proof.Machine.execSar w c rm s
  | .movsb => Sys2Proof.Machine.execMovsb s
  | .movsw => Sys2Proof.Machine.execMovsw s
  | .cmpsb => Sys2Proof.Machine.execCmpsb s
  | .cmpsw => Sys2Proof.Machine.execCmpsw s
  | .scasb => Sys2Proof.Machine.execScasb s
  | .scasw => Sys2Proof.Machine.execScasw s
  | .lodsb => Sys2Proof.Machine.execLodsb s
  | .lodsw => Sys2Proof.Machine.execLodsw s
  | .stosb => Sys2Proof.Machine.execStosb s
  | .stosw => Sys2Proof.Machine.execStosw s
  | .jmpShort rel => Sys2Proof.Machine.execJmpShort rel s
  | .jmpNear rel => Sys2Proof.Machine.execJmpNear rel s
  | .jmpFar off seg => Sys2Proof.Machine.execJmpFar off seg s
  | .jmpRm rm => Sys2Proof.Machine.execJmpRm rm s
  | .jmpMem m => Sys2Proof.Machine.execJmpMem m s
  | .callNear rel => Sys2Proof.Machine.execCallNear rel s
  | .callFar off seg => Sys2Proof.Machine.execCallFar off seg s
  | .callRm rm => Sys2Proof.Machine.execCallRm rm s
  | .callMem m => Sys2Proof.Machine.execCallMem m s
  | .ret alt => Sys2Proof.Machine.execRet alt s
  | .retImm alt n => Sys2Proof.Machine.execRetImm alt n s
  | .retf alt => Sys2Proof.Machine.execRetf alt s
  | .retfImm alt n => Sys2Proof.Machine.execRetfImm alt n s
  | .jo alt rel => Sys2Proof.Machine.execJo alt rel s
  | .jno alt rel => Sys2Proof.Machine.execJno alt rel s
  | .jb alt rel => Sys2Proof.Machine.execJb alt rel s
  | .jae alt rel => Sys2Proof.Machine.execJae alt rel s
  | .je alt rel => Sys2Proof.Machine.execJe alt rel s
  | .jne alt rel => Sys2Proof.Machine.execJne alt rel s
  | .jbe alt rel => Sys2Proof.Machine.execJbe alt rel s
  | .ja alt rel => Sys2Proof.Machine.execJa alt rel s
  | .js alt rel => Sys2Proof.Machine.execJs alt rel s
  | .jns alt rel => Sys2Proof.Machine.execJns alt rel s
  | .jp alt rel => Sys2Proof.Machine.execJp alt rel s
  | .jnp alt rel => Sys2Proof.Machine.execJnp alt rel s
  | .jl alt rel => Sys2Proof.Machine.execJl alt rel s
  | .jge alt rel => Sys2Proof.Machine.execJge alt rel s
  | .jle alt rel => Sys2Proof.Machine.execJle alt rel s
  | .jg alt rel => Sys2Proof.Machine.execJg alt rel s
  | .loop rel => Sys2Proof.Machine.execLoop rel s
  | .loope rel => Sys2Proof.Machine.execLoope rel s
  | .loopne rel => Sys2Proof.Machine.execLoopne rel s
  | .jcxz rel => Sys2Proof.Machine.execJcxz rel s
  | .int3 => Sys2Proof.Machine.execInt3 s
  | .int n => Sys2Proof.Machine.execInt n s
  | .into => Sys2Proof.Machine.execInto s
  | .iret => Sys2Proof.Machine.execIret s
  | .clc => Sys2Proof.Machine.execClc s
  | .stc => Sys2Proof.Machine.execStc s
  | .cmc => Sys2Proof.Machine.execCmc s
  | .cld => Sys2Proof.Machine.execCld s
  | .std => Sys2Proof.Machine.execStd s
  | .cli => Sys2Proof.Machine.execCli s
  | .sti => Sys2Proof.Machine.execSti s
  | .hlt => Sys2Proof.Machine.execHlt s
  | .esc op ext rm => Sys2Proof.Machine.execEsc op ext rm s
  | .nop => Sys2Proof.Machine.execNop s
  | .popCs => Sys2Proof.Machine.execPopCs s
  | .movSregHigh d n rm => Sys2Proof.Machine.execMovSregHigh d n rm s
  | .movCs rm => Sys2Proof.Machine.execMovCs rm s
  | .leaRegister r rm => Sys2Proof.Machine.execLeaRegister r rm s
  | .lesRegister r rm => Sys2Proof.Machine.execLesRegister r rm s
  | .ldsRegister r rm => Sys2Proof.Machine.execLdsRegister r rm s
  | .fe2 rm => Sys2Proof.Machine.execFe2 rm s
  | .fe3 rm => Sys2Proof.Machine.execFe3 rm s
  | .fe4 rm => Sys2Proof.Machine.execFe4 rm s
  | .fe5 rm => Sys2Proof.Machine.execFe5 rm s
  | .fe6 rm => Sys2Proof.Machine.execFe6 rm s
  | .fe7 rm => Sys2Proof.Machine.execFe7 rm s
  | .callRegisterFar rm => Sys2Proof.Machine.execCallRegisterFar rm s
  | .jmpRegisterFar rm => Sys2Proof.Machine.execJmpRegisterFar rm s

end Sys2Proof.Machine
end

