-- ==== Sys2Proof/Machine/Sequencer.lean ====
section
/-!
DEFINITION. Sequencer.lean: the step of each agent (R14, R81, R322): the execution unit's, and which steps are enabled.
-/
namespace Sys2Proof.Machine

/-- Decode at IP and execute, then what follows the execute phase (R81); a decode fault is held after the bytes consumed (R235). -/
def decodeExec (s : State) : Host.Outcome State Fault Refusal :=
  let d := decodeNext s
  match d.1 with
  | none => .next d.2
  | some i => andThen (exec i d.2) finishInsn

/-- The next iteration of a repetition (R183). -/
def repeatExec (s : State) : Host.Outcome State Fault Refusal :=
  match s.eu.repMnemonic with
  | none => .next (holdFault (.executionError s.eu.insnStart) s)
  | some i => andThen (exec i s) finishInsn

/-- The execution unit's step (R81, R183, R216). -/
def euStep (s : State) : Host.Outcome State Fault Refusal :=
  if s.eu.halted then wakeStep s
  else
    match s.eu.phase with
    | .start => decodeExec (beginInsn s)
    | .executing => decodeExec (beginInsn s)
    | .halting => decodeExec (beginInsn s)
    | .prefixed => decodeExec s
    | .repeating => repeatExec s

/-- Whether an agent has an enabled step (R322, R323).  The clock is enabled whatever the CPU does: that of a CPU which holds a fault ticks
on, since R235 says only that the CPU agent takes no further step (DESIGN CHOICE, log entry 7). -/
def enabled (t : Turn) (s : State) : Bool :=
  match t with
  | .eu => s.eu.fault.isNone && (!s.eu.halted || wakes s)
  | .prefetch => prefetchEnabled s
  | .fdc => s.sys.fdc.ticking
  | .crtc => true
  | .clock _ => true
  | .host _ => true

/-- The step of an agent (R14): `none` is "no step", the agent being stuck. -/
def outcome (t : Turn) (s : State) : Option (Host.Outcome State Fault Refusal) :=
  if enabled t s then
    some
      (match t with
        | .eu => euStep s
        | .prefetch => .next (agentStep .prefetch s)
        | .fdc => .next (agentStep .fdc s)
        | .crtc => .next (agentStep .crtc s)
        | .clock c => .next (agentStep (.clock c) s)
        | .host a => .next (agentStep (.host a) s))
  else none

/-- What the interface shows of an execution unit that has no step (log entries 7 and 9): the fault held, or the state as it is. -/
def stuckEu (s : State) : Host.Outcome State Fault Refusal :=
  match s.eu.fault with
  | some f => .fault f
  | none => .next s

end Sys2Proof.Machine
end

