-- ==== Sys2Proof/Machine/Step.lean ====
section
/-!
DEFINITION. Step.lean: one step of the machine (R14, R81, R322).
-/
namespace Sys2Proof.Machine

/-- One step of the machine: the agent at the head of the agenda, the execution unit where the agenda is empty (log entry 6).  A turn of
an agent that has no step passes (log entry 9).  An endless execution puts a turn on the agenda for each step: Execution.lean. -/
def step (s : State) : Host.Outcome State Fault Refusal :=
  match s.agenda with
  | [] => (outcome .eu s).getD (stuckEu s)
  | t :: rest =>
    let s := { s with agenda := rest }
    (outcome t s).getD (.next s)

/-- The state whose next step fetches and runs the instruction of a table word (log entry 8): its bytes at CS:IP, the queue
empty, nothing scheduled, halted or repeated. -/
def State.withFetchWord (s : State) (nbits w : Nat) : State :=
  let t := readyToFetch s
  { t with sys := { t.sys with mem := loadCode t.cfg t.sregs.cs (ip t) (Sys2Proof.tableBytes nbits w) t.sys.mem } }

end Sys2Proof.Machine
end

