-- ==== Sys2Proof/Machine/Launch.lean ====
section
/-!
DEFINITION. Launch.lean: the launch record of a run and its end (80_host_interface.md R343, R344), and the turns of the source's machine
loop (R340).  No step reads them: they say in which state a run begins, at which state it is over, and one order of its turns.
-/
namespace Sys2Proof.Machine

/-! ### The launch record (R344) -/

/-- The registers of a launch that gives them; everything else of the CPU's state R344 fixes. -/
structure LaunchCpu where
  regs : Regs
  sregs : SRegs
  flags : Flags
  ip : Word
  deriving DecidableEq, Repr

/-- The device states of a launch that gives them.  `inFlight` says that an FDC operation is listed as in flight. -/
structure LaunchDevices where
  pic : Pic
  dma : Dma
  crtc : Crtc
  fdc : Fdc
  inFlight : Bool
  deriving DecidableEq, Repr

/-- An image mounted before the run (R339). -/
structure LaunchMedium where
  drive : BitVec 2
  size : Nat
  bytes : List Host.Cell
  writeProtected : Bool
  deriving DecidableEq, Repr

/-- When a line moves: before turn `n` of a launch, or between two bus transactions, before step `k` of batch `n` of its `interleave`
(R55, R322; log entry 34).  A step past the end of its batch is its end. -/
inductive LaunchTime where
  | turn (n : Nat)
  | gap (n k : Nat)
  deriving DecidableEq, Repr

/-- The launch record (R344) with the parameters the machine is created with (R338).  `cpu` is none after `reset()`, `devices` none for
the power-on states.  `memory` and `rom` list bytes by physical address.  `turns` and `interleave` are the order in which the agents step
(R322, log entry 6).  The two schedules are the only moves of the NMI pin and the IRQ lines from outside.  `endAt` is the end address
E. -/
structure Launch where
  cfg : Config
  cpu : Option LaunchCpu
  memory : List Host.Cell
  rom : List Host.Cell
  devices : Option LaunchDevices
  media : List LaunchMedium
  irqSchedule : List (LaunchTime × BitVec 3 × Bool)
  nmiSchedule : List (LaunchTime × Bool)
  turns : List Turn
  interleave : List (List MidTurn)
  endAt : Word × Word
  deriving DecidableEq, Repr

/-- Load bytes at physical addresses, ROM included. -/
def loadCells (c : Config) : List Host.Cell → Memory → Memory
  | [], m => m
  | x :: xs, m => loadCells c xs (loadByte c m (BitVec.ofNat 20 x.1) x.2)

/-- Give the CPU's registers (R344): the queue is empty, the CPU neither halted nor in a repetition, nothing inhibited or latched, and
`tf_prev` = TF. -/
def withCpu (u : LaunchCpu) (s : State) : State :=
  { s with
    regs := u.regs, sregs := u.sregs, flags := u.flags
    biu := { s.biu with pc := u.ip, queue := [] }
    eu := { s.eu with insnStart := u.ip, tfPrev := u.flags.tf } }

/-- Give the devices' states (R344). -/
def withDevices (d : LaunchDevices) (s : State) : State :=
  { s with sys := { s.sys with pic := d.pic, dma := d.dma, crtc := d.crtc, fdc := d.fdc } }

/-- A drive's image at the launch (R339, R344), where an operation on the drive is in flight too: R338's bar on mounting is for a run. -/
def mountMedium (s : State) (m : LaunchMedium) : State :=
  { s with sys := { s.sys with fdc := s.sys.fdc.insert s.cfg m.drive m.size m.bytes m.writeProtected } }

/-- The moves of the two schedules (R230, R242, R344). -/
def Launch.moves (l : Launch) : List (LaunchTime × HostAction) :=
  (l.irqSchedule.map fun e => (e.1, .setIrq e.2.1 e.2.2)) ++ l.nmiSchedule.map fun e => (e.1, .setNmi e.2)

/-- The moves before a turn, with the turn's number. -/
def turnMoves (ms : List (LaunchTime × HostAction)) : List (Nat × HostAction) :=
  ms.filterMap fun m =>
    match m.1 with
    | .turn n => some (n, m.2)
    | .gap _ _ => none

/-- The moves within a batch, with the batch's number and the step's. -/
def gapMoves (ms : List (LaunchTime × HostAction)) : List (Nat × Nat × HostAction) :=
  ms.filterMap fun m =>
    match m.1 with
    | .turn _ => none
    | .gap n k => some (n, k, m.2)

/-- A list of steps, numbered from `n` on, with the moves put before the steps they name, and after the last one where they name none. -/
def insertMoves {α : Type} (wrap : HostAction → α) (ms : List (Nat × HostAction)) : Nat → List α → List α
  | n, [] => (ms.filter fun m => decide (n ≤ m.1)).map fun m => wrap m.2
  | n, x :: xs => ((ms.filter fun m => m.1 == n).map fun m => wrap m.2) ++ x :: insertMoves wrap ms (n + 1) xs

/-- The batches, numbered from `n` on, each with its moves put in. -/
def insertGaps (ms : List (Nat × Nat × HostAction)) : Nat → List (List MidTurn) → List (List MidTurn)
  | _, [] => []
  | n, b :: bs => insertMoves .host ((ms.filter fun m => m.1 == n).map Prod.snd) 0 b :: insertGaps ms (n + 1) bs

/-- A list lengthened to `n` entries. -/
def padTo {α : Type} (n : Nat) (x : α) (xs : List α) : List α := xs ++ List.replicate (n - xs.length) x

/-- The agenda of a launch: its turns, followed by turns of the execution unit up to the last scheduled move, and the moves. -/
def Launch.agenda (l : Launch) : List Turn :=
  let ms := turnMoves l.moves
  insertMoves .host ms 0 (padTo ((ms.map Prod.fst).foldl max 0) .eu l.turns)

/-- The steps between bus transactions of a launch: its batches, followed by empty ones up to the last scheduled move, and the moves. -/
def Launch.gaps (l : Launch) : List (List MidTurn) :=
  let ms := gapMoves l.moves
  insertGaps ms 0 (padTo ((ms.map fun m => m.1 + 1).foldl max 0) [] l.interleave)

/-- The state in which a run begins (R344). -/
def Launch.state (l : Launch) : State :=
  let s := State.powerOn l.cfg
  let s := { s with sys := { s.sys with mem := loadCells l.cfg l.rom (loadCells l.cfg l.memory []) } }
  let s := l.cpu.elim s fun u => withCpu u s
  let s := l.devices.elim s fun d => withDevices d s
  let s := l.media.foldl mountMedium s
  { s with agenda := l.agenda, interleave := l.gaps }

/-- `clean` (R344): no fault is recorded; a refusal ends the model's run, so a state records none. -/
def clean (s : State) : Bool := s.eu.fault.isNone

/-- Whether the FDC is in the Operation phase (R343). -/
def Fdc.operating (f : Fdc) : Bool := f.phase == .operation

/-- Whether an action moves the NMI pin or an IRQ line. -/
def HostAction.movesLine (a : HostAction) : Bool :=
  match a with
  | .setNmi _ => true
  | .setIrq _ _ => true
  | .mount _ _ _ _ => false
  | .eject _ => false
  | .setWriteProtect _ _ => false
  | .setTag _ _ => false

/-- The host's action in a turn. -/
def Turn.action (t : Turn) : Option HostAction :=
  match t with
  | .host a => some a
  | .eu => none
  | .prefetch => none
  | .fdc => none
  | .crtc => none
  | .clock _ => none

/-- The host's action in a step between two bus transactions. -/
def MidTurn.action (t : MidTurn) : Option HostAction :=
  match t with
  | .host a => some a
  | .prefetch => none
  | .fdc => none
  | .crtc => none
  | .clock _ => none

/-- No line moves but by the schedules (R338, R344), which name the IRQ lines outside the CORE: an empty schedule is no move. -/
abbrev Launch.LinesScheduled (l : Launch) : Prop :=
  (∀ t ∈ l.turns, ∀ a ∈ t.action, a.movesLine = false) ∧ (∀ b ∈ l.interleave, ∀ t ∈ b, ∀ a ∈ t.action, a.movesLine = false) ∧
    ∀ e ∈ l.irqSchedule, e.2.1 ≠ 6

/-- Every image has a size that R299 lists and a drive that exists (R339). -/
abbrev Launch.MediaMountable (l : Launch) : Prop :=
  ∀ m ∈ l.media, m.drive.toNat < l.cfg.driveCount ∧ (geometryOf m.size).isSome = true

/-- The premises R344 sets for a launch: admitted parameters, RAM and ROM bytes each in its own region, an operation of the FDC only
where it is listed as in flight, images that can be mounted, the lines moved by the schedules alone, and the start clean. -/
abbrev Launch.Admitted (l : Launch) : Prop :=
  l.cfg.Admitted ∧ (∀ x ∈ l.memory, x.1 < 0xF0000) ∧ (∀ x ∈ l.rom, 0xF0000 ≤ x.1 ∧ x.1 < 0x100000) ∧
    (∀ d ∈ l.devices, d.fdc.operating = true → d.inFlight = true) ∧ l.MediaMountable ∧ l.LinesScheduled ∧ clean l.state = true

/-! ### The machine loop (R279, R340) -/

/-- What the loop carries from quantum to quantum: the fractional microseconds of the FDC and the dots of the video card's accumulator,
as numerators over `CPU_CLOCK_HZ` and over the denominator of `dotsPerCycle`. -/
structure LoopCarry where
  us : Nat
  dots : Nat
  deriving DecidableEq, Repr

/-- The device turns of a quantum of `n` CPU cycles (R340): an operation tick of the FDC for each microsecond, a character tick of the
video card for each `char_w` dots (R279).  The loop is one schedule among all (R322, log entry 6). -/
def quantumTurns (cfg : Config) (charW n : Nat) (k : LoopCarry) : List Turn × LoopCarry :=
  let us := k.us + n * 1000000
  let dots := k.dots + n * cfg.dotsPerCycle.1
  let char := charW * cfg.dotsPerCycle.2
  (List.replicate (us / cfg.cpuClockHz) .fdc ++ List.replicate (dots / char) .crtc, ⟨us % cfg.cpuClockHz, dots % char⟩)

/-- Put the device turns of a quantum that took `n` CPU cycles first on the agenda. -/
def withQuantum (n : Nat) (k : LoopCarry) (s : State) : State × LoopCarry :=
  let q := quantumTurns s.cfg (s.sys.crtc.charW s.cfg) n k
  ({ s with agenda := q.1 ++ s.agenda }, q.2)

/-! ### The end of a run (R343) -/

/-- Whether a run that is to end at `e` = (CS, IP) is over in this state (R343): the CPU stands at an instruction boundary at which no
interrupt was entered, CS:IP is E, no fault is recorded, and the FDC is not in its Operation phase.  A halted CPU is stuck, not at the
end (DEDUCED, log entry 34). -/
def runEnded (e : Word × Word) (s : State) : Bool :=
  s.host.atBoundary && !s.eu.halted && s.sregs.cs == e.1 && ip s == e.2 && clean s && !s.sys.fdc.operating

/-- Run a launch until it is over, at most `n` steps: the state of the first boundary R343 asks for, where one is reached. -/
def Launch.runTo (l : Launch) : Nat → State → Option State
  | 0, _ => none
  | n + 1, s =>
    match step s with
    | .next t => if runEnded l.endAt t then some t else l.runTo n t
    | .fault _ => none
    | .refused _ => none

end Sys2Proof.Machine
end

