-- ==== Sys2Proof/Machine/Peek.lean ====
section
/-!
DEFINITION. Peek.lean: the host's disassembly peek (22_eu_sequencer.md R87, R88): the decoder's algorithm over a list of bytes, and over the
bytes at CS:IP, reading without advancing.  It answers a value and no state, so nothing can depend on it.
-/
namespace Sys2Proof.Machine

/-- What a peek answers: the instruction, or one of the two decode errors it can meet (R82, R87). -/
inductive Peeked where
  /-- The whole instruction, its immediates with their real values (R88). -/
  | insn (d : Decoded)
  /-- The prefix or the length limit is passed, where a true decode faults (R82, R235). -/
  | instructionDecodeError
  /-- `ReadOutOfBounds`: the bytes end within the instruction (R87). -/
  | readOutOfBounds
  deriving DecidableEq, Repr

/-- `decode()` of R82 from within its prefix loop, `p` being the prefix set so far, for an instruction at CS:IP: the loop counts the prefix
bytes, so that they and the bytes the decoder takes are the size (R86). -/
def peekFrom (cs ip : Word) (p : Prefixes) : List Byte → Peeked
  | [] => .readOutOfBounds
  | b :: bs =>
    match prefixByte b with
    | some f =>
      if maxPrefixes < p.count + 1 then .instructionDecodeError else peekFrom cs ip { f p with count := p.count + 1 } bs
    | none =>
      match decode (b :: bs) with
      | none => .readOutOfBounds
      | some (i, rest) =>
        let n := (b :: bs).length - rest.length
        if maxInsnLen < p.count + n then .instructionDecodeError
        else .insn (Decoded.ofBytes cs ip p ((b :: bs).take n) (p.count + n) i)

/-- The peek of the instruction whose bytes begin a list (R88). -/
def peekBytes (cs ip : Word) (bs : List Byte) : Peeked := peekFrom cs ip Prefixes.empty bs

/-- `n` bytes of memory from an offset of the code segment on, as the next code fetches would read them. -/
def memStream (c : Config) (cs : Word) : Nat → Word → Sys → List Byte
  | 0, _, _ => []
  | n + 1, off, y =>
    let r := y.readByte c (phys cs off)
    r.1 :: memStream c cs n (off + 1) r.2

/-- The next `n` bytes of the instruction stream: the queue first, then memory from CS:PC on (log entry 38). -/
def streamBytes (n : Nat) (s : State) : List Byte :=
  s.biu.queue ++ memStream s.cfg s.sregs.cs (n - s.biu.queue.length) s.biu.pc s.sys

/-- The peek of the instruction at CS:IP (R88). -/
def peekInsn (s : State) : Peeked := peekBytes s.sregs.cs (ip s) (streamBytes maxInsnLen s)

end Sys2Proof.Machine
end

