-- ==== Sys2Proof/Safety.lean ====
section
/-!
DEFINITION. Safety.lean: the vocabulary of the statements: what an instruction leaves unchanged, what a memory operand holds and what a
store leaves, the bytes of the instruction stream, and the invariants of the machine.
-/
namespace Sys2Proof.Machine

/-! ### No other agent between two bus transactions -/

/-- No step of another agent is scheduled between the bus transactions of the coming instruction (R55), and no code fetch is
scheduled or in flight (R75).  Statements about the devices, the queue and every byte of memory need it; those about the CPU's own
registers do not. -/
abbrev State.Quiet (s : State) : Prop := s.interleave = [] ∧ s.biu.planned = false

/-! ### Registers -/

/-- A register as an instruction writes it: a byte half or a whole word (R18, R105). -/
inductive RegPart where
  | byte (r : Reg)
  | word (r : Reg)
  deriving DecidableEq, Repr

/-- The word register that a byte register is a half of (R18). -/
def homeReg (r : Reg) : Reg :=
  match r with
  | .r0 => .r0
  | .r1 => .r1
  | .r2 => .r2
  | .r3 => .r3
  | .r4 => .r0
  | .r5 => .r1
  | .r6 => .r2
  | .r7 => .r3

/-- Whether a write of the part can change the word register `q`. -/
def RegPart.touchesWord (p : RegPart) (q : Reg) : Bool :=
  match p with
  | .byte r => homeReg r == q
  | .word r => r == q

/-- Whether a write of the part can change the byte register `q`. -/
def RegPart.touchesByte (p : RegPart) (q : Reg) : Bool :=
  match p with
  | .byte r => r == q
  | .word r => r == homeReg q

/-- The part of register `r` at a width. -/
def regPart (w : Width) (r : Reg) : RegPart :=
  match w with
  | .byte => .byte r
  | .word => .word r

/-- Every general register outside the listed parts is unchanged. -/
abbrev RegsKept (rs : List RegPart) (s t : State) : Prop :=
  (∀ q, (∀ p ∈ rs, p.touchesWord q = false) → t.regs.get16 q = s.regs.get16 q) ∧
    ∀ q, (∀ p ∈ rs, p.touchesByte q = false) → t.regs.get8 q = s.regs.get8 q

/-- The register an r/m operand names, none for a memory operand. -/
def rmParts (w : Width) (rm : Rm) : List RegPart :=
  match rm with
  | .reg r => [regPart w r]
  | .mem _ => []

/-! ### Flags -/

/-- The nine flags by name (R25). -/
inductive FlagName where
  | cf | pf | af | zf | sf | tf | if_ | df | of_
  deriving DecidableEq, Repr

/-- The value of a flag. -/
def Flags.get (n : FlagName) (f : Flags) : Bool :=
  match n with
  | .cf => f.cf
  | .pf => f.pf
  | .af => f.af
  | .zf => f.zf
  | .sf => f.sf
  | .tf => f.tf
  | .if_ => f.if_
  | .df => f.df
  | .of_ => f.of_

/-- Every flag outside the list is unchanged. -/
abbrev FlagsKept (fs : List FlagName) (s t : State) : Prop := ∀ n, n ∉ fs → t.flags.get n = s.flags.get n

/-- The six status flags of an arithmetic result (R13, R139). -/
abbrev statusFlags : List FlagName := [.cf, .pf, .af, .zf, .sf, .of_]

/-- SF, ZF and PF are those of a result (R13); PF says that the low byte has an even number of one bits. -/
abbrev SzpOf {n : Nat} (r : BitVec n) (f : Flags) : Prop :=
  f.sf = r.msb ∧ f.zf = decide (r.toNat = 0) ∧ f.pf = decide ((List.range 8).countP r.getLsbD % 2 = 0)

/-! ### Memory -/

/-- Two addresses name one byte: the video apertures repeat (R51). -/
def sameCell (c : Config) (a b : Phys) : Prop := ∃ p, cellOf c a = some p ∧ cellOf c b = some p

/-- The bytes of a value at `seg:off` (R42): a word's high byte is at offset `off + 1` of the segment. -/
def span (w : Width) (seg off : Word) : List Phys :=
  match w with
  | .byte => [phys seg off]
  | .word => [phys seg off, phys seg (off + 1)]

/-- The bytes an r/m operand stands for, none for a register. -/
def rmSpan (w : Width) (rm : Rm) (s : State) : List Phys :=
  match rm with
  | .reg _ => []
  | .mem m => span w (memSeg m s) (ea m s)

/-- Every byte of memory outside the listed addresses reads as before. -/
abbrev MemKept (as : List Phys) (s t : State) : Prop :=
  ∀ a, (∀ b ∈ as, ¬ sameCell s.cfg a b) → peek s.cfg t.sys.mem a = peek s.cfg s.sys.mem a

/-- The memory after a value is stored at `seg:off`, low byte first (R42, R43). -/
def storeVal (c : Config) (w : Width) (seg off : Word) (v : Val w) (m : Memory) : Memory :=
  match w with
  | .byte => poke c m (phys seg off) v
  | .word =>
    let v : Word := v
    poke c (poke c m (phys seg off) (loByte v)) (phys seg (off + 1)) (hiByte v)

/-- The byte a read of an address gives when `k` free values have been used: the byte held, or the next free byte (R48). -/
def heldByte (c : Config) (m : Memory) (k : Nat) (a : Phys) : Byte := (peek c m a).getD (Config.freeByte k)

/-- How many free values a read of an address uses. -/
def drawsAt (c : Config) (m : Memory) (a : Phys) : Nat := if (peek c m a).isSome then 0 else 1

/-- The value of a read at `seg:off` in a memory, when `k` free values have been used (R42, R43, R48). -/
def heldFrom (c : Config) (m : Memory) (k : Nat) (w : Width) (seg off : Word) : Val w :=
  match w with
  | .byte => heldByte c m k (phys seg off)
  | .word => wordOf (heldByte c m k (phys seg off)) (heldByte c m (k + drawsAt c m (phys seg off)) (phys seg (off + 1)))

/-- How many free values a read at `seg:off` uses. -/
def drawsFor (c : Config) (m : Memory) (w : Width) (seg off : Word) : Nat :=
  match w with
  | .byte => drawsAt c m (phys seg off)
  | .word => drawsAt c m (phys seg off) + drawsAt c m (phys seg (off + 1))

/-- The value a read at `seg:off` gives now. -/
def heldVal (w : Width) (seg off : Word) (s : State) : Val w := heldFrom s.cfg s.sys.mem s.sys.drawCtr w seg off

/-- The value a read at `seg:off` gives after a first read of a width at `seg1:off1`. -/
def heldNext (w : Width) (seg1 off1 seg off : Word) (s : State) : Val w :=
  heldFrom s.cfg s.sys.mem (s.sys.drawCtr + drawsFor s.cfg s.sys.mem w seg1 off1) w seg off

/-- The value of an r/m operand (R12). -/
def rmVal (w : Width) (rm : Rm) (s : State) : Val w :=
  match rm with
  | .reg r => getReg w r s
  | .mem m => heldVal w (memSeg m s) (ea m s) s

/-- An r/m operand has been given a value: the register holds it, or memory is what the store of it leaves (R12). -/
def Stored (w : Width) (rm : Rm) (v : Val w) (s t : State) : Prop :=
  match rm with
  | .reg r => getReg w r t = v
  | .mem m => t.sys.mem = storeVal s.cfg w (memSeg m s) (ea m s) v s.sys.mem

/-! ### The frame of an instruction -/

/-- Everything but the listed registers, flags and bytes, the segment registers, the bus and execution units and the host's
records is as before. -/
structure Frame (rs : List RegPart) (fs : List FlagName) (as : List Phys) (s t : State) : Prop where
  regs : RegsKept rs s t
  flags : FlagsKept fs s t
  mem : MemKept as s t
  cfg : t.cfg = s.cfg
  pic : t.sys.pic = s.sys.pic
  dma : t.sys.dma = s.sys.dma
  crtc : t.sys.crtc = s.sys.crtc
  fdc : t.sys.fdc = s.sys.fdc
  tags : t.sys.tags = s.sys.tags
  reports : t.sys.reports = s.sys.reports
  agenda : t.agenda = s.agenda
  quiet : t.interleave = s.interleave ∧ (s.biu.planned = false → t.biu.planned = false)

/-- The segment registers, the execution unit and the host's records of a data instruction: all as before. -/
structure UnitsKept (s t : State) : Prop where
  sregs : t.sregs = s.sregs
  eu : t.eu = s.eu
  history : t.host.history = s.host.history
  callStack : t.host.callStack = s.host.callStack

/-- An instruction that falls through: IP and the queue stay, and so does whether fetch is suspended (R67). -/
structure FallsThrough (s t : State) : Prop where
  pc : t.biu.pc = s.biu.pc
  queue : t.biu.queue = s.biu.queue
  suspended : t.biu.fetchState = .suspended ↔ s.biu.fetchState = .suspended

/-- A data instruction: its frame, the units kept, and IP at the next instruction. -/
abbrev DataStep (rs : List RegPart) (fs : List FlagName) (as : List Phys) (s t : State) : Prop :=
  Frame rs fs as s t ∧ UnitsKept s t ∧ FallsThrough s t

/-- A transfer of control within the code segment (R11, R66): PC takes the target, the queue is empty, fetch is Idle, and the next
fetch is held back by `FLUSH_PENALTY`. -/
abbrev JumpedTo (target : Word) (t : State) : Prop :=
  t.biu.pc = target ∧ t.biu.queue = [] ∧ t.biu.fetchState = .idle ∧ t.biu.heldBack = flushPenalty

/-! ### The stack -/

/-- The two bytes a push writes (R10). -/
def pushSpan (s : State) : List Phys := span .word s.sregs.ss (s.regs.sp - 2)

/-- The memory after words are pushed, the first one first, from a given SP (R10). -/
def pushAll (c : Config) (ss : Word) : Word → List Word → Memory → Memory
  | _, [], m => m
  | sp, v :: vs, m => pushAll c ss (sp - 2) vs (storeVal c .word ss (sp - 2) v m)

/-- The words popped, the first one first, from a given SP, when `k` free values have been used (R10). -/
def popAll (c : Config) (m : Memory) (ss : Word) : Nat → Nat → Word → List Word
  | 0, _, _ => []
  | n + 1, k, sp => heldFrom c m k .word ss sp :: popAll c m ss n (k + drawsFor c m .word ss sp) (sp + 2)

/-- The words that `n` pops would give now. -/
def stackWords (n : Nat) (s : State) : List Word := popAll s.cfg s.sys.mem s.sregs.ss n s.sys.drawCtr s.regs.sp

/-- The six bytes an interrupt entry writes (R226). -/
def frameSpan (s : State) : List Phys :=
  span .word s.sregs.ss (s.regs.sp - 2) ++ span .word s.sregs.ss (s.regs.sp - 4) ++ span .word s.sregs.ss (s.regs.sp - 6)

/-- The word held at a physical address of the vector table, when `k` free values have been used (R49). -/
def vectorWord (c : Config) (m : Memory) (k : Nat) (a : Phys) : Word :=
  wordOf (heldByte c m k a) (heldByte c m (k + drawsAt c m a) (a + 1))

/-- Interrupt type `n` has been entered with a return offset (R226): the frame is pushed, IF and TF are 0, CS:IP is the vector's,
the queue is empty, and the CPU is neither halted nor in a repetition. -/
structure Entered (n : Byte) (ret : Word) (s t : State) : Prop where
  frame : RegsKept [.word .r4] s t ∧ FlagsKept [.if_, .tf] s t ∧ MemKept (frameSpan s) s t
  sp : t.regs.sp = s.regs.sp - 6
  mem : t.sys.mem = pushAll s.cfg s.sregs.ss s.regs.sp [s.flags.toWord, s.sregs.cs, ret] s.sys.mem
  masked : t.flags.if_ = false ∧ t.flags.tf = false
  target : ∃ k, t.biu.pc = vectorWord s.cfg s.sys.mem k (n.zeroExtend 20 <<< 2) ∧
    ∃ j, t.sregs.cs = vectorWord s.cfg s.sys.mem j ((n.zeroExtend 20 <<< 2) + 2)
  segments : t.sregs.es = s.sregs.es ∧ t.sregs.ss = s.sregs.ss ∧ t.sregs.ds = s.sregs.ds
  queue : t.biu.queue = [] ∧ t.biu.fetchState = .idle
  unit : t.eu.halted = false ∧ t.eu.inRep = false ∧ t.eu.repType = .none
  callStack : t.host.callStack = (.interrupt :: s.host.callStack).take 128
  devices : t.sys.dma = s.sys.dma ∧ t.sys.crtc = s.sys.crtc ∧ t.sys.fdc = s.sys.fdc ∧ t.cfg = s.cfg

/-! ### String instructions -/

/-- The five string instructions at a width (R177). -/
def movsOf (w : Width) : Instr := match w with | .byte => .movsb | .word => .movsw

/-- CMPS at a width. -/
def cmpsOf (w : Width) : Instr := match w with | .byte => .cmpsb | .word => .cmpsw

/-- SCAS at a width. -/
def scasOf (w : Width) : Instr := match w with | .byte => .scasb | .word => .scasw

/-- LODS at a width. -/
def lodsOf (w : Width) : Instr := match w with | .byte => .lodsb | .word => .lodsw

/-- STOS at a width. -/
def stosOf (w : Width) : Instr := match w with | .byte => .stosb | .word => .stosw

/-- A string pointer after one iteration (R177): up or down by the element size, as DF says. -/
def nextElement (w : Width) (s : State) (p : Word) : Word :=
  match w, s.flags.df with
  | .byte, false => p + 1
  | .byte, true => p - 1
  | .word, false => p + 2
  | .word, true => p - 2

/-- The state with its REP prefixes taken away, so that a string instruction is one iteration (R183). -/
def withoutRep (s : State) : State :=
  { s with eu := { s.eu with prefixes := { s.eu.prefixes with repe := false, repne := false } } }

/-- The string instructions that compare, whose repetition ZF can end (R183). -/
def isCompare (i : Instr) : Bool := [Instr.cmpsb, .cmpsw, .scasb, .scasw].contains i

/-! ### Operand forms -/

/-- The width of an ALU form (R138). -/
def aluWidth (f : AluForm) : Width :=
  match f with
  | .rmReg _ w _ _ => w
  | .acc i => i.width
  | .rmImm _ _ i => i.width
  | .rmImm8s _ _ => .word

/-- The destination of an ALU form (R138). -/
def aluDst (f : AluForm) : Rm :=
  match f with
  | .rmReg .toRm _ rm _ => rm
  | .rmReg .toReg _ _ r => .reg r
  | .acc _ => .reg .r0
  | .rmImm _ rm _ => rm
  | .rmImm8s rm _ => rm

/-- The value of an immediate at its width. -/
def immVal (i : Imm) : Val i.width :=
  match i with
  | .byte v => v
  | .word v => v

/-- The source value of an ALU form (R138): 83h sign-extends its immediate. -/
def aluSrc (f : AluForm) (s : State) : Val (aluWidth f) :=
  match f with
  | .rmReg .toRm w _ r => getReg w r s
  | .rmReg .toReg w rm _ => rmVal w rm s
  | .acc i => immVal i
  | .rmImm _ _ i => immVal i
  | .rmImm8s _ v => v.signExtend 16

/-- The width of a form of TEST (R166). -/
def testWidth (f : TestForm) : Width :=
  match f with
  | .rmReg w _ _ => w
  | .acc i => i.width
  | .rmImm _ _ i => i.width

/-- The first operand of a form of TEST (R166). -/
def testDst (f : TestForm) : Rm :=
  match f with
  | .rmReg _ rm _ => rm
  | .acc _ => .reg .r0
  | .rmImm _ rm _ => rm

/-- The second operand of a form of TEST (R166). -/
def testSrc (f : TestForm) (s : State) : Val (testWidth f) :=
  match f with
  | .rmReg w _ r => getReg w r s
  | .acc i => immVal i
  | .rmImm _ _ i => immVal i

/-- The width of a form of INC and DEC (R146, R147). -/
def incWidth (f : IncForm) : Width :=
  match f with
  | .reg _ => .word
  | .rm w _ => w

/-- The operand of a form of INC and DEC (R146, R147). -/
def incDst (f : IncForm) : Rm :=
  match f with
  | .reg r => .reg r
  | .rm _ rm => rm

/-- The flags of an addition with carry-in (R139), by the exact sums: CF says that the unsigned sum, AF that the sum of the low
nibbles, and OF that the signed sum does not fit. -/
structure AddFlags {n : Nat} (a b : BitVec n) (c : Bool) (f : Flags) : Prop where
  cf : f.cf = decide (2 ^ n ≤ a.toNat + b.toNat + c.toNat)
  af : f.af = decide (16 ≤ a.toNat % 16 + b.toNat % 16 + c.toNat)
  of_ : f.of_ = decide (a.toInt + b.toInt + c.toNat < -2 ^ (n - 1) ∨ 2 ^ (n - 1) ≤ a.toInt + b.toInt + c.toNat)
  szp : SzpOf (BitVec.ofNat n (a.toNat + b.toNat + c.toNat)) f

/-- The flags of a subtraction with borrow-in (R140), by the exact differences. -/
structure SubFlags {n : Nat} (a b : BitVec n) (c : Bool) (f : Flags) : Prop where
  cf : f.cf = decide (a.toNat < b.toNat + c.toNat)
  af : f.af = decide (a.toNat % 16 < b.toNat % 16 + c.toNat)
  of_ : f.of_ = decide (a.toInt - b.toInt - c.toNat < -2 ^ (n - 1) ∨ 2 ^ (n - 1) ≤ a.toInt - b.toInt - c.toNat)
  szp : SzpOf (BitVec.ofInt n (a.toInt - b.toInt - c.toNat)) f

/-! ### The 6845 registers -/

/-- CR0 to CR17 by number, each in a byte (R270). -/
def CrtcRegs.value (i : BitVec 5) (r : CrtcRegs) : Byte :=
  match i.toNat with
  | 0 => r.horizontalTotal
  | 1 => r.horizontalDisplayed
  | 2 => r.horizontalSyncPos
  | 3 => r.syncWidth
  | 4 => r.verticalTotal.zeroExtend 8
  | 5 => r.verticalTotalAdjust.zeroExtend 8
  | 6 => r.verticalDisplayed.zeroExtend 8
  | 7 => r.verticalSyncPos.zeroExtend 8
  | 8 => r.interlace.zeroExtend 8
  | 9 => r.maxScanline.zeroExtend 8
  | 10 => r.cursorStart.zeroExtend 8
  | 11 => r.cursorEnd.zeroExtend 8
  | 12 => r.startHigh.zeroExtend 8
  | 13 => r.startLow
  | 14 => r.cursorHigh.zeroExtend 8
  | 15 => r.cursorLow
  | 16 => r.lightpenHigh.zeroExtend 8
  | 17 => r.lightpenLow
  | _ => 0

/-- The bits that a register of the 6845 has (R270). -/
def crtcMask (i : BitVec 5) : Byte :=
  match i.toNat with
  | 4 => 0x7F
  | 5 => 0x1F
  | 6 => 0x7F
  | 7 => 0x7F
  | 8 => 0x03
  | 9 => 0x1F
  | 10 => 0x7F
  | 11 => 0x1F
  | 12 => 0x3F
  | 14 => 0x3F
  | 16 => 0x3F
  | _ => 0xFF

/-! ### The instruction stream -/

/-- Byte `k` of the instruction stream: the queue first, then memory from `CS:PC` on (R59, R63); `none` where a fetch would be a
draw. -/
def streamByte (s : State) (k : Nat) : Option Byte :=
  if k < s.biu.queue.length then s.biu.queue[k]?
  else peek s.cfg s.sys.mem (phys s.sregs.cs (s.biu.pc + BitVec.ofNat 16 (k - s.biu.queue.length)))

/-- The next bytes of the instruction stream. -/
abbrev StreamAt (s : State) (bs : List Byte) : Prop := ∀ k, k < bs.length → streamByte s k = bs[k]?

/-! ### Invariants -/

/-- The string instructions, which REP repeats (R222). -/
def isString (i : Instr) : Bool :=
  [Instr.movsb, .movsw, .cmpsb, .cmpsw, .scasb, .scasw, .lodsb, .lodsw, .stosb, .stosw].contains i

/-- What holds of the CPU between two steps: the queue within its capacity, a code fetch in flight included (R29, R63), at most four
prefix bytes, a fifth only where the CPU holds its fault (R82), a halted CPU at an instruction's start (R216), a repetition only of a string instruction under a REP prefix (R97,
R183), the host's records within their bounds (R341). -/
structure CpuInv (s : State) : Prop where
  queue : s.biu.queue.length + (if s.biu.fetching then fetchWidth s else 0) ≤ s.cfg.queueMax
  prefixes : s.eu.prefixes.count ≤ maxPrefixes + (if s.eu.fault = none then 0 else 1)
  halted : s.eu.halted = true → s.eu.phase = .start
  phase : s.eu.phase = .start ∨ s.eu.phase = .prefixed ∨ s.eu.phase = .repeating
  repeating : s.eu.phase = .repeating → repPrefixed s = true ∧ s.eu.inRep = true ∧ ∃ i, s.eu.repMnemonic = some i ∧ isString i = true
  history : s.host.history.length ≤ 32
  callStack : s.host.callStack.length ≤ 128

/-- Every byte array of the machine is in canonical form: memory, the page ports, the two framebuffers, the drives' images. -/
structure MemInv (s : State) : Prop where
  mem : s.sys.mem.wf = true
  pagePorts : s.sys.dma.pagePorts.wf = true
  front : s.sys.crtc.front.wf = true
  back : s.sys.crtc.back.wf = true
  images : ∀ d, (s.sys.fdc.drives.get d).image.wf = true

/-- The fields of the devices that stay in their range: `vector_base` has its low three bits 0 (R241, R247), a channel's dropout
counter is at most `DMA_DROPOUT` (R265), and the FDC counts at most four pending reset results (R302). -/
structure DeviceInv (s : State) : Prop where
  vectorBase : s.sys.pic.vectorBase &&& 7 = 0
  dropout : ∀ c, (s.sys.dma.ch.get c).dropout ≤ dmaDropout
  resetPoll : s.sys.fdc.resetPoll ≤ 4

end Sys2Proof.Machine
end

