-- ==== Sys2Proof/WellFormed.lean ====
section
/-!
DEFINITION. WellFormed.lean: which terms of Syntax.lean are instructions of the hardware, each check citing its rule.
-/
namespace Sys2Proof

/-- R102: mod = 00 with rm = 110 is the direct address, so `[BP]` has no form without a displacement. -/
def MemOp.wellFormed : MemOp → Bool
  | .base b => b != .bp
  | .disp8 _ _ => true
  | .disp16 _ _ => true
  | .direct _ => true

/-- R101, R102. -/
def Rm.wellFormed : Rm → Bool
  | .reg _ => true
  | .mem m => m.wellFormed

/-- R138: 82h is the alias of 80h, the byte form, only. -/
def AluForm.wellFormed : AluForm → Bool
  | .rmReg _ _ rm _ => rm.wellFormed
  | .acc _ => true
  | .rmImm alt rm i => rm.wellFormed && (match i with | .byte _ => true | .word _ => !alt)
  | .rmImm8s rm _ => rm.wellFormed

/-- R146, R147. -/
def IncForm.wellFormed : IncForm → Bool
  | .reg _ => true
  | .rm _ m => m.wellFormed

/-- R166. -/
def TestForm.wellFormed : TestForm → Bool
  | .rmReg _ rm _ => rm.wellFormed
  | .acc _ => true
  | .rmImm _ rm _ => rm.wellFormed

/-- The well-formed instructions: every memory operand has an encoding (R102); 8Eh and the POP of a segment register never
name CS (R113: those words are `movCs` and `popCs`); the accumulator exchange never names AX (R129: 90h is `nop`). -/
def Instr.wellFormed : Instr → Bool
  | .segEs => true
  | .segCs => true
  | .segSs => true
  | .segDs => true
  | .lock _ => true
  | .repne => true
  | .rep => true
  | .wait => true
  | .movRmReg _ _ rm _ => rm.wellFormed
  | .movFromSreg rm _ => rm.wellFormed
  | .movToSreg sr rm => sr != .cs && rm.wellFormed
  | .movMoffs _ _ _ => true
  | .movRegImm _ _ => true
  | .movRmImm _ rm _ => rm.wellFormed
  | .pushReg _ => true
  | .pushSreg _ => true
  | .pushRm _ rm => rm.wellFormed
  | .popReg _ => true
  | .popSreg sr => sr != .cs
  | .popRm _ rm => rm.wellFormed
  | .pushf => true
  | .popf => true
  | .xchgRm _ rm _ => rm.wellFormed
  | .xchgAx r => r != .r0
  | .inp _ _ => true
  | .out _ _ => true
  | .xlat => true
  | .lea _ m => m.wellFormed
  | .lds _ m => m.wellFormed
  | .les _ m => m.wellFormed
  | .lahf => true
  | .sahf => true
  | .add f => f.wellFormed
  | .adc f => f.wellFormed
  | .sub f => f.wellFormed
  | .sbb f => f.wellFormed
  | .cmp f => f.wellFormed
  | .inc f => f.wellFormed
  | .dec f => f.wellFormed
  | .neg _ rm => rm.wellFormed
  | .mul _ rm => rm.wellFormed
  | .imul _ rm => rm.wellFormed
  | .div _ rm => rm.wellFormed
  | .idiv _ rm => rm.wellFormed
  | .daa => true
  | .das => true
  | .aaa => true
  | .aas => true
  | .aam _ => true
  | .aad _ => true
  | .cbw => true
  | .cwd => true
  | .salc => true
  | .and f => f.wellFormed
  | .or f => f.wellFormed
  | .xor f => f.wellFormed
  | .test f => f.wellFormed
  | .not _ rm => rm.wellFormed
  | .rol _ _ rm => rm.wellFormed
  | .ror _ _ rm => rm.wellFormed
  | .rcl _ _ rm => rm.wellFormed
  | .rcr _ _ rm => rm.wellFormed
  | .shl _ _ rm => rm.wellFormed
  | .shr _ _ rm => rm.wellFormed
  | .setmo _ _ rm => rm.wellFormed
  | .sar _ _ rm => rm.wellFormed
  | .movsb => true
  | .movsw => true
  | .cmpsb => true
  | .cmpsw => true
  | .scasb => true
  | .scasw => true
  | .lodsb => true
  | .lodsw => true
  | .stosb => true
  | .stosw => true
  | .jmpShort _ => true
  | .jmpNear _ => true
  | .jmpFar _ _ => true
  | .jmpRm rm => rm.wellFormed
  | .jmpMem m => m.wellFormed
  | .callNear _ => true
  | .callFar _ _ => true
  | .callRm rm => rm.wellFormed
  | .callMem m => m.wellFormed
  | .ret _ => true
  | .retImm _ _ => true
  | .retf _ => true
  | .retfImm _ _ => true
  | .jo _ _ => true
  | .jno _ _ => true
  | .jb _ _ => true
  | .jae _ _ => true
  | .je _ _ => true
  | .jne _ _ => true
  | .jbe _ _ => true
  | .ja _ _ => true
  | .js _ _ => true
  | .jns _ _ => true
  | .jp _ _ => true
  | .jnp _ _ => true
  | .jl _ _ => true
  | .jge _ _ => true
  | .jle _ _ => true
  | .jg _ _ => true
  | .loop _ => true
  | .loope _ => true
  | .loopne _ => true
  | .jcxz _ => true
  | .int3 => true
  | .int _ => true
  | .into => true
  | .iret => true
  | .clc => true
  | .stc => true
  | .cmc => true
  | .cld => true
  | .std => true
  | .cli => true
  | .sti => true
  | .hlt => true
  | .esc _ _ rm => rm.wellFormed
  | .nop => true
  | .popCs => true
  | .movSregHigh _ _ rm => rm.wellFormed
  | .movCs rm => rm.wellFormed
  | .leaRegister _ _ => true
  | .lesRegister _ _ => true
  | .ldsRegister _ _ => true
  | .fe2 rm => rm.wellFormed
  | .fe3 rm => rm.wellFormed
  | .fe4 rm => rm.wellFormed
  | .fe5 rm => rm.wellFormed
  | .fe6 rm => rm.wellFormed
  | .fe7 rm => rm.wellFormed
  | .callRegisterFar _ => true
  | .jmpRegisterFar _ => true

end Sys2Proof
end

