-- ==== Sys2Proof/Certificates/Slice0/Obligations.lean ====
section
/-!
DEFINITION. Obligations.lean: the statements for the provers, each citing the rules of spec/ it formalises.  A statement about every byte
of memory or about the devices has the premise `s.Quiet` (no other agent steps inside the instruction, R55).
-/
open Sys2Proof Sys2Proof.Machine

/-! ### Encoding (30_encoding.md) -/

/-- Every well-formed instruction's bytes decode to it, whatever follows them (R98 to R113). -/
def Obligations.DecodeOfEncode : Prop :=
  ∀ (i : Instr) (rest : List Byte), i.wellFormed = true → decode (encode i ++ rest) = some (i, rest)

/-- What the decoder reads is well formed, and its encoding is exactly the bytes read: no bit of an encoding is dropped, and two
byte sequences never decode to one instruction (R98 to R113). -/
def Obligations.EncodeOfDecode : Prop :=
  ∀ (bs rest : List Byte) (i : Instr), decode bs = some (i, rest) → i.wellFormed = true ∧ bs = encode i ++ rest

/-- The decoder takes as many bytes as R99 gives the opcode byte and the byte after it, and six bytes are always enough (R99,
R111). -/
def Obligations.DecodeLength : Prop :=
  ∀ (op m : Byte) (bs : List Byte), 4 ≤ bs.length →
    ∃ i rest, decode (op :: m :: bs) = some (i, rest) ∧ rest.length + insnLength op m = bs.length + 2

/-- A few words written out from the spec's encodings (R100, R102, R106, R109, R112, R114). -/
def Obligations.SpecWordsDecode : Prop :=
  decode [0x89, 0xD8] = some (.movRmReg .toRm .word (.reg .r0) .r3, []) ∧
    decode [0x8D, 0x70, 0x04] = some (.lea .r6 (.disp8 .bxSi 4), []) ∧
    decode [0x83, 0xC0, 0xFF] = some (.add (.rmImm8s (.reg .r0) 0xFF), []) ∧
    decode [0xC5, 0x36, 0x00, 0x02] = some (.lds .r6 (.direct 0x200), []) ∧
    decode [0xD3, 0xE0] = some (.shl .word .cl (.reg .r0), []) ∧
    decode [0xF6, 0xF9] = some (.idiv .byte (.reg .r1), []) ∧
    decode [0xA4] = some (.movsb, []) ∧
    decode [0x74, 0x02] = some (.je false 2, []) ∧
    decode [0xCD, 0x21] = some (.int 0x21, []) ∧
    decode [0xEC] = some (.inp .byte .dx, []) ∧
    decode [0x26] = some (.segEs, []) ∧
    decode [0x0F] = some (.popCs, [])

/-! ### A step, and the instruction stream (21_biu_queue.md, 22_eu_sequencer.md) -/

/-- A step of the machine with nothing scheduled and the CPU at an instruction's start, neither halted nor holding a fault, begins the
instruction, decodes at IP, and is then `exec` of the instruction decoded followed by the boundary; in the prefix phase it is the same
without the beginning.  Where the bytes do not decode, the step ends holding the decode fault at the instruction's start (R81, R82,
R235).  That a prefix byte takes a step of its own, and that the execution unit steps where nothing is scheduled, are the model's
choices (log entries 5 and 6), and so is that the state holds the fault (log entry 7). -/
def Obligations.StepRunsDecoded : Prop :=
  ∀ (s t : State) (d : Option Instr), s.agenda = [] → s.eu.halted = false → s.eu.fault = none →
    (s.eu.phase = .start ∧ decodeNext (beginInsn s) = (d, t)) ∨ (s.eu.phase = .prefixed ∧ decodeNext s = (d, t)) →
    (∀ i, d = some i → step s = andThen (exec i t) finishInsn) ∧
      (d = none → step s = .next t ∧ t.eu.fault = some (.instructionDecodeError t.eu.insnStart))

/-- Where the next bytes of the instruction stream (the queue, then memory at CS:PC) are those of a well-formed instruction within
the length limit, the decoder answers that instruction, IP advances by its length, and no register, flag or byte of memory
changes.  Where they are no prefix byte and as many bytes as prefixes have been consumed before them, the host's peek from there answers
the very record that the decode leaves: same size, same operands (R22, R34, R59, R63, R65, R82, R86, R88).  The peek's bytes, the queue
first, are the model's choice (log entry 38). -/
def Obligations.FetchConsumesStream : Prop :=
  ∀ (s : State) (i : Instr), s.Quiet → i.wellFormed = true → StreamAt s (encode i) →
    (ip s - s.eu.insnStart).toNat + (encode i).length ≤ maxInsnLen →
    ∃ t, decodeNext s = (some i, t) ∧ t.Quiet ∧ ip t = ip s + BitVec.ofNat 16 (encode i).length ∧ t.regs = s.regs ∧ t.sregs = s.sregs ∧
      t.flags = s.flags ∧ t.sys.mem = s.sys.mem ∧ t.cfg = s.cfg ∧ t.eu.phase = .executing ∧ t.eu.prefixes = s.eu.prefixes ∧
      ((ip s - s.eu.insnStart).toNat = s.eu.prefixes.count → (∀ b ∈ (encode i).head?, prefixByte b = none) →
        ∃ d, t.eu.decoded = some d ∧ d.instr = i ∧ d.size = s.eu.prefixes.count + (encode i).length ∧
          peekFrom s.sregs.cs s.eu.insnStart s.eu.prefixes (streamBytes maxInsnLen s) = .insn d)

/-! ### Prefixes (30_encoding.md R108, 45_processor_control.md R217, R220 to R222) -/

/-- A prefix byte adds itself to the prefix set, the last override and the later of F2h and F3h winning, takes one cycle and changes no
register, flag or byte of memory.  Within the limit the byte after it is decoded next; one more than `MAX_PREFIXES` of them, its cycle
counted too, is a decode fault at the instruction's start, which the CPU then holds (R82, R92, R108, R217, R220, R221, R222, R235).  One
step per prefix byte and the held fault are the model's choices (log entries 5 and 7). -/
def Obligations.PrefixBytes : Prop :=
  ∀ (s : State) (alt : Bool),
    let p := s.eu.prefixes
    let adds (i : Instr) (q : Prefixes) : Prop :=
      let e := { s.eu with prefixes := { q with count := p.count + 1 } }
      ∃ t, exec i s = .next t ∧
        (p.count < maxPrefixes → t.eu = { e with phase := .prefixed }) ∧
        (maxPrefixes ≤ p.count → t.eu = { e with phase := .start, fault := some (.instructionDecodeError s.eu.insnStart) }) ∧
        t.regs = s.regs ∧ t.sregs = s.sregs ∧ t.flags = s.flags ∧ t.cfg = s.cfg ∧ t.host = s.host ∧ t.agenda = s.agenda ∧
        t.interleave = s.interleave ∧ ip t = ip s ∧ t.biu.cycleCount = s.biu.cycleCount + 1 ∧
        (∃ d, t.sys = { s.sys with drawCtr := d }) ∧ (s.Quiet → t.sys = s.sys ∧ t.Quiet ∧ FallsThrough s t)
    adds .segEs { p with seg := some .es } ∧ adds .segCs { p with seg := some .cs } ∧ adds .segSs { p with seg := some .ss } ∧
      adds .segDs { p with seg := some .ds } ∧ adds (.lock alt) { p with lock := true } ∧ adds .wait { p with wait := true } ∧
      adds .repne { p with repne := true, repe := false } ∧ adds .rep { p with repe := true, repne := false }

/-! ### Data transfer (40_data_transfer.md) -/

/-- MOV between a register and an r/m operand, with a direct offset, and of an immediate: the destination has the source's value and
nothing else changes (R115, R117, R118, R119). -/
def Obligations.MovCompletes : Prop :=
  ∀ (s : State), s.Quiet →
    (∀ (w : Width) (rm : Rm) (r : Reg),
      (∃ t, exec (.movRmReg .toRm w rm r) s = .next t ∧ Stored w rm (getReg w r s) s t ∧
        DataStep (rmParts w rm) [] (rmSpan w rm s) s t) ∧
      ∃ t, exec (.movRmReg .toReg w rm r) s = .next t ∧ getReg w r t = rmVal w rm s ∧ DataStep [regPart w r] [] [] s t) ∧
    (∀ (w : Width) (off : Word),
      (∃ t, exec (.movMoffs false w off) s = .next t ∧ getReg w .r0 t = heldVal w (segOf .ds s) off s ∧
        DataStep [regPart w .r0] [] [] s t) ∧
      ∃ t, exec (.movMoffs true w off) s = .next t ∧
        t.sys.mem = storeVal s.cfg w (segOf .ds s) off (getReg w .r0 s) s.sys.mem ∧
        DataStep [] [] (span w (segOf .ds s) off) s t) ∧
    (∀ (r : Reg) (i : Imm), ∃ t, exec (.movRegImm r i) s = .next t ∧ getReg i.width r t = immVal i ∧
      DataStep [regPart i.width r] [] [] s t) ∧
    ∀ (ext : Reg) (rm : Rm) (i : Imm), ∃ t, exec (.movRmImm ext rm i) s = .next t ∧ Stored i.width rm (immVal i) s t ∧
      DataStep (rmParts i.width rm) [] (rmSpan i.width rm s) s t

/-- MOV between a segment register and an r/m operand: a write of a segment register changes that one only and inhibits the next
boundary (R116). -/
def Obligations.MovSegmentRegister : Prop :=
  ∀ (s : State) (rm : Rm) (sr : SReg), s.Quiet →
    (∃ t, exec (.movFromSreg rm sr) s = .next t ∧ Stored .word rm (s.sregs.get sr) s t ∧
      DataStep (rmParts .word rm) [] (rmSpan .word rm s) s t) ∧
    ∃ t, exec (.movToSreg sr rm) s = .next t ∧ t.sregs.get sr = rmVal .word rm s ∧
      (∀ q, q ≠ sr → t.sregs.get q = s.sregs.get q) ∧ t.eu = { s.eu with intInhibit := true } ∧ Frame [] [] [] s t ∧
      FallsThrough s t

/-- The four pushes: SP goes down by 2 and the word is stored at SS:SP.  PUSH SP stores the decremented SP; PUSH r/m reads its
operand before SP changes, and with the register operand SP the word is the old or the decremented SP, which the spec does not fix
(R10, R120, R121, R122, R126). -/
def Obligations.Pushes : Prop :=
  ∀ (s : State), s.Quiet →
    let pushed (v : Word) (t : State) : Prop :=
      t.regs.sp = s.regs.sp - 2 ∧ t.sys.mem = storeVal s.cfg .word s.sregs.ss (s.regs.sp - 2) v s.sys.mem ∧
        DataStep [.word .r4] [] (pushSpan s) s t
    (∀ r : Reg, ∃ t, exec (.pushReg r) s = .next t ∧ pushed (if r = .r4 then s.regs.sp - 2 else s.regs.get16 r) t) ∧
      (∀ sr : SReg, ∃ t, exec (.pushSreg sr) s = .next t ∧ pushed (s.sregs.get sr) t) ∧
      (∃ t, exec .pushf s = .next t ∧ pushed s.flags.toWord t) ∧
      ∀ (alt : Bool) (rm : Rm), ∃ t v, exec (.pushRm alt rm) s = .next t ∧ pushed v t ∧ (rm ≠ .reg .r4 → v = rmVal .word rm s) ∧
        (rm = .reg .r4 → v = s.regs.sp ∨ v = s.regs.sp - 2)

/-- The four pops: the word at SS:SP, and SP goes up by 2.  POP SP leaves SP equal to the popped word; POP of a segment register
inhibits the next boundary; POP r/m stores the word at the operand, whose address SP does not enter (R10, R123, R124, R125,
R127). -/
def Obligations.Pops : Prop :=
  ∀ (s : State), s.Quiet →
    let v := heldVal .word s.sregs.ss s.regs.sp s
    (∀ r : Reg, ∃ t, exec (.popReg r) s = .next t ∧ t.regs.get16 r = v ∧ (r ≠ .r4 → t.regs.sp = s.regs.sp + 2) ∧
      DataStep [.word .r4, .word r] [] [] s t) ∧
    (∀ sr : SReg, ∃ t, exec (.popSreg sr) s = .next t ∧ t.sregs.get sr = v ∧ (∀ q, q ≠ sr → t.sregs.get q = s.sregs.get q) ∧
      t.regs.sp = s.regs.sp + 2 ∧ t.eu = { s.eu with intInhibit := true } ∧ Frame [.word .r4] [] [] s t ∧ FallsThrough s t) ∧
    (∃ t, exec .popf s = .next t ∧ t.flags = Flags.ofWord v ∧ t.regs.sp = s.regs.sp + 2 ∧
      DataStep [.word .r4] [.cf, .pf, .af, .zf, .sf, .tf, .if_, .df, .of_] [] s t) ∧
    ∀ (ext : Reg) (rm : Rm), ∃ t, exec (.popRm ext rm) s = .next t ∧ Stored .word rm v s t ∧
      (rm ≠ .reg .r4 → t.regs.sp = s.regs.sp + 2) ∧ DataStep (.word .r4 :: rmParts .word rm) [] (rmSpan .word rm s) s t

/-- XCHG: each operand takes the other's value (R128, R129). -/
def Obligations.Exchange : Prop :=
  ∀ (s : State), s.Quiet →
    (∀ (w : Width) (rm : Rm) (r : Reg), ∃ t, exec (.xchgRm w rm r) s = .next t ∧ getReg w r t = rmVal w rm s ∧
      (rm = .reg r ∨ Stored w rm (getReg w r s) s t) ∧ DataStep (regPart w r :: rmParts w rm) [] (rmSpan w rm s) s t) ∧
    ∀ r : Reg, ∃ t, exec (.xchgAx r) s = .next t ∧ t.regs.ax = s.regs.get16 r ∧ t.regs.get16 r = s.regs.ax ∧
      DataStep [.word .r0, .word r] [] [] s t

/-- IN and OUT below port 0400h complete: a byte is the port's read or write rule, a word is two bytes from `port` and `port + 1`;
no register but the accumulator, no flag and no byte of memory changes.  The rule of a port is its owner's: the DMA controller at
00h-0Fh and, with its page registers, at 80h-8Fh, the PIC at 20h and 21h, the adapter that is present at 3D0h-3DFh (CGA) or 3B0h-3BFh
(MDA), the FDC at 3F0h-3F7h; any other port below 0400h ignores a write and a read of it is a draw (R52, R53, R54, R130, R131). -/
def Obligations.PortTransfers : Prop :=
  (∀ (s : State) (p : PortOp), s.Quiet →
    let port := portOf p s
    let kept (rs : List RegPart) (t : State) : Prop :=
      RegsKept rs s t ∧ t.flags = s.flags ∧ t.sys.mem = s.sys.mem ∧ t.cfg = s.cfg ∧ UnitsKept s t ∧ FallsThrough s t
    (port.toNat < 0x400 →
      (∃ t, exec (.inp .byte p) s = .next t ∧ t.regs.get8 .r0 = (s.sys.portRead s.cfg port).1 ∧
        t.sys = (s.sys.portRead s.cfg port).2 ∧ kept [.byte .r0] t) ∧
      ∃ t, exec (.out .byte p) s = .next t ∧ t.sys = s.sys.portWrite s.cfg port (s.regs.get8 .r0) ∧ kept [] t) ∧
    (port.toNat + 1 < 0x400 →
      (∃ t, exec (.inp .word p) s = .next t ∧
        (let lo := s.sys.portRead s.cfg port
         let hi := lo.2.portRead s.cfg (port + 1)
         t.regs.ax = wordOf lo.1 hi.1 ∧ t.sys = hi.2) ∧ kept [.word .r0] t) ∧
      ∃ t, exec (.out .word p) s = .next t ∧
        t.sys = (s.sys.portWrite s.cfg port (s.regs.get8 .r0)).portWrite s.cfg (port + 1) (s.regs.get8 .r4) ∧ kept [] t)) ∧
  ∀ (c : Config) (y : Sys) (port : Word) (v : Byte),
    let n := port.toNat
    let r := y.portRead c port
    let w := y.portWrite c port v
    let video : Prop := (c.videoAdapter = .cga ∧ 0x3D0 ≤ n ∧ n < 0x3E0) ∨ (c.videoAdapter = .mda ∧ 0x3B0 ≤ n ∧ n < 0x3C0)
    (n < 0x10 →
      (let d := y.dma.read y.fdc.dmaRequest (port.truncate 4)
       (∀ b, d.1 = some b → r = (b, { y with dma := d.2 })) ∧ (d.1 = none → r = Sys.drawByte { y with dma := d.2 })) ∧
      w = { y with dma := y.dma.write (port.truncate 4) v }) ∧
    (n = 0x20 → r = (y.pic.read20.1, { y with pic := y.pic.read20.2 }) ∧ w = { y with pic := y.pic.write20 v }) ∧
    (n = 0x21 → r = (y.pic.imr, y) ∧ w = { y with pic := y.pic.write21 v }) ∧
    (0x80 ≤ n → n < 0x90 → r = (y.dma.readPage n, y) ∧ w = { y with dma := y.dma.writePage n v }) ∧
    (video → r = y.crtcRead (port.truncate 4) ∧ w = y.crtcWrite c (port.truncate 4) v) ∧
    (0x3F0 ≤ n → n < 0x3F8 → r = y.fdcRead (port.truncate 3) ∧ w = y.fdcWrite (port.truncate 3) v) ∧
    (0x10 ≤ n → n ≠ 0x20 → n ≠ 0x21 → n < 0x80 ∨ 0x90 ≤ n → ¬ video → n < 0x3F0 ∨ 0x3F8 ≤ n → n < 0x400 → r = y.drawByte ∧ w = y)

/-- The forms that the spec refuses on some operands or in some states: a port at or above 0400h, reached by the first or the second
byte (R54); a REP prefix on MUL, IMUL, DIV or IDIV (R222); HLT where TF was 1 when it began (R216); an interrupt frame that overlaps
its vector, of INT, INT3, INTO, a divide error, an NMI or an INTR (R226); and the acknowledge of a PIC in MCS-80/85 mode, at a
boundary and in the wake of a halted CPU (R245). -/
def Obligations.RefusedForms : Prop :=
  ∀ (s : State),
    (∀ (w : Width) (p : PortOp), (0x400 ≤ (portOf p s).toNat ∨ (w = .word ∧ 0x400 ≤ (portOf p s).toNat + 1)) →
      exec (.inp w p) s = .refused .portAbove3FF ∧ exec (.out w p) s = .refused .portAbove3FF) ∧
    (repPrefixed s = true → ∀ (w : Width) (rm : Rm), ∀ i ∈ [Instr.mul w rm, .imul w rm, .div w rm, .idiv w rm],
      exec i s = .refused .repMulDiv) ∧
    (s.eu.tfPrev = true → exec .hlt s = .refused .hltSingleStep) ∧
    (∀ n, frameOverlapsVector n s = true → exec (.int n) s = .refused .frameOverlapsVector) ∧
    (frameOverlapsVector 3 s = true → exec .int3 s = .refused .frameOverlapsVector) ∧
    (frameOverlapsVector 4 s = true → s.flags.of_ = true → exec .into s = .refused .frameOverlapsVector) ∧
    (frameOverlapsVector 0 s = true → exec (.aam 0) s = .refused .frameOverlapsVector) ∧
    (frameOverlapsVector 0 s = true → s.Quiet → repPrefixed s = false → ∀ rm : Rm,
      (let d := (rmVal .byte rm s).toNat
       d = 0 ∨ 256 * d ≤ s.regs.ax.toNat → exec (.div .byte rm) s = .refused .frameOverlapsVector) ∧
      (let d := (rmVal .word rm s).toNat
       d = 0 ∨ 65536 * d ≤ s.regs.dx.toNat * 65536 + s.regs.ax.toNat → exec (.div .word rm) s = .refused .frameOverlapsVector) ∧
      (let d := (rmVal .byte rm s).toInt
       let n := s.regs.ax.toInt
       d = 0 ∨ n.tdiv d ≤ -128 ∨ 128 ≤ n.tdiv d → exec (.idiv .byte rm) s = .refused .frameOverlapsVector) ∧
      (let d := (rmVal .word rm s).toInt
       let n := s.regs.dx.toInt * 65536 + s.regs.ax.toNat
       d = 0 ∨ n.tdiv d ≤ -32768 ∨ 32768 ≤ n.tdiv d → exec (.idiv .word rm) s = .refused .frameOverlapsVector)) ∧
    (∀ ret, s.eu.nmiLatch = true → frameOverlapsVector 2 s = true → takeInterrupt ret s = .refused .frameOverlapsVector) ∧
    (∀ ret v p, s.eu.nmiLatch = false → s.sys.pic.inta = some (v, p) → frameOverlapsVector v s = true →
      takeInterrupt ret s = .refused .frameOverlapsVector) ∧
    (s.eu.nmiLatch = false → s.sys.pic.upm = false →
      (∀ ret, takeInterrupt ret s = .refused .intaMcs80) ∧
      (s.Quiet → s.eu.phase = .executing ∨ s.eu.phase = .halting → s.eu.intInhibit = false → intrPending s = true →
        finishInsn s = .refused .intaMcs80) ∧
      (s.agenda = [] → s.eu.fault = none → s.eu.halted = true → intrPending s = true → step s = .refused .intaMcs80))

/-- XLAT reads the byte at BX + AL; LEA loads the offset and reads no memory; LDS and LES load a register and a segment register
from the two words at the operand (R45, R132, R133, R134, R135). -/
def Obligations.TableAndPointerLoads : Prop :=
  ∀ (s : State), s.Quiet →
    (∃ t, exec .xlat s = .next t ∧
      t.regs.get8 .r0 = heldVal .byte (segOf .ds s) (s.regs.bx + (s.regs.get8 .r0).zeroExtend 16) s ∧
      DataStep [.byte .r0] [] [] s t) ∧
    ∀ (r : Reg) (m : MemOp),
      (∃ t, exec (.lea r m) s = .next t ∧ t.regs.get16 r = ea m s ∧ t.sys = s.sys ∧ DataStep [.word r] [] [] s t) ∧
      (∃ t, exec (.lds r m) s = .next t ∧ t.regs.get16 r = heldVal .word (memSeg m s) (ea m s) s ∧
        t.sregs = { s.sregs with ds := heldNext .word (memSeg m s) (ea m s) (memSeg m s) (ea m s + 2) s } ∧ t.eu = s.eu ∧
        Frame [.word r] [] [] s t ∧ FallsThrough s t) ∧
      ∃ t, exec (.les r m) s = .next t ∧ t.regs.get16 r = heldVal .word (memSeg m s) (ea m s) s ∧
        t.sregs = { s.sregs with es := heldNext .word (memSeg m s) (ea m s) (memSeg m s) (ea m s + 2) s } ∧ t.eu = s.eu ∧
        Frame [.word r] [] [] s t ∧ FallsThrough s t

/-- LAHF loads AH with the low byte of FLAGS, whose bits 7, 6, 4, 2, 0 are SF, ZF, AF, PF, CF, bit 1 is 1 and bits 3 and 5 are 0;
SAHF writes those five flags from AH and no other (R26, R136, R137). -/
def Obligations.FlagsThroughAh : Prop :=
  ∀ (s : State),
    (∃ t, exec .lahf s = .next t ∧
      (let v := t.regs.get8 .r4
       v.getLsbD 7 = s.flags.sf ∧ v.getLsbD 6 = s.flags.zf ∧ v.getLsbD 5 = false ∧ v.getLsbD 4 = s.flags.af ∧ v.getLsbD 3 = false ∧
         v.getLsbD 2 = s.flags.pf ∧ v.getLsbD 1 = true ∧ v.getLsbD 0 = s.flags.cf) ∧ DataStep [.byte .r4] [] [] s t) ∧
    ∃ t, exec .sahf s = .next t ∧
      (let v := s.regs.get8 .r4
       t.flags.sf = v.getLsbD 7 ∧ t.flags.zf = v.getLsbD 6 ∧ t.flags.af = v.getLsbD 4 ∧ t.flags.pf = v.getLsbD 2 ∧
         t.flags.cf = v.getLsbD 0) ∧ DataStep [] [.sf, .zf, .af, .pf, .cf] [] s t

/-! ### Arithmetic (41_arithmetic.md) -/

/-- ADD and ADC in all nine forms: the sum, stored at the destination, with the flags of R139, ADC adding the CF it found (R138,
R141, R142). -/
def Obligations.AddAndAdc : Prop :=
  ∀ (s : State) (f : AluForm), s.Quiet →
    let a := rmVal (aluWidth f) (aluDst f) s
    let b := aluSrc f s
    let sum (c : Bool) (i : Instr) : Prop :=
      ∃ t, exec i s = .next t ∧ Stored (aluWidth f) (aluDst f) (BitVec.ofNat _ (a.toNat + b.toNat + c.toNat)) s t ∧
        AddFlags a b c t.flags ∧
        DataStep (rmParts (aluWidth f) (aluDst f)) statusFlags (rmSpan (aluWidth f) (aluDst f) s) s t
    sum false (.add f) ∧ sum s.flags.cf (.adc f)

/-- SUB, SBB and CMP in all nine forms: the difference with the flags of R140, SBB subtracting the CF it found; CMP writes no
operand (R138, R143, R144, R145). -/
def Obligations.SubSbbAndCmp : Prop :=
  ∀ (s : State) (f : AluForm), s.Quiet →
    let a := rmVal (aluWidth f) (aluDst f) s
    let b := aluSrc f s
    let diff (c : Bool) (i : Instr) : Prop :=
      ∃ t, exec i s = .next t ∧ Stored (aluWidth f) (aluDst f) (BitVec.ofInt _ (a.toInt - b.toInt - c.toNat)) s t ∧
        SubFlags a b c t.flags ∧
        DataStep (rmParts (aluWidth f) (aluDst f)) statusFlags (rmSpan (aluWidth f) (aluDst f) s) s t
    diff false (.sub f) ∧ diff s.flags.cf (.sbb f) ∧
      ∃ t, exec (.cmp f) s = .next t ∧ SubFlags a b false t.flags ∧ DataStep [] statusFlags [] s t

/-- INC and DEC: the operand plus or minus 1, the flags of R139 or R140 but CF, which stays (R146, R147). -/
def Obligations.IncAndDec : Prop :=
  ∀ (s : State) (f : IncForm), s.Quiet →
    let a := rmVal (incWidth f) (incDst f) s
    let frame (t : State) : Prop :=
      t.flags.cf = s.flags.cf ∧
        DataStep (rmParts (incWidth f) (incDst f)) [.pf, .af, .zf, .sf, .of_] (rmSpan (incWidth f) (incDst f) s) s t
    (∃ t, exec (.inc f) s = .next t ∧ Stored (incWidth f) (incDst f) (a + 1) s t ∧
      (∃ c, AddFlags a 1 false { t.flags with cf := c }) ∧ frame t) ∧
    ∃ t, exec (.dec f) s = .next t ∧ Stored (incWidth f) (incDst f) (a - 1) s t ∧
      (∃ c, SubFlags a 1 false { t.flags with cf := c }) ∧ frame t

/-- NEG: 0 minus the operand, CF saying that it was not 0 and OF that it was the most negative value; NOT: each bit inverted, no
flag (R148, R167). -/
def Obligations.NegAndNot : Prop :=
  ∀ (s : State) (w : Width) (rm : Rm), s.Quiet →
    let a := rmVal w rm s
    (∃ t, exec (.neg w rm) s = .next t ∧ Stored w rm (-a) s t ∧ SubFlags 0 a false t.flags ∧ t.flags.cf = decide (a.toNat ≠ 0) ∧
      t.flags.of_ = decide (a.toNat = 2 ^ (w.bits - 1)) ∧ DataStep (rmParts w rm) statusFlags (rmSpan w rm s) s t) ∧
    ∃ t, exec (.not w rm) s = .next t ∧ Stored w rm (~~~a) s t ∧ DataStep (rmParts w rm) [] (rmSpan w rm s) s t

/-- MUL and IMUL without a REP prefix: the exact product in AX or DX:AX; CF and OF say that it does not fit in the low half, as an
unsigned or as a signed value (R149, R150). -/
def Obligations.Multiply : Prop :=
  ∀ (s : State), s.Quiet → repPrefixed s = false →
    (∀ rm : Rm,
      let a := s.regs.get8 .r0
      let b := rmVal .byte rm s
      (∃ t, exec (.mul .byte rm) s = .next t ∧ t.regs.ax.toNat = a.toNat * b.toNat ∧
        t.flags.cf = decide (256 ≤ a.toNat * b.toNat) ∧ t.flags.of_ = t.flags.cf ∧ DataStep [.word .r0] statusFlags [] s t) ∧
      ∃ t, exec (.imul .byte rm) s = .next t ∧ t.regs.ax.toInt = a.toInt * b.toInt ∧
        t.flags.cf = decide (a.toInt * b.toInt < -128 ∨ 127 < a.toInt * b.toInt) ∧ t.flags.of_ = t.flags.cf ∧
        DataStep [.word .r0] statusFlags [] s t) ∧
    ∀ rm : Rm,
      let a := s.regs.ax
      let b : Word := rmVal .word rm s
      (∃ t, exec (.mul .word rm) s = .next t ∧ t.regs.dx.toNat * 65536 + t.regs.ax.toNat = a.toNat * b.toNat ∧
        t.flags.cf = decide (65536 ≤ a.toNat * b.toNat) ∧ t.flags.of_ = t.flags.cf ∧
        DataStep [.word .r0, .word .r2] statusFlags [] s t) ∧
      ∃ t, exec (.imul .word rm) s = .next t ∧ t.regs.dx.toInt * 65536 + t.regs.ax.toNat = a.toInt * b.toInt ∧
        t.flags.cf = decide (a.toInt * b.toInt < -32768 ∨ 32767 < a.toInt * b.toInt) ∧ t.flags.of_ = t.flags.cf ∧
        DataStep [.word .r0, .word .r2] statusFlags [] s t

/-- DIV and IDIV without a REP prefix complete where the divisor is not 0 and the quotient fits: for DIV, dividend = quotient *
divisor + remainder with the remainder below the divisor; for IDIV, the quotient and remainder of truncation toward zero, the
quotient within -127 to 127 or -32767 to 32767 (R151, R152). -/
def Obligations.DivideCompletes : Prop :=
  ∀ (s : State) (rm : Rm), s.Quiet → repPrefixed s = false →
    (let d := (rmVal .byte rm s).toNat
     let n := s.regs.ax.toNat
     d ≠ 0 → n < 256 * d →
      ∃ t, exec (.div .byte rm) s = .next t ∧ n = (t.regs.get8 .r0).toNat * d + (t.regs.get8 .r4).toNat ∧
        (t.regs.get8 .r4).toNat < d ∧ DataStep [.word .r0] statusFlags [] s t) ∧
    (let d := (rmVal .word rm s).toNat
     let n := s.regs.dx.toNat * 65536 + s.regs.ax.toNat
     d ≠ 0 → n < 65536 * d →
      ∃ t, exec (.div .word rm) s = .next t ∧ n = t.regs.ax.toNat * d + t.regs.dx.toNat ∧ t.regs.dx.toNat < d ∧
        DataStep [.word .r0, .word .r2] statusFlags [] s t) ∧
    (let d := (rmVal .byte rm s).toInt
     let n := s.regs.ax.toInt
     d ≠ 0 → -128 < n.tdiv d → n.tdiv d < 128 →
      ∃ t, exec (.idiv .byte rm) s = .next t ∧ (t.regs.get8 .r0).toInt = n.tdiv d ∧ (t.regs.get8 .r4).toInt = n.tmod d ∧
        DataStep [.word .r0] statusFlags [] s t) ∧
    (let d := (rmVal .word rm s).toInt
     let n := s.regs.dx.toInt * 65536 + s.regs.ax.toNat
     d ≠ 0 → -32768 < n.tdiv d → n.tdiv d < 32768 →
      ∃ t, exec (.idiv .word rm) s = .next t ∧ t.regs.ax.toInt = n.tdiv d ∧ t.regs.dx.toInt = n.tmod d ∧
        DataStep [.word .r0, .word .r2] statusFlags [] s t)

/-- A divide error enters interrupt 0 with `IP_next`, the registers and the pushed flags as before the instruction, and is
reported to the host: DIV and IDIV by 0 or with a quotient out of range, AAM with base 0 (R151, R152, R157, R225, R235).  That the
reports are a list, newest first, and that the report carries `IP_next`, are the model's choices (log entry 26). -/
def Obligations.DivideErrors : Prop :=
  ∀ (s : State), s.Quiet → frameOverlapsVector 0 s = false →
    let trapped (i : Instr) : Prop :=
      ∃ t, exec i s = .next t ∧ Entered 0 (ip s) s t ∧ t.sys.reports = .divideError (ip s) :: s.sys.reports
    (∀ rm : Rm, repPrefixed s = false →
      (let d := (rmVal .byte rm s).toNat
       d = 0 ∨ 256 * d ≤ s.regs.ax.toNat → trapped (.div .byte rm)) ∧
      (let d := (rmVal .word rm s).toNat
       d = 0 ∨ 65536 * d ≤ s.regs.dx.toNat * 65536 + s.regs.ax.toNat → trapped (.div .word rm)) ∧
      (let d := (rmVal .byte rm s).toInt
       let n := s.regs.ax.toInt
       d = 0 ∨ n.tdiv d ≤ -128 ∨ 128 ≤ n.tdiv d → trapped (.idiv .byte rm)) ∧
      (let d := (rmVal .word rm s).toInt
       let n := s.regs.dx.toInt * 65536 + s.regs.ax.toNat
       d = 0 ∨ n.tdiv d ≤ -32768 ∨ 32768 ≤ n.tdiv d → trapped (.idiv .word rm))) ∧
    trapped (.aam 0)

/-- The adjusts.  DAA and DAS adjust AL by 6 and by 60h, with CF, AF and SZP of the result, `BCD_AF_LIMIT` deciding where AF was 1;
AAA and AAS adjust AL and AH separately and set AF and CF; AAM with a base other than 0 leaves AL div base in AH and AL mod base in
AL; AAD leaves AL + AH * base in AL and 0 in AH (R153 to R158). -/
def Obligations.Adjusts : Prop :=
  ∀ (s : State),
    let al := s.regs.get8 .r0
    let ah := s.regs.get8 .r4
    let limit := if s.flags.af = true ∧ s.cfg.bcdAfLimit = .x9F then 0x9F else 0x99
    let lo : Bool := decide (9 < al.toNat % 16) || s.flags.af
    let hi : Bool := decide (limit < al.toNat) || s.flags.cf
    (∃ t, exec .daa s = .next t ∧
      (t.regs.get8 .r0).toNat = (al.toNat + (if lo then 6 else 0) + (if hi then 0x60 else 0)) % 256 ∧ t.flags.cf = hi ∧
      t.flags.af = lo ∧ SzpOf (t.regs.get8 .r0) t.flags ∧ DataStep [.byte .r0] statusFlags [] s t) ∧
    (∃ t, exec .das s = .next t ∧
      (t.regs.get8 .r0).toNat = (al.toNat + 512 - (if lo then 6 else 0) - (if hi then 0x60 else 0)) % 256 ∧
      t.flags.cf = (hi || (lo && (s.flags.cf || decide (al.toNat < 6)))) ∧ t.flags.af = lo ∧ SzpOf (t.regs.get8 .r0) t.flags ∧
      DataStep [.byte .r0] statusFlags [] s t) ∧
    (∃ t, exec .aaa s = .next t ∧ (t.regs.get8 .r0).toNat = (al.toNat + (if lo then 6 else 0)) % 16 ∧
      (t.regs.get8 .r4).toNat = (ah.toNat + lo.toNat) % 256 ∧ t.flags.af = lo ∧ t.flags.cf = lo ∧
      DataStep [.word .r0] statusFlags [] s t) ∧
    (∃ t, exec .aas s = .next t ∧ (t.regs.get8 .r0).toNat = (al.toNat + 16 - (if lo then 6 else 0)) % 16 ∧
      (t.regs.get8 .r4).toNat = (ah.toNat + 256 - lo.toNat) % 256 ∧ t.flags.af = lo ∧ t.flags.cf = lo ∧
      DataStep [.word .r0] statusFlags [] s t) ∧
    (∀ i : Byte, i ≠ 0 → ∃ t, exec (.aam i) s = .next t ∧ (t.regs.get8 .r4).toNat = al.toNat / i.toNat ∧
      (t.regs.get8 .r0).toNat = al.toNat % i.toNat ∧ SzpOf (t.regs.get8 .r0) t.flags ∧ DataStep [.word .r0] statusFlags [] s t) ∧
    ∀ i : Byte, ∃ t, exec (.aad i) s = .next t ∧ (t.regs.get8 .r0).toNat = (al.toNat + ah.toNat * i.toNat) % 256 ∧
      t.regs.get8 .r4 = 0 ∧ SzpOf (t.regs.get8 .r0) t.flags ∧ DataStep [.word .r0] statusFlags [] s t

/-- CBW extends the sign of AL into AX, CWD that of AX into DX, and SALC sets AL to FFh or 00h by CF; no flag changes (R159, R160,
R161). -/
def Obligations.Conversions : Prop :=
  ∀ (s : State),
    (∃ t, exec .cbw s = .next t ∧ t.regs.ax.toInt = (s.regs.get8 .r0).toInt ∧ DataStep [.word .r0] [] [] s t) ∧
    (∃ t, exec .cwd s = .next t ∧ t.regs.dx = (if s.regs.ax.getLsbD 15 then 0xFFFF else 0x0000) ∧ DataStep [.word .r2] [] [] s t) ∧
    ∃ t, exec .salc s = .next t ∧ t.regs.get8 .r0 = (if s.flags.cf then 0xFF else 0x00) ∧ DataStep [.byte .r0] [] [] s t

/-! ### Logic, shifts and rotates (42_logic_shift.md) -/

/-- AND, OR, XOR and TEST: the bitwise result, CF and OF 0, SF, ZF and PF of the result; TEST writes no operand (R162 to R166). -/
def Obligations.BitwiseLogic : Prop :=
  ∀ (s : State), s.Quiet →
    let bits (op : (n : Nat) → BitVec n → BitVec n → BitVec n) (f : AluForm) (i : Instr) : Prop :=
      let r := op _ (rmVal (aluWidth f) (aluDst f) s) (aluSrc f s)
      ∃ t, exec i s = .next t ∧ Stored (aluWidth f) (aluDst f) r s t ∧ t.flags.cf = false ∧ t.flags.of_ = false ∧
        SzpOf r t.flags ∧ DataStep (rmParts (aluWidth f) (aluDst f)) statusFlags (rmSpan (aluWidth f) (aluDst f) s) s t
    (∀ f : AluForm, bits (fun _ a b => a &&& b) f (.and f) ∧ bits (fun _ a b => a ||| b) f (.or f) ∧
      bits (fun _ a b => a ^^^ b) f (.xor f)) ∧
    ∀ f : TestForm, ∃ t, exec (.test f) s = .next t ∧ t.flags.cf = false ∧ t.flags.of_ = false ∧
      SzpOf (rmVal (testWidth f) (testDst f) s &&& testSrc f s) t.flags ∧ DataStep [] statusFlags [] s t

/-- ROL and ROR by n ≥ 1: the operand rotated n places, CF the bit that went round last; OF of a one-place rotate is the change of
sign; SF, ZF, PF and AF stay (R168, R169, R170). -/
def Obligations.RotateCompletes : Prop :=
  ∀ (s : State) (w : Width) (c : ShiftCount) (rm : Rm), s.Quiet →
    let n := shiftCount c s
    let x := rmVal w rm s
    1 ≤ n →
    let frame (t : State) : Prop := DataStep (rmParts w rm) [.cf, .of_] (rmSpan w rm s) s t
    (∃ t, exec (.rol w c rm) s = .next t ∧ Stored w rm (x.rotateLeft n) s t ∧ t.flags.cf = (x.rotateLeft n).getLsbD 0 ∧
      (n = 1 → t.flags.of_ = ((x.rotateLeft 1).msb ^^ x.msb)) ∧ frame t) ∧
    ∃ t, exec (.ror w c rm) s = .next t ∧ Stored w rm (x.rotateRight n) s t ∧ t.flags.cf = (x.rotateRight n).msb ∧
      (n = 1 → t.flags.of_ = ((x.rotateRight 1).msb ^^ x.msb)) ∧ frame t

/-- RCL and RCR by n ≥ 1 rotate CF and the operand together, as one value of w + 1 bits with CF on top; OF of a one-place rotate is
the change of sign; SF, ZF, PF and AF stay (R168, R171, R172). -/
def Obligations.RotateThroughCarry : Prop :=
  ∀ (s : State) (w : Width) (c : ShiftCount) (rm : Rm), s.Quiet →
    let n := shiftCount c s
    let x := rmVal w rm s
    1 ≤ n →
    let y : BitVec (w.bits + 1) := BitVec.cons s.flags.cf x
    let rotated (z : BitVec (w.bits + 1)) (t : State) : Prop :=
      Stored w rm (z.truncate w.bits) s t ∧ t.flags.cf = z.msb ∧
        (n = 1 → t.flags.of_ = (z.getLsbD (w.bits - 1) ^^ x.msb)) ∧
        DataStep (rmParts w rm) [.cf, .of_] (rmSpan w rm s) s t
    (∃ t, exec (.rcl w c rm) s = .next t ∧ rotated (y.rotateLeft n) t) ∧
    ∃ t, exec (.rcr w c rm) s = .next t ∧ rotated (y.rotateRight n) t

/-- SHL, SHR and SAR by n ≥ 1, all eight bits of CL counting: the shifted operand, CF the bit shifted out last, SF, ZF and PF of
the result, OF of a one-place shift (R168, R173, R174, R175). -/
def Obligations.ShiftCompletes : Prop :=
  ∀ (s : State) (w : Width) (c : ShiftCount) (rm : Rm), s.Quiet →
    let n := shiftCount c s
    let x := rmVal w rm s
    1 ≤ n →
    let shifted (r : Val w) (cf : Bool) (of1 : Bool) (t : State) : Prop :=
      Stored w rm r s t ∧ t.flags.cf = cf ∧ SzpOf r t.flags ∧ (n = 1 → t.flags.of_ = of1) ∧
        DataStep (rmParts w rm) statusFlags (rmSpan w rm s) s t
    (∃ t, exec (.shl w c rm) s = .next t ∧ shifted (x <<< n) (decide (n ≤ w.bits) && x.getLsbD (w.bits - n)) (x.msb ^^ (x <<< 1).msb) t) ∧
    (∃ t, exec (.shr w c rm) s = .next t ∧ shifted (x >>> n) (x.getLsbD (n - 1)) x.msb t) ∧
    ∃ t, exec (.sar w c rm) s = .next t ∧ shifted (x.sshiftRight n) ((x.sshiftRight (n - 1)).getLsbD 0) false t

/-- A shift or rotate by a count of 0 reads its operand and changes nothing; SETMO by a count that is not 0 sets every bit of the
operand, CF, OF and AF to 0, SF and PF to 1 and ZF to 0 (R168, R176). -/
def Obligations.ZeroCountsAndSetmo : Prop :=
  ∀ (s : State) (w : Width) (rm : Rm), s.Quiet →
    (s.regs.get8 .r1 = 0 →
      ∀ i ∈ [Instr.rol w .cl rm, .ror w .cl rm, .rcl w .cl rm, .rcr w .cl rm, .shl w .cl rm, .shr w .cl rm, .setmo w .cl rm,
        .sar w .cl rm], ∃ t, exec i s = .next t ∧ DataStep [] [] [] s t) ∧
    ∀ c : ShiftCount, 1 ≤ shiftCount c s →
      ∃ t, exec (.setmo w c rm) s = .next t ∧ Stored w rm (BitVec.allOnes w.bits) s t ∧ t.flags.cf = false ∧ t.flags.of_ = false ∧
        t.flags.af = false ∧ t.flags.sf = true ∧ t.flags.zf = false ∧ t.flags.pf = true ∧
        DataStep (rmParts w rm) statusFlags (rmSpan w rm s) s t

/-! ### Strings (43_string.md) -/

/-- A string instruction without a REP prefix is one iteration: MOVS copies the element at SI to ES:DI, CMPS compares the two,
SCAS compares the accumulator with the one at ES:DI, LODS loads and STOS stores the accumulator; SI and DI step by the element
size in DF's direction, and CX is neither read nor written (R177 to R183). -/
def Obligations.StringPrimitives : Prop :=
  ∀ (s : State) (w : Width), s.Quiet → repPrefixed s = false →
    let es := s.sregs.es
    let seg := segOf .ds s
    let si := s.regs.si
    let di := s.regs.di
    (∃ t, exec (movsOf w) s = .next t ∧ t.sys.mem = storeVal s.cfg w es di (heldVal w seg si s) s.sys.mem ∧
      t.regs.si = nextElement w s si ∧ t.regs.di = nextElement w s di ∧
      DataStep [.word .r6, .word .r7] [] (span w es di) s t) ∧
    (∃ t, exec (cmpsOf w) s = .next t ∧ SubFlags (heldVal w seg si s) (heldNext w seg si es di s) false t.flags ∧
      t.regs.si = nextElement w s si ∧ t.regs.di = nextElement w s di ∧
      DataStep [.word .r6, .word .r7] statusFlags [] s t) ∧
    (∃ t, exec (scasOf w) s = .next t ∧ SubFlags (getReg w .r0 s) (heldVal w es di s) false t.flags ∧
      t.regs.di = nextElement w s di ∧ DataStep [.word .r7] statusFlags [] s t) ∧
    (∃ t, exec (lodsOf w) s = .next t ∧ getReg w .r0 t = heldVal w seg si s ∧ t.regs.si = nextElement w s si ∧
      DataStep [regPart w .r0, .word .r6] [] [] s t) ∧
    ∃ t, exec (stosOf w) s = .next t ∧ t.sys.mem = storeVal s.cfg w es di (getReg w .r0 s) s.sys.mem ∧
      t.regs.di = nextElement w s di ∧ DataStep [.word .r7] [] (span w es di) s t

/-- A repeated string instruction sets `rep_mnemonic` to its primitive, whatever CX.  With CX = 0 it does nothing and ends.  With CX not 0 and no NMI or enabled INTR pending it does the
primitive once and decrements CX; it ends where CX is then 0, or where REPE finds ZF = 0 or REPNE finds ZF = 1 after a comparison,
and repeats otherwise (R97, R183).  One step per iteration is the model's choice (log entry 5). -/
def Obligations.RepIterates : Prop :=
  ∀ (s : State) (i : Instr), isString i = true → repPrefixed s = true →
    (s.regs.cx = 0 →
      ∃ t, exec i s = .next t ∧ t.regs = s.regs ∧ t.flags = s.flags ∧ t.sregs = s.sregs ∧ t.sys = s.sys ∧ t.biu = s.biu ∧
        t.eu = { s.eu with phase := .executing, inRep := false, repType := .none, repMnemonic := some i }) ∧
    (s.Quiet → s.regs.cx ≠ 0 → s.eu.nmiLatch = false → intrPending s = false →
      ∃ u t, exec i (withoutRep s) = .next u ∧ exec i s = .next t ∧ t.regs = { u.regs with cx := s.regs.cx - 1 } ∧
        t.flags = u.flags ∧ t.sregs = u.sregs ∧ t.sys = u.sys ∧ t.biu.pc = u.biu.pc ∧ t.biu.queue = u.biu.queue ∧
        (let done := s.regs.cx = 1 ∨
          (isCompare i = true ∧
            ((s.eu.prefixes.repe = true ∧ u.flags.zf = false) ∨ (s.eu.prefixes.repe = false ∧ u.flags.zf = true)))
         t.eu.repMnemonic = some i ∧ (done → t.eu.phase = .executing ∧ t.eu.inRep = false ∧ t.eu.repType = .none) ∧
          (¬ done → t.eu.phase = .repeating ∧ t.eu.inRep = true ∧
            t.eu.repType = (if isCompare i = true then if s.eu.prefixes.repe = true then .repe else .repne else .rep))))

/-- With an NMI latched, or else an enabled INTR pending, after an iteration of a repetition that goes on, the repetition ends with
the entry into interrupt 2, or into the PIC's vector after the acknowledge.  The return offset is the first prefix byte's or the
opcode's minus 1, as `REP_RESUME` says; the registers are those of the iterations done (R183, R185).  One step per iteration is the
model's choice (log entry 5). -/
def Obligations.RepInterrupted : Prop :=
  ∀ (s : State) (i : Instr), s.Quiet → isString i = true → repPrefixed s = true → s.regs.cx ≠ 0 → s.regs.cx ≠ 1 →
    ∃ u, exec i (withoutRep s) = .next u ∧
      (¬ (isCompare i = true ∧
          ((s.eu.prefixes.repe = true ∧ u.flags.zf = false) ∨ (s.eu.prefixes.repe = false ∧ u.flags.zf = true))) →
        let ret := match s.cfg.repResume with | .firstPrefix => s.eu.insnStart | .lastPrefix => ip s - 2
        let after : State := { u with regs := { u.regs with cx := s.regs.cx - 1 } }
        (s.eu.nmiLatch = true → frameOverlapsVector 2 s = false →
          ∃ t, exec i s = .next t ∧ Entered 2 ret after t ∧ t.eu.nmiLatch = false ∧ t.eu.phase = .start ∧ t.sys.pic = s.sys.pic) ∧
        (s.eu.nmiLatch = false → intrPending s = true → ∀ v p, s.sys.pic.inta = some (v, p) → frameOverlapsVector v s = false →
          ∃ t, exec i s = .next t ∧ Entered v ret after t ∧ t.eu.phase = .start ∧ t.sys.pic = p))

/-! ### Control transfer (44_control_transfer.md) -/

/-- The five unconditional jumps, the target in IP (and in CS for a far one) and the queue flushed; and the sixteen conditional
jumps, each taken exactly where its condition holds of the flags, and changing nothing and keeping the queue where it does not
(R107, R187 to R191, R200). -/
def Obligations.Jumps : Prop :=
  (∀ (s : State), s.Quiet →
    (∀ rel : Byte, ∃ t, exec (.jmpShort rel) s = .next t ∧ JumpedTo (ip s + rel.signExtend 16) t ∧ Frame [] [] [] s t ∧
      UnitsKept s t) ∧
    (∀ rel : Word, ∃ t, exec (.jmpNear rel) s = .next t ∧ JumpedTo (ip s + rel) t ∧ Frame [] [] [] s t ∧ UnitsKept s t) ∧
    (∀ off seg : Word, ∃ t, exec (.jmpFar off seg) s = .next t ∧ JumpedTo off t ∧ t.sregs = { s.sregs with cs := seg } ∧
      t.eu = s.eu ∧ Frame [] [] [] s t) ∧
    (∀ rm : Rm, ∃ t, exec (.jmpRm rm) s = .next t ∧ JumpedTo (rmVal .word rm s) t ∧ Frame [] [] [] s t ∧ UnitsKept s t) ∧
    ∀ m : MemOp, ∃ t, exec (.jmpMem m) s = .next t ∧ JumpedTo (heldVal .word (memSeg m s) (ea m s) s) t ∧
      t.sregs = { s.sregs with cs := heldNext .word (memSeg m s) (ea m s) (memSeg m s) (ea m s + 2) s } ∧ t.eu = s.eu ∧
      Frame [] [] [] s t) ∧
  ∀ (s : State) (alt : Bool) (rel : Byte),
    let f := s.flags
    let branches (i : Instr) (c : Prop) : Prop :=
      ∃ t, exec i s = .next t ∧ (c → JumpedTo (ip s + rel.signExtend 16) t ∧ Frame [] [] [] s t ∧ UnitsKept s t) ∧ (¬ c → t = s)
    branches (.jo alt rel) (f.of_ = true) ∧ branches (.jno alt rel) (f.of_ = false) ∧ branches (.jb alt rel) (f.cf = true) ∧
      branches (.jae alt rel) (f.cf = false) ∧ branches (.je alt rel) (f.zf = true) ∧ branches (.jne alt rel) (f.zf = false) ∧
      branches (.jbe alt rel) (f.cf = true ∨ f.zf = true) ∧ branches (.ja alt rel) (f.cf = false ∧ f.zf = false) ∧
      branches (.js alt rel) (f.sf = true) ∧ branches (.jns alt rel) (f.sf = false) ∧ branches (.jp alt rel) (f.pf = true) ∧
      branches (.jnp alt rel) (f.pf = false) ∧ branches (.jl alt rel) (f.sf ≠ f.of_) ∧ branches (.jge alt rel) (f.sf = f.of_) ∧
      branches (.jle alt rel) (f.zf = true ∨ f.sf ≠ f.of_) ∧ branches (.jg alt rel) (f.zf = false ∧ f.sf = f.of_)

/-- LOOP, LOOPE and LOOPNE decrement CX, wrapping, and jump where it is then not 0 and ZF is as they say; JCXZ jumps where CX is 0
and leaves it; no flag changes (R201 to R204). -/
def Obligations.Loops : Prop :=
  ∀ (s : State) (rel : Byte),
    let loops (i : Instr) (c : Prop) : Prop :=
      ∃ t, exec i s = .next t ∧ t.regs.cx.toNat = (s.regs.cx.toNat + 65535) % 65536 ∧ Frame [.word .r1] [] [] s t ∧
        UnitsKept s t ∧ (c → JumpedTo (ip s + rel.signExtend 16) t) ∧ (¬ c → FallsThrough s t)
    loops (.loop rel) (s.regs.cx ≠ 1) ∧ loops (.loope rel) (s.regs.cx ≠ 1 ∧ s.flags.zf = true) ∧
      loops (.loopne rel) (s.regs.cx ≠ 1 ∧ s.flags.zf = false) ∧
      ∃ t, exec (.jcxz rel) s = .next t ∧ (s.regs.cx = 0 → JumpedTo (ip s + rel.signExtend 16) t ∧ Frame [] [] [] s t ∧ UnitsKept s t) ∧
        (s.regs.cx ≠ 0 → t = s)

/-- The four calls: the return offset `IP_next`, and for a far call CS before it, are pushed; the target was read before SP
changed; the host's call stack gains an entry (R192 to R195, R341). -/
def Obligations.Calls : Prop :=
  ∀ (s : State), s.Quiet →
    let near (target : Word) (i : Instr) : Prop :=
      ∃ t, exec i s = .next t ∧ JumpedTo target t ∧ t.regs.sp = s.regs.sp - 2 ∧
        t.sys.mem = storeVal s.cfg .word s.sregs.ss (s.regs.sp - 2) (ip s) s.sys.mem ∧ t.sregs = s.sregs ∧ t.eu = s.eu ∧
        t.host.callStack = (.call :: s.host.callStack).take 128 ∧ Frame [.word .r4] [] (pushSpan s) s t
    let far (off seg : Word) (i : Instr) : Prop :=
      ∃ t, exec i s = .next t ∧ JumpedTo off t ∧ t.regs.sp = s.regs.sp - 4 ∧
        t.sys.mem = pushAll s.cfg s.sregs.ss s.regs.sp [s.sregs.cs, ip s] s.sys.mem ∧ t.sregs = { s.sregs with cs := seg } ∧
        t.eu = s.eu ∧ t.host.callStack = (.callFar :: s.host.callStack).take 128 ∧
        Frame [.word .r4] [] (span .word s.sregs.ss (s.regs.sp - 2) ++ span .word s.sregs.ss (s.regs.sp - 4)) s t
    (∀ rel : Word, near (ip s + rel) (.callNear rel)) ∧ (∀ rm : Rm, near (rmVal .word rm s) (.callRm rm)) ∧
      (∀ off seg : Word, far off seg (.callFar off seg)) ∧
      ∀ m : MemOp, far (heldVal .word (memSeg m s) (ea m s) s) (heldNext .word (memSeg m s) (ea m s) (memSeg m s) (ea m s + 2) s)
        (.callMem m)

/-- The four returns: IP, and for a far return CS, from the stack; SP goes up past them and past the bytes released (R196 to
R199). -/
def Obligations.Returns : Prop :=
  ∀ (s : State) (alt : Bool), s.Quiet →
    let near (n : Word) (i : Instr) : Prop :=
      ∃ t, exec i s = .next t ∧ stackWords 1 s = [t.biu.pc] ∧ t.biu.queue = [] ∧ t.biu.fetchState = .idle ∧
        t.regs.sp = s.regs.sp + 2 + n ∧ t.sregs = s.sregs ∧ t.eu = s.eu ∧ t.host.callStack = s.host.callStack.tail ∧
        Frame [.word .r4] [] [] s t
    let far (n : Word) (i : Instr) : Prop :=
      ∃ t, exec i s = .next t ∧ stackWords 2 s = [t.biu.pc, t.sregs.cs] ∧ t.biu.queue = [] ∧ t.biu.fetchState = .idle ∧
        t.regs.sp = s.regs.sp + 4 + n ∧ t.sregs = { s.sregs with cs := t.sregs.cs } ∧ t.eu = s.eu ∧
        t.host.callStack = s.host.callStack.tail ∧ Frame [.word .r4] [] [] s t
    near 0 (.ret alt) ∧ (∀ n, near n (.retImm alt n)) ∧ far 0 (.retf alt) ∧ ∀ n, far n (.retfImm alt n)

/-- INT n, INT3 and INTO with OF = 1 enter interrupts n, 3 and 4 with `IP_next` where the frame does not overlap the vector; INTO
with OF = 0 does nothing (R205, R206, R207, R226). -/
def Obligations.SoftwareInterrupts : Prop :=
  ∀ (s : State), s.Quiet →
    let enters (n : Byte) (i : Instr) : Prop :=
      frameOverlapsVector n s = false → ∃ t, exec i s = .next t ∧ Entered n (ip s) s t ∧ t.sys.pic = s.sys.pic
    (∀ n, enters n (.int n)) ∧ enters 3 .int3 ∧ (s.flags.of_ = true → enters 4 .into) ∧
      (s.flags.of_ = false → exec .into s = .next s)

/-- IRET takes IP, CS and FLAGS from the stack, in that order (R208, R228). -/
def Obligations.IretCompletes : Prop :=
  ∀ (s : State), s.Quiet →
    ∃ t f, exec .iret s = .next t ∧ stackWords 3 s = [t.biu.pc, t.sregs.cs, f] ∧ t.flags = Flags.ofWord f ∧
      t.regs.sp = s.regs.sp + 6 ∧ t.sregs = { s.sregs with cs := t.sregs.cs } ∧ t.biu.queue = [] ∧ t.biu.fetchState = .idle ∧
      t.eu = s.eu ∧ t.host.callStack = s.host.callStack.tail ∧
      Frame [.word .r4] [.cf, .pf, .af, .zf, .sf, .tf, .if_, .df, .of_] [] s t

/-- Returning undoes entering: where the frame of INT n lies in RAM, an IRET executed in the handler's first state gives back the
registers, the flags, the segment registers and the return offset (R205, R208, R226, R228). -/
def Obligations.IretUndoesInt : Prop :=
  ∀ (s t : State) (n : Byte), s.Quiet → (∀ a ∈ frameSpan s, ∃ k, cellOf s.cfg a = some (k, true)) → exec (.int n) s = .next t →
    ∃ u, exec .iret t = .next u ∧ u.regs = s.regs ∧ u.flags = s.flags ∧ u.sregs = s.sregs ∧ ip u = ip s ∧
      u.sys.mem = t.sys.mem

/-! ### Processor control (45_processor_control.md) and refused encodings -/

/-- CLC, STC, CMC, CLD and STD are the bytes F8h, F9h, F5h, FCh and FDh, and each changes its one flag only (R209 to R213). -/
def Obligations.FlagInstructions : Prop :=
  (∀ bs, decode (0xF8 :: bs) = some (.clc, bs) ∧ decode (0xF9 :: bs) = some (.stc, bs) ∧ decode (0xF5 :: bs) = some (.cmc, bs) ∧
    decode (0xFC :: bs) = some (.cld, bs) ∧ decode (0xFD :: bs) = some (.std, bs)) ∧
    ∀ (s : State),
      exec .clc s = .next { s with flags := { s.flags with cf := false } } ∧
        exec .stc s = .next { s with flags := { s.flags with cf := true } } ∧
        exec .cmc s = .next { s with flags := { s.flags with cf := !s.flags.cf } } ∧
        exec .cld s = .next { s with flags := { s.flags with df := false } } ∧
        exec .std s = .next { s with flags := { s.flags with df := true } }

/-- CLI clears IF; STI sets it and, with `STI_INHIBIT`, inhibits the next boundary; HLT where TF was 0 makes one halt bus cycle and
suspends fetch; ESC reads a memory operand and discards it; NOP does nothing (R78, R214, R215, R216, R218, R219).  That the
execute phase ends at the cycle's T4, its status still latched, is the model's choice (log entry 11). -/
def Obligations.InterruptEnableHltEscNop : Prop :=
  ∀ (s : State),
    exec .cli s = .next { s with flags := { s.flags with if_ := false } } ∧
      exec .sti s =
        .next { s with flags := { s.flags with if_ := true }, eu := { s.eu with intInhibit := s.eu.intInhibit || s.cfg.stiInhibit } } ∧
      (s.Quiet → s.eu.tfPrev = false →
        ∃ t, exec .hlt s = .next t ∧ t.eu = { s.eu with phase := .halting } ∧ t.biu.fetchState = .suspended ∧
          t.biu.busStatus = .halt ∧ t.biu.tCycle = .t4 ∧ t.biu.pc = s.biu.pc ∧ t.biu.queue = s.biu.queue ∧ t.regs = s.regs ∧
          t.sregs = s.sregs ∧ t.flags = s.flags ∧ t.sys = s.sys ∧ t.host = s.host ∧ t.cfg = s.cfg) ∧
      (s.Quiet → ∀ (op ext : Reg) (rm : Rm), ∃ t, exec (.esc op ext rm) s = .next t ∧ DataStep [] [] [] s t) ∧
      exec .nop s = .next s

/-- The encodings that R113 refuses decode to instructions that every state refuses, before any effect (R113).  That they decode to
instructions whose meaning is the refusal, and are not refused by the decoder, is the model's choice (log entry 25). -/
def Obligations.RefusedEncodings : Prop :=
  (∀ (op m : Byte) (bs : List Byte), 4 ≤ bs.length →
    (op = 0x0F ∨ (op = 0x8C ∧ 4 ≤ (regField m).toNat) ∨ (op = 0x8E ∧ (4 ≤ (regField m).toNat ∨ regField m = 1)) ∨
      ((op = 0x8D ∨ op = 0xC4 ∨ op = 0xC5) ∧ modField m = 3) ∨ (op = 0xFE ∧ 2 ≤ (regField m).toNat) ∨
      (op = 0xFF ∧ (regField m = 3 ∨ regField m = 5) ∧ modField m = 3)) →
    ∃ i rest, decode (op :: m :: bs) = some (i, rest) ∧ ∀ s, ∃ r, exec i s = .refused r) ∧
    ∀ (s : State) (d : Dir) (n : BitVec 2) (rm : Rm) (r q : Reg),
      exec .popCs s = .refused .popCs ∧ exec (.movSregHigh d n rm) s = .refused .movSregHigh ∧
        exec (.movCs rm) s = .refused .movCs ∧ exec (.leaRegister r q) s = .refused .leaRegister ∧
        exec (.lesRegister r q) s = .refused .lesRegister ∧ exec (.ldsRegister r q) s = .refused .ldsRegister ∧
        exec (.fe2 rm) s = .refused (.feHigh .r2) ∧ exec (.fe3 rm) s = .refused (.feHigh .r3) ∧
        exec (.fe4 rm) s = .refused (.feHigh .r4) ∧ exec (.fe5 rm) s = .refused (.feHigh .r5) ∧
        exec (.fe6 rm) s = .refused (.feHigh .r6) ∧ exec (.fe7 rm) s = .refused (.feHigh .r7) ∧
        exec (.callRegisterFar q) s = .refused .callRegisterFar ∧ exec (.jmpRegisterFar q) s = .refused .jmpRegisterFar

/-! ### Registers, flags, the stack and memory as state (10_state.md, 20_memory.md) -/

/-- FLAGS as a word: a write keeps the nine flags and forces the reserved bits, reading back `(v & 0FD5h) | F002h`, so bits 1 and
12 to 15 read 1 and bits 3 and 5 read 0 (R26). -/
def Obligations.FlagsWordForced : Prop :=
  (∀ v : Word, (Flags.ofWord v).toWord = (v &&& 0x0FD5) ||| 0xF002) ∧
    ∀ f : Flags, Flags.ofWord f.toWord = f ∧ f.toWord &&& 0xF02A = 0xF002

/-- `Push` takes SP down by 2 and writes the word at SS:SP; `Pop` reads the word at SS:SP and takes SP up by 2; a pop after a push
to RAM gives the word back and SP as it was (R10). -/
def Obligations.StackPrimitives : Prop :=
  ∀ (s : State) (v : Word), s.Quiet →
    (push v s).regs.sp = s.regs.sp - 2 ∧
      (push v s).sys.mem = storeVal s.cfg .word s.sregs.ss (s.regs.sp - 2) v s.sys.mem ∧
      (pop s).1 = heldVal .word s.sregs.ss s.regs.sp s ∧ (pop s).2.regs.sp = s.regs.sp + 2 ∧ (pop s).2.sys.mem = s.sys.mem ∧
      ((∀ a ∈ pushSpan s, ∃ k, cellOf s.cfg a = some (k, true)) →
        (pop (push v s)).1 = v ∧ (pop (push v s)).2.regs = s.regs)

/-- The memory map: a byte written to RAM is read back at its address, one written to the aperture of the adapter that is present at
every address of the aperture that names it (the CGA's 16 KiB repeat through B8000h-BFFFFh, the MDA's 8 KiB through B0000h-B7FFFh), and
every byte it does not name stays; the ROM from F0000h on ignores the write and is always read; an address is unpopulated exactly
from `RAM_SIZE` to AFFFFh, in the other adapter's aperture and from C0000h to EFFFFh, and a write there is ignored (R48, R51). -/
def Obligations.MemoryMap : Prop :=
  ∀ (c : Config) (m : Memory) (a b : Phys) (v : Byte),
    let n := a.toNat
    (0xF0000 ≤ n → poke c m a v = m ∧ (peek c m a).isSome = true) ∧
      (peek c m a = none ↔
        (min c.ramSize 0xA0000 ≤ n ∧ n < 0xB0000) ∨ (0xC0000 ≤ n ∧ n < 0xF0000) ∨
          (c.videoAdapter = .cga ∧ 0xB0000 ≤ n ∧ n < 0xB8000) ∨ (c.videoAdapter = .mda ∧ 0xB8000 ≤ n ∧ n < 0xC0000)) ∧
      (peek c m a = none → poke c m a v = m) ∧
      (n < c.ramSize → n < 0xA0000 → peek c (poke c m a v) a = some v) ∧
      (¬ sameCell c a b → peek c (poke c m a v) b = peek c m b) ∧
      (c.videoAdapter = .cga → 0xB8000 ≤ n → n < 0xC0000 → 0xB8000 ≤ b.toNat → b.toNat < 0xC0000 → n % 0x4000 = b.toNat % 0x4000 →
        peek c (poke c m a v) b = some v) ∧
      (c.videoAdapter = .mda → 0xB0000 ≤ n → n < 0xB8000 → 0xB0000 ≤ b.toNat → b.toNat < 0xB8000 → n % 0x2000 = b.toNat % 0x2000 →
        peek c (poke c m a v) b = some v)

/-- A CPU reset leaves the segment registers, CS:IP, FLAGS, the queue and the hidden state at R37's values, and memory and the
devices as they were; it takes six cycles, and the CPU then holds no fault (R37, R235, R324, R325). -/
def Obligations.CpuResetState : Prop :=
  ∀ (s : State),
    let t := hostReset .cpu s
    t.sregs.ds = 0 ∧ t.sregs.ss = 0 ∧ t.sregs.es = 0 ∧ t.sregs.cs = s.cfg.resetCs ∧ ip t = s.cfg.resetIp ∧
      t.flags.toWord = 0xF002 ∧ t.biu.queue = [] ∧ t.biu.state = .idle ∧ t.biu.fetchState = .idle ∧ t.biu.tCycle = .ti ∧
      t.biu.busWait = 0 ∧ t.biu.dmaWait = 0 ∧ t.eu.inRep = false ∧ t.eu.repType = .none ∧ t.eu.halted = false ∧
      t.eu.haltReported = false ∧ t.eu.intInhibit = false ∧ t.eu.nmiLatch = false ∧ t.eu.nmiPrev = s.eu.nmiPrev ∧
      t.eu.tfPrev = false ∧ t.eu.fault = none ∧ t.biu.cycleCount = s.biu.cycleCount + 6 ∧ t.eu.instrCount = 0 ∧ t.sys.mem = s.sys.mem ∧
      t.sys.pic = s.sys.pic ∧ t.sys.dma = s.sys.dma ∧ t.sys.crtc = s.sys.crtc ∧ t.sys.fdc = s.sys.fdc ∧ t.cfg = s.cfg

/-- The machine right after reset: CS:IP = FFFF:0000, FLAGS = F002h, the other segment registers 0, the queue empty, the CPU neither
halted nor in a repetition, the PIC not initialised with nothing requested, masked or in service, the FDC in reset with DOR 00h,
the DMA channels masked; and the three invariants hold there (R5, R37, R241, R254, R301, R326). -/
def Obligations.ResetState : Prop :=
  let s := State.reset
  s.sregs.cs = 0xFFFF ∧ ip s = 0 ∧ s.flags.toWord = 0xF002 ∧ s.sregs.ds = 0 ∧ s.sregs.es = 0 ∧ s.sregs.ss = 0 ∧
    s.biu.queue = [] ∧ s.eu.halted = false ∧ s.eu.inRep = false ∧ s.sys.pic.init = .uninit ∧ s.sys.pic.irr = 0 ∧
    s.sys.pic.imr = 0 ∧ s.sys.pic.isr = 0 ∧ s.sys.fdc.phase = .reset ∧ s.sys.fdc.dor = 0 ∧
    (∀ c, (s.sys.dma.ch.get c).mask = true ∧ (s.sys.dma.ch.get c).tc = false) ∧ CpuInv s ∧ MemInv s ∧ DeviceInv s

/-! ### The instruction boundary and HALT (22_eu_sequencer.md, 60_exceptions.md) -/

/-- At the boundary after an instruction, HLT included: the inhibit blocks everything and is used up; else a latched NMI enters
interrupt 2; else an enabled INTR is acknowledged; else a trap enters interrupt 1 where TF was 1 when the instruction began; else
execution goes on at IP, or the CPU halts after HLT (R95, R96, R216, R230, R232, R233, R234). -/
def Obligations.BoundaryPriority : Prop :=
  ∀ (s : State), s.Quiet → s.eu.phase = .executing ∨ s.eu.phase = .halting →
    let plain (t : State) : Prop :=
      t.regs = s.regs ∧ t.sregs = s.sregs ∧ t.flags = s.flags ∧ t.biu = s.biu ∧ t.eu.phase = .start ∧
        t.eu.instrCount = s.eu.instrCount + 1 ∧ t.eu.nmiLatch = s.eu.nmiLatch ∧ t.sys.mem = s.sys.mem ∧ t.sys.pic = s.sys.pic ∧
        (s.eu.phase = .executing → t.sys = s.sys ∧ t.eu.halted = s.eu.halted) ∧ (s.eu.phase = .halting → t.eu.halted = true)
    if s.eu.intInhibit = true then ∃ t, finishInsn s = .next t ∧ plain t ∧ t.eu.intInhibit = false
    else if s.eu.nmiLatch = true then
      frameOverlapsVector 2 s = false → ∃ t, finishInsn s = .next t ∧ Entered 2 (ip s) s t ∧ t.eu.nmiLatch = false
    else if s.sys.pic.intr = true ∧ s.flags.if_ = true then
      ∀ v p, s.sys.pic.inta = some (v, p) → frameOverlapsVector v s = false →
        ∃ t, finishInsn s = .next t ∧ Entered v (ip s) s t ∧ t.sys.pic = p
    else if s.eu.tfPrev = true then
      frameOverlapsVector 1 s = false → ∃ t, finishInsn s = .next t ∧ Entered 1 (ip s) s t
    else ∃ t, finishInsn s = .next t ∧ plain t

/-- The boundary after HLT halts the CPU where it enters no interrupt, an inhibit included, and reports the halt once; where an NMI is
latched or an enabled INTR pending, and nothing inhibits it, the CPU is not halted but enters that interrupt.  A halted CPU has no step
until an NMI is latched or an enabled INTR is asserted, and then enters that interrupt with IP, NMI first (R95, R216, R323).  That a
machine whose CPU has no step stands still where nothing else is scheduled is the model's choice (log entry 9). -/
def Obligations.HaltAndWake : Prop :=
  ∀ (s : State), s.Quiet →
    (s.eu.phase = .halting →
      (s.eu.intInhibit = true ∨ (s.eu.nmiLatch = false ∧ intrPending s = false ∧ s.eu.tfPrev = false) →
        ∃ t, finishInsn s = .next t ∧ t.eu.halted = true ∧ t.eu.haltReported = true ∧ t.regs = s.regs ∧ ip t = ip s ∧
          t.sys.reports = (if s.eu.haltReported then s.sys.reports else .cpuHalted s.eu.insnStart :: s.sys.reports)) ∧
      (s.eu.intInhibit = false → s.eu.nmiLatch = true → frameOverlapsVector 2 s = false →
        ∃ t, finishInsn s = .next t ∧ Entered 2 (ip s) s t ∧ t.eu.nmiLatch = false ∧ t.eu.halted = false ∧
          t.sys.reports = s.sys.reports) ∧
      (s.eu.intInhibit = false → s.eu.nmiLatch = false → intrPending s = true →
        ∀ v p, s.sys.pic.inta = some (v, p) → frameOverlapsVector v s = false →
          ∃ t, finishInsn s = .next t ∧ Entered v (ip s) s t ∧ t.sys.pic = p ∧ t.eu.halted = false ∧
            t.sys.reports = s.sys.reports)) ∧
    (s.eu.halted = true →
      (s.eu.nmiLatch = false → intrPending s = false →
        outcome .eu s = none ∧ (s.agenda = [] → s.eu.fault = none → step s = .next s)) ∧
      (s.agenda = [] → s.eu.fault = none → s.eu.nmiLatch = true → frameOverlapsVector 2 s = false →
        ∃ t, step s = .next t ∧ Entered 2 (ip s) s t ∧ t.eu.nmiLatch = false ∧ t.eu.haltReported = false) ∧
      (s.agenda = [] → s.eu.fault = none → s.eu.nmiLatch = false → intrPending s = true →
        ∀ v p, s.sys.pic.inta = some (v, p) → frameOverlapsVector v s = false →
          ∃ t, step s = .next t ∧ Entered v (ip s) s t ∧ t.sys.pic = p ∧ t.eu.haltReported = false))

/-! ### Devices (61_pic_8259.md to 64_fdc_765.md) -/

/-- `best()` is the permitted level of smallest rank, none where no level is permitted.  An acknowledge in 8086 mode answers
`vector_base + r` for the best level r, in edge mode clears its request and, without AEOI, puts it in service, so that it is no
longer permitted; with none permitted it answers `vector_base + 7` and changes nothing (R243, R245, R246). -/
def Obligations.PicAcknowledge : Prop :=
  ∀ (p : Pic),
    (∀ r, p.best = some r ↔ p.permitted r = true ∧ ∀ j, p.permitted j = true → p.rank r ≤ p.rank j) ∧
    (p.best = none ↔ ∀ j, p.permitted j = false) ∧
    (p.upm = true → p.best = none → p.inta = some (p.vectorBase + 7, p)) ∧
    (p.upm = true → ∀ r, p.best = some r → ∃ q, p.inta = some (p.vectorBase + r.zeroExtend 8, q) ∧
      (p.ltim = false → ∀ i : BitVec 3, bitOf q.irr i.toNat = (bitOf p.irr i.toNat && i != r)) ∧
      (p.aeoi = false → (∀ i : BitVec 3, bitOf q.isr i.toNat = (bitOf p.isr i.toNat || i == r)) ∧ q.permitted r = false) ∧
      q.imr = p.imr ∧ q.lines = p.lines ∧ q.vectorBase = p.vectorBase)

/-- The bytes 13h, v, 01h written to ports 20h, 21h, 21h make the PIC ready in 8086 mode with `vector_base` = v & F8h and nothing
masked, requested or in service, and change nothing else; a non-specific EOI (20h to port 20h) then clears the in-service level of
smallest rank only (R240, R247, R249). -/
def Obligations.PicInitAndEoi : Prop :=
  ∀ (c : Config) (y : Sys),
    (∀ v : Byte,
      let z := ((y.portWrite c 0x20 0x13).portWrite c 0x21 v).portWrite c 0x21 0x01
      let q := z.pic
      q.init = .ready ∧ q.vectorBase = v &&& 0xF8 ∧ q.upm = true ∧ q.aeoi = false ∧ q.imr = 0 ∧ q.isr = 0 ∧ q.irr = 0 ∧ q.lowest = 7 ∧
        z = { y with pic := q }) ∧
    ∀ h : BitVec 3, bitOf y.pic.isr h.toNat = true →
      (∀ j : BitVec 3, bitOf y.pic.isr j.toNat = true → y.pic.rank h ≤ y.pic.rank j) →
      let z := y.portWrite c 0x20 0x20
      z.pic.init = y.pic.init ∧ ∀ i : BitVec 3, bitOf z.pic.isr i.toNat = (bitOf y.pic.isr i.toNat && i != h)

/-- One serviced DMA byte is written to or read from memory at `phys_dma`, neither for a verify; it moves the current address by one in
the mode's direction and the count down by one; the terminal count is reported exactly where the count underflows, and the channel is
then reloaded or masked.  The ports: after the byte pointer is cleared, two writes to a channel's address or count port load both bytes
of the base and the current register, low byte first, leave the other channels, and two reads give them back; 0Bh sets a channel's
mode; 0Ah, 0Eh and 0Fh set the mask bits; the page ports hold what is written, and 87h, 83h, 81h and 82h give the channels' page (R255,
R256, R257, R258, R260, R261, R264, R267). -/
def Obligations.DmaTransfersAndRegisters : Prop :=
  (∀ (k : DmaChannel),
    let t := k.advance
    t.dropout = dmaDropout ∧ t.mode = k.mode ∧ t.baseAddr = k.baseAddr ∧ t.baseCount = k.baseCount ∧
      t.tc = decide (k.curCount = 0) ∧
      (k.curCount ≠ 0 ∨ k.autoInit = false → t.curAddr = (if k.decrement then k.curAddr - 1 else k.curAddr + 1)) ∧
      (k.curCount ≠ 0 → t.curCount.toNat + 1 = k.curCount.toNat ∧ t.mask = k.mask ∧ t.tcStatus = k.tcStatus) ∧
      (k.curCount = 0 → t.tcStatus = true ∧
        (k.autoInit = true → t.curAddr = k.baseAddr ∧ t.curCount = k.baseCount ∧ t.mask = k.mask) ∧
        (k.autoInit = false → t.mask = true ∧ t.curCount = 0xFFFF))) ∧
  ∀ (cfg : Config) (y : Sys),
    (∀ (c : BitVec 2) (v : Byte),
      let k := y.dma.ch.get c
      let a := y.dma.address c
      let w := y.dmaWrite cfg c v
      let r := y.dmaRead cfg c
      a.toNat = (y.dma.page c).toNat * 65536 + k.curAddr.toNat ∧
        w.mem = (if k.transferType = 0 then y.mem else poke cfg y.mem a v) ∧ r.2.mem = y.mem ∧
        (k.transferType ≠ 0 → ∀ b, peek cfg y.mem a = some b → r.1 = b) ∧
        w.dma = y.dma.modify c DmaChannel.advance ∧ r.2.dma = y.dma.modify c DmaChannel.advance ∧
        w.dma.ch.get c = k.advance ∧ ∀ d, d ≠ c → w.dma.ch.get d = y.dma.ch.get d) ∧
    (∀ (port : Word) (lo hi any : Byte), port.toNat < 8 →
      let c : BitVec 2 := port.extractLsb' 1 2
      let z := ((y.portWrite cfg 0x0C any).portWrite cfg port lo).portWrite cfg port hi
      let r1 := z.portRead cfg port
      let r2 := r1.2.portRead cfg port
      (port.getLsbD 0 = false → (z.dma.ch.get c).curAddr = wordOf lo hi ∧ (z.dma.ch.get c).baseAddr = wordOf lo hi) ∧
        (port.getLsbD 0 = true → (z.dma.ch.get c).curCount = wordOf lo hi ∧ (z.dma.ch.get c).baseCount = wordOf lo hi) ∧
        (∀ d, d ≠ c → z.dma.ch.get d = y.dma.ch.get d) ∧ r1.1 = lo ∧ r2.1 = hi) ∧
    ∀ v : Byte,
      let c : BitVec 2 := v.extractLsb' 0 2
      let mode := y.portWrite cfg 0x0B v
      let single := y.portWrite cfg 0x0A v
      ((mode.dma.ch.get c).mode = v.extractLsb' 2 6 ∧ ∀ d, d ≠ c → mode.dma.ch.get d = y.dma.ch.get d) ∧
        ((single.dma.ch.get c).mask = bitOf v 2 ∧ ∀ d, d ≠ c → single.dma.ch.get d = y.dma.ch.get d) ∧
        (∀ d, ((y.portWrite cfg 0x0E v).dma.ch.get d).mask = false) ∧
        (∀ d : BitVec 2, ((y.portWrite cfg 0x0F v).dma.ch.get d).mask = bitOf v d.toNat) ∧
        (∀ port : Word, 0x80 ≤ port.toNat → port.toNat < 0x90 → ((y.portWrite cfg port v).portRead cfg port).1 = v) ∧
        (y.portWrite cfg 0x87 v).dma.page 0 = v.truncate 4 ∧ (y.portWrite cfg 0x83 v).dma.page 1 = v.truncate 4 ∧
        (y.portWrite cfg 0x81 v).dma.page 2 = v.truncate 4 ∧ (y.portWrite cfg 0x82 v).dma.page 3 = v.truncate 4

/-- Any byte with bit 2 = 0 written to the DOR, port 3F2h, holds the FDC in reset; any byte with bits 2 and 3 = 1 written next leaves
it idle with an interrupt pending on IRQ 6, and the next four Sense Interrupt commands (08h to port 3F5h, then two reads of it) answer
C0h, C1h, C2h and C3h with each drive's cylinder (R297, R302, R303, R310, R318). -/
def Obligations.FdcResetPolling : Prop :=
  ∀ (c : Config) (y : Sys) (v w : Byte), bitOf v 2 = false → bitOf w 2 = true → bitOf w 3 = true →
    let a := y.portWrite c 0x3F2 v
    let b := a.portWrite c 0x3F2 w
    let sense (z : Sys) : Byte × Byte × Sys :=
      let r1 := (z.portWrite c 0x3F5 0x08).portRead c 0x3F5
      let r2 := r1.2.portRead c 0x3F5
      (r1.1, r2.1, r2.2)
    let status (z : Sys) : Byte := (z.portRead c 0x3F4).1
    let s0 := sense b
    let s1 := sense s0.2.2
    let s2 := sense s1.2.2
    let s3 := sense s2.2.2
    status a = 0x00 ∧ a.fdc.phase = .reset ∧ a.fdc.dor = v ∧ bitOf a.pic.lines 6 = false ∧ status b = 0x80 ∧ b.fdc.dor = w ∧
      bitOf b.pic.lines 6 = true ∧
      (s0.1, s0.2.1) = (0xC0, (y.fdc.drives.get 0).cyl) ∧ (s1.1, s1.2.1) = (0xC1, (y.fdc.drives.get 1).cyl) ∧
      (s2.1, s2.2.1) = (0xC2, (y.fdc.drives.get 2).cyl) ∧ (s3.1, s3.2.1) = (0xC3, (y.fdc.drives.get 3).cyl) ∧
      bitOf s0.2.2.pic.lines 6 = false ∧ s3.2.2.fdc.pendingInt = false ∧ status s3.2.2 = 0x80

/-- The index port of the adapter that is present (3D4h or 3B4h) selects a 6845 register; the data port (3D5h or 3B5h) then writes
registers 0 to 15 at their width and leaves the others, reads registers 14 to 17 back and answers 00h for the rest; a write of
register 16 to 31 changes no register and is reported.  Registers 12 and 13 are the start address, 14 and 15 the cursor address (R269,
R270, R271). -/
def Obligations.CrtcRegisterAccess : Prop :=
  ∀ (c : Config) (y : Sys) (i v : Byte),
    let base : Word := match c.videoAdapter with | .cga => 0x3D0 | .mda => 0x3B0
    let a := y.portWrite c (base + 4) i
    let b := a.portWrite c (base + 5) v
    let idx : BitVec 5 := i.truncate 5
    a.crtc.index = idx ∧ a.crtc.regs = y.crtc.regs ∧ b.crtc = { a.crtc with regs := b.crtc.regs } ∧
      (∀ j, j ≠ idx → b.crtc.regs.value j = y.crtc.regs.value j) ∧
      (idx < 16 → b.crtc.regs.value idx = v &&& crtcMask idx ∧ b.reports = y.reports) ∧
      (16 ≤ idx → b.crtc = a.crtc ∧ b.reports = .crtcWrite idx :: y.reports) ∧
      (b.portRead c (base + 5)).1 = (if 14 ≤ idx ∧ idx ≤ 17 then b.crtc.regs.value idx else 0) ∧
      b.crtc.regs.startAddress.toNat = (b.crtc.regs.value 12).toNat * 256 + (b.crtc.regs.value 13).toNat ∧
      b.crtc.regs.cursorAddress.toNat = (b.crtc.regs.value 14).toNat * 256 + (b.crtc.regs.value 15).toNat

/-! ### Invariants and whole-machine rules -/

/-- Every step, of whichever agent, keeps the CPU's invariant: the queue within its capacity, at most four prefix bytes, a fifth only with
its fault, a halted
CPU at an instruction's start, a repetition of a string instruction only, the host's records within their bounds (R29, R82,
R97, R183, R216, R341; the phases are the model's, log entry 5). -/
def Obligations.StepKeepsCpuInv : Prop := ∀ s t : State, CpuInv s → step s = .next t → CpuInv t

/-- Every step keeps every byte array of the machine in canonical form: the model's own representation of R39, R298 and R293 (log
entry 4). -/
def Obligations.StepKeepsMemInv : Prop := ∀ s t : State, MemInv s → step s = .next t → MemInv t

/-- Every step keeps the PIC's `vector_base` a multiple of 8, the DMA dropout counters within `DMA_DROPOUT` and the FDC's pending
reset results within four (R241, R247, R265, R302). -/
def Obligations.StepKeepsDeviceInv : Prop := ∀ s t : State, DeviceInv s → step s = .next t → DeviceInv t

/-- No step changes a parameter of the machine; a step of the prefetcher, the FDC or the video card changes no general register,
segment register, flag, IP or part of the execution unit.  Nor does a tick of the clock: it counts one cycle, moves the T-cycle by one
row of R70's table, and adds bytes to the queue at the T4 of a code fetch and at no other T-state; it changes no device and no byte of
memory, nor whether fetch is suspended (R5, R55, R60, R64, R70, R73, R80, R322).  The agenda and the tick's choices are the model's own
data (log entries 6 and 10), and that the clock of a CPU which holds a fault ticks on is its choice (log entry 7). -/
def Obligations.OtherAgentsLeaveTheCpu : Prop :=
  (∀ s t : State, step s = .next t → t.cfg = s.cfg) ∧
    (∀ (s t : State) (u : Turn) (rest : List Turn), u ∈ [Turn.prefetch, .fdc, .crtc] → s.agenda = u :: rest → step s = .next t →
      t.regs = s.regs ∧ t.sregs = s.sregs ∧ t.flags = s.flags ∧ ip t = ip s ∧ t.eu = s.eu ∧ t.agenda = rest) ∧
    ∀ (s t : State) (c : ClockIn) (rest : List Turn), s.agenda = .clock c :: rest → step s = .next t →
      t.eu = s.eu ∧ t.regs = s.regs ∧ t.sregs = s.sregs ∧ t.flags = s.flags ∧ ip t = ip s ∧ t.host = s.host ∧ t.agenda = rest ∧
        (∃ d, t.sys = { s.sys with drawCtr := d }) ∧ t.biu.cycleCount = s.biu.cycleCount + 1 ∧
        (t.biu.fetchState = .suspended ↔ s.biu.fetchState = .suspended) ∧
        (let ready : Prop := s.biu.busWait = 0 ∧ s.biu.dmaWait = 0
         match s.biu.tCycle with
         | .ti => t.biu.tCycle = .ti ∨ t.biu.tCycle = .t1
         | .t1 => t.biu.tCycle = .t2
         | .t2 => t.biu.tCycle = .t3
         | .t3 => (ready → t.biu.tCycle = .t4) ∧ (¬ ready → t.biu.tCycle = .tw)
         | .tw => (ready → t.biu.tCycle = .t4) ∧ (¬ ready → t.biu.tCycle = .tw)
         | .t4 => t.biu.tCycle = .ti ∨ t.biu.tCycle = .t1) ∧
        (s.biu.fetching = true → t.biu.tCycle = .t4 → t.biu.queue.length = s.biu.queue.length + fetchWidth s) ∧
        (s.biu.fetching = false ∨ t.biu.tCycle ≠ .t4 → t.biu.queue = s.biu.queue)

/-- From a state that meets the CPU's invariant and holds no fault, a step that ends with one held ends with a decode fault at the
instruction's start: the fault for an inconsistent repetition is never reached.  The CPU that holds a fault has no step, nor has its
prefetcher, while the FDC and the video card step on, and a CPU reset clears the fault; a step answers a fault only where the CPU holds
it (R14, R82, R235, R323).  That the state holds the fault and the answer shows it is the model's choice (log entry 7). -/
def Obligations.OnlyDecodeFaults : Prop :=
  (∀ (s t : State) (f : Fault), CpuInv s → s.eu.fault = none → step s = .next t → t.eu.fault = some f →
    f = .instructionDecodeError t.eu.insnStart) ∧
  (∀ (s : State) (f : Fault), step s = .fault f → s.eu.fault = some f) ∧
  ∀ (s : State) (f : Fault), s.eu.fault = some f →
    outcome .eu s = none ∧ outcome .prefetch s = none ∧ (s.agenda = [] → step s = .fault f) ∧
      outcome .crtc s = some (.next (crtcTurn s)) ∧ (s.sys.fdc.ticking = true → outcome .fdc s = some (.next (fdcTurn s))) ∧
      (hostReset .cpu s).eu.fault = none
end

