-- ==== Sys2Proof/Laws/Biu.lean ====
section
/-!
SUPPORT. Laws/Biu.lean: what the bus unit's clock can do, once: its ticks and cycles keep PC, the queue, whether fetch is suspended and
whether a fetch is in flight, and plan none.
-/
namespace Sys2Proof.Machine

/-- What every tick and every cycle of the execution unit leaves of the bus unit. -/
structure Biu.Keeps (b c : Biu) : Prop where
  pc : c.pc = b.pc
  queue : c.queue = b.queue
  suspended : c.fetchState = .suspended ↔ b.fetchState = .suspended
  fetching : c.fetching = b.fetching
  scheduled : c.scheduled = true → b.scheduled = true
  mcPc : c.mcPc = b.mcPc

theorem Biu.Keeps.refl (b : Biu) : b.Keeps b := ⟨rfl, rfl, Iff.rfl, rfl, id, rfl⟩

theorem Biu.Keeps.trans {a b c : Biu} (h : a.Keeps b) (k : b.Keeps c) : a.Keeps c :=
  ⟨k.pc.trans h.pc, k.queue.trans h.queue, k.suspended.trans h.suspended, k.fetching.trans h.fetching,
    fun s => h.scheduled (k.scheduled s), k.mcPc.trans h.mcPc⟩

theorem Biu.Keeps.planned {b c : Biu} (h : b.Keeps c) (p : b.planned = false) : c.planned = false := by
  simp only [Biu.planned, Bool.or_eq_false_iff] at p ⊢
  refine ⟨h.fetching.trans p.1, Bool.eq_false_iff.mpr fun s => ?_⟩
  rw [h.scheduled s] at p
  exact absurd p.2 (by decide)

theorem Biu.inject_keeps (b : Biu) : b.Keeps b.inject := by
  rcases b with ⟨pc, q, st, t, f, a, bs, w, d, l, fr, dl, cy, mc⟩
  unfold Biu.inject
  split
  · exact Biu.Keeps.refl _
  · cases f <;> exact ⟨rfl, rfl, by simp, rfl, by simp [Biu.scheduled], rfl⟩

theorem Biu.latch_keeps (start : Option CycleStart) (b : Biu) : b.Keeps (b.latch start) := by
  rcases b with ⟨pc, q, st, t, f, a, bs, w, d, l, fr, dl, cy, mc⟩
  cases t <;> cases start <;> exact ⟨rfl, rfl, Iff.rfl, rfl, id, rfl⟩

/-- A tick (R80). -/
theorem Biu.advance_keeps (cfg : Config) (start : Option CycleStart) (b : Biu) : b.Keeps (b.advance cfg start) := by
  refine (Biu.inject_keeps b).trans (Biu.Keeps.trans ?_ (Biu.latch_keeps start _))
  generalize b.inject = b
  rcases b with ⟨pc, q, st, t, f, a, bs, w, d, l, fr, dl, cy, mc⟩
  have h : ∀ n, n ≤ 1 ∨ ¬ n ≤ 1 := fun n => Decidable.em _
  cases f with
  | delayed n =>
    rcases h n with e | e <;>
      exact ⟨rfl, rfl, by simp [nextFetchState, e], by simp [nextFetchState, e, Biu.fetching],
        by simp [nextFetchState, e, Biu.scheduled], rfl⟩
  | aborting n =>
    rcases h n with e | e <;>
      exact ⟨rfl, rfl, by simp [nextFetchState, e], by simp [nextFetchState, e, Biu.fetching],
        by simp [nextFetchState, e, Biu.scheduled], rfl⟩
  | _ => exact ⟨rfl, rfl, by simp [nextFetchState], rfl, by simp [nextFetchState, Biu.scheduled], rfl⟩

theorem Biu.inject_count (b : Biu) : b.inject.cycleCount = b.cycleCount ∧ b.inject.tCycle = b.tCycle ∧ b.inject.busWait = b.busWait ∧
    b.inject.dmaWait = b.dmaWait := by
  rcases b with ⟨pc, q, st, t, f, a, bs, w, d, l, fr, dl, cy, mc⟩
  unfold Biu.inject
  split
  · exact ⟨rfl, rfl, rfl, rfl⟩
  · cases f <;> exact ⟨rfl, rfl, rfl, rfl⟩

/-- A tick counts one cycle and moves the T-cycle as R70 says. -/
theorem Biu.advance_spec (cfg : Config) (start : Option CycleStart) (b : Biu) :
    (b.advance cfg start).cycleCount = b.cycleCount + 1 ∧ (b.advance cfg start).fresh = 0 ∧
      (b.advance cfg start).tCycle = nextTCycle (b.busWait == 0 && b.dmaWait == 0) start.isSome b.tCycle ∧
      (b.advance cfg start).dmaWait = b.dmaWait - 1 := by
  obtain ⟨h1, h2, h3, h4⟩ := Biu.inject_count b
  rw [← h1, ← h2, ← h3, ← h4]
  unfold Biu.advance
  simp only
  generalize b.inject = b
  cases b.tCycle <;> cases start <;> simp only [nextTCycle, Option.isSome] <;>
    first
    | exact ⟨rfl, rfl, rfl, rfl⟩
    | (cases (b.busWait == 0 && b.dmaWait == 0) <;> exact ⟨rfl, rfl, rfl, rfl⟩)

theorem Biu.run_keeps (cfg : Config) (n : Nat) (b : Biu) : b.Keeps (b.run cfg n) := by
  induction n generalizing b with
  | zero => exact Biu.Keeps.refl b
  | succ n ih => exact (Biu.advance_keeps cfg none b).trans (ih _)

/-- `n` ticks count `n` cycles. -/
theorem Biu.run_cycleCount (cfg : Config) (n : Nat) (b : Biu) : (b.run cfg n).cycleCount = b.cycleCount + n := by
  induction n generalizing b with
  | zero => rfl
  | succ n ih => rw [Biu.run, ih, (Biu.advance_spec cfg none b).1]; omega

theorem Biu.untilT4_keeps (cfg : Config) (n : Nat) (b : Biu) : b.Keeps (b.untilT4 cfg n) := by
  induction n generalizing b with
  | zero => exact Biu.Keeps.refl b
  | succ n ih =>
    unfold Biu.untilT4
    split
    · exact Biu.Keeps.refl b
    · exact (Biu.advance_keeps cfg none b).trans (ih _)

theorem Biu.endCycle_keeps (cfg : Config) (b : Biu) : b.Keeps (b.endCycle cfg) := by
  unfold Biu.endCycle
  split
  · exact Biu.Keeps.refl b
  · exact Biu.untilT4_keeps cfg _ b

theorem Biu.cycle_keeps (cfg : Config) (c : CycleStart) (b : Biu) : b.Keeps (b.cycle cfg c) :=
  (Biu.advance_keeps cfg _ b).trans (Biu.endCycle_keeps cfg _)

theorem Biu.settle_keeps (cfg : Config) (b : Biu) : b.Keeps (b.settle cfg) := by
  unfold Biu.settle
  split <;> first | exact Biu.Keeps.refl b | exact Biu.run_keeps cfg _ b

theorem Biu.moveTo_keeps (cfg : Config) (n : Nat) (m : Nat → BiuState) (o : BiuState) (b : Biu) : b.Keeps (b.moveTo cfg n m o) :=
  Biu.Keeps.trans (b := { b with state := enRoute n m o }) ⟨rfl, rfl, Iff.rfl, rfl, id, rfl⟩ (Biu.run_keeps cfg n _)

theorem Biu.claimEu_keeps (cfg : Config) (b : Biu) : b.Keeps (b.claimEu cfg) :=
  (Biu.settle_keeps cfg b).trans (Biu.moveTo_keeps cfg _ _ _ _)

theorem Biu.claimPrefetch_keeps (cfg : Config) (b : Biu) : b.Keeps (b.claimPrefetch cfg) :=
  (Biu.settle_keeps cfg b).trans (Biu.moveTo_keeps cfg _ _ _ _)

theorem Biu.abortFetch_keeps (cfg : Config) (b : Biu) : b.Keeps (b.abortFetch cfg) := by
  unfold Biu.abortFetch
  split <;> first | exact Biu.Keeps.refl b | exact Biu.run_keeps cfg _ b | skip
  rename_i n e
  refine Biu.Keeps.trans (b := { b with fetchState := if cfg.fetchAbort = 0 then .idle else .aborting cfg.fetchAbort }) ?_
    (Biu.run_keeps cfg _ _)
  split <;> exact ⟨rfl, rfl, by simp [e], by simp [Biu.fetching, e], by simp [Biu.scheduled], rfl⟩

theorem Biu.block_keeps (b : Biu) : b.Keeps { b with fetchState := b.fetchState.block } := by
  rcases b with ⟨pc, q, st, t, f, a, bs, w, d, l, fr, dl, cy, mc⟩
  cases f <;> exact ⟨rfl, rfl, by simp [FetchState.block], rfl, by simp [FetchState.block, Biu.scheduled], rfl⟩

theorem Biu.unblock_keeps (b : Biu) : b.Keeps { b with fetchState := b.fetchState.unblock } := by
  rcases b with ⟨pc, q, st, t, f, a, bs, w, d, l, fr, dl, cy, mc⟩
  cases f <;> exact ⟨rfl, rfl, by simp [FetchState.unblock], rfl, by simp [FetchState.unblock, Biu.scheduled], rfl⟩

/-- A bus cycle of the execution unit (R68, R69). -/
theorem Biu.euCycle_keeps (cfg : Config) (c : CycleStart) (b : Biu) : b.Keeps (b.euCycle cfg c) :=
  ((((Biu.endCycle_keeps cfg b).trans (Biu.abortFetch_keeps cfg _)).trans (Biu.claimEu_keeps cfg _)).trans
    (Biu.block_keeps _)).trans ((Biu.cycle_keeps cfg c _).trans (Biu.unblock_keeps _))

/-- The start of a code fetch: it is in flight, PC and the queue are as before. -/
theorem Biu.startFetch_spec (cfg : Config) (c : CycleStart) (b : Biu) :
    (b.startFetch cfg c).pc = b.pc ∧ (b.startFetch cfg c).queue = b.queue ∧ (b.startFetch cfg c).fetching = true := by
  have h := ((Biu.endCycle_keeps cfg b).trans (Biu.run_keeps cfg (b.endCycle cfg).heldBack _)).trans
    (Biu.claimPrefetch_keeps cfg _)
  have k := Biu.advance_keeps cfg (some c)
    { ((b.endCycle cfg).run cfg (b.endCycle cfg).heldBack).claimPrefetch cfg with fetchState := .inProgress }
  exact ⟨k.pc.trans h.pc, k.queue.trans h.queue, k.fetching⟩

/-! ### A whole bus cycle -/

/-- The bus is at rest: no cycle is between T1 and T3. -/
def Biu.resting (b : Biu) : Prop := b.tCycle = .ti ∨ b.tCycle = .t4

theorem Biu.advance_resting (cfg : Config) {b : Biu} (h : b.resting) : (b.advance cfg none).resting := by
  have e := (Biu.advance_spec cfg none b).2.2.1
  rcases h with h | h <;> exact .inl (by rw [e, h]; rfl)

theorem Biu.run_resting (cfg : Config) (n : Nat) {b : Biu} (h : b.resting) : (b.run cfg n).resting := by
  induction n generalizing b with
  | zero => exact h
  | succ n ih => exact ih (Biu.advance_resting cfg h)

/-- A tick that starts no transfer keeps what T1 latched, as long as the cycle lasts. -/
theorem Biu.advance_latched (cfg : Config) {b : Biu} (h : ¬ b.resting) :
    (b.advance cfg none).busStatus = b.busStatus ∧ (b.advance cfg none).busAddr = b.busAddr ∧
      (b.advance cfg none).lock = b.lock ∧ (b.advance cfg none).busWait = b.busWait - 1 := by
  have i : b.inject.busStatus = b.busStatus ∧ b.inject.busAddr = b.busAddr ∧ b.inject.lock = b.lock ∧
      b.inject.busWait = b.busWait ∧ b.inject.tCycle = b.tCycle := by
    refine ⟨?_, ?_, ?_, (Biu.inject_count b).2.2.1, (Biu.inject_count b).2.1⟩ <;>
      (unfold Biu.inject; split <;> first | rfl | (cases b.fetchState <;> rfl))
  obtain ⟨i1, i2, i3, i4, i5⟩ := i
  have h : ¬ (b.tCycle = .ti ∨ b.tCycle = .t4) := h
  rw [← i5] at h
  rw [← i1, ← i2, ← i3, ← i4]
  unfold Biu.advance
  simp only
  generalize b.inject = b at h ⊢
  cases t : b.tCycle <;> simp only [nextTCycle] <;>
    first
    | simp [t] at h; done
    | exact ⟨rfl, rfl, rfl, rfl⟩
    | (cases (b.busWait == 0 && b.dmaWait == 0) <;> exact ⟨rfl, rfl, rfl, rfl⟩)

/-- How many ticks a cycle in progress may still take. -/
def Biu.toGo (b : Biu) : Nat :=
  match b.tCycle with
  | .t1 => max b.busWait b.dmaWait + 3
  | .t2 => max b.busWait b.dmaWait + 2
  | .t3 => max b.busWait b.dmaWait + 1
  | .tw => max b.busWait b.dmaWait + 1
  | .t4 => 0
  | .ti => 0

theorem Biu.untilT4_spec (cfg : Config) (n : Nat) (b : Biu) (hn : b.toGo ≤ n) (ht : b.tCycle ≠ .ti) :
    (b.untilT4 cfg n).tCycle = .t4 ∧ (b.untilT4 cfg n).busStatus = b.busStatus ∧ (b.untilT4 cfg n).busAddr = b.busAddr ∧
      (b.untilT4 cfg n).lock = b.lock := by
  induction n generalizing b with
  | zero =>
    refine ⟨?_, rfl, rfl, rfl⟩
    cases e : b.tCycle <;> simp_all [Biu.toGo, Biu.untilT4]
  | succ n ih =>
    unfold Biu.untilT4
    split
    · exact ⟨‹_›, rfl, rfl, rfl⟩
    · rename_i h4
      have l := Biu.advance_latched cfg (b := b) (fun r => r.elim ht h4)
      have a := Biu.advance_spec cfg none b
      have k := ih (b.advance cfg none) ?_ ?_
      · exact ⟨k.1, k.2.1.trans l.1, k.2.2.1.trans l.2.1, k.2.2.2.trans l.2.2.1⟩
      · have e := a.2.2.1
        simp only [Biu.toGo, l.2.2.2, a.2.2.2, e] at hn ⊢
        cases t : b.tCycle <;> simp only [t, nextTCycle] at hn ht h4 ⊢ <;>
          first
          | exact absurd rfl ht
          | exact absurd trivial h4
          | omega
          | (rcases Bool.eq_false_or_eq_true (b.busWait == 0 && b.dmaWait == 0) with r | r <;>
              try simp only [r, if_true, Bool.false_eq_true, if_false] <;>
              first
              | omega
              | (simp only [Bool.and_eq_false_iff, beq_eq_false_iff_ne] at r; omega))
      · rw [a.2.2.1]
        cases t : b.tCycle <;> simp_all [nextTCycle] <;> split <;> simp

/-- A cycle in progress ends in T4 with what its T1 latched. -/
theorem Biu.endCycle_spec (cfg : Config) (b : Biu) :
    (b.endCycle cfg).resting ∧ (b.tCycle ≠ .ti → (b.endCycle cfg).tCycle = .t4 ∧ (b.endCycle cfg).busStatus = b.busStatus ∧
      (b.endCycle cfg).busAddr = b.busAddr ∧ (b.endCycle cfg).lock = b.lock) := by
  unfold Biu.endCycle
  split
  · exact ⟨.inl ‹_›, fun h => absurd ‹_› h⟩
  · have k := Biu.untilT4_spec cfg (b.busWait + b.dmaWait + 4) b (by unfold Biu.toGo; split <;> omega) ‹_›
    exact ⟨.inr k.1, fun _ => k⟩

/-- A whole bus cycle from a bus at rest ends in T4 with the status, the address and the LOCK output it began with (R69, R72). -/
theorem Biu.cycle_spec (cfg : Config) (c : CycleStart) {b : Biu} (h : b.resting) :
    (b.cycle cfg c).tCycle = .t4 ∧ (b.cycle cfg c).busStatus = c.status ∧ (b.cycle cfg c).busAddr = c.addr ∧
      (b.cycle cfg c).lock = c.lock := by
  have a : (b.advance cfg (some c)).tCycle = .t1 ∧ (b.advance cfg (some c)).busStatus = c.status ∧
      (b.advance cfg (some c)).busAddr = c.addr ∧ (b.advance cfg (some c)).lock = c.lock := by
    unfold Biu.advance
    simp only
    have t := (Biu.inject_count b).2.1
    rcases h with h | h <;> rw [t, h] <;> exact ⟨rfl, rfl, rfl, rfl⟩
  have k := (Biu.endCycle_spec cfg (b.advance cfg (some c))).2 (by rw [a.1]; simp)
  exact ⟨k.1, k.2.1.trans a.2.1, k.2.2.1.trans a.2.2.1, k.2.2.2.trans a.2.2.2⟩

theorem Biu.moveTo_resting (cfg : Config) (n : Nat) (m : Nat → BiuState) (o : BiuState) {b : Biu} (h : b.resting) :
    (b.moveTo cfg n m o).resting := Biu.run_resting cfg n (b := { b with state := enRoute n m o }) h

theorem Biu.settle_resting (cfg : Config) {b : Biu} (h : b.resting) : (b.settle cfg).resting := by
  unfold Biu.settle
  split <;> first | exact h | exact Biu.run_resting cfg _ h

theorem Biu.abortFetch_resting (cfg : Config) {b : Biu} (h : b.resting) : (b.abortFetch cfg).resting := by
  unfold Biu.abortFetch
  split
  · exact Biu.run_resting cfg _ (b := { b with fetchState := if cfg.fetchAbort = 0 then .idle else .aborting cfg.fetchAbort }) h
  all_goals first | exact h | exact Biu.run_resting cfg _ h

/-- A bus cycle of the execution unit ends in T4 with the status, the address and the LOCK output it began with (R68, R69). -/
theorem Biu.euCycle_spec (cfg : Config) (c : CycleStart) (b : Biu) :
    (b.euCycle cfg c).tCycle = .t4 ∧ (b.euCycle cfg c).busStatus = c.status ∧ (b.euCycle cfg c).busAddr = c.addr ∧
      (b.euCycle cfg c).lock = c.lock :=
  Biu.cycle_spec cfg c
    (Biu.moveTo_resting cfg _ _ _ (Biu.settle_resting cfg (Biu.abortFetch_resting cfg (Biu.endCycle_spec cfg b).1)))

end Sys2Proof.Machine
end

