-- ==== Sys2Proof/Laws/State.lean ====
section
/-!
SUPPORT. Laws/State.lean: what each named update does to each field of State, so that no proof unfolds a record update.
-/
namespace Sys2Proof.Machine

/-! `setReg` -/

@[simp] theorem setReg_cfg (w : Width) (r : Reg) (v : Val w) (s : State) : (setReg w r v s).cfg = s.cfg := rfl
@[simp] theorem setReg_regs (w : Width) (r : Reg) (v : Val w) (s : State) : (setReg w r v s).regs = s.regs.setW w r v := rfl
@[simp] theorem setReg_sregs (w : Width) (r : Reg) (v : Val w) (s : State) : (setReg w r v s).sregs = s.sregs := rfl
@[simp] theorem setReg_flags (w : Width) (r : Reg) (v : Val w) (s : State) : (setReg w r v s).flags = s.flags := rfl
@[simp] theorem setReg_biu (w : Width) (r : Reg) (v : Val w) (s : State) : (setReg w r v s).biu = s.biu := rfl
@[simp] theorem setReg_eu (w : Width) (r : Reg) (v : Val w) (s : State) : (setReg w r v s).eu = s.eu := rfl
@[simp] theorem setReg_sys (w : Width) (r : Reg) (v : Val w) (s : State) : (setReg w r v s).sys = s.sys := rfl
@[simp] theorem setReg_host (w : Width) (r : Reg) (v : Val w) (s : State) : (setReg w r v s).host = s.host := rfl
@[simp] theorem setReg_agenda (w : Width) (r : Reg) (v : Val w) (s : State) : (setReg w r v s).agenda = s.agenda := rfl
@[simp] theorem setReg_interleave (w : Width) (r : Reg) (v : Val w) (s : State) : (setReg w r v s).interleave = s.interleave := rfl

/-! `setAx` -/

@[simp] theorem setAx_cfg (v : Word) (s : State) : (setAx v s).cfg = s.cfg := rfl
@[simp] theorem setAx_regs (v : Word) (s : State) : (setAx v s).regs = { s.regs with ax := v } := rfl
@[simp] theorem setAx_sregs (v : Word) (s : State) : (setAx v s).sregs = s.sregs := rfl
@[simp] theorem setAx_flags (v : Word) (s : State) : (setAx v s).flags = s.flags := rfl
@[simp] theorem setAx_biu (v : Word) (s : State) : (setAx v s).biu = s.biu := rfl
@[simp] theorem setAx_eu (v : Word) (s : State) : (setAx v s).eu = s.eu := rfl
@[simp] theorem setAx_sys (v : Word) (s : State) : (setAx v s).sys = s.sys := rfl
@[simp] theorem setAx_host (v : Word) (s : State) : (setAx v s).host = s.host := rfl
@[simp] theorem setAx_agenda (v : Word) (s : State) : (setAx v s).agenda = s.agenda := rfl
@[simp] theorem setAx_interleave (v : Word) (s : State) : (setAx v s).interleave = s.interleave := rfl

/-! `setCx` -/

@[simp] theorem setCx_cfg (v : Word) (s : State) : (setCx v s).cfg = s.cfg := rfl
@[simp] theorem setCx_regs (v : Word) (s : State) : (setCx v s).regs = { s.regs with cx := v } := rfl
@[simp] theorem setCx_sregs (v : Word) (s : State) : (setCx v s).sregs = s.sregs := rfl
@[simp] theorem setCx_flags (v : Word) (s : State) : (setCx v s).flags = s.flags := rfl
@[simp] theorem setCx_biu (v : Word) (s : State) : (setCx v s).biu = s.biu := rfl
@[simp] theorem setCx_eu (v : Word) (s : State) : (setCx v s).eu = s.eu := rfl
@[simp] theorem setCx_sys (v : Word) (s : State) : (setCx v s).sys = s.sys := rfl
@[simp] theorem setCx_host (v : Word) (s : State) : (setCx v s).host = s.host := rfl
@[simp] theorem setCx_agenda (v : Word) (s : State) : (setCx v s).agenda = s.agenda := rfl
@[simp] theorem setCx_interleave (v : Word) (s : State) : (setCx v s).interleave = s.interleave := rfl

/-! `setDx` -/

@[simp] theorem setDx_cfg (v : Word) (s : State) : (setDx v s).cfg = s.cfg := rfl
@[simp] theorem setDx_regs (v : Word) (s : State) : (setDx v s).regs = { s.regs with dx := v } := rfl
@[simp] theorem setDx_sregs (v : Word) (s : State) : (setDx v s).sregs = s.sregs := rfl
@[simp] theorem setDx_flags (v : Word) (s : State) : (setDx v s).flags = s.flags := rfl
@[simp] theorem setDx_biu (v : Word) (s : State) : (setDx v s).biu = s.biu := rfl
@[simp] theorem setDx_eu (v : Word) (s : State) : (setDx v s).eu = s.eu := rfl
@[simp] theorem setDx_sys (v : Word) (s : State) : (setDx v s).sys = s.sys := rfl
@[simp] theorem setDx_host (v : Word) (s : State) : (setDx v s).host = s.host := rfl
@[simp] theorem setDx_agenda (v : Word) (s : State) : (setDx v s).agenda = s.agenda := rfl
@[simp] theorem setDx_interleave (v : Word) (s : State) : (setDx v s).interleave = s.interleave := rfl

/-! `setSp` -/

@[simp] theorem setSp_cfg (v : Word) (s : State) : (setSp v s).cfg = s.cfg := rfl
@[simp] theorem setSp_regs (v : Word) (s : State) : (setSp v s).regs = { s.regs with sp := v } := rfl
@[simp] theorem setSp_sregs (v : Word) (s : State) : (setSp v s).sregs = s.sregs := rfl
@[simp] theorem setSp_flags (v : Word) (s : State) : (setSp v s).flags = s.flags := rfl
@[simp] theorem setSp_biu (v : Word) (s : State) : (setSp v s).biu = s.biu := rfl
@[simp] theorem setSp_eu (v : Word) (s : State) : (setSp v s).eu = s.eu := rfl
@[simp] theorem setSp_sys (v : Word) (s : State) : (setSp v s).sys = s.sys := rfl
@[simp] theorem setSp_host (v : Word) (s : State) : (setSp v s).host = s.host := rfl
@[simp] theorem setSp_agenda (v : Word) (s : State) : (setSp v s).agenda = s.agenda := rfl
@[simp] theorem setSp_interleave (v : Word) (s : State) : (setSp v s).interleave = s.interleave := rfl

/-! `setSi` -/

@[simp] theorem setSi_cfg (v : Word) (s : State) : (setSi v s).cfg = s.cfg := rfl
@[simp] theorem setSi_regs (v : Word) (s : State) : (setSi v s).regs = { s.regs with si := v } := rfl
@[simp] theorem setSi_sregs (v : Word) (s : State) : (setSi v s).sregs = s.sregs := rfl
@[simp] theorem setSi_flags (v : Word) (s : State) : (setSi v s).flags = s.flags := rfl
@[simp] theorem setSi_biu (v : Word) (s : State) : (setSi v s).biu = s.biu := rfl
@[simp] theorem setSi_eu (v : Word) (s : State) : (setSi v s).eu = s.eu := rfl
@[simp] theorem setSi_sys (v : Word) (s : State) : (setSi v s).sys = s.sys := rfl
@[simp] theorem setSi_host (v : Word) (s : State) : (setSi v s).host = s.host := rfl
@[simp] theorem setSi_agenda (v : Word) (s : State) : (setSi v s).agenda = s.agenda := rfl
@[simp] theorem setSi_interleave (v : Word) (s : State) : (setSi v s).interleave = s.interleave := rfl

/-! `setDi` -/

@[simp] theorem setDi_cfg (v : Word) (s : State) : (setDi v s).cfg = s.cfg := rfl
@[simp] theorem setDi_regs (v : Word) (s : State) : (setDi v s).regs = { s.regs with di := v } := rfl
@[simp] theorem setDi_sregs (v : Word) (s : State) : (setDi v s).sregs = s.sregs := rfl
@[simp] theorem setDi_flags (v : Word) (s : State) : (setDi v s).flags = s.flags := rfl
@[simp] theorem setDi_biu (v : Word) (s : State) : (setDi v s).biu = s.biu := rfl
@[simp] theorem setDi_eu (v : Word) (s : State) : (setDi v s).eu = s.eu := rfl
@[simp] theorem setDi_sys (v : Word) (s : State) : (setDi v s).sys = s.sys := rfl
@[simp] theorem setDi_host (v : Word) (s : State) : (setDi v s).host = s.host := rfl
@[simp] theorem setDi_agenda (v : Word) (s : State) : (setDi v s).agenda = s.agenda := rfl
@[simp] theorem setDi_interleave (v : Word) (s : State) : (setDi v s).interleave = s.interleave := rfl

/-! `setSreg` -/

@[simp] theorem setSreg_cfg (r : SReg) (v : Word) (s : State) : (setSreg r v s).cfg = s.cfg := rfl
@[simp] theorem setSreg_regs (r : SReg) (v : Word) (s : State) : (setSreg r v s).regs = s.regs := rfl
@[simp] theorem setSreg_sregs (r : SReg) (v : Word) (s : State) : (setSreg r v s).sregs = s.sregs.set r v := rfl
@[simp] theorem setSreg_flags (r : SReg) (v : Word) (s : State) : (setSreg r v s).flags = s.flags := rfl
@[simp] theorem setSreg_biu (r : SReg) (v : Word) (s : State) : (setSreg r v s).biu = { s.biu with delay := fetchDelay } := rfl
@[simp] theorem setSreg_eu (r : SReg) (v : Word) (s : State) : (setSreg r v s).eu = s.eu := rfl
@[simp] theorem setSreg_sys (r : SReg) (v : Word) (s : State) : (setSreg r v s).sys = s.sys := rfl
@[simp] theorem setSreg_host (r : SReg) (v : Word) (s : State) : (setSreg r v s).host = s.host := rfl
@[simp] theorem setSreg_agenda (r : SReg) (v : Word) (s : State) : (setSreg r v s).agenda = s.agenda := rfl
@[simp] theorem setSreg_interleave (r : SReg) (v : Word) (s : State) : (setSreg r v s).interleave = s.interleave := rfl

/-! `inhibitNext` -/

@[simp] theorem inhibitNext_cfg (s : State) : (inhibitNext s).cfg = s.cfg := rfl
@[simp] theorem inhibitNext_regs (s : State) : (inhibitNext s).regs = s.regs := rfl
@[simp] theorem inhibitNext_sregs (s : State) : (inhibitNext s).sregs = s.sregs := rfl
@[simp] theorem inhibitNext_flags (s : State) : (inhibitNext s).flags = s.flags := rfl
@[simp] theorem inhibitNext_biu (s : State) : (inhibitNext s).biu = s.biu := rfl
@[simp] theorem inhibitNext_eu (s : State) : (inhibitNext s).eu = { s.eu with intInhibit := true } := rfl
@[simp] theorem inhibitNext_sys (s : State) : (inhibitNext s).sys = s.sys := rfl
@[simp] theorem inhibitNext_host (s : State) : (inhibitNext s).host = s.host := rfl
@[simp] theorem inhibitNext_agenda (s : State) : (inhibitNext s).agenda = s.agenda := rfl
@[simp] theorem inhibitNext_interleave (s : State) : (inhibitNext s).interleave = s.interleave := rfl

/-! `setFlags` -/

@[simp] theorem setFlags_cfg (f : Flags) (s : State) : (setFlags f s).cfg = s.cfg := rfl
@[simp] theorem setFlags_regs (f : Flags) (s : State) : (setFlags f s).regs = s.regs := rfl
@[simp] theorem setFlags_sregs (f : Flags) (s : State) : (setFlags f s).sregs = s.sregs := rfl
@[simp] theorem setFlags_flags (f : Flags) (s : State) : (setFlags f s).flags = f := rfl
@[simp] theorem setFlags_biu (f : Flags) (s : State) : (setFlags f s).biu = s.biu := rfl
@[simp] theorem setFlags_eu (f : Flags) (s : State) : (setFlags f s).eu = s.eu := rfl
@[simp] theorem setFlags_sys (f : Flags) (s : State) : (setFlags f s).sys = s.sys := rfl
@[simp] theorem setFlags_host (f : Flags) (s : State) : (setFlags f s).host = s.host := rfl
@[simp] theorem setFlags_agenda (f : Flags) (s : State) : (setFlags f s).agenda = s.agenda := rfl
@[simp] theorem setFlags_interleave (f : Flags) (s : State) : (setFlags f s).interleave = s.interleave := rfl

/-! `setPhase` -/

@[simp] theorem setPhase_cfg (p : EuPhase) (s : State) : (setPhase p s).cfg = s.cfg := rfl
@[simp] theorem setPhase_regs (p : EuPhase) (s : State) : (setPhase p s).regs = s.regs := rfl
@[simp] theorem setPhase_sregs (p : EuPhase) (s : State) : (setPhase p s).sregs = s.sregs := rfl
@[simp] theorem setPhase_flags (p : EuPhase) (s : State) : (setPhase p s).flags = s.flags := rfl
@[simp] theorem setPhase_biu (p : EuPhase) (s : State) : (setPhase p s).biu = s.biu := rfl
@[simp] theorem setPhase_eu (p : EuPhase) (s : State) : (setPhase p s).eu = { s.eu with phase := p } := rfl
@[simp] theorem setPhase_sys (p : EuPhase) (s : State) : (setPhase p s).sys = s.sys := rfl
@[simp] theorem setPhase_host (p : EuPhase) (s : State) : (setPhase p s).host = s.host := rfl
@[simp] theorem setPhase_agenda (p : EuPhase) (s : State) : (setPhase p s).agenda = s.agenda := rfl
@[simp] theorem setPhase_interleave (p : EuPhase) (s : State) : (setPhase p s).interleave = s.interleave := rfl

/-! `clearRep` -/

@[simp] theorem clearRep_cfg (s : State) : (clearRep s).cfg = s.cfg := rfl
@[simp] theorem clearRep_regs (s : State) : (clearRep s).regs = s.regs := rfl
@[simp] theorem clearRep_sregs (s : State) : (clearRep s).sregs = s.sregs := rfl
@[simp] theorem clearRep_flags (s : State) : (clearRep s).flags = s.flags := rfl
@[simp] theorem clearRep_biu (s : State) : (clearRep s).biu = s.biu := rfl
@[simp] theorem clearRep_eu (s : State) : (clearRep s).eu = { s.eu with inRep := false, repType := .none } := rfl
@[simp] theorem clearRep_sys (s : State) : (clearRep s).sys = s.sys := rfl
@[simp] theorem clearRep_host (s : State) : (clearRep s).host = s.host := rfl
@[simp] theorem clearRep_agenda (s : State) : (clearRep s).agenda = s.agenda := rfl
@[simp] theorem clearRep_interleave (s : State) : (clearRep s).interleave = s.interleave := rfl

/-! `holdFault` -/

@[simp] theorem holdFault_cfg (f : Fault) (s : State) : (holdFault f s).cfg = s.cfg := rfl
@[simp] theorem holdFault_regs (f : Fault) (s : State) : (holdFault f s).regs = s.regs := rfl
@[simp] theorem holdFault_sregs (f : Fault) (s : State) : (holdFault f s).sregs = s.sregs := rfl
@[simp] theorem holdFault_flags (f : Fault) (s : State) : (holdFault f s).flags = s.flags := rfl
@[simp] theorem holdFault_biu (f : Fault) (s : State) : (holdFault f s).biu = s.biu := rfl
@[simp] theorem holdFault_eu (f : Fault) (s : State) : (holdFault f s).eu = { s.eu with fault := some f, phase := .start } := rfl
@[simp] theorem holdFault_sys (f : Fault) (s : State) : (holdFault f s).sys = s.sys := rfl
@[simp] theorem holdFault_host (f : Fault) (s : State) : (holdFault f s).host = s.host := rfl
@[simp] theorem holdFault_agenda (f : Fault) (s : State) : (holdFault f s).agenda = s.agenda := rfl
@[simp] theorem holdFault_interleave (f : Fault) (s : State) : (holdFault f s).interleave = s.interleave := rfl

/-! `setNmi` -/

@[simp] theorem setNmi_cfg (l : Bool) (s : State) : (setNmi l s).cfg = s.cfg := rfl
@[simp] theorem setNmi_regs (l : Bool) (s : State) : (setNmi l s).regs = s.regs := rfl
@[simp] theorem setNmi_sregs (l : Bool) (s : State) : (setNmi l s).sregs = s.sregs := rfl
@[simp] theorem setNmi_flags (l : Bool) (s : State) : (setNmi l s).flags = s.flags := rfl
@[simp] theorem setNmi_biu (l : Bool) (s : State) : (setNmi l s).biu = s.biu := rfl
@[simp] theorem setNmi_eu (l : Bool) (s : State) : (setNmi l s).eu = { s.eu with nmiLatch := s.eu.nmiLatch || (l && !s.eu.nmiPrev), nmiPrev := l } := rfl
@[simp] theorem setNmi_sys (l : Bool) (s : State) : (setNmi l s).sys = s.sys := rfl
@[simp] theorem setNmi_host (l : Bool) (s : State) : (setNmi l s).host = s.host := rfl
@[simp] theorem setNmi_agenda (l : Bool) (s : State) : (setNmi l s).agenda = s.agenda := rfl
@[simp] theorem setNmi_interleave (l : Bool) (s : State) : (setNmi l s).interleave = s.interleave := rfl

/-! `beginRep` -/

@[simp] theorem beginRep_cfg (i : Instr) (c : Bool) (s : State) : (beginRep i c s).cfg = s.cfg := rfl
@[simp] theorem beginRep_regs (i : Instr) (c : Bool) (s : State) : (beginRep i c s).regs = s.regs := rfl
@[simp] theorem beginRep_sregs (i : Instr) (c : Bool) (s : State) : (beginRep i c s).sregs = s.sregs := rfl
@[simp] theorem beginRep_flags (i : Instr) (c : Bool) (s : State) : (beginRep i c s).flags = s.flags := rfl
@[simp] theorem beginRep_biu (i : Instr) (c : Bool) (s : State) : (beginRep i c s).biu = s.biu := rfl
@[simp] theorem beginRep_eu (i : Instr) (c : Bool) (s : State) : (beginRep i c s).eu = { s.eu with inRep := true, repType := repTypeOf c s.eu.prefixes, repMnemonic := some i } := rfl
@[simp] theorem beginRep_sys (i : Instr) (c : Bool) (s : State) : (beginRep i c s).sys = s.sys := rfl
@[simp] theorem beginRep_host (i : Instr) (c : Bool) (s : State) : (beginRep i c s).host = s.host := rfl
@[simp] theorem beginRep_agenda (i : Instr) (c : Bool) (s : State) : (beginRep i c s).agenda = s.agenda := rfl
@[simp] theorem beginRep_interleave (i : Instr) (c : Bool) (s : State) : (beginRep i c s).interleave = s.interleave := rfl

/-! `pushCall` -/

@[simp] theorem pushCall_cfg (k : CallKind) (s : State) : (pushCall k s).cfg = s.cfg := rfl
@[simp] theorem pushCall_regs (k : CallKind) (s : State) : (pushCall k s).regs = s.regs := rfl
@[simp] theorem pushCall_sregs (k : CallKind) (s : State) : (pushCall k s).sregs = s.sregs := rfl
@[simp] theorem pushCall_flags (k : CallKind) (s : State) : (pushCall k s).flags = s.flags := rfl
@[simp] theorem pushCall_biu (k : CallKind) (s : State) : (pushCall k s).biu = s.biu := rfl
@[simp] theorem pushCall_eu (k : CallKind) (s : State) : (pushCall k s).eu = s.eu := rfl
@[simp] theorem pushCall_sys (k : CallKind) (s : State) : (pushCall k s).sys = s.sys := rfl
@[simp] theorem pushCall_host (k : CallKind) (s : State) : (pushCall k s).host = { s.host with callStack := (k :: s.host.callStack).take 128 } := rfl
@[simp] theorem pushCall_agenda (k : CallKind) (s : State) : (pushCall k s).agenda = s.agenda := rfl
@[simp] theorem pushCall_interleave (k : CallKind) (s : State) : (pushCall k s).interleave = s.interleave := rfl

/-! `popCall` -/

@[simp] theorem popCall_cfg (s : State) : (popCall s).cfg = s.cfg := rfl
@[simp] theorem popCall_regs (s : State) : (popCall s).regs = s.regs := rfl
@[simp] theorem popCall_sregs (s : State) : (popCall s).sregs = s.sregs := rfl
@[simp] theorem popCall_flags (s : State) : (popCall s).flags = s.flags := rfl
@[simp] theorem popCall_biu (s : State) : (popCall s).biu = s.biu := rfl
@[simp] theorem popCall_eu (s : State) : (popCall s).eu = s.eu := rfl
@[simp] theorem popCall_sys (s : State) : (popCall s).sys = s.sys := rfl
@[simp] theorem popCall_host (s : State) : (popCall s).host = { s.host with callStack := s.host.callStack.tail } := rfl
@[simp] theorem popCall_agenda (s : State) : (popCall s).agenda = s.agenda := rfl
@[simp] theorem popCall_interleave (s : State) : (popCall s).interleave = s.interleave := rfl

/-! ### Register access -/

theorem Regs.get16_set16 (q r : Reg) (v : Word) (g : Regs) : (g.set16 r v).get16 q = if q = r then v else g.get16 q := by
  cases r <;> cases q <;> rfl

@[simp] theorem Regs.get16_set16_self (r : Reg) (v : Word) (g : Regs) : (g.set16 r v).get16 r = v := by
  cases r <;> rfl

theorem wordOf_getLsbD (a b : Byte) (i : Nat) : (wordOf a b).getLsbD i = if i < 8 then a.getLsbD i else b.getLsbD (i - 8) :=
  BitVec.getLsbD_append

@[simp] theorem loByte_wordOf (a b : Byte) : loByte (wordOf a b) = a := by
  apply BitVec.eq_of_getLsbD_eq
  intro i hi
  simp [loByte, BitVec.truncate, wordOf_getLsbD, hi]

@[simp] theorem hiByte_wordOf (a b : Byte) : hiByte (wordOf a b) = b := by
  apply BitVec.eq_of_getLsbD_eq
  intro i hi
  simp [hiByte, BitVec.truncate, wordOf_getLsbD, hi]

@[simp] theorem wordOf_loByte_hiByte (v : Word) : wordOf (loByte v) (hiByte v) = v := by
  apply BitVec.eq_of_getLsbD_eq
  intro i hi
  rw [wordOf_getLsbD]
  split
  · rename_i h
    simp [loByte, BitVec.truncate, h]
  · simp [hiByte, BitVec.truncate, show i - 8 < 8 by omega, show 8 + (i - 8) = i by omega]

/-- A byte register is a half of its home register: writing one byte register leaves the seven others. -/
theorem Regs.get8_set8 (q r : Reg) (v : Byte) (g : Regs) : (g.set8 r v).get8 q = if q = r then v else g.get8 q := by
  cases r <;> cases q <;> simp [Regs.set8, Regs.get8, withLow, withHigh]

@[simp] theorem Regs.get8_set8_self (r : Reg) (v : Byte) (g : Regs) : (g.set8 r v).get8 r = v := by
  simp [Regs.get8_set8]

@[simp] theorem getReg_setReg (w : Width) (r : Reg) (v : Val w) (s : State) : getReg w r (setReg w r v s) = v := by
  cases w <;> simp [getReg, Regs.setW, Regs.getW]

@[simp] theorem SRegs.get_set_self (r : SReg) (v : Word) (g : SRegs) : (g.set r v).get r = v := by
  cases r <;> rfl

theorem SRegs.get_set (q r : SReg) (v : Word) (g : SRegs) : (g.set r v).get q = if q = r then v else g.get q := by
  cases r <;> cases q <;> rfl

end Sys2Proof.Machine
end

