-- ==== Sys2Proof/Laws/Fetch.lean ====
section
/-!
SUPPORT. Laws/Fetch.lean: what a code fetch, a tick of the clock, the suspension of fetching and a flush can do, once.
-/
namespace Sys2Proof.Machine

/-- What a code fetch and a tick leave: everything but the bus unit, in which IP stays, and the count of free values. -/
structure FetchOnly (s t : State) : Prop where
  cfg : t.cfg = s.cfg
  regs : t.regs = s.regs
  sregs : t.sregs = s.sregs
  flags : t.flags = s.flags
  eu : t.eu = s.eu
  host : t.host = s.host
  agenda : t.agenda = s.agenda
  interleave : t.interleave = s.interleave
  ip : ip t = ip s
  sys : ∃ d, t.sys = { s.sys with drawCtr := d }

theorem FetchOnly.refl (s : State) : FetchOnly s s := ⟨rfl, rfl, rfl, rfl, rfl, rfl, rfl, rfl, rfl, _, rfl⟩

theorem FetchOnly.trans {s t u : State} (h : FetchOnly s t) (k : FetchOnly t u) : FetchOnly s u :=
  ⟨k.cfg.trans h.cfg, k.regs.trans h.regs, k.sregs.trans h.sregs, k.flags.trans h.flags, k.eu.trans h.eu, k.host.trans h.host,
    k.agenda.trans h.agenda, k.interleave.trans h.interleave, k.ip.trans h.ip,
    let ⟨_, a⟩ := h.sys
    let ⟨e, b⟩ := k.sys
    ⟨e, by rw [b, a]⟩⟩

/-- A change of the bus unit that keeps PC and the queue. -/
theorem FetchOnly.ofBiu (s : State) {b : Biu} (pc : b.pc = s.biu.pc) (q : b.queue = s.biu.queue) :
    FetchOnly s { s with biu := b } :=
  ⟨rfl, rfl, rfl, rfl, rfl, rfl, rfl, rfl, by simp [Sys2Proof.Machine.ip, pc, q], _, rfl⟩

theorem codeFetchBytes_fetchOnly (k : Nat) (s : State) : FetchOnly s (codeFetchBytes k s) := by
  induction k generalizing s with
  | zero => exact FetchOnly.refl s
  | succ k ih =>
    refine FetchOnly.trans ?_ (ih _)
    refine ⟨rfl, rfl, rfl, rfl, rfl, rfl, rfl, rfl, ?_, ?_⟩
    · simp only [ip, List.length_append, List.length_cons, List.length_nil, Nat.zero_add]
      rw [BitVec.ofNat_add]
      show s.biu.pc + 1#16 - (_ + 1#16) = _
      bv_omega
    · unfold Sys.readByte
      cases peek s.cfg s.sys.mem (phys s.sregs.cs s.biu.pc) <;> exact ⟨_, rfl⟩

theorem codeFetchBytes_length (k : Nat) (s : State) : (codeFetchBytes k s).biu.queue.length = s.biu.queue.length + k := by
  induction k generalizing s with
  | zero => rfl
  | succ k ih => rw [codeFetchBytes, ih]; simp; omega

/-- T4 of a code fetch (R70, R73): the queue is longer by the fetch's width, and no fetch is planned. -/
theorem pushFetched_spec (s : State) :
    FetchOnly s (pushFetched s) ∧ (pushFetched s).biu.queue.length = s.biu.queue.length + fetchWidth s ∧
      (pushFetched s).biu.fetchState = .idle :=
  ⟨(codeFetchBytes_fetchOnly _ s).trans (FetchOnly.ofBiu _ rfl rfl), codeFetchBytes_length _ s, rfl⟩

theorem pushFetched_fetchOnly (s : State) : FetchOnly s (pushFetched s) := (pushFetched_spec s).1

theorem finishFetch_fetchOnly (s : State) : FetchOnly s (finishFetch s) := by
  unfold finishFetch
  split
  · have k := Biu.endCycle_keeps s.cfg s.biu
    exact (FetchOnly.ofBiu s k.pc k.queue).trans (pushFetched_fetchOnly _)
  · exact FetchOnly.refl s

/-- Where no fetch is in flight there is nothing to finish. -/
@[simp] theorem finishFetch_quiet {s : State} (h : s.biu.planned = false) : finishFetch s = s := by
  simp only [Biu.planned, Bool.or_eq_false_iff] at h
  simp [finishFetch, h.1]

/-- After it none is in flight, and what was not scheduled is not. -/
theorem finishFetch_fetching (s : State) :
    (finishFetch s).biu.fetching = false ∧ ((finishFetch s).biu.scheduled = true → s.biu.scheduled = true) := by
  unfold finishFetch
  split
  · refine ⟨?_, ?_⟩ <;> simp [Biu.fetching, Biu.scheduled, (pushFetched_spec _).2.2]
  · exact ⟨Bool.eq_false_iff.mpr ‹_›, id⟩

theorem codeFetch_fetchOnly (s : State) : FetchOnly s (codeFetch s) := by
  unfold codeFetch
  refine FetchOnly.trans ?_ (finishFetch_fetchOnly _)
  split
  · exact FetchOnly.refl s
  · have k := Biu.startFetch_spec s.cfg (fetchStart s) s.biu
    exact FetchOnly.ofBiu s k.1 k.2.1

theorem prefetchStep_fetchOnly (s : State) : FetchOnly s (prefetchStep s) := by
  unfold prefetchStep
  split
  · exact codeFetch_fetchOnly s
  · exact FetchOnly.refl s

theorem planFetch_fetchOnly (n : Nat) (s : State) : FetchOnly s (planFetch n s) := by
  unfold planFetch
  split
  · exact FetchOnly.ofBiu s rfl rfl
  · exact FetchOnly.refl s

theorem tickBiu_keeps (s : State) :
    (tickBiu s).pc = s.biu.pc ∧ (tickBiu s).queue = s.biu.queue ∧ (tickBiu s).cycleCount = s.biu.cycleCount + 1 ∧
      (tickBiu s).mcPc = s.biu.mcPc := by
  unfold tickBiu
  split
  · split
    · have k := Biu.advance_keeps s.cfg (some (fetchStart s)) { s.biu with fetchState := .inProgress }
      exact ⟨k.pc, k.queue, (Biu.advance_spec s.cfg _ { s.biu with fetchState := .inProgress }).1, k.mcPc⟩
    · have k := Biu.advance_keeps s.cfg none { s.biu with fetchState := .idle }
      exact ⟨k.pc, k.queue, (Biu.advance_spec s.cfg _ { s.biu with fetchState := .idle }).1, k.mcPc⟩
  · have k := Biu.advance_keeps s.cfg none s.biu
    exact ⟨k.pc, k.queue, (Biu.advance_spec s.cfg none s.biu).1, k.mcPc⟩

theorem tick_fetchOnly (m : Option Nat) (s : State) : FetchOnly s (tick m s) := by
  have k := tickBiu_keeps s
  refine FetchOnly.trans (FetchOnly.ofBiu s (b := { tickBiu s with mcPc := m.getD (tickBiu s).mcPc }) k.1 k.2.1) ?_
  unfold tick
  simp only
  split
  · exact pushFetched_fetchOnly _
  · exact FetchOnly.refl _

theorem clockTick_fetchOnly (c : ClockIn) (s : State) : FetchOnly s (clockTick c s) := by
  unfold clockTick
  refine FetchOnly.trans ?_ (tick_fetchOnly _ _)
  split
  · exact planFetch_fetchOnly _ s
  · exact FetchOnly.refl s

theorem idleTick_fetchOnly (s : State) : FetchOnly s (idleTick s) := tick_fetchOnly _ s

/-- Where no fetch is planned a tick in which nothing is chosen is one T-state of the bus unit (R80). -/
theorem idleTick_quiet {s : State} (h : s.biu.planned = false) : idleTick s = { s with biu := s.biu.advance s.cfg none } := by
  have d : fetchDue s = false := by
    have h := h
    simp only [Biu.planned, Bool.or_eq_false_iff] at h
    unfold fetchDue
    split <;> first | rfl | (rename_i e; simp [Biu.scheduled, e] at h)
  have k := Biu.advance_keeps s.cfg none s.biu
  have p := k.planned h
  simp only [Biu.planned, Bool.or_eq_false_iff] at p
  simp [idleTick, tick, tickBiu, d, p.1]

theorem suspendFetch_fetchOnly (s : State) : FetchOnly s (suspendFetch s) :=
  (finishFetch_fetchOnly s).trans (FetchOnly.ofBiu _ rfl rfl)

/-- Where no fetch is planned a suspension changes the fetch state alone. -/
theorem suspendFetch_quiet {s : State} (h : s.biu.planned = false) :
    suspendFetch s = { s with biu := { s.biu with fetchState := .suspended } } := by
  simp [suspendFetch, finishFetch_quiet h]

theorem suspendFetch_sys_quiet {s : State} (h : s.biu.planned = false) : (suspendFetch s).sys = s.sys := by
  rw [suspendFetch_quiet h]

@[simp] theorem suspendFetch_planned (s : State) : (suspendFetch s).biu.planned = false := rfl

/-! `suspendFetch` -/

@[simp] theorem suspendFetch_cfg (s : State) : (suspendFetch s).cfg = s.cfg := (suspendFetch_fetchOnly s).cfg
@[simp] theorem suspendFetch_regs (s : State) : (suspendFetch s).regs = s.regs := (suspendFetch_fetchOnly s).regs
@[simp] theorem suspendFetch_sregs (s : State) : (suspendFetch s).sregs = s.sregs := (suspendFetch_fetchOnly s).sregs
@[simp] theorem suspendFetch_flags (s : State) : (suspendFetch s).flags = s.flags := (suspendFetch_fetchOnly s).flags
@[simp] theorem suspendFetch_eu (s : State) : (suspendFetch s).eu = s.eu := (suspendFetch_fetchOnly s).eu
@[simp] theorem suspendFetch_host (s : State) : (suspendFetch s).host = s.host := (suspendFetch_fetchOnly s).host
@[simp] theorem suspendFetch_agenda (s : State) : (suspendFetch s).agenda = s.agenda := (suspendFetch_fetchOnly s).agenda
@[simp] theorem suspendFetch_interleave (s : State) : (suspendFetch s).interleave = s.interleave := (suspendFetch_fetchOnly s).interleave

/-- A suspension does not let another agent step. -/
theorem suspendFetch_isQuiet {s : State} (q : s.Quiet) : (suspendFetch s).Quiet :=
  ⟨(suspendFetch_interleave s).trans q.1, suspendFetch_planned s⟩

/-! `queueFlush` -/

@[simp] theorem queueFlush_cfg (v : Word) (s : State) : (queueFlush v s).cfg = s.cfg := rfl
@[simp] theorem queueFlush_regs (v : Word) (s : State) : (queueFlush v s).regs = s.regs := rfl
@[simp] theorem queueFlush_sregs (v : Word) (s : State) : (queueFlush v s).sregs = s.sregs := rfl
@[simp] theorem queueFlush_flags (v : Word) (s : State) : (queueFlush v s).flags = s.flags := rfl
@[simp] theorem queueFlush_eu (v : Word) (s : State) : (queueFlush v s).eu = s.eu := rfl
@[simp] theorem queueFlush_host (v : Word) (s : State) : (queueFlush v s).host = s.host := rfl
@[simp] theorem queueFlush_agenda (v : Word) (s : State) : (queueFlush v s).agenda = s.agenda := rfl
@[simp] theorem queueFlush_interleave (v : Word) (s : State) : (queueFlush v s).interleave = s.interleave := rfl
@[simp] theorem queueFlush_sys (v : Word) (s : State) : (queueFlush v s).sys = s.sys := rfl
@[simp] theorem queueFlush_pc (v : Word) (s : State) : (queueFlush v s).biu.pc = v := rfl
@[simp] theorem queueFlush_queue (v : Word) (s : State) : (queueFlush v s).biu.queue = [] := rfl
@[simp] theorem queueFlush_fetchState (v : Word) (s : State) : (queueFlush v s).biu.fetchState = .idle := rfl

/-! `setIp` -/

@[simp] theorem setIp_cfg (v : Word) (s : State) : (setIp v s).cfg = s.cfg := (suspendFetch_fetchOnly s).cfg
@[simp] theorem setIp_regs (v : Word) (s : State) : (setIp v s).regs = s.regs := (suspendFetch_fetchOnly s).regs
@[simp] theorem setIp_sregs (v : Word) (s : State) : (setIp v s).sregs = s.sregs := (suspendFetch_fetchOnly s).sregs
@[simp] theorem setIp_flags (v : Word) (s : State) : (setIp v s).flags = s.flags := (suspendFetch_fetchOnly s).flags
@[simp] theorem setIp_eu (v : Word) (s : State) : (setIp v s).eu = s.eu := (suspendFetch_fetchOnly s).eu
@[simp] theorem setIp_host (v : Word) (s : State) : (setIp v s).host = s.host := (suspendFetch_fetchOnly s).host
@[simp] theorem setIp_agenda (v : Word) (s : State) : (setIp v s).agenda = s.agenda := (suspendFetch_fetchOnly s).agenda
@[simp] theorem setIp_interleave (v : Word) (s : State) : (setIp v s).interleave = s.interleave := (suspendFetch_fetchOnly s).interleave
@[simp] theorem setIp_pc (v : Word) (s : State) : (setIp v s).biu.pc = v := rfl
@[simp] theorem setIp_queue (v : Word) (s : State) : (setIp v s).biu.queue = [] := rfl
@[simp] theorem setIp_fetchState (v : Word) (s : State) : (setIp v s).biu.fetchState = .idle := rfl
@[simp] theorem setIp_planned (v : Word) (s : State) : (setIp v s).biu.planned = false := rfl

theorem setIp_sys (v : Word) (s : State) : ∃ d, (setIp v s).sys = { s.sys with drawCtr := d } := (suspendFetch_fetchOnly s).sys

theorem setIp_sys_quiet (v : Word) {s : State} (h : s.biu.planned = false) : (setIp v s).sys = s.sys := by
  simp [setIp, suspendFetch_quiet h]

/-! `setCsIp` -/

@[simp] theorem setCsIp_cfg (seg off : Word) (s : State) : (setCsIp seg off s).cfg = s.cfg := (suspendFetch_fetchOnly s).cfg
@[simp] theorem setCsIp_regs (seg off : Word) (s : State) : (setCsIp seg off s).regs = s.regs := (suspendFetch_fetchOnly s).regs
@[simp] theorem setCsIp_flags (seg off : Word) (s : State) : (setCsIp seg off s).flags = s.flags := (suspendFetch_fetchOnly s).flags
@[simp] theorem setCsIp_eu (seg off : Word) (s : State) : (setCsIp seg off s).eu = s.eu := (suspendFetch_fetchOnly s).eu
@[simp] theorem setCsIp_host (seg off : Word) (s : State) : (setCsIp seg off s).host = s.host := (suspendFetch_fetchOnly s).host
@[simp] theorem setCsIp_agenda (seg off : Word) (s : State) : (setCsIp seg off s).agenda = s.agenda := (suspendFetch_fetchOnly s).agenda
@[simp] theorem setCsIp_interleave (seg off : Word) (s : State) : (setCsIp seg off s).interleave = s.interleave := (suspendFetch_fetchOnly s).interleave
@[simp] theorem setCsIp_sregs (seg off : Word) (s : State) : (setCsIp seg off s).sregs = { s.sregs with cs := seg } := by
  simp [setCsIp]
@[simp] theorem setCsIp_pc (seg off : Word) (s : State) : (setCsIp seg off s).biu.pc = off := rfl
@[simp] theorem setCsIp_queue (seg off : Word) (s : State) : (setCsIp seg off s).biu.queue = [] := rfl
@[simp] theorem setCsIp_fetchState (seg off : Word) (s : State) : (setCsIp seg off s).biu.fetchState = .idle := rfl
@[simp] theorem setCsIp_planned (seg off : Word) (s : State) : (setCsIp seg off s).biu.planned = false := rfl

theorem setCsIp_sys (seg off : Word) (s : State) : ∃ d, (setCsIp seg off s).sys = { s.sys with drawCtr := d } :=
  (suspendFetch_fetchOnly s).sys

theorem setCsIp_sys_quiet (seg off : Word) {s : State} (h : s.biu.planned = false) : (setCsIp seg off s).sys = s.sys := by
  simp [setCsIp, suspendFetch_quiet h]

end Sys2Proof.Machine
end

