-- ==== Sys2Proof/Laws/Memory.lean ====
section
/-!
SUPPORT. Laws/Memory.lean: the laws of the sparse byte array: reads after writes, and that every operation keeps the canonical form.
-/
namespace Sys2Proof.Machine

/-! ### Reads after writes -/

theorem Memory.get_erase (m : Memory) (k j : Nat) : (m.erase k).get j = if j = k then 0 else m.get j := by
  induction m with
  | nil => simp [Memory.erase, Memory.get]
  | cons c m ih =>
    by_cases hc : c.1 = k
    · by_cases hj : j = k
      · rw [Memory.erase, if_pos hc, ih, if_pos hj, if_pos hj]
      · simp [Memory.erase, Memory.get, hc, ih, hj, show ¬ k = j from fun h => hj h.symm]
    · by_cases hj : c.1 = j
      · have : ¬ j = k := fun h => hc (hj.trans h)
        simp [Memory.erase, Memory.get, hj, this]
      · simp [Memory.erase, Memory.get, hc, hj, ih]

theorem Memory.get_insert (m : Memory) (k j : Nat) (v : Byte) : (m.insert k v).get j = if j = k then v else m.get j := by
  induction m with
  | nil => simp [Memory.insert, Memory.get, eq_comm]
  | cons c m ih =>
    unfold Memory.insert
    split
    · simp [Memory.get, eq_comm]
    · split
      · rename_i h
        by_cases hj : j = k
        · simp [Memory.get, hj]
        · simp [Memory.get, hj, ← h, show ¬ k = j from fun h => hj h.symm]
      · rename_i h
        by_cases hj : c.1 = j
        · have : ¬ j = k := fun e => h (e.symm.trans hj.symm)
          simp [Memory.get, hj, this]
        · simp [Memory.get, hj, ih]

/-- A read after a write gives the value written, and every other number reads as before. -/
theorem Memory.get_set (m : Memory) (k j : Nat) (v : Byte) : (m.set k v).get j = if j = k then v else m.get j := by
  unfold Memory.set
  split
  · rename_i h
    rw [Memory.get_erase, h]
  · exact Memory.get_insert m k j v

/-! ### The canonical form -/

theorem Memory.wfFrom_le {lo lo' : Nat} {m : Memory} (h : Memory.wfFrom lo m = true) (hl : lo' ≤ lo) :
    Memory.wfFrom lo' m = true := by
  cases m with
  | nil => rfl
  | cons c m =>
    simp only [Memory.wfFrom, Bool.and_eq_true, decide_eq_true_eq] at h ⊢
    exact ⟨⟨by omega, h.1.2⟩, h.2⟩

theorem Memory.wfFrom_erase (k : Nat) {lo : Nat} {m : Memory} (h : Memory.wfFrom lo m = true) :
    Memory.wfFrom lo (m.erase k) = true := by
  induction m generalizing lo with
  | nil => rfl
  | cons c m ih =>
    simp only [Memory.wfFrom, Bool.and_eq_true, decide_eq_true_eq] at h
    unfold Memory.erase
    split
    · exact Memory.wfFrom_le (ih h.2) (by omega)
    · simp only [Memory.wfFrom, Bool.and_eq_true, decide_eq_true_eq]
      exact ⟨h.1, ih h.2⟩

theorem Memory.wfFrom_insert (k : Nat) {v : Byte} (hv : v ≠ 0) {lo : Nat} {m : Memory} (h : Memory.wfFrom lo m = true)
    (hk : lo ≤ k) : Memory.wfFrom lo (m.insert k v) = true := by
  induction m generalizing lo with
  | nil =>
    simp only [Memory.insert, Memory.wfFrom, Bool.and_eq_true, decide_eq_true_eq]
    exact ⟨⟨hk, bne_iff_ne.mpr hv⟩, trivial⟩
  | cons c m ih =>
    simp only [Memory.wfFrom, Bool.and_eq_true, decide_eq_true_eq] at h
    unfold Memory.insert
    split
    · simp only [Memory.wfFrom, Bool.and_eq_true, decide_eq_true_eq]
      exact ⟨⟨hk, bne_iff_ne.mpr hv⟩, ⟨by omega, h.1.2⟩, h.2⟩
    · split
      · rename_i e
        simp only [Memory.wfFrom, Bool.and_eq_true, decide_eq_true_eq]
        exact ⟨⟨hk, bne_iff_ne.mpr hv⟩, by rw [e]; exact h.2⟩
      · simp only [Memory.wfFrom, Bool.and_eq_true, decide_eq_true_eq]
        exact ⟨h.1, ih h.2 (by omega)⟩

/-- A write keeps the canonical form. -/
theorem Memory.wf_set {m : Memory} (h : m.wf = true) (k : Nat) (v : Byte) : (m.set k v).wf = true := by
  unfold Memory.set Memory.wf at *
  split
  · exact Memory.wfFrom_erase k h
  · rename_i hv
    exact Memory.wfFrom_insert k hv h (Nat.zero_le k)

theorem Memory.wf_nil : Memory.wf [] = true := rfl

/-- An array from any list of entries is in canonical form. -/
theorem Memory.wf_ofCells (size : Nat) (cells : List Host.Cell) : (Memory.ofCells size cells).wf = true := by
  unfold Memory.ofCells
  suffices h : ∀ m : Memory, m.wf = true →
      (cells.foldl (fun m c => if c.1 < size then m.set c.1 c.2 else m) m).wf = true from h [] rfl
  induction cells with
  | nil => exact fun m h => h
  | cons c cs ih =>
    intro m h
    refine ih _ ?_
    show Memory.wf (if c.1 < size then m.set c.1 c.2 else m) = true
    split
    · exact Memory.wf_set h _ _
    · exact h

/-! ### The memory map -/

/-- Reading an address after a byte is written at another: the value written where both name one writable byte, and what was
there before where they do not. -/
theorem peek_poke (c : Config) (m : Memory) (a b : Phys) (v : Byte) :
    peek c (poke c m a v) b =
      match cellOf c a, cellOf c b with
      | some (k, true), some (j, _) => some (if j = k then v else m.get j)
      | _, some (j, _) => some (m.get j)
      | _, none => none := by
  unfold peek poke
  rcases ha : cellOf c a with _ | ⟨k, w⟩ <;> rcases hb : cellOf c b with _ | ⟨j, u⟩
  · rfl
  · rfl
  · cases w <;> rfl
  · cases w <;> simp [Memory.get_set]

theorem poke_wf {c : Config} {m : Memory} (h : m.wf = true) (a : Phys) (v : Byte) : (poke c m a v).wf = true := by
  unfold poke
  split
  · exact Memory.wf_set h _ _
  · exact h
  · exact h

theorem loadByte_wf {c : Config} {m : Memory} (h : m.wf = true) (a : Phys) (v : Byte) : (loadByte c m a v).wf = true := by
  unfold loadByte
  split
  · exact Memory.wf_set h _ _
  · exact h

/-- A byte's number tells whether it can be written, so two addresses with one number are one cell. -/
theorem cellOf_fst {c : Config} {a b : Phys} {p q : Nat × Bool} (ha : cellOf c a = some p) (hb : cellOf c b = some q)
    (h : p.1 = q.1) : p = q := by
  unfold cellOf at ha hb
  simp only at ha hb
  split at ha <;> split at hb <;> (try split at ha) <;> (try split at hb) <;> (try split at ha) <;> (try split at hb) <;>
    (try split at ha) <;> (try split at hb) <;> simp_all <;> (obtain rfl := ha; obtain rfl := hb; simp_all) <;> omega

end Sys2Proof.Machine
end

