-- ==== Sys2Proof/Laws/Bus.lean ====
section
/-!
SUPPORT. Laws/Bus.lean: what one bus transaction can do, once.  `BusOnly` holds for every schedule of the other agents; `QuietBus`
adds what holds where none of them steps in between.
-/
namespace Sys2Proof.Machine

/-! ### What no bus transaction changes -/

/-- The parts of the state that no bus transaction and no step of another agent changes: the CPU's registers, flags and execution
unit, but for the NMI pin and its latch, IP, the configuration, the host's records, the agenda. -/
structure BusOnly (s t : State) : Prop where
  cfg : t.cfg = s.cfg
  regs : t.regs = s.regs
  sregs : t.sregs = s.sregs
  flags : t.flags = s.flags
  eu : ∃ latch pin, t.eu = { s.eu with nmiLatch := latch, nmiPrev := pin }
  ip : ip t = ip s
  history : t.host.history = s.host.history
  callStack : t.host.callStack = s.host.callStack
  agenda : t.agenda = s.agenda

theorem BusOnly.refl (s : State) : BusOnly s s := ⟨rfl, rfl, rfl, rfl, ⟨_, _, rfl⟩, rfl, rfl, rfl, rfl⟩

theorem BusOnly.trans {s t u : State} (h : BusOnly s t) (k : BusOnly t u) : BusOnly s u :=
  ⟨k.cfg.trans h.cfg, k.regs.trans h.regs, k.sregs.trans h.sregs, k.flags.trans h.flags,
    let ⟨_, _, a⟩ := h.eu
    let ⟨p, q, b⟩ := k.eu
    ⟨p, q, by rw [b, a]⟩,
    k.ip.trans h.ip, k.history.trans h.history, k.callStack.trans h.callStack, k.agenda.trans h.agenda⟩

/-- The prefix set stays. -/
theorem BusOnly.prefixes {s t : State} (h : BusOnly s t) : t.eu.prefixes = s.eu.prefixes := by
  obtain ⟨_, _, e⟩ := h.eu
  rw [e]

theorem FetchOnly.busOnly {s t : State} (h : FetchOnly s t) : BusOnly s t :=
  ⟨h.cfg, h.regs, h.sregs, h.flags, ⟨_, _, h.eu⟩, h.ip, by rw [h.host], by rw [h.host], h.agenda⟩

theorem fdcTurn_busOnly (s : State) : BusOnly s (fdcTurn s) := by
  refine ⟨rfl, rfl, rfl, rfl, ⟨_, _, rfl⟩, ?_, rfl, rfl, rfl⟩
  simp only [fdcTurn, ip]
  split <;> rfl

/-- A host action changes the NMI pin and its latch, the bus with its devices, or the tags. -/
theorem hostStep_busOnly (a : HostAction) (s : State) : BusOnly s (hostStep a s) := by
  cases a <;> exact ⟨rfl, rfl, rfl, rfl, ⟨_, _, rfl⟩, rfl, rfl, rfl, rfl⟩

theorem midStep_busOnly (s : State) (t : MidTurn) : BusOnly s (midStep s t) := by
  cases t with
  | prefetch => exact (prefetchStep_fetchOnly s).busOnly
  | fdc => exact fdcTurn_busOnly s
  | crtc => exact ⟨rfl, rfl, rfl, rfl, ⟨_, _, rfl⟩, rfl, rfl, rfl, rfl⟩
  | clock c => exact (clockTick_fetchOnly c s).busOnly
  | host a => exact hostStep_busOnly a s

theorem foldl_midStep_busOnly (b : List MidTurn) (s : State) : BusOnly s (b.foldl midStep s) := by
  induction b generalizing s with
  | nil => exact BusOnly.refl s
  | cons t b ih => exact BusOnly.trans (midStep_busOnly s t) (ih _)

theorem busGap_busOnly (s : State) : BusOnly s (busGap s) := by
  unfold busGap
  split
  · exact BusOnly.refl s
  · rename_i b rest _
    exact BusOnly.trans (t := { s with interleave := rest }) ⟨rfl, rfl, rfl, rfl, ⟨_, _, rfl⟩, rfl, rfl, rfl, rfl⟩
      (foldl_midStep_busOnly b _)

theorem busCycle_fetchOnly (st : BusStatus) (a : Phys) (s : State) : FetchOnly s (busCycle st a s) :=
  (finishFetch_fetchOnly s).trans
    (let k := Biu.euCycle_keeps _ _ _
    FetchOnly.ofBiu _ k.pc k.queue)

theorem beginBus_busOnly (st : BusStatus) (a : Phys) (s : State) : BusOnly s (beginBus st a s) :=
  (busGap_busOnly s).trans (busCycle_fetchOnly st a _).busOnly

theorem haltCycle_busOnly (s : State) : BusOnly s (haltCycle s) :=
  (busGap_busOnly s).trans ((finishFetch_fetchOnly _).trans (busCycle_fetchOnly _ _ _)).busOnly

theorem intaCycles_fetchOnly (s : State) : FetchOnly s (intaCycles s) :=
  (finishFetch_fetchOnly s).trans
    (let k := (Biu.euCycle_keeps _ _ _).trans (Biu.euCycle_keeps _ _ _)
    FetchOnly.ofBiu _ k.pc k.queue)

theorem noteAccess_busOnly (a : Phys) (s : State) : BusOnly s (noteAccess a s) := by
  unfold noteAccess
  split
  · exact ⟨rfl, rfl, rfl, rfl, ⟨_, _, rfl⟩, rfl, rfl, rfl, rfl⟩
  · exact BusOnly.refl s

theorem readCell_busOnly (a : Phys) (s : State) : BusOnly s (readCell a s).2 :=
  BusOnly.trans (noteAccess_busOnly a s) ⟨rfl, rfl, rfl, rfl, ⟨_, _, rfl⟩, rfl, rfl, rfl, rfl⟩

theorem writeCell_busOnly (a : Phys) (v : Byte) (s : State) : BusOnly s (writeCell a v s) :=
  BusOnly.trans (noteAccess_busOnly a s) ⟨rfl, rfl, rfl, rfl, ⟨_, _, rfl⟩, rfl, rfl, rfl, rfl⟩

theorem busRead_busOnly (a : Phys) (s : State) : BusOnly s (busRead a s).2 :=
  BusOnly.trans (beginBus_busOnly _ a s) (readCell_busOnly a _)

theorem busWrite_busOnly (a : Phys) (v : Byte) (s : State) : BusOnly s (busWrite a v s) :=
  BusOnly.trans (beginBus_busOnly _ a s) (writeCell_busOnly a v _)

theorem busReadWord_busOnly (a b : Phys) (s : State) : BusOnly s (busReadWord a b s).2 := by
  unfold busReadWord
  simp only
  split
  · exact BusOnly.trans (busRead_busOnly a s) (readCell_busOnly b _)
  · exact BusOnly.trans (busRead_busOnly a s) (busRead_busOnly b _)

theorem busWriteWord_busOnly (a b : Phys) (v : Word) (s : State) : BusOnly s (busWriteWord a b v s) := by
  unfold busWriteWord
  simp only
  split
  · exact BusOnly.trans (busWrite_busOnly a _ s) (writeCell_busOnly b _ _)
  · exact BusOnly.trans (busWrite_busOnly a _ s) (busWrite_busOnly b _ _)

theorem segRead_busOnly (w : Width) (seg off : Word) (s : State) : BusOnly s (segRead w seg off s).2 := by
  cases w
  · exact busRead_busOnly _ s
  · exact busReadWord_busOnly _ _ s

theorem segWrite_busOnly (w : Width) (seg off : Word) (v : Val w) (s : State) : BusOnly s (segWrite w seg off v s) := by
  cases w
  · exact busWrite_busOnly _ v s
  · exact busWriteWord_busOnly _ _ v s

/-- An r/m operand is read without any register changing. -/
theorem rmRead_busOnly (w : Width) (rm : Rm) (s : State) : BusOnly s (rmRead w rm s).2 := by
  cases rm with
  | reg r => exact BusOnly.refl s
  | mem m => exact segRead_busOnly w _ _ s

theorem readFar_busOnly (m : MemOp) (s : State) : BusOnly s (readFar m s).2.2 :=
  BusOnly.trans (segRead_busOnly .word _ _ s) (segRead_busOnly .word _ _ _)

theorem drawBit_busOnly (s : State) : BusOnly s (drawBit s).2 := ⟨rfl, rfl, rfl, rfl, ⟨_, _, rfl⟩, rfl, rfl, rfl, rfl⟩

/-! ### Consuming bytes (R65, R82) -/

theorem fillQueue_busOnly (s : State) : BusOnly s (fillQueue s) := by
  unfold fillQueue
  split
  · simp only
    refine (busGap_busOnly s).trans ?_
    split
    · refine (FetchOnly.trans (FetchOnly.ofBiu (b := ?b) _ ?_ ?_) (codeFetch_fetchOnly _)).busOnly
      · rfl
      · rfl
    · exact BusOnly.refl _
  · exact BusOnly.refl s

theorem awaitByte_busOnly (s : State) : BusOnly s (awaitByte s) := by
  unfold awaitByte
  split
  · exact (idleTick_fetchOnly s).busOnly
  · exact BusOnly.refl s

/-- Consuming a byte changes no register, flag or part of the execution unit but the NMI latch and pin. -/
theorem fetchByte_eu (s : State) : ∃ latch pin, (fetchByte s).2.eu = { s.eu with nmiLatch := latch, nmiPrev := pin } := by
  have h := ((fillQueue_busOnly s).trans (awaitByte_busOnly _)).eu
  unfold fetchByte
  simp only
  split <;> exact h

theorem fetchInstr_eu (n : Nat) (acc : List Byte) (s : State) :
    ∃ latch pin, (fetchInstr n acc s).2.2.eu = { s.eu with nmiLatch := latch, nmiPrev := pin } := by
  induction n generalizing acc s with
  | zero => exact ⟨_, _, rfl⟩
  | succ n ih =>
    obtain ⟨_, _, h⟩ := fetchByte_eu s
    unfold fetchInstr
    simp only
    split
    · exact ⟨_, _, h⟩
    · obtain ⟨p, q, k⟩ := ih (acc ++ [(fetchByte s).1]) (fetchByte s).2
      exact ⟨p, q, by rw [k, h]⟩

/-- What a decode leaves of the execution unit (R82): the instruction about to execute, or the decode fault at the instruction's start. -/
theorem decodeNext_eu (s : State) :
    ∃ latch pin, let e := { s.eu with nmiLatch := latch, nmiPrev := pin }
      match decodeNext s with
      | (none, t) => t.eu = { e with phase := .start, fault := some (.instructionDecodeError s.eu.insnStart) }
      | (some i, t) => ∃ d, d.instr = i ∧ t.eu = { e with decoded := some d, phase := .executing } := by
  obtain ⟨p, q, h⟩ := fetchInstr_eu maxUnprefixed [] s
  refine ⟨p, q, ?_⟩
  unfold decodeNext
  simp only
  split
  · rename_i t e
    split at e
    · cases e
      simp only [holdFault, h]
    · split at e <;> cases e
      simp only [holdFault, h]
  · rename_i i t e
    split at e
    · cases e
    · split at e <;> cases e
      exact ⟨decodedRecord i (fetchInstr maxUnprefixed [] s).2.1 (fetchInstr maxUnprefixed [] s).2.2, rfl, by simp only [h]⟩

/-! ### Where no other agent steps in between -/

/-- The parts that a transaction of the execution unit leaves where no other agent steps and no fetch is planned: all but memory, the
count of free values, the bus unit's clock and latches, and a pending breakpoint. -/
structure QuietBus (s t : State) : Prop where
  cfg : t.cfg = s.cfg
  regs : t.regs = s.regs
  sregs : t.sregs = s.sregs
  flags : t.flags = s.flags
  eu : t.eu = s.eu
  pc : t.biu.pc = s.biu.pc
  queue : t.biu.queue = s.biu.queue
  suspended : t.biu.fetchState = .suspended ↔ s.biu.fetchState = .suspended
  planned : s.biu.planned = false → t.biu.planned = false
  pic : t.sys.pic = s.sys.pic
  dma : t.sys.dma = s.sys.dma
  crtc : t.sys.crtc = s.sys.crtc
  fdc : t.sys.fdc = s.sys.fdc
  tags : t.sys.tags = s.sys.tags
  reports : t.sys.reports = s.sys.reports
  history : t.host.history = s.host.history
  callStack : t.host.callStack = s.host.callStack
  agenda : t.agenda = s.agenda
  interleave : t.interleave = s.interleave

theorem QuietBus.refl (s : State) : QuietBus s s :=
  ⟨rfl, rfl, rfl, rfl, rfl, rfl, rfl, Iff.rfl, id, rfl, rfl, rfl, rfl, rfl, rfl, rfl, rfl, rfl, rfl⟩

theorem QuietBus.trans {s t u : State} (h : QuietBus s t) (k : QuietBus t u) : QuietBus s u :=
  ⟨k.cfg.trans h.cfg, k.regs.trans h.regs, k.sregs.trans h.sregs, k.flags.trans h.flags, k.eu.trans h.eu, k.pc.trans h.pc,
    k.queue.trans h.queue, k.suspended.trans h.suspended, fun p => k.planned (h.planned p), k.pic.trans h.pic, k.dma.trans h.dma, k.crtc.trans h.crtc,
    k.fdc.trans h.fdc, k.tags.trans h.tags, k.reports.trans h.reports, k.history.trans h.history,
    k.callStack.trans h.callStack, k.agenda.trans h.agenda, k.interleave.trans h.interleave⟩

theorem QuietBus.quiet {s t : State} (h : QuietBus s t) (q : s.Quiet) : t.Quiet := ⟨h.interleave.trans q.1, h.planned q.2⟩

@[simp] theorem busGap_quiet {s : State} (q : s.Quiet) : busGap s = s := by
  unfold busGap
  rw [q.1]

/-- A bus cycle of the execution unit, where no fetch is planned: the bus unit's clock and latches. -/
theorem busCycle_quietBus {s : State} (h : s.biu.planned = false) (st : BusStatus) (a : Phys) : QuietBus s (busCycle st a s) := by
  unfold busCycle
  rw [finishFetch_quiet h]
  have k := Biu.euCycle_keeps s.cfg ⟨st, a, waitStates s.cfg st a, lockAsserted s⟩ s.biu
  exact ⟨rfl, rfl, rfl, rfl, rfl, k.pc, k.queue, k.suspended, k.planned, rfl, rfl, rfl, rfl, rfl, rfl, rfl, rfl, rfl, rfl⟩

@[simp] theorem busCycle_sys {s : State} (h : s.biu.planned = false) (st : BusStatus) (a : Phys) :
    (busCycle st a s).sys = s.sys := by
  simp [busCycle, finishFetch_quiet h]

theorem beginBus_quietBus {s : State} (q : s.Quiet) (st : BusStatus) (a : Phys) : QuietBus s (beginBus st a s) := by
  rw [beginBus, busGap_quiet q]
  exact busCycle_quietBus q.2 st a

@[simp] theorem beginBus_mem {s : State} (q : s.Quiet) (st : BusStatus) (a : Phys) : (beginBus st a s).sys = s.sys := by
  rw [beginBus, busGap_quiet q, busCycle_sys q.2]

theorem haltCycle_quiet {s : State} (q : s.Quiet) : QuietBus s (haltCycle s) ∧ (haltCycle s).sys = s.sys := by
  unfold haltCycle
  simp only [busGap_quiet q, finishFetch_quiet q.2]
  exact ⟨busCycle_quietBus q.2 _ _, busCycle_sys q.2 _ _⟩

theorem intaCycles_quiet {s : State} (h : s.biu.planned = false) : QuietBus s (intaCycles s) ∧ (intaCycles s).sys = s.sys := by
  unfold intaCycles
  rw [finishFetch_quiet h]
  have k (c d : CycleStart) := (Biu.euCycle_keeps s.cfg c s.biu).trans (Biu.euCycle_keeps s.cfg d _)
  exact ⟨⟨rfl, rfl, rfl, rfl, rfl, (k _ _).pc, (k _ _).queue, (k _ _).suspended, (k _ _).planned, rfl, rfl, rfl, rfl, rfl, rfl, rfl,
    rfl, rfl, rfl⟩, rfl⟩

theorem noteAccess_quietBus (a : Phys) (s : State) : QuietBus s (noteAccess a s) := by
  unfold noteAccess
  split
  · exact ⟨rfl, rfl, rfl, rfl, rfl, rfl, rfl, Iff.rfl, id, rfl, rfl, rfl, rfl, rfl, rfl, rfl, rfl, rfl, rfl⟩
  · exact QuietBus.refl s

@[simp] theorem noteAccess_sys (a : Phys) (s : State) : (noteAccess a s).sys = s.sys := by
  unfold noteAccess
  split <;> rfl

@[simp] theorem noteAccess_cfg (a : Phys) (s : State) : (noteAccess a s).cfg = s.cfg := by
  unfold noteAccess
  split <;> rfl

/-- A byte read gives the byte held or a free byte; memory stays and a free byte is counted. -/
theorem readByte_spec (c : Config) (a : Phys) (y : Sys) :
    y.readByte c a = (heldByte c y.mem y.drawCtr a, { y with drawCtr := y.drawCtr + drawsAt c y.mem a }) := by
  unfold Sys.readByte heldByte drawsAt
  cases peek c y.mem a <;> rfl

theorem readCell_sys (a : Phys) (s : State) :
    (readCell a s).1 = heldByte s.cfg s.sys.mem s.sys.drawCtr a ∧
      (readCell a s).2.sys = { s.sys with drawCtr := s.sys.drawCtr + drawsAt s.cfg s.sys.mem a } := by
  simp [readCell, readByte_spec]

theorem readCell_quietBus (a : Phys) (s : State) : QuietBus s (readCell a s).2 := by
  have h := readCell_sys a s
  have n := noteAccess_quietBus a s
  refine ⟨n.cfg, n.regs, n.sregs, n.flags, n.eu, n.pc, n.queue, n.suspended, n.planned, ?_, ?_, ?_, ?_, ?_, ?_, n.history, n.callStack,
    n.agenda, n.interleave⟩ <;> rw [h.2]

theorem writeCell_sys (a : Phys) (v : Byte) (s : State) :
    (writeCell a v s).sys = { s.sys with mem := poke s.cfg s.sys.mem a v } := by
  simp [writeCell, Sys.writeByte]

theorem writeCell_quietBus (a : Phys) (v : Byte) (s : State) : QuietBus s (writeCell a v s) := by
  have h := writeCell_sys a v s
  have n := noteAccess_quietBus a s
  refine ⟨n.cfg, n.regs, n.sregs, n.flags, n.eu, n.pc, n.queue, n.suspended, n.planned, ?_, ?_, ?_, ?_, ?_, ?_, n.history, n.callStack,
    n.agenda, n.interleave⟩ <;> rw [h]

/-- A byte read transaction: its value, what it does to the bus, and what it leaves. -/
theorem busRead_quiet {s : State} (q : s.Quiet) (a : Phys) :
    (busRead a s).1 = heldByte s.cfg s.sys.mem s.sys.drawCtr a ∧
      (busRead a s).2.sys = { s.sys with drawCtr := s.sys.drawCtr + drawsAt s.cfg s.sys.mem a } ∧ QuietBus s (busRead a s).2 := by
  have b := beginBus_quietBus q .memRead a
  have r := readCell_sys a (beginBus .memRead a s)
  rw [beginBus_mem q, b.cfg] at r
  exact ⟨r.1, r.2, b.trans (readCell_quietBus a _)⟩

/-- A byte write transaction. -/
theorem busWrite_quiet {s : State} (q : s.Quiet) (a : Phys) (v : Byte) :
    (busWrite a v s).sys = { s.sys with mem := poke s.cfg s.sys.mem a v } ∧ QuietBus s (busWrite a v s) := by
  have b := beginBus_quietBus q .memWrite a
  have r := writeCell_sys a v (beginBus .memWrite a s)
  rw [beginBus_mem q, b.cfg] at r
  exact ⟨r, b.trans (writeCell_quietBus a v _)⟩

/-- A word read transaction or pair of transactions. -/
theorem busReadWord_quiet {s : State} (q : s.Quiet) (a b : Phys) :
    (busReadWord a b s).1 =
        wordOf (heldByte s.cfg s.sys.mem s.sys.drawCtr a)
          (heldByte s.cfg s.sys.mem (s.sys.drawCtr + drawsAt s.cfg s.sys.mem a) b) ∧
      (busReadWord a b s).2.sys =
        { s.sys with drawCtr := s.sys.drawCtr + (drawsAt s.cfg s.sys.mem a + drawsAt s.cfg s.sys.mem b) } ∧
      QuietBus s (busReadWord a b s).2 := by
  have h := busRead_quiet q a
  have q' := h.2.2.quiet q
  have c := h.2.2.cfg
  unfold busReadWord
  simp only
  split
  · have k := readCell_sys b (busRead a s).2
    rw [h.2.1, c] at k
    exact ⟨by rw [h.1, k.1], by rw [k.2]; simp [Nat.add_assoc], h.2.2.trans (readCell_quietBus b _)⟩
  · have k := busRead_quiet q' b
    rw [h.2.1, c] at k
    exact ⟨by rw [h.1, k.1], by rw [k.2.1]; simp [Nat.add_assoc], h.2.2.trans k.2.2⟩

theorem busWriteWord_quiet {s : State} (q : s.Quiet) (a b : Phys) (v : Word) :
    (busWriteWord a b v s).sys = { s.sys with mem := poke s.cfg (poke s.cfg s.sys.mem a (loByte v)) b (hiByte v) } ∧
      QuietBus s (busWriteWord a b v s) := by
  have h := busWrite_quiet q a (loByte v)
  have q' := h.2.quiet q
  have c := h.2.cfg
  unfold busWriteWord
  simp only
  split
  · have k := writeCell_sys b (hiByte v) (busWrite a (loByte v) s)
    rw [h.1, c] at k
    exact ⟨k, h.2.trans (writeCell_quietBus b _ _)⟩
  · have k := busWrite_quiet q' b (hiByte v)
    rw [h.1, c] at k
    exact ⟨k.1, h.2.trans k.2⟩

/-- A read at `seg:off`: the value held there, the free values it uses counted, nothing else of the bus changed. -/
theorem segRead_sys {s : State} (q : s.Quiet) (w : Width) (seg off : Word) :
    (segRead w seg off s).2.sys = { s.sys with drawCtr := s.sys.drawCtr + drawsFor s.cfg s.sys.mem w seg off } := by
  cases w
  · exact (busRead_quiet q (phys seg off)).2.1
  · exact (busReadWord_quiet q _ _).2.1

/-- A read at `seg:off`: the value held there, memory unchanged. -/
theorem segRead_quiet {s : State} (q : s.Quiet) (w : Width) (seg off : Word) :
    (segRead w seg off s).1 = heldVal w seg off s ∧ (segRead w seg off s).2.sys.mem = s.sys.mem ∧
      QuietBus s (segRead w seg off s).2 := by
  refine ⟨?_, by rw [segRead_sys q], ?_⟩
  · cases w
    · exact (busRead_quiet q (phys seg off)).1
    · exact (busReadWord_quiet q _ _).1
  · cases w
    · exact (busRead_quiet q (phys seg off)).2.2
    · exact (busReadWord_quiet q _ _).2.2

/-- A write at `seg:off`: memory is what the store leaves, the free values as before. -/
theorem segWrite_quiet {s : State} (q : s.Quiet) (w : Width) (seg off : Word) (v : Val w) :
    (segWrite w seg off v s).sys = { s.sys with mem := storeVal s.cfg w seg off v s.sys.mem } ∧
      QuietBus s (segWrite w seg off v s) := by
  cases w
  · exact busWrite_quiet q _ v
  · exact busWriteWord_quiet q _ _ v

/-- An r/m operand is read: its value, memory unchanged. -/
theorem rmRead_quiet {s : State} (q : s.Quiet) (w : Width) (rm : Rm) :
    (rmRead w rm s).1 = rmVal w rm s ∧ (rmRead w rm s).2.sys.mem = s.sys.mem ∧ QuietBus s (rmRead w rm s).2 := by
  cases rm with
  | reg r => exact ⟨rfl, rfl, QuietBus.refl s⟩
  | mem m => exact segRead_quiet q w _ _

end Sys2Proof.Machine
end

