-- ==== Sys2Proof/Machine/Execution.lean ====
section
/-!
DEFINITION. Execution.lean: endless executions and their weak fairness (R322; 92_eei_decisions.md D38).  No step reads them: a claim that
a wait of the guest ends has `WeaklyFair`, or `Launch.Considered`, as its premise (log entry 6).
-/
namespace Sys2Proof.Machine

/-! ### The agents to which a turn is owed -/

/-- The agents of R322 whose step fairness owes them.  The host of that table is none: what it may do in a run are liberties, and a
liberty never ends a wait of the guest (R338); its one duty, to schedule fairly, is `WeaklyFair` itself. -/
inductive Agent where
  | eu
  | prefetch
  | fdc
  | crtc
  deriving DecidableEq, Repr

/-- The turn that is this agent's step; `enabled` of it is the condition in R322's table. -/
def Agent.turn (a : Agent) : Turn :=
  match a with
  | .eu => .eu
  | .prefetch => .prefetch
  | .fdc => .fdc
  | .crtc => .crtc

/-- The agent a turn schedules.  A clock tick whose choice plans a code fetch schedules the prefetcher (R75; DEDUCED, log entry 6). -/
def Turn.agent (t : Turn) : Option Agent :=
  match t with
  | .eu => some .eu
  | .prefetch => some .prefetch
  | .fdc => some .fdc
  | .crtc => some .crtc
  | .clock c => c.fetch.map fun _ => .prefetch
  | .host _ => none

/-- The agent a step between two bus transactions schedules (R55). -/
def MidTurn.agent (t : MidTurn) : Option Agent :=
  match t with
  | .prefetch => some .prefetch
  | .fdc => some .fdc
  | .crtc => some .crtc
  | .clock c => c.fetch.map fun _ => .prefetch
  | .host _ => none

/-! ### Endless schedules and executions -/

/-- What a scheduler chooses for one step: whose turn it is, and batches of steps for the bus transactions to come (R55). -/
structure Choice where
  turn : Turn
  gaps : List (List MidTurn)
  deriving DecidableEq, Repr

/-- An endless schedule, one choice a step.  It is the environment's and no part of `State`. -/
abbrev Schedule := Nat → Choice

/-- A state with one choice put on it: its turn comes next, and its batches follow those still to be used. -/
def place (c : Choice) (s : State) : State := { s with agenda := [c.turn], interleave := s.interleave ++ c.gaps }

/-- The execution of a schedule from a state: its outcome after `n` steps.  A refusal is for good (R14); a stuck agent's turn passes. -/
def Schedule.run (σ : Schedule) (s : State) : Nat → Res State
  | 0 => .next s
  | n + 1 => andThen (σ.run s n) fun t => step (place (σ n) t)

/-- Whether the execution unit's turn in this state makes code fetches of its own: the `prefetch_step` for which `FetchByte()` waits on
an empty queue (R65). -/
def decodeFetches (s : State) : Bool :=
  !s.eu.halted && s.eu.phase != .repeating && (decodeNext s).2.biu.pc != s.biu.pc

/-- The batches of `interleave` that a step from `s` to `t` has used. -/
def usedBatches (s t : State) : List (List MidTurn) := s.interleave.take (s.interleave.length - t.interleave.length)

/-- Whether an agent was scheduled in a step from `s` to `t` whose turn was `u`: by the turn, in a batch used inside it, or, the
prefetcher, by the execution unit's wait for a byte. -/
def scheduled (a : Agent) (u : Turn) (s t : State) : Bool :=
  u.agent == some a || (usedBatches s t).any (fun b => b.any fun m => m.agent == some a) ||
    (a == .prefetch && u == .eu && decodeFetches s)

/-- Whether an execution schedules an agent in its step `n`. -/
def Schedule.Schedules (σ : Schedule) (s : State) (a : Agent) (n : Nat) : Prop :=
  ∃ t u, σ.run s n = .next t ∧ σ.run s (n + 1) = .next u ∧ scheduled a (σ n).turn (place (σ n) t) u = true

/-- Whether an agent's step is enabled at every point of an execution from `n` on (R322). -/
def Schedule.StaysEnabled (σ : Schedule) (s : State) (a : Agent) (n : Nat) : Prop :=
  ∀ m, n ≤ m → ∃ t, σ.run s m = .next t ∧ enabled a.turn t = true

/-- Weak fairness (R322): an agent whose step stays enabled is eventually scheduled. -/
def WeaklyFair (σ : Schedule) (s : State) : Prop :=
  ∀ a n, σ.StaysEnabled s a n → ∃ m, n ≤ m ∧ σ.Schedules s a m

/-! ### Executions of a launch (R322, R338, R343, R344) -/

/-- A finite beginning, then an endless schedule. -/
def Schedule.after (σ : Schedule) (ts : List Turn) : Schedule := fun n =>
  match ts[n]? with
  | some t => ⟨t, []⟩
  | none => σ (n - ts.length)

/-- No line moves in an endless schedule: the moves of a launch's schedules stand in its agenda and its batches (R338, R344). -/
def Schedule.MovesNoLine (σ : Schedule) : Prop :=
  ∀ n, (∀ a ∈ (σ n).turn.action, a.movesLine = false) ∧ ∀ b ∈ (σ n).gaps, ∀ t ∈ b, ∀ a ∈ t.action, a.movesLine = false

/-- The schedule of a launch that goes on as `σ` past its agenda; `Launch.state` holds its batches. -/
def Launch.schedule (l : Launch) (σ : Schedule) : Schedule := σ.after l.agenda

/-- The executions of a launch that the observation considers: those that meet its premises and are weakly fair (R322, R344). -/
def Launch.Considered (l : Launch) (σ : Schedule) : Prop :=
  l.Admitted ∧ σ.MovesNoLine ∧ WeaklyFair (l.schedule σ) l.state

/-- The run of a launch under a schedule ends (R343). -/
def Launch.Ends (l : Launch) (σ : Schedule) : Prop :=
  ∃ n t, (l.schedule σ).run l.state n = .next t ∧ runEnded l.endAt t = true

/-- Each agent in turn, nothing between two bus transactions: one fair schedule among many. -/
def roundRobin : Schedule := fun n =>
  match n % 4 with
  | 0 => ⟨.eu, []⟩
  | 1 => ⟨.prefetch, []⟩
  | 2 => ⟨.fdc, []⟩
  | _ => ⟨.crtc, []⟩

end Sys2Proof.Machine
end

