-- ==== Sys2Proof/Laws/Execution.lean ====
section
/-!
SUPPORT. Laws/Execution.lean: one step of an execution, fair schedules exist, and what fairness gives (R322).
-/
namespace Sys2Proof.Machine

@[simp] theorem run_zero (σ : Schedule) (s : State) : σ.run s 0 = .next s := rfl

/-- A step of an execution that has come to `t` is the turn its schedule chooses; a turn of a stuck agent passes. -/
theorem run_succ {σ : Schedule} {s t : State} {n : Nat} (h : σ.run s n = .next t) :
    σ.run s (n + 1) = (outcome (σ n).turn { place (σ n) t with agenda := [] }).getD (.next { place (σ n) t with agenda := [] }) := by
  rw [Schedule.run, h]
  rfl

/-- An execution that goes on has gone on until then. -/
theorem run_next_of_succ {σ : Schedule} {s u : State} {n : Nat} (h : σ.run s (n + 1) = .next u) : ∃ t, σ.run s n = .next t := by
  rw [Schedule.run] at h
  cases e : σ.run s n with
  | next t => exact ⟨t, rfl⟩
  | fault _ => rw [e] at h; cases h
  | refused _ => rw [e] at h; cases h

/-- A step whose turn is an agent's schedules it. -/
theorem schedules_of_turn {σ : Schedule} {s u : State} {a : Agent} {n : Nat} (h : σ.run s (n + 1) = .next u)
    (ha : (σ n).turn.agent = some a) : σ.Schedules s a n := by
  obtain ⟨t, ht⟩ := run_next_of_succ h
  exact ⟨t, u, ht, h, by simp [scheduled, ha]⟩

/-- A schedule that names every agent again and again is fair from every state. -/
theorem weaklyFair_of_recurrent {σ : Schedule} (h : ∀ a n, ∃ m, n ≤ m ∧ (σ m).turn.agent = some a) (s : State) : WeaklyFair σ s := by
  intro a n he
  obtain ⟨m, hm, ha⟩ := h a n
  obtain ⟨_, hu, _⟩ := he (m + 1) (Nat.le_succ_of_le hm)
  exact ⟨m, hm, schedules_of_turn hu ha⟩

/-- A finite beginning takes no turn for good. -/
theorem after_recurrent {σ : Schedule} (h : ∀ a n, ∃ m, n ≤ m ∧ (σ m).turn.agent = some a) (ts : List Turn) (a : Agent) (n : Nat) :
    ∃ m, n ≤ m ∧ ((σ.after ts) m).turn.agent = some a := by
  obtain ⟨m, hm, ha⟩ := h a n
  refine ⟨m + ts.length, Nat.le_add_right_of_le hm, ?_⟩
  rw [Schedule.after, List.getElem?_eq_none (Nat.le_add_left ..)]
  simpa using ha

theorem roundRobin_recurrent (a : Agent) (n : Nat) : ∃ m, n ≤ m ∧ (roundRobin m).turn.agent = some a := by
  cases a
  · exact ⟨4 * n, by omega, by simp [roundRobin, Turn.agent]⟩
  · exact ⟨4 * n + 1, by omega, by simp [roundRobin, Turn.agent]⟩
  · exact ⟨4 * n + 2, by omega, by simp [roundRobin, Turn.agent]⟩
  · exact ⟨4 * n + 3, by omega, by simp [roundRobin, Turn.agent]⟩

/-- Fair executions exist from every state, whatever their beginning. -/
theorem roundRobin_fair (ts : List Turn) (s : State) : WeaklyFair (roundRobin.after ts) s :=
  weaklyFair_of_recurrent (after_recurrent roundRobin_recurrent ts) s

theorem roundRobin_movesNoLine : roundRobin.MovesNoLine := by
  intro n
  unfold roundRobin
  split <;> exact ⟨fun _ h => (Option.not_mem_none _ h).elim, fun _ h => (List.not_mem_nil h).elim⟩

/-- Every launch that meets its premises has an execution the observation considers. -/
theorem roundRobin_considered {l : Launch} (h : l.Admitted) : l.Considered roundRobin :=
  ⟨h, roundRobin_movesNoLine, roundRobin_fair l.agenda l.state⟩

/-- What ends a wait for the video card: in a fair execution that is never refused it is scheduled again and again. -/
theorem crtc_scheduled_again {σ : Schedule} {s : State} (hf : WeaklyFair σ s) (hr : ∀ n, ∃ t, σ.run s n = .next t) (n : Nat) :
    ∃ m, n ≤ m ∧ σ.Schedules s .crtc m :=
  hf .crtc n fun m _ => (hr m).imp fun _ e => ⟨e, rfl⟩

/-- What ends a wait for an agent that has something to do: it is scheduled, or its step is not enabled at some later point. -/
theorem scheduled_or_disabled {σ : Schedule} {s : State} (hf : WeaklyFair σ s) (hr : ∀ n, ∃ t, σ.run s n = .next t) (a : Agent)
    (n : Nat) : ∃ m, n ≤ m ∧ (σ.Schedules s a m ∨ ∃ t, σ.run s m = .next t ∧ enabled a.turn t = false) := by
  by_cases h : σ.StaysEnabled s a n
  · exact (hf a n h).imp fun _ e => ⟨e.1, .inl e.2⟩
  · obtain ⟨m, h⟩ := Classical.not_forall.1 h
    obtain ⟨hm, hd⟩ := Classical.not_imp.1 h
    obtain ⟨t, ht⟩ := hr m
    exact ⟨m, hm, .inr ⟨t, ht, Bool.eq_false_iff.2 fun e => hd ⟨t, ht, e⟩⟩⟩

end Sys2Proof.Machine
end

