-- ==== Sys2Proof/Laws/Flags.lean ====
section
/-!
SUPPORT. Laws/Flags.lean: the bits of FLAGS as a word, and SZP.
-/
namespace Sys2Proof.Machine

theorem flagAt_getLsbD (b : Bool) (i : Nat) {j : Nat} (hj : j < 16) : (flagAt b i).getLsbD j = (b && decide (j = i)) := by
  unfold flagAt
  cases b
  · simp
  · by_cases h : j = i
    · simp [h, show i < 16 by omega]
    · simp only [if_true, BitVec.getLsbD_shiftLeft, hj, decide_true, Bool.true_and]
      simp [h]
      omega

/-- Bit `j` of FLAGS: the reserved ones, or the flag that has its place there (R25, R26). -/
theorem Flags.toWord_getLsbD (f : Flags) {j : Nat} (hj : j < 16) :
    f.toWord.getLsbD j =
      ((0xF002 : Word).getLsbD j || (f.cf && decide (j = 0)) || (f.pf && decide (j = 2)) || (f.af && decide (j = 4)) ||
        (f.zf && decide (j = 6)) || (f.sf && decide (j = 7)) || (f.tf && decide (j = 8)) || (f.if_ && decide (j = 9)) ||
        (f.df && decide (j = 10)) || (f.of_ && decide (j = 11))) := by
  simp only [Flags.toWord, BitVec.getLsbD_or, flagAt_getLsbD _ _ hj]

theorem parity8_spec (v : Byte) : parity8 v = decide ((List.range 8).countP v.getLsbD % 2 = 0) := by
  simp only [parity8, show List.range 8 = [0, 1, 2, 3, 4, 5, 6, 7] from rfl, List.countP_cons, List.countP_nil]
  generalize v.getLsbD 0 = a
  generalize v.getLsbD 1 = b
  generalize v.getLsbD 2 = c
  generalize v.getLsbD 3 = d
  generalize v.getLsbD 4 = e
  generalize v.getLsbD 5 = f
  generalize v.getLsbD 6 = g
  generalize v.getLsbD 7 = h
  revert a b c d e f g h
  decide

/-- SZP writes what R13 says, and no other flag. -/
theorem Flags.szp_spec (w : Width) (r : Val w) (f : Flags) :
    SzpOf r (Flags.szp r f) ∧ (Flags.szp r f).cf = f.cf ∧ (Flags.szp r f).af = f.af ∧ (Flags.szp r f).of_ = f.of_ ∧
      (Flags.szp r f).tf = f.tf ∧ (Flags.szp r f).if_ = f.if_ ∧ (Flags.szp r f).df = f.df := by
  refine ⟨⟨rfl, ?_, ?_⟩, rfl, rfl, rfl, rfl, rfl, rfl⟩
  · show (r == 0) = _
    rw [Bool.eq_iff_iff]
    simp [← BitVec.toNat_inj]
  · show parity8 (r.truncate 8) = _
    rw [parity8_spec]
    congr 3
    apply List.countP_congr
    intro i hi
    have : i < 8 := List.mem_range.mp hi
    simp [BitVec.truncate, this]

end Sys2Proof.Machine
end

