-- ==== Sys2Proof/Laws/Ops.lean ====
section
/-!
SUPPORT. Laws/Ops.lean: what each shared operation can do, once: its frame, and the value or the memory it leaves.
-/
namespace Sys2Proof.Machine

/-! ### Frames compose -/

theorem RegsKept.refl (s : State) : RegsKept [] s s := ⟨fun _ _ => rfl, fun _ _ => rfl⟩

theorem RegsKept.of_eq {s t : State} (h : t.regs = s.regs) : RegsKept [] s t := by
  refine ⟨fun _ _ => ?_, fun _ _ => ?_⟩ <;> rw [h]

theorem RegsKept.trans {rs rs' : List RegPart} {s t u : State} (h : RegsKept rs s t) (k : RegsKept rs' t u) :
    RegsKept (rs ++ rs') s u :=
  ⟨fun q hq => (k.1 q fun p hp => hq p (List.mem_append_right _ hp)).trans (h.1 q fun p hp => hq p (List.mem_append_left _ hp)),
    fun q hq => (k.2 q fun p hp => hq p (List.mem_append_right _ hp)).trans (h.2 q fun p hp => hq p (List.mem_append_left _ hp))⟩

theorem RegsKept.mono {rs rs' : List RegPart} {s t : State} (h : RegsKept rs s t) (hs : rs ⊆ rs') : RegsKept rs' s t :=
  ⟨fun q hq => h.1 q fun p hp => hq p (hs hp), fun q hq => h.2 q fun p hp => hq p (hs hp)⟩

theorem FlagsKept.of_eq {s t : State} (h : t.flags = s.flags) : FlagsKept [] s t := fun _ _ => by rw [h]

theorem MemKept.of_eq {s t : State} (h : t.sys.mem = s.sys.mem) : MemKept [] s t := fun _ _ => by rw [h]

theorem Frame.trans {rs rs' : List RegPart} {fs fs' : List FlagName} {as as' : List Phys} {s t u : State}
    (h : Frame rs fs as s t) (k : Frame rs' fs' as' t u) : Frame (rs ++ rs') (fs ++ fs') (as ++ as') s u where
  regs := h.regs.trans k.regs
  flags n hn :=
    (k.flags n fun e => hn (List.mem_append_right _ e)).trans (h.flags n fun e => hn (List.mem_append_left _ e))
  mem a ha := by
    have k1 := k.mem a fun b hb e => ha b (List.mem_append_right _ hb) (h.cfg ▸ e)
    rw [h.cfg] at k1
    exact k1.trans (h.mem a fun b hb e => ha b (List.mem_append_left _ hb) e)
  cfg := k.cfg.trans h.cfg
  pic := k.pic.trans h.pic
  dma := k.dma.trans h.dma
  crtc := k.crtc.trans h.crtc
  fdc := k.fdc.trans h.fdc
  tags := k.tags.trans h.tags
  reports := k.reports.trans h.reports
  agenda := k.agenda.trans h.agenda
  quiet := ⟨k.quiet.1.trans h.quiet.1, fun p => k.quiet.2 (h.quiet.2 p)⟩

theorem Frame.mono {rs rs' : List RegPart} {fs fs' : List FlagName} {as as' : List Phys} {s t : State} (h : Frame rs fs as s t)
    (hr : rs ⊆ rs') (hf : fs ⊆ fs') (ha : as ⊆ as') : Frame rs' fs' as' s t :=
  { h with
    regs := h.regs.mono hr, flags := fun n hn => h.flags n fun e => hn (hf e), mem := fun a k => h.mem a fun b hb => k b (ha hb) }

theorem UnitsKept.refl (s : State) : UnitsKept s s := ⟨rfl, rfl, rfl, rfl⟩

theorem UnitsKept.trans {s t u : State} (h : UnitsKept s t) (k : UnitsKept t u) : UnitsKept s u :=
  ⟨k.sregs.trans h.sregs, k.eu.trans h.eu, k.history.trans h.history, k.callStack.trans h.callStack⟩

theorem FallsThrough.refl (s : State) : FallsThrough s s := ⟨rfl, rfl, Iff.rfl⟩

theorem FallsThrough.trans {s t u : State} (h : FallsThrough s t) (k : FallsThrough t u) : FallsThrough s u :=
  ⟨k.pc.trans h.pc, k.queue.trans h.queue, k.suspended.trans h.suspended⟩

theorem FallsThrough.ip {s t : State} (h : FallsThrough s t) : ip t = ip s := by
  simp [Sys2Proof.Machine.ip, h.pc, h.queue]

theorem DataStep.trans {rs rs' : List RegPart} {fs fs' : List FlagName} {as as' : List Phys} {s t u : State}
    (h : DataStep rs fs as s t) (k : DataStep rs' fs' as' t u) : DataStep (rs ++ rs') (fs ++ fs') (as ++ as') s u :=
  ⟨h.1.trans k.1, h.2.1.trans k.2.1, h.2.2.trans k.2.2⟩

theorem DataStep.mono {rs rs' : List RegPart} {fs fs' : List FlagName} {as as' : List Phys} {s t : State}
    (h : DataStep rs fs as s t) (hr : rs ⊆ rs') (hf : fs ⊆ fs') (ha : as ⊆ as') : DataStep rs' fs' as' s t :=
  ⟨h.1.mono hr hf ha, h.2⟩

/-- A bus transaction that stores nothing leaves everything. -/
theorem QuietBus.dataStep {s t : State} (h : QuietBus s t) (m : t.sys.mem = s.sys.mem) : DataStep [] [] [] s t :=
  ⟨⟨RegsKept.of_eq h.regs, FlagsKept.of_eq h.flags, MemKept.of_eq m, h.cfg, h.pic, h.dma, h.crtc, h.fdc, h.tags, h.reports,
      h.agenda, ⟨h.interleave, h.planned⟩⟩,
    ⟨h.sregs, h.eu, h.history, h.callStack⟩, ⟨h.pc, h.queue, h.suspended⟩⟩

theorem dataStep_refl (s : State) : DataStep [] [] [] s s := (QuietBus.refl s).dataStep rfl

/-! ### Registers and flags -/

theorem setReg_regsKept (w : Width) (r : Reg) (v : Val w) (s : State) : RegsKept [regPart w r] s (setReg w r v s) := by
  refine ⟨fun q hq => ?_, fun q hq => ?_⟩
  · have h := hq _ (List.mem_singleton.mpr rfl)
    cases w <;> cases r <;> cases q <;> first | rfl | exact absurd h (by decide)
  · have h := hq _ (List.mem_singleton.mpr rfl)
    cases w <;> cases r <;> cases q <;>
      first
      | rfl
      | exact absurd h (by decide)
      | simp [setReg, Regs.setW, Regs.set8, Regs.get8, withLow, withHigh]

/-- Writing a register changes that register only. -/
theorem setReg_dataStep (w : Width) (r : Reg) (v : Val w) (s : State) : DataStep [regPart w r] [] [] s (setReg w r v s) :=
  ⟨⟨setReg_regsKept w r v s, FlagsKept.of_eq rfl, MemKept.of_eq rfl, rfl, rfl, rfl, rfl, rfl, rfl, rfl, rfl, ⟨rfl, id⟩⟩,
    ⟨rfl, rfl, rfl, rfl⟩, ⟨rfl, rfl, Iff.rfl⟩⟩

theorem setAx_eq (v : Word) (s : State) : setAx v s = setReg .word .r0 v s := rfl
theorem setCx_eq (v : Word) (s : State) : setCx v s = setReg .word .r1 v s := rfl
theorem setDx_eq (v : Word) (s : State) : setDx v s = setReg .word .r2 v s := rfl
theorem setSp_eq (v : Word) (s : State) : setSp v s = setReg .word .r4 v s := rfl
theorem setSi_eq (v : Word) (s : State) : setSi v s = setReg .word .r6 v s := rfl
theorem setDi_eq (v : Word) (s : State) : setDi v s = setReg .word .r7 v s := rfl

/-- Writing FLAGS changes the flags that the new value changes. -/
theorem setFlags_dataStep {fs : List FlagName} {f : Flags} {s : State} (h : ∀ n, n ∉ fs → f.get n = s.flags.get n) :
    DataStep [] fs [] s (setFlags f s) :=
  ⟨⟨RegsKept.of_eq rfl, h, MemKept.of_eq rfl, rfl, rfl, rfl, rfl, rfl, rfl, rfl, rfl, ⟨rfl, id⟩⟩, ⟨rfl, rfl, rfl, rfl⟩,
    ⟨rfl, rfl, Iff.rfl⟩⟩

theorem drawBit_dataStep (s : State) : DataStep [] [] [] s (drawBit s).2 :=
  ⟨⟨RegsKept.of_eq rfl, FlagsKept.of_eq rfl, MemKept.of_eq rfl, rfl, rfl, rfl, rfl, rfl, rfl, rfl, rfl, ⟨rfl, id⟩⟩, ⟨rfl, rfl, rfl, rfl⟩,
    ⟨rfl, rfl, Iff.rfl⟩⟩

theorem drawBit_quiet {s : State} (q : s.Quiet) : (drawBit s).2.Quiet := q

/-- The six status flags are drawn or written; the three control flags stay. -/
theorem flagsKept_status {s t : State} (h : t.flags.tf = s.flags.tf) (k : t.flags.if_ = s.flags.if_) (l : t.flags.df = s.flags.df) :
    FlagsKept statusFlags s t := by
  intro n hn
  cases n <;> first | exact h | exact k | exact l | exact absurd (by decide) hn

/-- SF, ZF, AF and PF drawn: nothing else changes. -/
theorem drawSzap_dataStep (s : State) : DataStep [] [.sf, .zf, .af, .pf] [] s (drawSzap s) :=
  (((((drawBit_dataStep s).trans (drawBit_dataStep _)).trans (drawBit_dataStep _)).trans (drawBit_dataStep _)).trans
    (setFlags_dataStep (fs := [.sf, .zf, .af, .pf]) fun n hn => by cases n <;> first | rfl | exact absurd (by decide) hn))

/-- CF and OF drawn: nothing else changes. -/
theorem drawCo_dataStep (s : State) : DataStep [] [.cf, .of_] [] s (drawCo s) :=
  ((drawBit_dataStep s).trans (drawBit_dataStep _)).trans
    (setFlags_dataStep (fs := [.cf, .of_]) fun n hn => by cases n <;> first | rfl | exact absurd (by decide) hn)

/-- OF drawn: nothing else changes. -/
theorem drawOf_dataStep (s : State) : DataStep [] [.of_] [] s (drawOf s) :=
  (drawBit_dataStep s).trans
    (setFlags_dataStep (fs := [.of_]) fun n hn => by cases n <;> first | rfl | exact absurd (by decide) hn)

/-- OF, AF and CF drawn: nothing else changes. -/
theorem drawOac_dataStep (s : State) : DataStep [] [.cf, .of_, .af] [] s (drawOac s) :=
  ((drawCo_dataStep s).trans (drawBit_dataStep _)).trans
    (setFlags_dataStep (fs := [.af]) fun n hn => by cases n <;> first | rfl | exact absurd (by decide) hn)

/-- OF, SF, ZF and PF drawn: nothing else changes. -/
theorem drawOszp_dataStep (s : State) : DataStep [] [.of_, .sf, .zf, .pf] [] s (drawOszp s) :=
  ((((drawOf_dataStep s).trans (drawBit_dataStep _)).trans (drawBit_dataStep _)).trans (drawBit_dataStep _)).trans
    (setFlags_dataStep (fs := [.sf, .zf, .pf]) fun n hn => by cases n <;> first | rfl | exact absurd (by decide) hn)

/-! ### Transfers of control -/

/-- A code fetch, a tick and a suspension leave everything a frame names. -/
theorem FetchOnly.frame {s t : State} (h : FetchOnly s t) (p : s.biu.planned = false → t.biu.planned = false) :
    Frame [] [] [] s t ∧ UnitsKept s t :=
  let ⟨_, y⟩ := h.sys
  ⟨⟨RegsKept.of_eq h.regs, FlagsKept.of_eq h.flags, MemKept.of_eq (by rw [y]), h.cfg, by rw [y], by rw [y], by rw [y], by rw [y],
      by rw [y], by rw [y], h.agenda, ⟨h.interleave, p⟩⟩,
    ⟨h.sregs, h.eu, by rw [h.host], by rw [h.host]⟩⟩

/-- `ip <- target` (R11, R66, R67): the transfer, and nothing that a frame names changed. -/
theorem setIp_spec (v : Word) (s : State) : JumpedTo v (setIp v s) ∧ Frame [] [] [] s (setIp v s) ∧ UnitsKept s (setIp v s) :=
  have h := (suspendFetch_fetchOnly s).frame fun _ => suspendFetch_planned s
  ⟨⟨rfl, rfl, rfl, rfl⟩, { h.1 with quiet := ⟨h.1.quiet.1, fun _ => setIp_planned v s⟩ }, { h.2 with }⟩

/-- `cs_ip <- (seg, off)` (R11, R66, R67): the transfer, CS, and nothing else that a frame names changed. -/
theorem setCsIp_spec (seg off : Word) (s : State) :
    JumpedTo off (setCsIp seg off s) ∧ Frame [] [] [] s (setCsIp seg off s) ∧ (setCsIp seg off s).sregs = { s.sregs with cs := seg } ∧
      (setCsIp seg off s).eu = s.eu ∧ (setCsIp seg off s).host = s.host :=
  have h := (suspendFetch_fetchOnly s).frame fun _ => suspendFetch_planned s
  ⟨⟨rfl, rfl, rfl, rfl⟩, { h.1 with quiet := ⟨h.1.quiet.1, fun _ => setCsIp_planned seg off s⟩ }, setCsIp_sregs seg off s,
    setCsIp_eu seg off s, setCsIp_host seg off s⟩

/-! ### Memory -/

theorem peek_poke_of_not_sameCell {c : Config} {m : Memory} {a b : Phys} {v : Byte} (h : ¬ sameCell c b a) :
    peek c (poke c m a v) b = peek c m b := by
  rw [peek_poke]
  rcases ha : cellOf c a with _ | ⟨k, w⟩ <;> rcases hb : cellOf c b with _ | ⟨j, u⟩ <;>
    simp only [peek, hb, Option.map_some, Option.map_none]
  cases w
  · rfl
  · have : ¬ j = k := fun e => h ⟨(j, u), hb, by rw [ha, cellOf_fst ha hb e.symm]⟩
    simp [this]

/-- A store leaves every byte outside its span. -/
theorem storeVal_kept {c : Config} {w : Width} {seg off : Word} {v : Val w} {m : Memory} {a : Phys}
    (h : ∀ b ∈ span w seg off, ¬ sameCell c a b) : peek c (storeVal c w seg off v m) a = peek c m a := by
  cases w
  · exact peek_poke_of_not_sameCell (h _ (by simp [span]))
  · simp only [storeVal]
    rw [peek_poke_of_not_sameCell (h _ (by simp [span])), peek_poke_of_not_sameCell (h _ (by simp [span]))]

theorem segWrite_dataStep {s : State} (q : s.Quiet) (w : Width) (seg off : Word) (v : Val w) :
    DataStep [] [] (span w seg off) s (segWrite w seg off v s) := by
  have h := segWrite_quiet q w seg off v
  have k := h.2
  refine ⟨⟨RegsKept.of_eq k.regs, FlagsKept.of_eq k.flags, ?_, k.cfg, k.pic, k.dma, k.crtc, k.fdc, k.tags, k.reports, k.agenda,
      ⟨k.interleave, k.planned⟩⟩, ⟨k.sregs, k.eu, k.history, k.callStack⟩, ⟨k.pc, k.queue, k.suspended⟩⟩
  intro a ha
  rw [h.1]
  exact storeVal_kept ha

theorem segRead_dataStep {s : State} (q : s.Quiet) (w : Width) (seg off : Word) :
    DataStep [] [] [] s (segRead w seg off s).2 :=
  (segRead_quiet q w seg off).2.2.dataStep (segRead_quiet q w seg off).2.1

theorem rmRead_dataStep {s : State} (q : s.Quiet) (w : Width) (rm : Rm) : DataStep [] [] [] s (rmRead w rm s).2 :=
  (rmRead_quiet q w rm).2.2.dataStep (rmRead_quiet q w rm).2.1

/-- Writing an r/m operand: the operand has the value, and nothing else changes. -/
theorem rmWrite_spec {s : State} (q : s.Quiet) (w : Width) (rm : Rm) (v : Val w) :
    Stored w rm v s (rmWrite w rm v s) ∧ DataStep (rmParts w rm) [] (rmSpan w rm s) s (rmWrite w rm v s) := by
  cases rm with
  | reg r => exact ⟨getReg_setReg w r v s, setReg_dataStep w r v s⟩
  | mem m =>
    refine ⟨?_, segWrite_dataStep q w _ _ v⟩
    show (segWrite w _ _ v s).sys.mem = _
    rw [(segWrite_quiet q w _ _ v).1]

/-- An effective address, its segment and an operand's register value depend on the registers, the segment registers and the
prefix set only. -/
theorem ea_congr {s t : State} (h : t.regs = s.regs) (m : MemOp) : ea m t = ea m s := by
  cases m <;> simp [ea, baseOffset, h]

theorem segOf_congr {s t : State} (h : t.sregs = s.sregs) (k : t.eu.prefixes = s.eu.prefixes) (d : SReg) : segOf d t = segOf d s := by
  simp [segOf, h, k]

theorem memSeg_congr {s t : State} (h : t.sregs = s.sregs) (k : t.eu.prefixes = s.eu.prefixes) (m : MemOp) : memSeg m t = memSeg m s :=
  segOf_congr h k _

theorem rmSpan_congr {s t : State} (h : BusOnly s t) (w : Width) (rm : Rm) : rmSpan w rm t = rmSpan w rm s := by
  cases rm with
  | reg r => rfl
  | mem m => simp [rmSpan, memSeg_congr h.sregs h.prefixes, ea_congr h.regs]

theorem QuietBus.busOnly {s t : State} (h : QuietBus s t) : BusOnly s t :=
  ⟨h.cfg, h.regs, h.sregs, h.flags, ⟨_, _, h.eu⟩, by simp [ip, h.pc, h.queue], h.history, h.callStack, h.agenda⟩

/-- A store computed after registers-only changes of the bus is the store computed before them. -/
theorem Stored.congr {w : Width} {rm : Rm} {v : Val w} {s t u : State} (h : Stored w rm v t u) (b : BusOnly s t)
    (m : t.sys.mem = s.sys.mem) : Stored w rm v s u := by
  cases rm with
  | reg r => exact h
  | mem p =>
    simp only [Stored] at h ⊢
    rw [h, b.cfg, m, memSeg_congr b.sregs b.prefixes, ea_congr b.regs]

theorem DataStep.toQuiet {rs : List RegPart} {fs : List FlagName} {as : List Phys} {s t : State} (h : DataStep rs fs as s t)
    (q : s.Quiet) : t.Quiet := ⟨h.1.quiet.1.trans q.1, h.1.quiet.2 q.2⟩

/-! ### The stack -/

/-- A push: SP goes down by 2 and the word is stored there (R10). -/
theorem push_spec {s : State} (q : s.Quiet) (v : Word) :
    (push v s).regs.sp = s.regs.sp - 2 ∧
      (push v s).sys.mem = storeVal s.cfg .word s.sregs.ss (s.regs.sp - 2) v s.sys.mem ∧
      DataStep [.word .r4] [] (pushSpan s) s (push v s) := by
  have a := setReg_dataStep .word .r4 (s.regs.sp - 2) s
  have q' : (setSp (s.regs.sp - 2) s).Quiet := q
  have b := segWrite_quiet q' .word s.sregs.ss (s.regs.sp - 2) v
  refine ⟨?_, ?_, (a.trans (segWrite_dataStep q' .word s.sregs.ss (s.regs.sp - 2) v)).mono ?_ ?_ ?_⟩
  · show (segWrite .word s.sregs.ss (s.regs.sp - 2) v (setSp (s.regs.sp - 2) s)).regs.sp = _
    rw [b.2.regs]
    rfl
  · show (segWrite .word s.sregs.ss (s.regs.sp - 2) v (setSp (s.regs.sp - 2) s)).sys.mem = _
    rw [b.1]
    rfl
  · simp [regPart]
  · simp
  · simp [pushSpan]

/-- A pop: the word at SP, and SP goes up by 2 (R10). -/
theorem pop_spec {s : State} (q : s.Quiet) :
    (pop s).1 = heldVal .word s.sregs.ss s.regs.sp s ∧ (pop s).2.regs.sp = s.regs.sp + 2 ∧
      (pop s).2.sys.mem = s.sys.mem ∧ DataStep [.word .r4] [] [] s (pop s).2 := by
  have h := segRead_quiet q .word s.sregs.ss s.regs.sp
  have b := segRead_dataStep q .word s.sregs.ss s.regs.sp
  refine ⟨h.1, ?_, ?_, (b.trans (setReg_dataStep .word .r4 _ _)).mono ?_ ?_ ?_⟩
  · show (segRead .word _ _ s).2.regs.sp + 2 = _
    rw [h.2.2.regs]
  · exact h.2.1
  · simp [regPart]
  · simp
  · simp

theorem push_busOnly_regs (v : Word) (s : State) : (push v s).sregs = s.sregs ∧ (push v s).flags = s.flags ∧ (push v s).cfg = s.cfg ∧
    ip (push v s) = ip s ∧ (push v s).regs = { s.regs with sp := s.regs.sp - 2 } ∧
    (push v s).host.history = s.host.history ∧ (push v s).host.callStack = s.host.callStack ∧ (push v s).agenda = s.agenda := by
  have h := segWrite_busOnly .word s.sregs.ss (s.regs.sp - 2) v (setSp (s.regs.sp - 2) s)
  exact ⟨h.sregs, h.flags, h.cfg, h.ip, h.regs, h.history, h.callStack, h.agenda⟩

theorem pop_busOnly_regs (s : State) : (pop s).2.sregs = s.sregs ∧ (pop s).2.flags = s.flags ∧ (pop s).2.cfg = s.cfg ∧
    ip (pop s).2 = ip s ∧ (pop s).2.regs = { s.regs with sp := s.regs.sp + 2 } ∧
    (pop s).2.host.history = s.host.history ∧ (pop s).2.host.callStack = s.host.callStack ∧ (pop s).2.agenda = s.agenda := by
  have h := segRead_busOnly .word s.sregs.ss s.regs.sp s
  refine ⟨h.sregs, h.flags, h.cfg, h.ip, ?_, h.history, h.callStack, h.agenda⟩
  show { (segRead .word s.sregs.ss s.regs.sp s).2.regs with sp := (segRead .word s.sregs.ss s.regs.sp s).2.regs.sp + 2 } = _
  rw [h.regs]

end Sys2Proof.Machine
end

