-- ==== Sys2Proof/Laws/Interrupt.lean ====
section
/-!
SUPPORT. Laws/Interrupt.lean: what taking an interrupt (R226) and returning from one (R228) can do, once.
-/
namespace Sys2Proof.Machine

/-- What a push does to the bus where no other agent steps: the word stored, the free values as before. -/
theorem push_sys {s : State} (q : s.Quiet) (v : Word) :
    (push v s).sys = { s.sys with mem := storeVal s.cfg .word s.sregs.ss (s.regs.sp - 2) v s.sys.mem } := by
  have q' : (setSp (s.regs.sp - 2) s).Quiet := q
  exact (segWrite_quiet q' .word s.sregs.ss (s.regs.sp - 2) v).1

/-- What a pop does to the bus where no other agent steps: the free values it uses are counted. -/
theorem pop_sys {s : State} (q : s.Quiet) :
    (pop s).2.sys = { s.sys with drawCtr := s.sys.drawCtr + drawsFor s.cfg s.sys.mem .word s.sregs.ss s.regs.sp } :=
  segRead_sys q .word s.sregs.ss s.regs.sp

theorem push_quiet {s : State} (q : s.Quiet) (v : Word) : (push v s).Quiet := DataStep.toQuiet (push_spec q v).2.2 q

theorem pop_quiet {s : State} (q : s.Quiet) : (pop s).2.Quiet := DataStep.toQuiet (pop_spec q).2.2.2 q

theorem push_eu {s : State} (q : s.Quiet) (v : Word) : (push v s).eu = s.eu := (push_spec q v).2.2.2.1.eu

theorem pop_eu {s : State} (q : s.Quiet) : (pop s).2.eu = s.eu := (pop_spec q).2.2.2.2.1.eu

/-- The frame of an interrupt entry leaves every byte outside its six. -/
theorem pushAll_frame {c : Config} {ss sp x y z : Word} {m : Memory} {a : Phys}
    (h : ∀ b ∈ span .word ss (sp - 2) ++ span .word ss (sp - 4) ++ span .word ss (sp - 6), ¬ sameCell c a b) :
    peek c (pushAll c ss sp [x, y, z] m) a = peek c m a := by
  have h4 : sp - 2 - 2 = sp - 4 := by rw [BitVec.sub_sub]; rfl
  have h6 : sp - 4 - 2 = sp - 6 := by rw [BitVec.sub_sub]; rfl
  simp only [pushAll, h4, h6]
  rw [storeVal_kept fun b hb => h b (List.mem_append_right _ hb),
    storeVal_kept fun b hb => h b (List.mem_append_left _ (List.mem_append_right _ hb)),
    storeVal_kept fun b hb => h b (List.mem_append_left _ (List.mem_append_left _ hb))]

/-- The three pushes of an interrupt entry: SP, the flags, memory and what is kept. -/
theorem pushFrame_spec {s : State} (q : s.Quiet) (ret : Word) :
    (pushFrame ret s).regs = { s.regs with sp := s.regs.sp - 6 } ∧
      (pushFrame ret s).sys = { s.sys with
        mem := pushAll s.cfg s.sregs.ss s.regs.sp [s.flags.toWord, s.sregs.cs, ret] s.sys.mem } ∧
      (pushFrame ret s).flags = { s.flags with if_ := false, tf := false } ∧
      (pushFrame ret s).sregs = s.sregs ∧ (pushFrame ret s).eu = s.eu ∧ (pushFrame ret s).cfg = s.cfg ∧
      (pushFrame ret s).host.callStack = s.host.callStack ∧ (pushFrame ret s).host.history = s.host.history ∧
      (pushFrame ret s).agenda = s.agenda ∧ (pushFrame ret s).Quiet := by
  have r1 := push_busOnly_regs s.flags.toWord s
  have y1 := push_sys q s.flags.toWord
  have q1 := push_quiet q s.flags.toWord
  have a4 := push_eu q s.flags.toWord
  generalize hs1 : push s.flags.toWord s = s1 at r1 y1 q1 a4
  have q2 : (setFlags { s1.flags with if_ := false, tf := false } s1).Quiet := q1
  have r2 := push_busOnly_regs (setFlags { s1.flags with if_ := false, tf := false } s1).sregs.cs
    (setFlags { s1.flags with if_ := false, tf := false } s1)
  have y2 := push_sys q2 (setFlags { s1.flags with if_ := false, tf := false } s1).sregs.cs
  have k2 := push_quiet q2 (setFlags { s1.flags with if_ := false, tf := false } s1).sregs.cs
  have b4 := push_eu q2 (setFlags { s1.flags with if_ := false, tf := false } s1).sregs.cs
  have e : pushFrame ret s = push ret (push (setFlags { s1.flags with if_ := false, tf := false } s1).sregs.cs
    (setFlags { s1.flags with if_ := false, tf := false } s1)) := by rw [← hs1]; rfl
  rw [e]
  generalize push (setFlags { s1.flags with if_ := false, tf := false } s1).sregs.cs
    (setFlags { s1.flags with if_ := false, tf := false } s1) = s2 at r2 y2 k2 b4
  have r3 := push_busOnly_regs ret s2
  have y3 := push_sys k2 ret
  have k3 := push_quiet k2 ret
  have c4 := push_eu k2 ret
  generalize push ret s2 = s3 at r3 y3 k3 c4
  simp only [setFlags] at r2 y2
  obtain ⟨a1, a2, a3, -, a6, a7, a8, a9⟩ := r1
  obtain ⟨b1, b2, b3, -, b6, b7, b8, b9⟩ := r2
  obtain ⟨c1, c2, c3, -, c6, c7, c8, c9⟩ := r3
  have sp1 : s1.regs.sp = s.regs.sp - 2 := by rw [a6]
  have sp2 : s2.regs.sp = s.regs.sp - 4 := by rw [b6, sp1]; show s.regs.sp - 2 - 2 = _; rw [BitVec.sub_sub]; rfl
  have sp3 : s2.regs.sp - 2 = s.regs.sp - 6 := by rw [sp2, BitVec.sub_sub]; rfl
  refine ⟨?_, ?_, ?_, c1.trans (b1.trans a1), c4.trans (b4.trans a4), c3.trans (b3.trans a3), c8.trans (b8.trans a8),
    c7.trans (b7.trans a7), c9.trans (b9.trans a9), k3⟩
  · rw [c6, sp3, b6, a6]
  · have h4 : s.regs.sp - 2 - 2 = s.regs.sp - 4 := by rw [BitVec.sub_sub]; rfl
    rw [y3, y2, y1, b3, a3, b1, a1, sp2, sp1]
    simp only [pushAll, h4]
  · rw [c2, b2, a2]

/-- The reads of a vector, and the transfer to the handler. -/
theorem loadVector_spec {s : State} (q : s.Quiet) (n : Byte) :
    let a := vectorAddr n
    let k := s.sys.drawCtr
    let j := k + (drawsAt s.cfg s.sys.mem a + drawsAt s.cfg s.sys.mem (a + 1))
    let t := loadVector n s
    t.biu.pc = vectorWord s.cfg s.sys.mem k a ∧ t.sregs = { s.sregs with cs := vectorWord s.cfg s.sys.mem j (a + 2) } ∧
      t.biu.queue = [] ∧ t.biu.fetchState = .idle ∧ t.regs = s.regs ∧ t.flags = s.flags ∧ t.eu = s.eu ∧ t.cfg = s.cfg ∧
      (∃ d, t.sys = { s.sys with drawCtr := d }) ∧ t.host.callStack = s.host.callStack ∧ t.host.history = s.host.history ∧
      t.agenda = s.agenda ∧ t.Quiet := by
  have h := busReadWord_quiet q (vectorAddr n) (vectorAddr n + 1)
  have q' := h.2.2.quiet q
  have g := busReadWord_quiet q' (vectorAddr n + 2) (vectorAddr n + 3)
  have e : vectorAddr n + 3 = vectorAddr n + 2 + 1 := by rw [BitVec.add_assoc]; rfl
  have b := h.2.2.trans g.2.2
  let u := (busReadWord (vectorAddr n + 2) (vectorAddr n + 3) (busReadWord (vectorAddr n) (vectorAddr n + 1) s).2).2
  have l : loadVector n s = setCsIp (busReadWord (vectorAddr n + 2) (vectorAddr n + 3)
    (busReadWord (vectorAddr n) (vectorAddr n + 1) s).2).1 (busReadWord (vectorAddr n) (vectorAddr n + 1) s).1 u := rfl
  have uq : u.Quiet := b.quiet q
  simp only [l, setCsIp_pc, setCsIp_queue, setCsIp_fetchState, setCsIp_sregs, setCsIp_regs, setCsIp_flags, setCsIp_eu, setCsIp_cfg,
    setCsIp_host, setCsIp_agenda, setCsIp_sys_quiet _ _ uq.2]
  refine ⟨h.1, ?_, trivial, trivial, b.regs, b.flags, b.eu, b.cfg, ?_, b.callStack, b.history, b.agenda, ?_⟩
  · rw [show u.sregs = s.sregs from b.sregs, g.1, h.2.1, h.2.2.cfg, e]
    rfl
  · exact ⟨_, g.2.1.trans (by rw [h.2.1])⟩
  · exact ⟨(setCsIp_interleave _ _ u).trans uq.1, setCsIp_planned _ _ u⟩

/-- An address below 0400h is aliased by no other (R48, R51). -/
theorem sameCell_low {c : Config} {a b : Phys} (ha : a.toNat < 0x400) (h : sameCell c a b) : a = b := by
  obtain ⟨p, h1, h2⟩ := h
  apply BitVec.eq_of_toNat_eq
  unfold cellOf at h1 h2
  simp only at h1 h2
  split at h1
  · cases h1
    split at h2
    · simpa using h2.symm
    · split at h2
      · simpa using h2.symm
      · split at h2 <;> split at h2 <;> simp at h2 <;> omega
  · split at h1
    · omega
    · split at h1 <;> split at h1 <;> simp at h1 <;> rename_i k <;> simp at k <;> omega

/-- A frame that does not overlap the vector leaves its four bytes (R226). -/
theorem vector_kept {s : State} {n : Byte} (h : frameOverlapsVector n s = false) (ret : Word) {a : Phys}
    (ha : a = vectorAddr n ∨ a = vectorAddr n + 1 ∨ a = vectorAddr n + 2 ∨ a = vectorAddr n + 3) :
    peek s.cfg (pushAll s.cfg s.sregs.ss s.regs.sp [s.flags.toWord, s.sregs.cs, ret] s.sys.mem) a = peek s.cfg s.sys.mem a := by
  apply pushAll_frame
  intro b hb e
  have lt : (vectorAddr n).toNat + 3 < 0x400 := by
    have := n.isLt
    simp only [vectorAddr, BitVec.toNat_shiftLeft, BitVec.zeroExtend, BitVec.toNat_setWidth, Nat.shiftLeft_eq]
    omega
  have la : a.toNat < 0x400 := by
    rcases ha with rfl | rfl | rfl | rfl
    · omega
    all_goals rw [BitVec.toNat_add]; simp; omega
  have eab := sameCell_low la e
  subst eab
  have m1 : s.regs.sp - 2 + 1 = s.regs.sp - 1 := by bv_omega
  have m2 : s.regs.sp - 4 + 1 = s.regs.sp - 3 := by bv_omega
  have m3 : s.regs.sp - 6 + 1 = s.regs.sp - 5 := by bv_omega
  simp only [span, m1, m2, m3, List.cons_append, List.nil_append, List.mem_cons, List.not_mem_nil, or_false] at hb
  simp only [frameOverlapsVector, List.any_cons, List.any_nil, Bool.or_false, Bool.or_eq_false_iff, beq_eq_false_iff_ne] at h
  rcases hb with hb | hb | hb | hb | hb | hb <;> rw [hb] at ha <;> rcases ha with ha | ha | ha | ha <;> simp_all

/-- TAKING AN INTERRUPT (R226): where the frame does not overlap the vector, the interrupt is entered; the devices stay. -/
theorem enterInterrupt_spec {s : State} (q : s.Quiet) {n : Byte} (ret : Word) (h : frameOverlapsVector n s = false) :
    ∃ t, enterInterrupt n ret s = .next t ∧ Entered n ret s t ∧ t.sys.pic = s.sys.pic ∧ t.sys.reports = s.sys.reports ∧
      t.eu = { s.eu with halted := false, inRep := false, repType := .none } ∧ t.agenda = s.agenda ∧
      t.Quiet ∧ t.regs = { s.regs with sp := s.regs.sp - 6 } ∧ t.flags = { s.flags with if_ := false, tf := false } := by
  have q0 := suspendFetch_isQuiet q
  obtain ⟨p1, p2, p3, p4, p5, p6, p7, p8, p9, p11⟩ := pushFrame_spec q0 ret
  obtain ⟨l1, l2, l3, l4, l5, l6, l7, l8, ⟨d, l9⟩, l10, l11, l12, l13⟩ := loadVector_spec p11 n
  simp only [suspendFetch_regs, suspendFetch_sregs, suspendFetch_flags, suspendFetch_cfg, suspendFetch_eu, suspendFetch_host,
    suspendFetch_agenda, suspendFetch_sys_quiet q.2] at p1 p2 p3 p4 p5 p6 p7 p9
  have hm : (pushFrame ret (suspendFetch s)).sys.mem =
      pushAll s.cfg s.sregs.ss s.regs.sp [s.flags.toWord, s.sregs.cs, ret] s.sys.mem := by rw [p2]
  have w : ∀ k, vectorWord s.cfg (pushFrame ret (suspendFetch s)).sys.mem k (vectorAddr n) =
      vectorWord s.cfg s.sys.mem k (vectorAddr n) := by
    intro k
    simp only [vectorWord, heldByte, drawsAt, hm, vector_kept h ret (.inl rfl), vector_kept h ret (.inr (.inl rfl))]
  have w2 : ∀ k, vectorWord s.cfg (pushFrame ret (suspendFetch s)).sys.mem k (vectorAddr n + 2) =
      vectorWord s.cfg s.sys.mem k (vectorAddr n + 2) := by
    intro k
    have e : vectorAddr n + 2 + 1 = vectorAddr n + 3 := by rw [BitVec.add_assoc]; rfl
    simp only [vectorWord, heldByte, drawsAt, hm, e, vector_kept h ret (.inr (.inr (.inl rfl))),
      vector_kept h ret (.inr (.inr (.inr rfl)))]
  have f : ∀ t, loadVector n (pushFrame ret (suspendFetch s)) = t → enterInterrupt n ret s = .next
      { t with
        eu := { t.eu with inRep := false, repType := .none, halted := false }
        host := { t.host with callStack := (.interrupt :: t.host.callStack).take 128, atBoundary := false } } := by
    intro t ht
    simp only [enterInterrupt, ht, h, Bool.false_eq_true, if_false, pushCall, clearRep]
  rw [p6] at l1 l2 l8
  have f := f _ rfl
  generalize loadVector n (pushFrame ret (suspendFetch s)) = t at *
  generalize pushFrame ret (suspendFetch s) = u at *
  have m : t.sys.mem = pushAll s.cfg s.sregs.ss s.regs.sp [s.flags.toWord, s.sregs.cs, ret] s.sys.mem := by rw [l9]; exact hm
  refine ⟨_, f, ⟨⟨⟨?_, ?_⟩, ?_, ?_⟩, ?_, m, ?_, ⟨_, l1.trans (w _),
    u.sys.drawCtr + (drawsAt s.cfg u.sys.mem (vectorAddr n) + drawsAt s.cfg u.sys.mem (vectorAddr n + 1)), ?_⟩, ?_, ⟨l3, l4⟩, ⟨rfl, rfl, rfl⟩, ?_, ⟨?_, ?_, ?_, l8⟩⟩,
    ?_, ?_, ?_, l12.trans p9, l13, l5.trans p1, l6.trans p3⟩
  · intro q hq
    show t.regs.get16 q = _
    rw [l5, p1]
    cases q <;> first | rfl | exact absurd (hq _ (List.mem_singleton.mpr rfl)) (by decide)
  · intro q hq
    show t.regs.get8 q = _
    rw [l5, p1]
    cases q <;> rfl
  · intro g hg
    show t.flags.get g = _
    rw [l6, p3]
    cases g <;> first | rfl | exact absurd (by decide) hg
  · intro a ha
    show peek s.cfg t.sys.mem a = _
    rw [m]
    exact pushAll_frame ha
  · show t.regs.sp = _
    rw [l5, p1]
  · show t.flags.if_ = false ∧ t.flags.tf = false
    rw [l6, p3]
    exact ⟨rfl, rfl⟩
  · show t.sregs.cs = _
    rw [l2]
    exact w2 (u.sys.drawCtr + (drawsAt s.cfg u.sys.mem (vectorAddr n) + drawsAt s.cfg u.sys.mem (vectorAddr n + 1)))
  · show t.sregs.es = _ ∧ t.sregs.ss = _ ∧ t.sregs.ds = _
    rw [l2, p4]
    exact ⟨rfl, rfl, rfl⟩
  · show (.interrupt :: t.host.callStack).take 128 = _
    rw [l10, p7]
  · show t.sys.dma = _
    rw [l9, p2]
  · show t.sys.crtc = _
    rw [l9, p2]
  · show t.sys.fdc = _
    rw [l9, p2]
  · show t.sys.pic = _
    rw [l9, p2]
  · show t.sys.reports = _
    rw [l9, p2]
  · show { t.eu with inRep := false, repType := .none, halted := false } = _
    rw [l7, p5]

/-- What is said of an entry depends on the registers, the flags, memory, the parameters, the call stack and the DMA controller,
video card and FDC of the state entered from, and on nothing else of it. -/
theorem Entered.congr {n : Byte} {ret : Word} {s s' t : State} (h : Entered n ret s' t) (hr : s'.regs = s.regs)
    (hs : s'.sregs = s.sregs) (hf : s'.flags = s.flags) (hm : s'.sys.mem = s.sys.mem) (hc : s'.cfg = s.cfg)
    (hk : s'.host.callStack = s.host.callStack) (hd : s'.sys.dma = s.sys.dma) (hv : s'.sys.crtc = s.sys.crtc)
    (hp : s'.sys.fdc = s.sys.fdc) : Entered n ret s t := by
  have fs : frameSpan s' = frameSpan s := by simp [frameSpan, hr, hs]
  refine ⟨⟨⟨fun q k => ?_, fun q k => ?_⟩, fun f k => ?_, fun a k => ?_⟩, ?_, ?_, h.masked, ?_, ?_, h.queue, h.unit, ?_, ?_⟩
  · rw [h.frame.1.1 q k, hr]
  · rw [h.frame.1.2 q k, hr]
  · rw [h.frame.2.1 f k, hf]
  · have e := h.frame.2.2 a (by rw [fs, hc]; exact k)
    rwa [hc, hm] at e
  · rw [h.sp, hr]
  · rw [h.mem, hc, hs, hr, hf, hm]
  · have e := h.target
    rwa [hc, hm] at e
  · have e := h.segments
    rwa [hs] at e
  · rw [h.callStack, hk]
  · have e := h.devices
    rwa [hd, hv, hp, hc] at e

/-- A latched NMI enters interrupt 2 and is no longer latched (R230). -/
theorem takeInterrupt_nmi {s : State} (q : s.Quiet) (ret : Word) (hn : s.eu.nmiLatch = true) (h : frameOverlapsVector 2 s = false) :
    ∃ t, takeInterrupt ret s = .next t ∧ Entered 2 ret s t ∧ t.sys.pic = s.sys.pic ∧ t.sys.reports = s.sys.reports ∧
      t.eu = { s.eu with nmiLatch := false, halted := false, inRep := false, repType := .none } := by
  have q' : ({ s with eu := { s.eu with nmiLatch := false } } : State).Quiet := q
  obtain ⟨t, e, en, hp, hr, he, -⟩ := enterInterrupt_spec q' ret (n := 2) h
  refine ⟨t, ?_, en.congr rfl rfl rfl rfl rfl rfl rfl rfl rfl, hp, hr, he⟩
  rw [takeInterrupt, if_pos hn, e]

/-- With no NMI latched, the PIC's answer is entered (R232). -/
theorem takeInterrupt_intr {s : State} (q : s.Quiet) (ret : Word) (hn : s.eu.nmiLatch = false) {v : Byte} {p : Pic}
    (hv : s.sys.pic.inta = some (v, p)) (h : frameOverlapsVector v s = false) :
    ∃ t, takeInterrupt ret s = .next t ∧ Entered v ret s t ∧ t.sys.pic = p ∧ t.sys.reports = s.sys.reports ∧
      t.eu = { s.eu with halted := false, inRep := false, repType := .none } := by
  obtain ⟨b, y⟩ := intaCycles_quiet q.2
  rw [takeInterrupt, if_neg (by simp [hn]), hv]
  simp only
  generalize intaCycles s = u at b y ⊢
  have q' : ({ u with sys := { u.sys with pic := p } } : State).Quiet := b.quiet q
  have h' : frameOverlapsVector v { u with sys := { u.sys with pic := p } } = false := by
    simpa [frameOverlapsVector, b.sregs, b.regs] using h
  obtain ⟨t, e, en, hp, hr, he, -⟩ := enterInterrupt_spec q' ret h'
  exact ⟨t, e, en.congr b.regs b.sregs b.flags (by rw [y]) b.cfg b.callStack b.dma b.crtc b.fdc, hp, hr.trans b.reports,
    by rw [he, ← b.eu]⟩

/-- RETURNING FROM AN INTERRUPT (R228): IP, CS and FLAGS are the three words popped, in that order. -/
theorem returnFromInterrupt_spec {s : State} (q : s.Quiet) :
    let t := returnFromInterrupt s
    let k1 := s.sys.drawCtr + drawsFor s.cfg s.sys.mem .word s.sregs.ss s.regs.sp
    let k2 := k1 + drawsFor s.cfg s.sys.mem .word s.sregs.ss (s.regs.sp + 2)
    t.biu.pc = heldVal .word s.sregs.ss s.regs.sp s ∧ t.biu.queue = [] ∧ t.biu.fetchState = .idle ∧
      t.sregs = { s.sregs with cs := heldFrom s.cfg s.sys.mem k1 .word s.sregs.ss (s.regs.sp + 2) } ∧
      t.flags = Flags.ofWord (heldFrom s.cfg s.sys.mem k2 .word s.sregs.ss (s.regs.sp + 4)) ∧
      t.regs = { s.regs with sp := s.regs.sp + 6 } ∧ t.eu = s.eu ∧ t.cfg = s.cfg ∧ t.host.history = s.host.history ∧
      t.host.callStack = s.host.callStack.tail ∧ t.agenda = s.agenda ∧ t.Quiet ∧ ∃ d, t.sys = { s.sys with drawCtr := d } := by
  have q0 := suspendFetch_isQuiet q
  have h1 := pop_spec q0
  have r1 := pop_busOnly_regs (suspendFetch s)
  have q1 := pop_quiet q0
  have y1 := pop_sys q0
  have a4 := pop_eu q0
  simp only [heldVal, suspendFetch_regs, suspendFetch_sregs, suspendFetch_flags, suspendFetch_cfg, suspendFetch_eu, suspendFetch_host,
    suspendFetch_agenda, suspendFetch_sys_quiet q.2] at h1 r1 y1 a4
  have h2 := pop_spec q1
  have r2 := pop_busOnly_regs (pop (suspendFetch s)).2
  have q2 := pop_quiet q1
  have y2 := pop_sys q1
  have b4 := pop_eu q1
  have h3 := pop_spec q2
  have r3 := pop_busOnly_regs (pop (pop (suspendFetch s)).2).2
  have q3 := pop_quiet q2
  have y3 := pop_sys q2
  have c4 := pop_eu q2
  have e : returnFromInterrupt s = popCall (setFlags (Flags.ofWord (pop (pop (pop (suspendFetch s)).2).2).1)
    (setCsIp (pop (pop (suspendFetch s)).2).1 (pop (suspendFetch s)).1 (pop (pop (pop (suspendFetch s)).2).2).2)) := rfl
  rw [e]
  generalize (pop (pop (pop (suspendFetch s)).2).2).2 = u3 at *
  generalize (pop (pop (pop (suspendFetch s)).2).2).1 = w3 at *
  generalize (pop (pop (suspendFetch s)).2).2 = u2 at *
  generalize (pop (pop (suspendFetch s)).2).1 = w2 at *
  generalize (pop (suspendFetch s)).2 = u1 at *
  generalize (pop (suspendFetch s)).1 = w1 at *
  obtain ⟨a1, a2, a3, -, a6, a7, a8, a9⟩ := r1
  obtain ⟨b1, b2, b3, -, b6, b7, b8, b9⟩ := r2
  obtain ⟨c1, c2, c3, -, c6, c7, c8, c9⟩ := r3
  have p4 : s.regs.sp + 2 + 2 = s.regs.sp + 4 := by rw [BitVec.add_assoc]; rfl
  have p6 : s.regs.sp + 4 + 2 = s.regs.sp + 6 := by rw [BitVec.add_assoc]; rfl
  simp only [popCall_biu, popCall_sregs, popCall_flags, popCall_regs, popCall_eu, popCall_cfg, popCall_host, popCall_agenda,
    popCall_sys, setFlags_biu, setFlags_sregs, setFlags_flags, setFlags_regs, setFlags_eu, setFlags_cfg, setFlags_host,
    setFlags_agenda, setFlags_sys, setCsIp_pc, setCsIp_queue, setCsIp_fetchState, setCsIp_sregs, setCsIp_regs, setCsIp_eu,
    setCsIp_cfg, setCsIp_host, setCsIp_agenda, setCsIp_sys_quiet _ _ q3.2]
  refine ⟨h1.1, trivial, trivial, ?_, ?_, ?_, c4.trans (b4.trans a4), c3.trans (b3.trans a3), c7.trans (b7.trans a7), ?_,
    c9.trans (b9.trans a9), ?_, ?_⟩
  · rw [c1, b1, a1, h2.1, heldVal, a3, y1, a1, h1.2.1]
  · rw [h3.1, heldVal, b3, a3, y2, y1, b1, a1, a3, h2.2.1, h1.2.1, p4]
  · rw [c6, b6, a6, p4, p6]
  · rw [c8, b8, a8]
  · exact ⟨(setCsIp_interleave w2 w1 u3).trans q3.1, setCsIp_planned w2 w1 u3⟩
  · exact ⟨_, y3.trans (by rw [y2, y1])⟩

end Sys2Proof.Machine
end

