-- ==== Sys2Proof/Laws/Peek.lean ====
section
/-!
SUPPORT. Laws/Peek.lean: what a disassembly peek can answer, and that it reads the instruction stream (R59, R88).
-/
namespace Sys2Proof.Machine

/-! ### The bytes it reads -/

theorem memStream_length (c : Config) (cs : Word) (n : Nat) (off : Word) (y : Sys) : (memStream c cs n off y).length = n := by
  induction n generalizing off y with
  | zero => rfl
  | succ n ih => simp [memStream, ih]

/-- Where memory holds a byte, that byte is read. -/
theorem memStream_getElem? {c : Config} {cs : Word} {n k : Nat} {off : Word} {y : Sys} {b : Byte} (h : k < n)
    (hb : peek c y.mem (phys cs (off + BitVec.ofNat 16 k)) = some b) : (memStream c cs n off y)[k]? = some b := by
  induction n generalizing k off y with
  | zero => omega
  | succ n ih =>
    rw [memStream]
    cases k with
    | zero =>
      rw [show off + BitVec.ofNat 16 0 = off by simp] at hb
      simp [readByte_spec, heldByte, hb]
    | succ k =>
      rw [List.getElem?_cons_succ]
      refine ih (by omega) ?_
      rw [readByte_spec, ← hb, BitVec.ofNat_add, BitVec.add_comm (BitVec.ofNat 16 k), ← BitVec.add_assoc]
      rfl

/-- Bytes that stand next in the instruction stream are the first that a peek reads. -/
theorem streamBytes_of_streamAt {s : State} {bs : List Byte} {n : Nat} (h : StreamAt s bs) (hn : bs.length ≤ n) :
    bs <+: streamBytes n s := by
  rw [List.prefix_iff_getElem?]
  intro k hk
  have e := h k hk
  rw [List.getElem?_eq_getElem hk] at e
  rw [← e]
  unfold streamByte at e ⊢
  unfold streamBytes
  split at e
  · rw [if_pos ‹_›, List.getElem?_append_left ‹_›]
  · rw [if_neg ‹_›, List.getElem?_append_right (by omega)]
    rw [e]
    exact memStream_getElem? (by omega) e

/-! ### What it answers -/

/-- A prefix byte within the limit: the peek goes on behind it with the byte in its set (R82). -/
theorem peekFrom_prefix {cs ip : Word} {p : Prefixes} {b : Byte} {bs : List Byte} {f : Prefixes → Prefixes} (h : prefixByte b = some f)
    (k : p.count < maxPrefixes) : peekFrom cs ip p (b :: bs) = peekFrom cs ip { f p with count := p.count + 1 } bs := by
  rw [peekFrom, h]
  simp only
  rw [if_neg (by omega)]

/-- One prefix byte too many (R82). -/
theorem peekFrom_limit {cs ip : Word} {p : Prefixes} {b : Byte} {bs : List Byte} (h : (prefixByte b).isSome = true)
    (k : maxPrefixes ≤ p.count) : peekFrom cs ip p (b :: bs) = .instructionDecodeError := by
  obtain ⟨f, h⟩ := Option.isSome_iff_exists.1 h
  rw [peekFrom, h]
  simp only
  rw [if_pos (by omega)]

/-- An opcode byte: what the decoder takes from the front of the bytes, with its size (R82, R86, R88). -/
theorem peekFrom_decode {cs ip : Word} {p : Prefixes} {b : Byte} {bs taken rest : List Byte} {i : Instr} (h : prefixByte b = none)
    (d : decode (b :: bs) = some (i, rest)) (t : b :: bs = taken ++ rest) (k : p.count + taken.length ≤ maxInsnLen) :
    peekFrom cs ip p (b :: bs) = .insn (Decoded.ofBytes cs ip p taken (p.count + taken.length) i) := by
  have n : (b :: bs).length - rest.length = taken.length := by rw [t]; simp
  rw [peekFrom, h]
  simp only [d, n]
  rw [if_neg (by omega), t, List.take_left]

end Sys2Proof.Machine
end

