-- ==== Sys2Proof/Laws/PerInstr.lean ====
section
/-!
SUPPORT. Laws/PerInstr.lean: the per-instruction family F: every instruction, whatever its fields, encodes to one to six bytes, the longest
unprefixed length of R99.
-/
namespace Sys2Proof.Laws.F

open Sys2Proof

/-- The encoding of an instruction has at least its opcode byte and at most six bytes (R99). -/
def Statement (i : Instr) : Prop := 1 ≤ (encode i).length ∧ (encode i).length ≤ 6

/-! ### The parts of an encoding -/

@[simp] theorem encodeWord_length (v : Word) : (encodeWord v).length = 2 := rfl

theorem encodeImm_length (i : Imm) : 1 ≤ (encodeImm i).length ∧ (encodeImm i).length ≤ 2 := by
  cases i <;> simp [encodeImm]

theorem encodeMem_length (r : Reg) (m : MemOp) : 1 ≤ (encodeMem r m).length ∧ (encodeMem r m).length ≤ 3 := by
  cases m <;> simp [encodeMem]

theorem encodeRm_length (r : Reg) (rm : Rm) : 1 ≤ (encodeRm r rm).length ∧ (encodeRm r rm).length ≤ 3 := by
  cases rm with
  | reg q => simp [encodeRm]
  | mem m => exact encodeMem_length r m

/-- An opcode byte before a part of one to five bytes. -/
theorem cons_length {b : Byte} {l : List Byte} (h : l.length ≤ 5) : 1 ≤ (b :: l).length ∧ (b :: l).length ≤ 6 := by
  simp only [List.length_cons]
  omega

theorem consMem_length (b : Byte) (r : Reg) (m : MemOp) : 1 ≤ (b :: encodeMem r m).length ∧ (b :: encodeMem r m).length ≤ 6 :=
  cons_length (by have := encodeMem_length r m; omega)

theorem consRm_length (b : Byte) (r : Reg) (rm : Rm) : 1 ≤ (b :: encodeRm r rm).length ∧ (b :: encodeRm r rm).length ≤ 6 :=
  cons_length (by have := encodeRm_length r rm; omega)

theorem consRmImm_length (b : Byte) (r : Reg) (rm : Rm) (i : Imm) :
    1 ≤ (b :: (encodeRm r rm ++ encodeImm i)).length ∧ (b :: (encodeRm r rm ++ encodeImm i)).length ≤ 6 :=
  cons_length (by have := encodeRm_length r rm; have := encodeImm_length i; simp only [List.length_append]; omega)

theorem consImm_length (b : Byte) (i : Imm) : 1 ≤ (b :: encodeImm i).length ∧ (b :: encodeImm i).length ≤ 6 :=
  cons_length (by have := encodeImm_length i; omega)

theorem encodeAlu_length (k : Reg) (f : AluForm) : 1 ≤ (encodeAlu k f).length ∧ (encodeAlu k f).length ≤ 6 := by
  cases f with
  | rmReg d w rm r => exact consRm_length _ r rm
  | acc i => exact consImm_length _ i
  | rmImm alt rm i => exact consRmImm_length _ k rm i
  | rmImm8s rm i => exact consRmImm_length _ k rm (.byte i)

theorem encodeInc_length (k : Reg) (f : IncForm) : 1 ≤ (encodeInc k f).length ∧ (encodeInc k f).length ≤ 6 := by
  cases f with
  | reg r => simp [encodeInc]
  | rm w rm => exact consRm_length _ k rm

theorem encodeTest_length (f : TestForm) : 1 ≤ (encodeTest f).length ∧ (encodeTest f).length ≤ 6 := by
  cases f with
  | rmReg w rm r => exact consRm_length _ r rm
  | acc i => exact consImm_length _ i
  | rmImm alt rm i => exact consRmImm_length _ _ rm i

theorem encodePort_length (o : Nat) (w : Width) (p : PortOp) : 1 ≤ (encodePort o w p).length ∧ (encodePort o w p).length ≤ 6 := by
  cases p <;> simp [encodePort]

/-- One byte. -/
theorem one_length (b : Byte) : 1 ≤ [b].length ∧ [b].length ≤ 6 := by simp

/-- Two bytes. -/
theorem two_length (b c : Byte) : 1 ≤ [b, c].length ∧ [b, c].length ≤ 6 := by simp

/-- An opcode byte and a word. -/
theorem word_length (b : Byte) (v : Word) : 1 ≤ (b :: encodeWord v).length ∧ (b :: encodeWord v).length ≤ 6 := by simp

/-- An opcode byte and two words. -/
theorem far_length (b : Byte) (v u : Word) :
    1 ≤ (b :: (encodeWord v ++ encodeWord u)).length ∧ (b :: (encodeWord v ++ encodeWord u)).length ≤ 6 := by simp

/-! ### One lemma per constructor -/

theorem segEs : Statement .segEs := one_length _
theorem segCs : Statement .segCs := one_length _
theorem segSs : Statement .segSs := one_length _
theorem segDs : Statement .segDs := one_length _
theorem lock (alt : Bool) : Statement (.lock alt) := one_length _
theorem repne : Statement .repne := one_length _
theorem rep : Statement .rep := one_length _
theorem wait : Statement .wait := one_length _
theorem movRmReg (d : Dir) (w : Width) (rm : Rm) (r : Reg) : Statement (.movRmReg d w rm r) := consRm_length _ _ rm
theorem movFromSreg (rm : Rm) (sr : SReg) : Statement (.movFromSreg rm sr) := consRm_length _ _ rm
theorem movToSreg (sr : SReg) (rm : Rm) : Statement (.movToSreg sr rm) := consRm_length _ _ rm
theorem movMoffs (store : Bool) (w : Width) (off : BitVec 16) : Statement (.movMoffs store w off) := word_length _ off
theorem movRegImm (r : Reg) (i : Imm) : Statement (.movRegImm r i) := consImm_length _ i
theorem movRmImm (ext : Reg) (rm : Rm) (i : Imm) : Statement (.movRmImm ext rm i) := consRmImm_length _ ext rm i
theorem pushReg (r : Reg) : Statement (.pushReg r) := one_length _
theorem pushSreg (sr : SReg) : Statement (.pushSreg sr) := one_length _
theorem pushRm (alt : Bool) (rm : Rm) : Statement (.pushRm alt rm) := consRm_length _ _ rm
theorem popReg (r : Reg) : Statement (.popReg r) := one_length _
theorem popSreg (sr : SReg) : Statement (.popSreg sr) := one_length _
theorem popRm (ext : Reg) (rm : Rm) : Statement (.popRm ext rm) := consRm_length _ _ rm
theorem pushf : Statement .pushf := one_length _
theorem popf : Statement .popf := one_length _
theorem xchgRm (w : Width) (rm : Rm) (r : Reg) : Statement (.xchgRm w rm r) := consRm_length _ _ rm
theorem xchgAx (r : Reg) : Statement (.xchgAx r) := one_length _
theorem inp (w : Width) (p : PortOp) : Statement (.inp w p) := encodePort_length _ w p
theorem out (w : Width) (p : PortOp) : Statement (.out w p) := encodePort_length _ w p
theorem xlat : Statement .xlat := one_length _
theorem lea (r : Reg) (m : MemOp) : Statement (.lea r m) := consMem_length _ r m
theorem lds (r : Reg) (m : MemOp) : Statement (.lds r m) := consMem_length _ r m
theorem les (r : Reg) (m : MemOp) : Statement (.les r m) := consMem_length _ r m
theorem lahf : Statement .lahf := one_length _
theorem sahf : Statement .sahf := one_length _
theorem add (f : AluForm) : Statement (.add f) := encodeAlu_length _ f
theorem adc (f : AluForm) : Statement (.adc f) := encodeAlu_length _ f
theorem sub (f : AluForm) : Statement (.sub f) := encodeAlu_length _ f
theorem sbb (f : AluForm) : Statement (.sbb f) := encodeAlu_length _ f
theorem cmp (f : AluForm) : Statement (.cmp f) := encodeAlu_length _ f
theorem inc (f : IncForm) : Statement (.inc f) := encodeInc_length _ f
theorem dec (f : IncForm) : Statement (.dec f) := encodeInc_length _ f
theorem neg (w : Width) (rm : Rm) : Statement (.neg w rm) := consRm_length _ _ rm
theorem mul (w : Width) (rm : Rm) : Statement (.mul w rm) := consRm_length _ _ rm
theorem imul (w : Width) (rm : Rm) : Statement (.imul w rm) := consRm_length _ _ rm
theorem div (w : Width) (rm : Rm) : Statement (.div w rm) := consRm_length _ _ rm
theorem idiv (w : Width) (rm : Rm) : Statement (.idiv w rm) := consRm_length _ _ rm
theorem daa : Statement .daa := one_length _
theorem das : Statement .das := one_length _
theorem aaa : Statement .aaa := one_length _
theorem aas : Statement .aas := one_length _
theorem aam (i : BitVec 8) : Statement (.aam i) := two_length _ _
theorem aad (i : BitVec 8) : Statement (.aad i) := two_length _ _
theorem cbw : Statement .cbw := one_length _
theorem cwd : Statement .cwd := one_length _
theorem salc : Statement .salc := one_length _
theorem and (f : AluForm) : Statement (.and f) := encodeAlu_length _ f
theorem or (f : AluForm) : Statement (.or f) := encodeAlu_length _ f
theorem xor (f : AluForm) : Statement (.xor f) := encodeAlu_length _ f
theorem test (f : TestForm) : Statement (.test f) := encodeTest_length f
theorem not (w : Width) (rm : Rm) : Statement (.not w rm) := consRm_length _ _ rm
theorem rol (w : Width) (c : ShiftCount) (rm : Rm) : Statement (.rol w c rm) := consRm_length _ _ rm
theorem ror (w : Width) (c : ShiftCount) (rm : Rm) : Statement (.ror w c rm) := consRm_length _ _ rm
theorem rcl (w : Width) (c : ShiftCount) (rm : Rm) : Statement (.rcl w c rm) := consRm_length _ _ rm
theorem rcr (w : Width) (c : ShiftCount) (rm : Rm) : Statement (.rcr w c rm) := consRm_length _ _ rm
theorem shl (w : Width) (c : ShiftCount) (rm : Rm) : Statement (.shl w c rm) := consRm_length _ _ rm
theorem shr (w : Width) (c : ShiftCount) (rm : Rm) : Statement (.shr w c rm) := consRm_length _ _ rm
theorem setmo (w : Width) (c : ShiftCount) (rm : Rm) : Statement (.setmo w c rm) := consRm_length _ _ rm
theorem sar (w : Width) (c : ShiftCount) (rm : Rm) : Statement (.sar w c rm) := consRm_length _ _ rm
theorem movsb : Statement .movsb := one_length _
theorem movsw : Statement .movsw := one_length _
theorem cmpsb : Statement .cmpsb := one_length _
theorem cmpsw : Statement .cmpsw := one_length _
theorem scasb : Statement .scasb := one_length _
theorem scasw : Statement .scasw := one_length _
theorem lodsb : Statement .lodsb := one_length _
theorem lodsw : Statement .lodsw := one_length _
theorem stosb : Statement .stosb := one_length _
theorem stosw : Statement .stosw := one_length _
theorem jmpShort (rel : BitVec 8) : Statement (.jmpShort rel) := two_length _ _
theorem jmpNear (rel : BitVec 16) : Statement (.jmpNear rel) := word_length _ rel
theorem jmpFar (off seg : BitVec 16) : Statement (.jmpFar off seg) := far_length _ off seg
theorem jmpRm (rm : Rm) : Statement (.jmpRm rm) := consRm_length _ _ rm
theorem jmpMem (m : MemOp) : Statement (.jmpMem m) := consMem_length _ _ m
theorem callNear (rel : BitVec 16) : Statement (.callNear rel) := word_length _ rel
theorem callFar (off seg : BitVec 16) : Statement (.callFar off seg) := far_length _ off seg
theorem callRm (rm : Rm) : Statement (.callRm rm) := consRm_length _ _ rm
theorem callMem (m : MemOp) : Statement (.callMem m) := consMem_length _ _ m
theorem ret (alt : Bool) : Statement (.ret alt) := one_length _
theorem retImm (alt : Bool) (n : BitVec 16) : Statement (.retImm alt n) := word_length _ n
theorem retf (alt : Bool) : Statement (.retf alt) := one_length _
theorem retfImm (alt : Bool) (n : BitVec 16) : Statement (.retfImm alt n) := word_length _ n
theorem jo (alt : Bool) (rel : BitVec 8) : Statement (.jo alt rel) := two_length _ _
theorem jno (alt : Bool) (rel : BitVec 8) : Statement (.jno alt rel) := two_length _ _
theorem jb (alt : Bool) (rel : BitVec 8) : Statement (.jb alt rel) := two_length _ _
theorem jae (alt : Bool) (rel : BitVec 8) : Statement (.jae alt rel) := two_length _ _
theorem je (alt : Bool) (rel : BitVec 8) : Statement (.je alt rel) := two_length _ _
theorem jne (alt : Bool) (rel : BitVec 8) : Statement (.jne alt rel) := two_length _ _
theorem jbe (alt : Bool) (rel : BitVec 8) : Statement (.jbe alt rel) := two_length _ _
theorem ja (alt : Bool) (rel : BitVec 8) : Statement (.ja alt rel) := two_length _ _
theorem js (alt : Bool) (rel : BitVec 8) : Statement (.js alt rel) := two_length _ _
theorem jns (alt : Bool) (rel : BitVec 8) : Statement (.jns alt rel) := two_length _ _
theorem jp (alt : Bool) (rel : BitVec 8) : Statement (.jp alt rel) := two_length _ _
theorem jnp (alt : Bool) (rel : BitVec 8) : Statement (.jnp alt rel) := two_length _ _
theorem jl (alt : Bool) (rel : BitVec 8) : Statement (.jl alt rel) := two_length _ _
theorem jge (alt : Bool) (rel : BitVec 8) : Statement (.jge alt rel) := two_length _ _
theorem jle (alt : Bool) (rel : BitVec 8) : Statement (.jle alt rel) := two_length _ _
theorem jg (alt : Bool) (rel : BitVec 8) : Statement (.jg alt rel) := two_length _ _
theorem loop (rel : BitVec 8) : Statement (.loop rel) := two_length _ _
theorem loope (rel : BitVec 8) : Statement (.loope rel) := two_length _ _
theorem loopne (rel : BitVec 8) : Statement (.loopne rel) := two_length _ _
theorem jcxz (rel : BitVec 8) : Statement (.jcxz rel) := two_length _ _
theorem int3 : Statement .int3 := one_length _
theorem int (n : BitVec 8) : Statement (.int n) := two_length _ _
theorem into : Statement .into := one_length _
theorem iret : Statement .iret := one_length _
theorem clc : Statement .clc := one_length _
theorem stc : Statement .stc := one_length _
theorem cmc : Statement .cmc := one_length _
theorem cld : Statement .cld := one_length _
theorem std : Statement .std := one_length _
theorem cli : Statement .cli := one_length _
theorem sti : Statement .sti := one_length _
theorem hlt : Statement .hlt := one_length _
theorem esc (op : Reg) (ext : Reg) (rm : Rm) : Statement (.esc op ext rm) := consRm_length _ _ rm
theorem nop : Statement .nop := one_length _
theorem popCs : Statement .popCs := one_length _
theorem movSregHigh (d : Dir) (n : BitVec 2) (rm : Rm) : Statement (.movSregHigh d n rm) := consRm_length _ _ rm
theorem movCs (rm : Rm) : Statement (.movCs rm) := consRm_length _ _ rm
theorem leaRegister (r rm : Reg) : Statement (.leaRegister r rm) := two_length _ _
theorem lesRegister (r rm : Reg) : Statement (.lesRegister r rm) := two_length _ _
theorem ldsRegister (r rm : Reg) : Statement (.ldsRegister r rm) := two_length _ _
theorem fe2 (rm : Rm) : Statement (.fe2 rm) := consRm_length _ _ rm
theorem fe3 (rm : Rm) : Statement (.fe3 rm) := consRm_length _ _ rm
theorem fe4 (rm : Rm) : Statement (.fe4 rm) := consRm_length _ _ rm
theorem fe5 (rm : Rm) : Statement (.fe5 rm) := consRm_length _ _ rm
theorem fe6 (rm : Rm) : Statement (.fe6 rm) := consRm_length _ _ rm
theorem fe7 (rm : Rm) : Statement (.fe7 rm) := consRm_length _ _ rm
theorem callRegisterFar (rm : Reg) : Statement (.callRegisterFar rm) := two_length _ _
theorem jmpRegisterFar (rm : Reg) : Statement (.jmpRegisterFar rm) := two_length _ _

end Sys2Proof.Laws.F
end

