-- ==== Sys2Proof/Tests/Slice0.lean ====
section
/-!
SUPPORT. Tests/Slice0.lean: the model's own tests.  The well-formedness smoke, one word per constructor written out from the spec's
encodings (30_encoding.md R98 to R113), vectors of 95_test_vectors.md as single steps, and a witness for the hypotheses of every
statement.  Expected results are the spec's, never the model's own answer.
-/
set_option Elab.async false

namespace Sys2Proof.Tests

open Sys2Proof.Machine

/-! ### Small states -/

/-- Bytes in memory from an address on. -/
def mem : Nat → List Byte → State → State
  | _, [], s => s
  | a, b :: bs, s => mem (a + 1) bs { s with sys := { s.sys with mem := s.sys.mem.set a b } }

/-- The start state S0 of 95_test_vectors.md §0. -/
def s0 : State :=
  { State.reset with
    sregs := ⟨0, 0, 0, 0⟩, regs := { Regs.const 0 with sp := 0x400 }, biu := { State.reset.biu with pc := 0x100 } }

/-- Premise AX. -/
def ax (v : Word) (s : State) : State := { s with regs := { s.regs with ax := v } }

/-- Premise BX. -/
def bx (v : Word) (s : State) : State := { s with regs := { s.regs with bx := v } }

/-- Premise CX. -/
def cx (v : Word) (s : State) : State := { s with regs := { s.regs with cx := v } }

/-- Premise DX. -/
def dx (v : Word) (s : State) : State := { s with regs := { s.regs with dx := v } }

/-- Premise SP. -/
def sp (v : Word) (s : State) : State := { s with regs := { s.regs with sp := v } }

/-- Premise BP. -/
def bp (v : Word) (s : State) : State := { s with regs := { s.regs with bp := v } }

/-- Premise SI. -/
def si (v : Word) (s : State) : State := { s with regs := { s.regs with si := v } }

/-- Premise DI. -/
def di (v : Word) (s : State) : State := { s with regs := { s.regs with di := v } }

/-- Premise ES. -/
def es (v : Word) (s : State) : State := { s with sregs := { s.sregs with es := v } }

/-- Premise CS. -/
def cs (v : Word) (s : State) : State := { s with sregs := { s.sregs with cs := v } }

/-- Premise SS. -/
def ss (v : Word) (s : State) : State := { s with sregs := { s.sregs with ss := v } }

/-- Premise DS. -/
def ds (v : Word) (s : State) : State := { s with sregs := { s.sregs with ds := v } }

/-- Premise CF. -/
def cf (v : Bool) (s : State) : State := { s with flags := { s.flags with cf := v } }

/-- Premise AF. -/
def af (v : Bool) (s : State) : State := { s with flags := { s.flags with af := v } }

/-- Premise ZF. -/
def zf (v : Bool) (s : State) : State := { s with flags := { s.flags with zf := v } }

/-- Premise OF. -/
def of_ (v : Bool) (s : State) : State := { s with flags := { s.flags with of_ := v } }

/-- Premise FLAGS. -/
def fl (v : Word) (s : State) : State := { s with flags := Flags.ofWord v }

/-- The execution unit changed. -/
def eu (f : Eu → Eu) (s : State) : State := { s with eu := f s.eu }

/-- A prefix set in force, the prefix bytes consumed (R82). -/
def pre (p : Prefixes) (s : State) : State := eu (fun e => { e with phase := .prefixed, insnStart := 0xFF, prefixes := p }) s

/-- One F3h consumed (R222). -/
def repe (s : State) : State := pre { Prefixes.empty with repe := true, count := 1 } s

/-- One F2h consumed (R222). -/
def repne (s : State) : State := pre { Prefixes.empty with repne := true, count := 1 } s

/-- A segment override consumed (R221). -/
def seg (r : SReg) (s : State) : State := pre { Prefixes.empty with seg := some r, count := 1 } s

/-- One step from the bytes at 0100h reaches a state with a property. -/
def runs (bs : List Byte) (s : State) (p : State → Bool) : Bool :=
  match step (mem 0x100 bs s) with
  | .next t => p t
  | .fault _ => false
  | .refused _ => false

/-- One step from the bytes at 0100h is refused. -/
def refuses (bs : List Byte) (s : State) (r : Refusal) : Bool :=
  match step (mem 0x100 bs s) with
  | .next _ => false
  | .fault _ => false
  | .refused q => q == r

/-- An outcome is a next state. -/
def isNext {α : Type} (r : Res α) : Bool :=
  match r with
  | .next _ => true
  | .fault _ => false
  | .refused _ => false

/-- The fault an outcome answers. -/
def faultOf {α : Type} (r : Res α) : Option Fault :=
  match r with
  | .next _ => none
  | .fault f => some f
  | .refused _ => none

/-- One step from the bytes at 0100h ends with the CPU holding a fault, which the step after it answers (R235). -/
def faults (bs : List Byte) (s : State) (f : Fault) : Bool :=
  match step (mem 0x100 bs s) with
  | .next t => t.eu.fault == some f && faultOf (step t) == some f
  | .fault _ => false
  | .refused _ => false

/-- The six status flags in the order of 95_test_vectors.md. -/
def arith (t : State) (cf pf af zf sf of_ : Bool) : Bool :=
  t.flags.cf == cf && t.flags.pf == pf && t.flags.af == af && t.flags.zf == zf && t.flags.sf == sf && t.flags.of_ == of_

/-- The status flags but AF, a draw after a logical operation. -/
def logic (t : State) (cf pf zf sf of_ : Bool) : Bool :=
  t.flags.cf == cf && t.flags.pf == pf && t.flags.zf == zf && t.flags.sf == sf && t.flags.of_ == of_

/-- AL, AH. -/
def al (t : State) : Byte := loByte t.regs.ax

/-- AH. -/
def ah (t : State) : Byte := hiByte t.regs.ax

/-- FLAGS as a word. -/
def flw (t : State) : Word := t.flags.toWord

/-- The byte stored at an address. -/
def b (t : State) (a : Nat) : Byte := t.sys.mem.get a

/-- The word stored at an address. -/
def wd (t : State) (a : Nat) : Word := wordOf (b t a) (b t (a + 1))

/-- CS:IP. -/
def at_ (t : State) (seg off : Word) : Bool := t.sregs.cs == seg && ip t == off

/-- What the divide-error rows of 95_test_vectors.md §2.3 leave, with the vector F000:1234 and FLAGS = F202. -/
def trap0 (t : State) : Bool :=
  at_ t 0xF000 0x1234 && t.regs.sp == 0x3FA && wd t 0x3FA == 0x102 && wd t 0x3FC == 0 && wd t 0x3FE == 0xF202 && flw t == 0xF002

/-- The premise of the divide-error rows. -/
def div0 (s : State) : State := mem 0 [0x34, 0x12, 0x00, 0xF0] (fl 0xF202 s)

/-! ### Well-formedness: one ill-formed term per check, which the check refuses -/

/-- R102: `[BP]` without a displacement has no encoding. -/
theorem test_wf_bp : (Instr.lea .r0 (.base .bp)).wellFormed = false ∧ (Instr.lea .r0 (.disp8 .bp 0)).wellFormed = true := by decide

/-- R102, in an r/m operand of each form type. -/
theorem test_wf_forms :
    (Instr.not .byte (.mem (.base .bp))).wellFormed = false ∧ (Instr.inc (.rm .word (.mem (.base .bp)))).wellFormed = false ∧
      (Instr.test (.rmReg .byte (.mem (.base .bp)) .r0)).wellFormed = false ∧
      (Instr.add (.rmReg .toRm .byte (.mem (.base .bp)) .r0)).wellFormed = false := by decide

/-- R138: 82h is the alias of the byte form 80h only. -/
theorem test_wf_alias : (Instr.add (.rmImm true (.reg .r0) (.word 1))).wellFormed = false := by decide

/-- R113: MOV CS and POP CS are no forms of `movToSreg` and `popSreg`. -/
theorem test_wf_cs : (Instr.movToSreg .cs (.reg .r0)).wellFormed = false ∧ (Instr.popSreg .cs).wellFormed = false := by decide

/-- R129: 90h is NOP. -/
theorem test_wf_nop : (Instr.xchgAx .r0).wellFormed = false := by decide

/-! ### Decoding: a word of every constructor, written out from the encoding tables -/

/-- R108. -/
theorem test_decode_segEs : decode [0x26] = some (.segEs, []) := by decide +kernel

/-- R108. -/
theorem test_decode_segCs : decode [0x2E] = some (.segCs, []) := by decide +kernel

/-- R108. -/
theorem test_decode_segSs : decode [0x36] = some (.segSs, []) := by decide +kernel

/-- R108. -/
theorem test_decode_segDs : decode [0x3E] = some (.segDs, []) := by decide +kernel

/-- R108, R112. -/
theorem test_decode_lock : decode [0xF1] = some (.lock true, []) := by decide +kernel

/-- R108. -/
theorem test_decode_repne : decode [0xF2] = some (.repne, []) := by decide +kernel

/-- R108. -/
theorem test_decode_rep : decode [0xF3] = some (.rep, []) := by decide +kernel

/-- R108. -/
theorem test_decode_wait : decode [0x9B] = some (.wait, []) := by decide +kernel

/-- 88h-8Bh: d = 1, w = 0; ModRM 01 011 110. -/
theorem test_decode_movRmReg : decode [0x8A, 0x5E, 0xFE] = some (.movRmReg .toReg .byte (.mem (.disp8 .bp 0xFE)) .r3, []) := by decide +kernel

/-- 8Ch: ModRM 11 011 001. -/
theorem test_decode_movFromSreg : decode [0x8C, 0xD9] = some (.movFromSreg (.reg .r1) .ds, []) := by decide +kernel

/-- 8Eh: ModRM 00 010 110, disp16. -/
theorem test_decode_movToSreg : decode [0x8E, 0x16, 0x34, 0x12] = some (.movToSreg .ss (.mem (.direct 0x1234)), []) := by decide +kernel

/-- A0h-A3h. -/
theorem test_decode_movMoffs : decode [0xA3, 0x34, 0x12] = some (.movMoffs true .word 0x1234, []) := by decide +kernel

/-- B8h + 7. -/
theorem test_decode_movRegImm : decode [0xBF, 0x34, 0x12] = some (.movRegImm .r7 (.word 0x1234), []) := by decide +kernel

/-- C6h: reg is ignored (R112). -/
theorem test_decode_movRmImm : decode [0xC6, 0xC8, 0x05] = some (.movRmImm .r1 (.reg .r0) (.byte 5), []) := by decide +kernel

/-- 50h + 4. -/
theorem test_decode_pushReg : decode [0x54] = some (.pushReg .r4, []) := by decide +kernel

/-- 000 01 110. -/
theorem test_decode_pushSreg : decode [0x0E] = some (.pushSreg .cs, []) := by decide +kernel

/-- FFh /7 (R112). -/
theorem test_decode_pushRm : decode [0xFF, 0xF8] = some (.pushRm true (.reg .r0), []) := by decide +kernel

/-- 58h + 7. -/
theorem test_decode_popReg : decode [0x5F] = some (.popReg .r7, []) := by decide +kernel

/-- 000 10 111. -/
theorem test_decode_popSreg : decode [0x17] = some (.popSreg .ss, []) := by decide +kernel

/-- 8Fh: ModRM 00 000 111. -/
theorem test_decode_popRm : decode [0x8F, 0x07] = some (.popRm .r0 (.mem (.base .bx)), []) := by decide +kernel

/-- R126. -/
theorem test_decode_pushf : decode [0x9C] = some (.pushf, []) := by decide +kernel

/-- R127. -/
theorem test_decode_popf : decode [0x9D] = some (.popf, []) := by decide +kernel

/-- 86h: ModRM 00 000 111. -/
theorem test_decode_xchgRm : decode [0x86, 0x07] = some (.xchgRm .byte (.mem (.base .bx)) .r0, []) := by decide +kernel

/-- 90h + 3. -/
theorem test_decode_xchgAx : decode [0x93] = some (.xchgAx .r3, []) := by decide +kernel

/-- E4h, w = 1. -/
theorem test_decode_inp : decode [0xE5, 0x60] = some (.inp .word (.imm 0x60), []) := by decide +kernel

/-- EEh. -/
theorem test_decode_out : decode [0xEE] = some (.out .byte .dx, []) := by decide +kernel

/-- R132. -/
theorem test_decode_xlat : decode [0xD7] = some (.xlat, []) := by decide +kernel

/-- 8Dh: ModRM 01 000 010. -/
theorem test_decode_lea : decode [0x8D, 0x42, 0xFF] = some (.lea .r0 (.disp8 .bpSi 0xFF), []) := by decide +kernel

/-- C5h: ModRM 00 110 110. -/
theorem test_decode_lds : decode [0xC5, 0x36, 0x00, 0x02] = some (.lds .r6 (.direct 0x200), []) := by decide +kernel

/-- C4h: ModRM 00 111 111. -/
theorem test_decode_les : decode [0xC4, 0x3F] = some (.les .r7 (.base .bx), []) := by decide +kernel

/-- R136. -/
theorem test_decode_lahf : decode [0x9F] = some (.lahf, []) := by decide +kernel

/-- R137. -/
theorem test_decode_sahf : decode [0x9E] = some (.sahf, []) := by decide +kernel

/-- 83h /0. -/
theorem test_decode_add : decode [0x83, 0xC0, 0xFF] = some (.add (.rmImm8s (.reg .r0) 0xFF), []) := by decide +kernel

/-- 000 010 101. -/
theorem test_decode_adc : decode [0x15, 0xFF, 0xFF] = some (.adc (.acc (.word 0xFFFF)), []) := by decide +kernel

/-- 82h /5 (R112). -/
theorem test_decode_sub : decode [0x82, 0xE9, 0x07] = some (.sub (.rmImm true (.reg .r1) (.byte 7)), []) := by decide +kernel

/-- 000 110 11: d = 1, w = 1. -/
theorem test_decode_sbb : decode [0x1B, 0xC3] = some (.sbb (.rmReg .toReg .word (.reg .r3) .r0), []) := by decide +kernel

/-- 80h /7. -/
theorem test_decode_cmp : decode [0x80, 0x3E, 0x00, 0x03, 0x00] = some (.cmp (.rmImm false (.mem (.direct 0x300)) (.byte 0)), []) := by decide +kernel

/-- 40h + 7. -/
theorem test_decode_inc : decode [0x47] = some (.inc (.reg .r7), []) := by decide +kernel

/-- FFh /1. -/
theorem test_decode_dec : decode [0xFF, 0x0F] = some (.dec (.rm .word (.mem (.base .bx))), []) := by decide +kernel

/-- F6h /3. -/
theorem test_decode_neg : decode [0xF6, 0xD8] = some (.neg .byte (.reg .r0), []) := by decide +kernel

/-- F7h /4. -/
theorem test_decode_mul : decode [0xF7, 0xE3] = some (.mul .word (.reg .r3), []) := by decide +kernel

/-- F6h /5. -/
theorem test_decode_imul : decode [0xF6, 0xEB] = some (.imul .byte (.reg .r3), []) := by decide +kernel

/-- F7h /6. -/
theorem test_decode_div : decode [0xF7, 0xF1] = some (.div .word (.reg .r1), []) := by decide +kernel

/-- F6h /7. -/
theorem test_decode_idiv : decode [0xF6, 0xF9] = some (.idiv .byte (.reg .r1), []) := by decide +kernel

/-- R153. -/
theorem test_decode_daa : decode [0x27] = some (.daa, []) := by decide +kernel

/-- R154. -/
theorem test_decode_das : decode [0x2F] = some (.das, []) := by decide +kernel

/-- R155. -/
theorem test_decode_aaa : decode [0x37] = some (.aaa, []) := by decide +kernel

/-- R156. -/
theorem test_decode_aas : decode [0x3F] = some (.aas, []) := by decide +kernel

/-- R157. -/
theorem test_decode_aam : decode [0xD4, 0x0A] = some (.aam 10, []) := by decide +kernel

/-- R158. -/
theorem test_decode_aad : decode [0xD5, 0x10] = some (.aad 16, []) := by decide +kernel

/-- R159. -/
theorem test_decode_cbw : decode [0x98] = some (.cbw, []) := by decide +kernel

/-- R160. -/
theorem test_decode_cwd : decode [0x99] = some (.cwd, []) := by decide +kernel

/-- R161. -/
theorem test_decode_salc : decode [0xD6] = some (.salc, []) := by decide +kernel

/-- 001 000 00. -/
theorem test_decode_and : decode [0x20, 0x07] = some (.and (.rmReg .toRm .byte (.mem (.base .bx)) .r0), []) := by decide +kernel

/-- 000 011 00. -/
theorem test_decode_or : decode [0x0C, 0x80] = some (.or (.acc (.byte 0x80)), []) := by decide +kernel

/-- 81h /6. -/
theorem test_decode_xor : decode [0x81, 0xF1, 0x34, 0x12] = some (.xor (.rmImm false (.reg .r1) (.word 0x1234)), []) := by decide +kernel

/-- F6h /1 (R112). -/
theorem test_decode_test : decode [0xF6, 0xC8, 0x01] = some (.test (.rmImm true (.reg .r0) (.byte 1)), []) := by decide +kernel

/-- F7h /2. -/
theorem test_decode_not : decode [0xF7, 0xD0] = some (.not .word (.reg .r0), []) := by decide +kernel

/-- D0h /0. -/
theorem test_decode_rol : decode [0xD0, 0xC0] = some (.rol .byte .one (.reg .r0), []) := by decide +kernel

/-- D1h /1. -/
theorem test_decode_ror : decode [0xD1, 0xC8] = some (.ror .word .one (.reg .r0), []) := by decide +kernel

/-- D2h /2. -/
theorem test_decode_rcl : decode [0xD2, 0xD0] = some (.rcl .byte .cl (.reg .r0), []) := by decide +kernel

/-- D3h /3. -/
theorem test_decode_rcr : decode [0xD3, 0xDB] = some (.rcr .word .cl (.reg .r3), []) := by decide +kernel

/-- D3h /4. -/
theorem test_decode_shl : decode [0xD3, 0xE0] = some (.shl .word .cl (.reg .r0), []) := by decide +kernel

/-- D0h /5. -/
theorem test_decode_shr : decode [0xD0, 0xE8] = some (.shr .byte .one (.reg .r0), []) := by decide +kernel

/-- D0h /6. -/
theorem test_decode_setmo : decode [0xD0, 0xF0] = some (.setmo .byte .one (.reg .r0), []) := by decide +kernel

/-- D2h /7. -/
theorem test_decode_sar : decode [0xD2, 0xF8] = some (.sar .byte .cl (.reg .r0), []) := by decide +kernel

/-- R178. -/
theorem test_decode_movsb : decode [0xA4] = some (.movsb, []) := by decide +kernel

/-- R178. -/
theorem test_decode_movsw : decode [0xA5] = some (.movsw, []) := by decide +kernel

/-- R179. -/
theorem test_decode_cmpsb : decode [0xA6] = some (.cmpsb, []) := by decide +kernel

/-- R179. -/
theorem test_decode_cmpsw : decode [0xA7] = some (.cmpsw, []) := by decide +kernel

/-- R180. -/
theorem test_decode_scasb : decode [0xAE] = some (.scasb, []) := by decide +kernel

/-- R180. -/
theorem test_decode_scasw : decode [0xAF] = some (.scasw, []) := by decide +kernel

/-- R181. -/
theorem test_decode_lodsb : decode [0xAC] = some (.lodsb, []) := by decide +kernel

/-- R181. -/
theorem test_decode_lodsw : decode [0xAD] = some (.lodsw, []) := by decide +kernel

/-- R182. -/
theorem test_decode_stosb : decode [0xAA] = some (.stosb, []) := by decide +kernel

/-- R182. -/
theorem test_decode_stosw : decode [0xAB] = some (.stosw, []) := by decide +kernel

/-- R187. -/
theorem test_decode_jmpShort : decode [0xEB, 0x03] = some (.jmpShort 3, []) := by decide +kernel

/-- R188. -/
theorem test_decode_jmpNear : decode [0xE9, 0xFD, 0xFF] = some (.jmpNear 0xFFFD, []) := by decide +kernel

/-- R189. -/
theorem test_decode_jmpFar : decode [0xEA, 0x5B, 0xE0, 0x00, 0xF0] = some (.jmpFar 0xE05B 0xF000, []) := by decide +kernel

/-- FFh /4. -/
theorem test_decode_jmpRm : decode [0xFF, 0xE3] = some (.jmpRm (.reg .r3), []) := by decide +kernel

/-- FFh /5. -/
theorem test_decode_jmpMem : decode [0xFF, 0x2E, 0x00, 0x02] = some (.jmpMem (.direct 0x200), []) := by decide +kernel

/-- R192. -/
theorem test_decode_callNear : decode [0xE8, 0x10, 0x00] = some (.callNear 0x10, []) := by decide +kernel

/-- R193. -/
theorem test_decode_callFar : decode [0x9A, 0x00, 0x00, 0x00, 0xF0] = some (.callFar 0 0xF000, []) := by decide +kernel

/-- FFh /2. -/
theorem test_decode_callRm : decode [0xFF, 0xD4] = some (.callRm (.reg .r4), []) := by decide +kernel

/-- FFh /3. -/
theorem test_decode_callMem : decode [0xFF, 0x1E, 0x00, 0x02] = some (.callMem (.direct 0x200), []) := by decide +kernel

/-- R196. -/
theorem test_decode_ret : decode [0xC3] = some (.ret false, []) := by decide +kernel

/-- R197, R112. -/
theorem test_decode_retImm : decode [0xC0, 0x04, 0x00] = some (.retImm true 4, []) := by decide +kernel

/-- R198, R112. -/
theorem test_decode_retf : decode [0xC9] = some (.retf true, []) := by decide +kernel

/-- R199. -/
theorem test_decode_retfImm : decode [0xCA, 0x02, 0x00] = some (.retfImm false 2, []) := by decide +kernel

/-- R107. -/
theorem test_decode_jo : decode [0x70, 0x10] = some (.jo false 0x10, []) := by decide +kernel

/-- R107, R112. -/
theorem test_decode_jno : decode [0x61, 0x10] = some (.jno true 0x10, []) := by decide +kernel

/-- R107. -/
theorem test_decode_jb : decode [0x72, 0x10] = some (.jb false 0x10, []) := by decide +kernel

/-- R107, R112. -/
theorem test_decode_jae : decode [0x63, 0x10] = some (.jae true 0x10, []) := by decide +kernel

/-- R107. -/
theorem test_decode_je : decode [0x74, 0x10] = some (.je false 0x10, []) := by decide +kernel

/-- R107, R112. -/
theorem test_decode_jne : decode [0x65, 0x10] = some (.jne true 0x10, []) := by decide +kernel

/-- R107. -/
theorem test_decode_jbe : decode [0x76, 0x10] = some (.jbe false 0x10, []) := by decide +kernel

/-- R107, R112. -/
theorem test_decode_ja : decode [0x67, 0x10] = some (.ja true 0x10, []) := by decide +kernel

/-- R107. -/
theorem test_decode_js : decode [0x78, 0x10] = some (.js false 0x10, []) := by decide +kernel

/-- R107, R112. -/
theorem test_decode_jns : decode [0x69, 0x10] = some (.jns true 0x10, []) := by decide +kernel

/-- R107. -/
theorem test_decode_jp : decode [0x7A, 0x10] = some (.jp false 0x10, []) := by decide +kernel

/-- R107, R112. -/
theorem test_decode_jnp : decode [0x6B, 0x10] = some (.jnp true 0x10, []) := by decide +kernel

/-- R107. -/
theorem test_decode_jl : decode [0x7C, 0x10] = some (.jl false 0x10, []) := by decide +kernel

/-- R107, R112. -/
theorem test_decode_jge : decode [0x6D, 0x10] = some (.jge true 0x10, []) := by decide +kernel

/-- R107. -/
theorem test_decode_jle : decode [0x7E, 0x10] = some (.jle false 0x10, []) := by decide +kernel

/-- R107, R112. -/
theorem test_decode_jg : decode [0x6F, 0x10] = some (.jg true 0x10, []) := by decide +kernel

/-- R201. -/
theorem test_decode_loop : decode [0xE2, 0xFE] = some (.loop 0xFE, []) := by decide +kernel

/-- R202. -/
theorem test_decode_loope : decode [0xE1, 0xFE] = some (.loope 0xFE, []) := by decide +kernel

/-- R203. -/
theorem test_decode_loopne : decode [0xE0, 0xFE] = some (.loopne 0xFE, []) := by decide +kernel

/-- R204. -/
theorem test_decode_jcxz : decode [0xE3, 0x05] = some (.jcxz 5, []) := by decide +kernel

/-- R206. -/
theorem test_decode_int3 : decode [0xCC] = some (.int3, []) := by decide +kernel

/-- R205. -/
theorem test_decode_int : decode [0xCD, 0x60] = some (.int 0x60, []) := by decide +kernel

/-- R207. -/
theorem test_decode_into : decode [0xCE] = some (.into, []) := by decide +kernel

/-- R208. -/
theorem test_decode_iret : decode [0xCF] = some (.iret, []) := by decide +kernel

/-- R209. -/
theorem test_decode_clc : decode [0xF8] = some (.clc, []) := by decide +kernel

/-- R210. -/
theorem test_decode_stc : decode [0xF9] = some (.stc, []) := by decide +kernel

/-- R211. -/
theorem test_decode_cmc : decode [0xF5] = some (.cmc, []) := by decide +kernel

/-- R212. -/
theorem test_decode_cld : decode [0xFC] = some (.cld, []) := by decide +kernel

/-- R213. -/
theorem test_decode_std : decode [0xFD] = some (.std, []) := by decide +kernel

/-- R214. -/
theorem test_decode_cli : decode [0xFA] = some (.cli, []) := by decide +kernel

/-- R215. -/
theorem test_decode_sti : decode [0xFB] = some (.sti, []) := by decide +kernel

/-- R216. -/
theorem test_decode_hlt : decode [0xF4] = some (.hlt, []) := by decide +kernel

/-- D8h + 1. -/
theorem test_decode_esc : decode [0xD9, 0x07] = some (.esc .r1 .r0 (.mem (.base .bx)), []) := by decide +kernel

/-- R219. -/
theorem test_decode_nop : decode [0x90] = some (.nop, []) := by decide +kernel

/-- R113. -/
theorem test_decode_popCs : decode [0x0F] = some (.popCs, []) := by decide +kernel

/-- 8Eh, reg 4. -/
theorem test_decode_movSregHigh : decode [0x8E, 0xE0] = some (.movSregHigh .toReg 0 (.reg .r0), []) := by decide +kernel

/-- 8Eh, reg 1. -/
theorem test_decode_movCs : decode [0x8E, 0xC8] = some (.movCs (.reg .r0), []) := by decide +kernel

/-- 8Dh, mod 11. -/
theorem test_decode_leaRegister : decode [0x8D, 0xC0] = some (.leaRegister .r0 .r0, []) := by decide +kernel

/-- C4h, mod 11. -/
theorem test_decode_lesRegister : decode [0xC4, 0xC0] = some (.lesRegister .r0 .r0, []) := by decide +kernel

/-- C5h, mod 11. -/
theorem test_decode_ldsRegister : decode [0xC5, 0xC0] = some (.ldsRegister .r0 .r0, []) := by decide +kernel

/-- FEh /2. -/
theorem test_decode_fe2 : decode [0xFE, 0xD0] = some (.fe2 (.reg .r0), []) := by decide +kernel

/-- FEh /3. -/
theorem test_decode_fe3 : decode [0xFE, 0xD8] = some (.fe3 (.reg .r0), []) := by decide +kernel

/-- FEh /4. -/
theorem test_decode_fe4 : decode [0xFE, 0xE0] = some (.fe4 (.reg .r0), []) := by decide +kernel

/-- FEh /5. -/
theorem test_decode_fe5 : decode [0xFE, 0xE8] = some (.fe5 (.reg .r0), []) := by decide +kernel

/-- FEh /6. -/
theorem test_decode_fe6 : decode [0xFE, 0xF0] = some (.fe6 (.reg .r0), []) := by decide +kernel

/-- FEh /7. -/
theorem test_decode_fe7 : decode [0xFE, 0xF8] = some (.fe7 (.reg .r0), []) := by decide +kernel

/-- FFh /3, mod 11. -/
theorem test_decode_callRegisterFar : decode [0xFF, 0xD8] = some (.callRegisterFar .r0, []) := by decide +kernel

/-- FFh /5, mod 11. -/
theorem test_decode_jmpRegisterFar : decode [0xFF, 0xE8] = some (.jmpRegisterFar .r0, []) := by decide +kernel

/-- R98, R102: the displacement comes before the immediate, and the bytes after the instruction are the rest. -/
theorem test_decode_order :
    decode [0xC7, 0x87, 0x34, 0x12, 0x78, 0x56, 0x90] = some (.movRmImm .r0 (.mem (.disp16 .bx 0x1234)) (.word 0x5678), [0x90]) := by
  decide +kernel

/-- R111: the table's word has the opcode in bits 15 to 8. -/
theorem test_table_word : decodeTableWord 16 0x89D8 = some (.movRmReg .toRm .word (.reg .r0) .r3) := by decide +kernel

/-- R99's lengths (95_test_vectors.md §2.15): one, two, three, four, five and six bytes. -/
theorem test_length :
    insnLength 0x90 0 = 1 ∧ insnLength 0x89 0xD8 = 2 ∧ insnLength 0x8B 0x46 = 3 ∧ insnLength 0xF7 0xC0 = 4 ∧
      insnLength 0x9A 0 = 5 ∧ insnLength 0xC7 0x87 = 6 := by decide +kernel

/-! ### Vectors of 95_test_vectors.md, one step each -/

/-- X1: a prefix byte only adds itself. -/
theorem test_segEs :
    runs [0x26] (s0) (fun t => ip t == 0x101 && t.eu.phase == .prefixed && t.eu.prefixes.seg == some .es && t.eu.prefixes.count == 1) = true := by
  decide +kernel

/-- X4: the last override wins. -/
theorem test_segCs :
    runs [0x2E] (seg .es s0) (fun t => t.eu.prefixes.seg == some .cs && t.eu.prefixes.count == 2) = true := by
  decide +kernel

/-- X1. -/
theorem test_segSs :
    runs [0x36] (s0) (fun t => t.eu.prefixes.seg == some .ss) = true := by
  decide +kernel

/-- X1. -/
theorem test_segDs :
    runs [0x3E] (s0) (fun t => t.eu.prefixes.seg == some .ds) = true := by
  decide +kernel

/-- K10. -/
theorem test_lock :
    runs [0xF0] (s0) (fun t => t.eu.prefixes.lock && t.eu.prefixes.count == 1) = true := by
  decide +kernel

/-- X6. -/
theorem test_repne :
    runs [0xF2] (s0) (fun t => t.eu.prefixes.repne && !t.eu.prefixes.repe) = true := by
  decide +kernel

/-- X6: the later of F2h and F3h wins. -/
theorem test_rep :
    runs [0xF3] (repne s0) (fun t => t.eu.prefixes.repe && !t.eu.prefixes.repne) = true := by
  decide +kernel

/-- K9, X3: WAIT counts as a prefix. -/
theorem test_wait :
    runs [0x9B] (s0) (fun t => t.eu.prefixes.wait && t.eu.prefixes.count == 1) = true := by
  decide +kernel

/-- T3: the high byte is at offset 0000. -/
theorem test_movRmReg_1 :
    runs [0x8B, 0x07] (mem 0 [0x12] (mem 0xFFFF [0x34] (bx 0xFFFF s0))) (fun t => t.regs.ax == 0x1234) = true := by
  decide +kernel

/-- T5: SS is the default with BP. -/
theorem test_movRmReg_2 :
    runs [0x8B, 0x46, 0x02] (mem 0x10012 [0xEF, 0xBE] (ss 0x1000 (bp 0x10 s0))) (fun t => t.regs.ax == 0xBEEF) = true := by
  decide +kernel

/-- T8. -/
theorem test_movFromSreg :
    runs [0x8C, 0xC8] (ax 1 s0) (fun t => t.regs.ax == 0) = true := by
  decide +kernel

/-- T9: the boundary is inhibited and the inhibit used up. -/
theorem test_movToSreg :
    runs [0x8E, 0xD8] (eu (fun e => { e with nmiLatch := true }) (ax 0x40 s0)) (fun t => t.sregs.ds == 0x40 && ip t == 0x102 && t.eu.nmiLatch && !t.eu.intInhibit) = true := by
  decide +kernel

/-- X5: MOV AX,CS:[0000h]. -/
theorem test_movMoffs :
    runs [0xA1, 0x00, 0x00] (mem 0x2000 [0x34, 0x12] (mem 0x2100 [0xA1, 0, 0] (seg .cs (cs 0x200 s0)))) (fun t => t.regs.ax == 0x1234) = true := by
  decide +kernel

/-- Scenario A. -/
theorem test_movRegImm :
    runs [0xB8, 0x34, 0x12] (s0) (fun t => t.regs.ax == 0x1234 && ip t == 0x103) = true := by
  decide +kernel

/-- T7. -/
theorem test_movRmImm :
    runs [0xC7, 0x06, 0x80, 0x01, 0x00, 0x02] (s0) (fun t => wd t 0x180 == 0x200) = true := by
  decide +kernel

/-- T10: PUSH SP. -/
theorem test_pushReg_1 :
    runs [0x54] (sp 0x100 s0) (fun t => t.regs.sp == 0xFE && wd t 0xFE == 0xFE) = true := by
  decide +kernel

/-- T11. -/
theorem test_pushReg_2 :
    runs [0x50] (sp 1 (ax 0x1234 s0)) (fun t => t.regs.sp == 0xFFFF && b t 0xFFFF == 0x34 && b t 0 == 0x12) = true := by
  decide +kernel

/-- T12. -/
theorem test_pushSreg :
    runs [0x1E] (sp 0x100 (ds 0xF000 s0)) (fun t => t.regs.sp == 0xFE && wd t 0xFE == 0xF000) = true := by
  decide +kernel

/-- R122. -/
theorem test_pushRm :
    runs [0xFF, 0x37] (sp 0x100 (bx 0x200 (mem 0x200 [0x34, 0x12] s0))) (fun t => t.regs.sp == 0xFE && wd t 0xFE == 0x1234) = true := by
  decide +kernel

/-- R123: POP SP leaves the popped word. -/
theorem test_popReg :
    runs [0x5C] (sp 0xFE (mem 0xFE [0x34, 0x12] s0)) (fun t => t.regs.sp == 0x1234) = true := by
  decide +kernel

/-- R124. -/
theorem test_popSreg :
    runs [0x1F] (sp 0xFE (mem 0xFE [0x00, 0xB8] s0)) (fun t => t.sregs.ds == 0xB800 && t.regs.sp == 0x100) = true := by
  decide +kernel

/-- R125. -/
theorem test_popRm :
    runs [0x8F, 0x07] (sp 0xFE (bx 0x200 (mem 0xFE [0x34, 0x12] s0))) (fun t => wd t 0x200 == 0x1234 && t.regs.sp == 0x100) = true := by
  decide +kernel

/-- T13. -/
theorem test_pushf :
    runs [0x9C] (sp 0x100 (fl 0xF202 s0)) (fun t => t.regs.sp == 0xFE && wd t 0xFE == 0xF202) = true := by
  decide +kernel

/-- T14. -/
theorem test_popf_1 :
    runs [0x9D] (sp 0xFE (mem 0xFE [0xFF, 0xFF] s0)) (fun t => flw t == 0xFFD7 && t.regs.sp == 0x100) = true := by
  decide +kernel

/-- T15. -/
theorem test_popf_2 :
    runs [0x9D] (sp 0xFE (fl 0xFFD7 s0)) (fun t => flw t == 0xF002) = true := by
  decide +kernel

/-- T19. -/
theorem test_xchgRm :
    runs [0x86, 0x07] (bx 0x300 (ax 0x22 (mem 0x300 [0x11] s0))) (fun t => b t 0x300 == 0x22 && al t == 0x11) = true := by
  decide +kernel

/-- R129. -/
theorem test_xchgAx :
    runs [0x93] (ax 1 (bx 2 s0)) (fun t => t.regs.ax == 2 && t.regs.bx == 1) = true := by
  decide +kernel

/-- T26. -/
theorem test_inp_1 :
    runs [0xE4, 0x21] (ax 0xFF s0) (fun t => t.regs.ax == 0) = true := by
  decide +kernel

/-- T27. -/
theorem test_inp_2 :
    runs [0xEC] (dx 0x3F4 (ax 0xFF s0)) (fun t => t.regs.ax == 0) = true := by
  decide +kernel

/-- T29: no CORE state changes. -/
theorem test_out :
    runs [0xEE] (dx 0x300 (ax 0xFF s0)) (fun t => t.sys.pic == State.reset.sys.pic && t.sys.fdc == State.reset.sys.fdc && t.regs.ax == 0xFF) = true := by
  decide +kernel

/-- T21. -/
theorem test_xlat :
    runs [0xD7] (seg .es (es 0xB800 (ax 1 (mem 0xB8001 [7] s0)))) (fun t => al t == 7) = true := by
  decide +kernel

/-- T22. -/
theorem test_lea_1 :
    runs [0x8D, 0x06, 0x34, 0x12] (s0) (fun t => t.regs.ax == 0x1234) = true := by
  decide +kernel

/-- T23. -/
theorem test_lea_2 :
    runs [0x8D, 0x42, 0xFF] (s0) (fun t => t.regs.ax == 0xFFFF) = true := by
  decide +kernel

/-- T24. -/
theorem test_lds :
    runs [0xC5, 0x36, 0x00, 0x02] (mem 0x200 [0x10, 0x00, 0x00, 0xB8] s0) (fun t => t.regs.si == 0x10 && t.sregs.ds == 0xB800) = true := by
  decide +kernel

/-- T25. -/
theorem test_les :
    runs [0xC4, 0x3F] (bx 0x200 (di 1 (mem 0x200 [0x00, 0x00, 0x00, 0xB8] s0))) (fun t => t.regs.di == 0 && t.sregs.es == 0xB800) = true := by
  decide +kernel

/-- T18. -/
theorem test_lahf :
    runs [0x9F] (fl 0xF0D7 s0) (fun t => ah t == 0xD7) = true := by
  decide +kernel

/-- T16. -/
theorem test_sahf :
    runs [0x9E] (ax 0xFF00 s0) (fun t => flw t == 0xF0D7) = true := by
  decide +kernel

/-- A1. -/
theorem test_add_1 :
    runs [0x04, 0x01] (ax 0x7F s0) (fun t => al t == 0x80 && arith t false false true false true true) = true := by
  decide +kernel

/-- A5. -/
theorem test_add_2 :
    runs [0x83, 0xC0, 0xFF] (ax 0x1234 s0) (fun t => t.regs.ax == 0x1233 && arith t true true true false false false) = true := by
  decide +kernel

/-- A6. -/
theorem test_adc_1 :
    runs [0x15, 0xFF, 0xFF] (ax 0xFFFF (cf true s0)) (fun t => t.regs.ax == 0xFFFF && arith t true true true false true false) = true := by
  decide +kernel

/-- A7. -/
theorem test_adc_2 :
    runs [0x14, 0x00] (ax 0xFF (cf true s0)) (fun t => t.regs.ax == 0 && arith t true true true true false false) = true := by
  decide +kernel

/-- A10. -/
theorem test_sub_1 :
    runs [0x2C, 0x01] (ax 0x80 s0) (fun t => al t == 0x7F && arith t false false true false false true) = true := by
  decide +kernel

/-- A13. -/
theorem test_sub_2 :
    runs [0x2C, 0xFF] (ax 0x7F s0) (fun t => al t == 0x80 && arith t true false false false true true) = true := by
  decide +kernel

/-- A14. -/
theorem test_sbb :
    runs [0x1D, 0x00, 0x00] (cf true s0) (fun t => t.regs.ax == 0xFFFF && arith t true true true false true false) = true := by
  decide +kernel

/-- A15. -/
theorem test_cmp_1 :
    runs [0x3D, 0x05, 0x00] (ax 5 s0) (fun t => t.regs.ax == 5 && arith t false true false true false false) = true := by
  decide +kernel

/-- A17. -/
theorem test_cmp_2 :
    runs [0x3C, 0x41] (ax 0x42 s0) (fun t => t.regs.ax == 0x42 && arith t false false false false false false) = true := by
  decide +kernel

/-- B1. -/
theorem test_inc_1 :
    runs [0xFE, 0xC0] (ax 0xFF (cf true s0)) (fun t => t.regs.ax == 0 && arith t true true true true false false) = true := by
  decide +kernel

/-- B3. -/
theorem test_inc_2 :
    runs [0xFF, 0x07] (bx 0x200 (mem 0x200 [0xFF, 0xFF] s0)) (fun t => wd t 0x200 == 0 && arith t false true true true false false) = true := by
  decide +kernel

/-- B4. -/
theorem test_dec_1 :
    runs [0x48] (ax 0x8000 s0) (fun t => t.regs.ax == 0x7FFF && arith t false true true false false true) = true := by
  decide +kernel

/-- B5. -/
theorem test_dec_2 :
    runs [0x48] (s0) (fun t => t.regs.ax == 0xFFFF && arith t false true true false true false) = true := by
  decide +kernel

/-- B7. -/
theorem test_neg_1 :
    runs [0xF6, 0xD8] (ax 0x80 s0) (fun t => t.regs.ax == 0x80 && arith t true false false false true true) = true := by
  decide +kernel

/-- B6. -/
theorem test_neg_2 :
    runs [0xF6, 0xD8] (s0) (fun t => t.regs.ax == 0 && arith t false true false true false false) = true := by
  decide +kernel

/-- C3. -/
theorem test_mul_1 :
    runs [0xF7, 0xE3] (ax 0xFFFF (bx 0xFFFF s0)) (fun t => t.regs.dx == 0xFFFE && t.regs.ax == 1 && t.flags.cf && t.flags.of_) = true := by
  decide +kernel

/-- C2. -/
theorem test_mul_2 :
    runs [0xF6, 0xE3] (ax 0x10 (bx 0x0F s0)) (fun t => t.regs.ax == 0xF0 && !t.flags.cf && !t.flags.of_) = true := by
  decide +kernel

/-- C6. -/
theorem test_imul_1 :
    runs [0xF7, 0xEB] (ax 0x8000 (bx 2 s0)) (fun t => t.regs.dx == 0xFFFF && t.regs.ax == 0 && t.flags.cf && t.flags.of_) = true := by
  decide +kernel

/-- C5. -/
theorem test_imul_2 :
    runs [0xF6, 0xEB] (ax 0xFF (bx 0xFF s0)) (fun t => t.regs.ax == 1 && !t.flags.cf && !t.flags.of_) = true := by
  decide +kernel

/-- C9. -/
theorem test_div_1 :
    runs [0xF7, 0xF3] (dx 1 (bx 2 s0)) (fun t => t.regs.ax == 0x8000 && t.regs.dx == 0) = true := by
  decide +kernel

/-- C8. -/
theorem test_div_2 :
    runs [0xF6, 0xF3] (div0 (ax 0x200 (bx 2 s0))) (fun t => trap0 t && t.regs.ax == 0x200) = true := by
  decide +kernel

/-- C12. -/
theorem test_idiv_1 :
    runs [0xF6, 0xFB] (ax 7 (bx 0xFE s0)) (fun t => al t == 0xFD && ah t == 1) = true := by
  decide +kernel

/-- C13: the quotient -128. -/
theorem test_idiv_2 :
    runs [0xF6, 0xFB] (div0 (ax 0xFF80 (bx 1 s0))) (fun t => trap0 t && t.regs.ax == 0xFF80) = true := by
  decide +kernel

/-- D2. -/
theorem test_daa_1 :
    runs [0x27] (ax 0x9A s0) (fun t => al t == 0 && t.flags.cf && t.flags.pf && t.flags.af && t.flags.zf && !t.flags.sf) = true := by
  decide +kernel

/-- D5. -/
theorem test_daa_2 :
    runs [0x27] (ax 0x9A (af true s0)) (fun t => al t == 0 && t.flags.cf && t.flags.af && t.flags.zf) = true := by
  decide +kernel

/-- D7. -/
theorem test_das_1 :
    runs [0x2F] (ax 0x1B (af true s0)) (fun t => al t == 0x15 && !t.flags.cf && !t.flags.pf && t.flags.af && !t.flags.zf && !t.flags.sf) = true := by
  decide +kernel

/-- D10. -/
theorem test_das_2 :
    runs [0x2F] (ax 5 (af true s0)) (fun t => al t == 0xFF && t.flags.cf && t.flags.pf && t.flags.af && !t.flags.zf && t.flags.sf) = true := by
  decide +kernel

/-- D16. -/
theorem test_aaa_1 :
    runs [0x37] (ax 0xFF0B s0) (fun t => t.regs.ax == 1 && t.flags.af && t.flags.cf) = true := by
  decide +kernel

/-- D14. -/
theorem test_aaa_2 :
    runs [0x37] (ax 5 s0) (fun t => t.regs.ax == 5 && !t.flags.af && !t.flags.cf) = true := by
  decide +kernel

/-- D19. -/
theorem test_aas_1 :
    runs [0x3F] (ax 0xB s0) (fun t => t.regs.ax == 0xFF05 && t.flags.af && t.flags.cf) = true := by
  decide +kernel

/-- D20. -/
theorem test_aas_2 :
    runs [0x3F] (af true s0) (fun t => t.regs.ax == 0xFF0A && t.flags.af && t.flags.cf) = true := by
  decide +kernel

/-- C21. -/
theorem test_aam_1 :
    runs [0xD4, 0x0A] (ax 0x3F s0) (fun t => t.regs.ax == 0x603 && t.flags.pf && !t.flags.zf && !t.flags.sf) = true := by
  decide +kernel

/-- C23: base 0. -/
theorem test_aam_2 :
    runs [0xD4, 0x00] (div0 (ax 0x3F s0)) (fun t => trap0 t && t.regs.ax == 0x3F) = true := by
  decide +kernel

/-- C24. -/
theorem test_aad :
    runs [0xD5, 0x0A] (ax 0x603 s0) (fun t => t.regs.ax == 0x3F && t.flags.pf && !t.flags.zf && !t.flags.sf) = true := by
  decide +kernel

/-- C27. -/
theorem test_cbw :
    runs [0x98] (ax 0x80 s0) (fun t => t.regs.ax == 0xFF80) = true := by
  decide +kernel

/-- C29. -/
theorem test_cwd :
    runs [0x99] (ax 0x8000 s0) (fun t => t.regs.dx == 0xFFFF) = true := by
  decide +kernel

/-- C31. -/
theorem test_salc :
    runs [0xD6] (cf true s0) (fun t => al t == 0xFF && flw t == 0xF003) = true := by
  decide +kernel

/-- L6. -/
theorem test_and :
    runs [0x20, 0x07] (bx 0x300 (ax 0x81 (mem 0x300 [0xFF] s0))) (fun t => b t 0x300 == 0x81 && logic t false true false true false) = true := by
  decide +kernel

/-- L3. -/
theorem test_or :
    runs [0x08, 0xC0] (cf true (of_ true s0)) (fun t => t.regs.ax == 0 && logic t false true true false false) = true := by
  decide +kernel

/-- L2. -/
theorem test_xor :
    runs [0x34, 0xFF] (ax 0xF s0) (fun t => al t == 0xF0 && logic t false true false true false) = true := by
  decide +kernel

/-- L4. -/
theorem test_test_1 :
    runs [0xA9, 0x00, 0x80] (ax 0x8001 s0) (fun t => t.regs.ax == 0x8001 && logic t false true false true false) = true := by
  decide +kernel

/-- L5. -/
theorem test_test_2 :
    runs [0x84, 0xC3] (ax 0xF0 (bx 0xF s0)) (fun t => t.regs.bx == 0xF && logic t false true true false false) = true := by
  decide +kernel

/-- L8. -/
theorem test_not :
    runs [0xF7, 0xD0] (ax 0x5555 s0) (fun t => t.regs.ax == 0xAAAA && flw t == 0xF002) = true := by
  decide +kernel

/-- S10. -/
theorem test_rol_1 :
    runs [0xD0, 0xC0] (ax 0x80 s0) (fun t => al t == 1 && flw t == 0xF803) = true := by
  decide +kernel

/-- S15. -/
theorem test_rol_2 :
    runs [0xD3, 0xC0] (ax 0x1234 (cx 0x10 s0)) (fun t => t.regs.ax == 0x1234 && !t.flags.cf) = true := by
  decide +kernel

/-- S11. -/
theorem test_ror :
    runs [0xD1, 0xC8] (ax 1 s0) (fun t => t.regs.ax == 0x8000 && flw t == 0xF803) = true := by
  decide +kernel

/-- S12. -/
theorem test_rcl :
    runs [0xD2, 0xD0] (ax 0x80 (cx 9 (cf true s0))) (fun t => al t == 0x80 && t.flags.cf) = true := by
  decide +kernel

/-- S13. -/
theorem test_rcr_1 :
    runs [0xD0, 0xD8] (ax 1 s0) (fun t => al t == 0 && flw t == 0xF003) = true := by
  decide +kernel

/-- S16. -/
theorem test_rcr_2 :
    runs [0xD2, 0xD8] (cx 9 (cf true s0)) (fun t => al t == 0 && t.flags.cf) = true := by
  decide +kernel

/-- S4. -/
theorem test_shl_1 :
    runs [0xD2, 0xE0] (ax 1 (cx 9 s0)) (fun t => al t == 0 && !t.flags.cf && t.flags.pf && t.flags.zf && !t.flags.sf) = true := by
  decide +kernel

/-- S5. -/
theorem test_shl_2 :
    runs [0xD1, 0x27] (bx 0x200 (mem 0x200 [0, 0x40] s0)) (fun t => wd t 0x200 == 0x8000 && logic t false true false true true) = true := by
  decide +kernel

/-- S6. -/
theorem test_shr_1 :
    runs [0xD3, 0xE8] (ax 0x8000 (cx 0xF s0)) (fun t => t.regs.ax == 1 && !t.flags.cf && !t.flags.pf && !t.flags.zf) = true := by
  decide +kernel

/-- S7. -/
theorem test_shr_2 :
    runs [0xD0, 0xE8] (ax 1 s0) (fun t => al t == 0 && logic t true true true false false) = true := by
  decide +kernel

/-- S18. -/
theorem test_setmo :
    runs [0xD0, 0xF0] (ax 0x12 s0) (fun t => al t == 0xFF && arith t false true false false true false) = true := by
  decide +kernel

/-- S8. -/
theorem test_sar_1 :
    runs [0xD2, 0xF8] (ax 0x80 (cx 7 s0)) (fun t => al t == 0xFF && !t.flags.cf && t.flags.pf && t.flags.sf) = true := by
  decide +kernel

/-- S9: the count is not masked. -/
theorem test_sar_2 :
    runs [0xD2, 0xF8] (ax 0x80 (cx 0xC8 s0)) (fun t => al t == 0xFF && t.flags.cf && t.flags.sf) = true := by
  decide +kernel

/-- ST3. -/
theorem test_movsb :
    runs [0xA4] (seg .es (es 0xB800 (di 0x300 (mem 0xB8000 [0x99] s0)))) (fun t => b t 0xB8300 == 0x99) = true := by
  decide +kernel

/-- ST1. -/
theorem test_movsw :
    runs [0xA5] (fl 0xF402 (si 0x202 (di 0x302 (mem 0x202 [0x34, 0x12] s0)))) (fun t => wd t 0x302 == 0x1234 && t.regs.si == 0x200 && t.regs.di == 0x300) = true := by
  decide +kernel

/-- ST4, its last iteration. -/
theorem test_cmpsb_1 :
    runs [0xA6] (repe (si 0x202 (di 0x302 (cx 2 (mem 0x202 [0x58] (mem 0x302 [0x59] s0)))))) (fun t => t.regs.cx == 1 && t.regs.si == 0x203 && t.regs.di == 0x303 && arith t true true true false true false && ip t == 0x101 && t.eu.phase == .start) = true := by
  decide +kernel

/-- ST8: no iteration. -/
theorem test_cmpsb_2 :
    runs [0xA6] (repe s0) (fun t => t.regs.cx == 0 && flw t == 0xF002 && t.regs.si == 0) = true := by
  decide +kernel

/-- R179: equal words go on repeating. -/
theorem test_cmpsw :
    runs [0xA7] (repe (si 0x200 (di 0x300 (cx 2 s0)))) (fun t => t.regs.cx == 1 && t.flags.zf && t.eu.phase == .repeating) = true := by
  decide +kernel

/-- ST6, its last iteration. -/
theorem test_scasb :
    runs [0xAE] (repne (di 0x302 (cx 8 s0))) (fun t => t.regs.cx == 7 && t.regs.di == 0x303 && t.flags.zf && t.flags.pf && !t.flags.cf && t.eu.phase == .start) = true := by
  decide +kernel

/-- R180. -/
theorem test_scasw :
    runs [0xAF] (ax 1 (di 0x300 (mem 0x300 [2, 0] s0))) (fun t => t.regs.di == 0x302 && t.flags.cf && t.flags.sf) = true := by
  decide +kernel

/-- ST2. -/
theorem test_lodsb :
    runs [0xAC] (fl 0xF402 (si 0x200 (mem 0x200 [0x77] s0))) (fun t => al t == 0x77 && t.regs.si == 0x1FF) = true := by
  decide +kernel

/-- R181. -/
theorem test_lodsw :
    runs [0xAD] (si 0x200 (mem 0x200 [0x34, 0x12] s0)) (fun t => t.regs.ax == 0x1234 && t.regs.si == 0x202) = true := by
  decide +kernel

/-- ST7: no iteration, no write. -/
theorem test_stosb :
    runs [0xAA] (repe (ax 0x55 (di 0x300 s0))) (fun t => t.regs.di == 0x300 && b t 0x300 == 0 && t.eu.phase == .start) = true := by
  decide +kernel

/-- ST9, its first iteration. -/
theorem test_stosw :
    runs [0xAB] (repe (ax 0x741 (cx 2 (di 0xFFFE s0)))) (fun t => wd t 0xFFFE == 0x741 && t.regs.di == 0 && t.regs.cx == 1) = true := by
  decide +kernel

/-- J1. -/
theorem test_jmpShort_1 :
    runs [0xEB, 0x03] (s0) (fun t => ip t == 0x105 && t.biu.queue == []) = true := by
  decide +kernel

/-- J2. -/
theorem test_jmpShort_2 :
    runs [0xEB, 0x80] (s0) (fun t => ip t == 0x82) = true := by
  decide +kernel

/-- J5. -/
theorem test_jmpNear :
    runs [0xE9, 0xFD, 0xFF] (s0) (fun t => ip t == 0x100) = true := by
  decide +kernel

/-- J6. -/
theorem test_jmpFar :
    runs [0xEA, 0x5B, 0xE0, 0x00, 0xF0] (s0) (fun t => at_ t 0xF000 0xE05B) = true := by
  decide +kernel

/-- J7. -/
theorem test_jmpRm :
    runs [0xFF, 0xE3] (bx 0x200 s0) (fun t => ip t == 0x200) = true := by
  decide +kernel

/-- J8. -/
theorem test_jmpMem :
    runs [0xFF, 0x2E, 0x00, 0x02] (mem 0x200 [0, 0x10, 0, 0x20] s0) (fun t => at_ t 0x2000 0x1000) = true := by
  decide +kernel

/-- J9. -/
theorem test_callNear :
    runs [0xE8, 0x10, 0x00] (sp 0x100 s0) (fun t => t.regs.sp == 0xFE && wd t 0xFE == 0x103 && ip t == 0x113) = true := by
  decide +kernel

/-- J11. -/
theorem test_callFar :
    runs [0x9A, 0x00, 0x00, 0x00, 0xF0] (sp 0x100 s0) (fun t => wd t 0xFE == 0 && wd t 0xFC == 0x105 && t.regs.sp == 0xFC && at_ t 0xF000 0) = true := by
  decide +kernel

/-- J10: the old SP. -/
theorem test_callRm :
    runs [0xFF, 0xD4] (sp 0x100 s0) (fun t => wd t 0xFE == 0x102 && t.regs.sp == 0xFE && ip t == 0x100) = true := by
  decide +kernel

/-- J12. -/
theorem test_callMem :
    runs [0xFF, 0x1E, 0x00, 0x02] (sp 0x100 (mem 0x200 [0, 3, 0, 0] s0)) (fun t => wd t 0xFE == 0 && wd t 0xFC == 0x104 && at_ t 0 0x300) = true := by
  decide +kernel

/-- J13. -/
theorem test_ret :
    runs [0xC3] (sp 0xFE (mem 0xFE [3, 1] s0)) (fun t => ip t == 0x103 && t.regs.sp == 0x100) = true := by
  decide +kernel

/-- J14. -/
theorem test_retImm :
    runs [0xC2, 0x04, 0x00] (sp 0xFA (mem 0xFA [3, 1] s0)) (fun t => ip t == 0x103 && t.regs.sp == 0x100) = true := by
  decide +kernel

/-- J15. -/
theorem test_retf :
    runs [0xCB] (sp 0xFC (mem 0xFC [5, 1, 0, 0xF0] s0)) (fun t => at_ t 0xF000 0x105 && t.regs.sp == 0x100) = true := by
  decide +kernel

/-- J16. -/
theorem test_retfImm :
    runs [0xCA, 0x02, 0x00] (sp 0xFA (mem 0xFA [5, 1, 0, 0] s0)) (fun t => at_ t 0 0x105 && t.regs.sp == 0x100) = true := by
  decide +kernel

/-- the row of §2.9 under its four premises. -/
theorem test_jo :
    (runs [0x70, 0x10] (fl 0xF002 s0) (fun t => ip t == 0x102) &&
      runs [0x70, 0x10] (fl 0xF882 s0) (fun t => ip t == 0x112) &&
      runs [0x70, 0x10] (fl 0xF047 s0) (fun t => ip t == 0x102) &&
      runs [0x70, 0x10] (fl 0xF082 s0) (fun t => ip t == 0x102)) = true := by
  decide +kernel

/-- the row of §2.9 under its four premises. -/
theorem test_jno :
    (runs [0x71, 0x10] (fl 0xF002 s0) (fun t => ip t == 0x112) &&
      runs [0x71, 0x10] (fl 0xF882 s0) (fun t => ip t == 0x102) &&
      runs [0x71, 0x10] (fl 0xF047 s0) (fun t => ip t == 0x112) &&
      runs [0x71, 0x10] (fl 0xF082 s0) (fun t => ip t == 0x112)) = true := by
  decide +kernel

/-- the row of §2.9 under its four premises. -/
theorem test_jb :
    (runs [0x72, 0x10] (fl 0xF002 s0) (fun t => ip t == 0x102) &&
      runs [0x72, 0x10] (fl 0xF882 s0) (fun t => ip t == 0x102) &&
      runs [0x72, 0x10] (fl 0xF047 s0) (fun t => ip t == 0x112) &&
      runs [0x72, 0x10] (fl 0xF082 s0) (fun t => ip t == 0x102)) = true := by
  decide +kernel

/-- the row of §2.9 under its four premises. -/
theorem test_jae :
    (runs [0x73, 0x10] (fl 0xF002 s0) (fun t => ip t == 0x112) &&
      runs [0x73, 0x10] (fl 0xF882 s0) (fun t => ip t == 0x112) &&
      runs [0x73, 0x10] (fl 0xF047 s0) (fun t => ip t == 0x102) &&
      runs [0x73, 0x10] (fl 0xF082 s0) (fun t => ip t == 0x112)) = true := by
  decide +kernel

/-- the row of §2.9 under its four premises. -/
theorem test_je :
    (runs [0x74, 0x10] (fl 0xF002 s0) (fun t => ip t == 0x102) &&
      runs [0x74, 0x10] (fl 0xF882 s0) (fun t => ip t == 0x102) &&
      runs [0x74, 0x10] (fl 0xF047 s0) (fun t => ip t == 0x112) &&
      runs [0x74, 0x10] (fl 0xF082 s0) (fun t => ip t == 0x102)) = true := by
  decide +kernel

/-- the row of §2.9 under its four premises. -/
theorem test_jne :
    (runs [0x75, 0x10] (fl 0xF002 s0) (fun t => ip t == 0x112) &&
      runs [0x75, 0x10] (fl 0xF882 s0) (fun t => ip t == 0x112) &&
      runs [0x75, 0x10] (fl 0xF047 s0) (fun t => ip t == 0x102) &&
      runs [0x75, 0x10] (fl 0xF082 s0) (fun t => ip t == 0x112)) = true := by
  decide +kernel

/-- the row of §2.9 under its four premises. -/
theorem test_jbe :
    (runs [0x76, 0x10] (fl 0xF002 s0) (fun t => ip t == 0x102) &&
      runs [0x76, 0x10] (fl 0xF882 s0) (fun t => ip t == 0x102) &&
      runs [0x76, 0x10] (fl 0xF047 s0) (fun t => ip t == 0x112) &&
      runs [0x76, 0x10] (fl 0xF082 s0) (fun t => ip t == 0x102)) = true := by
  decide +kernel

/-- the row of §2.9 under its four premises. -/
theorem test_ja :
    (runs [0x77, 0x10] (fl 0xF002 s0) (fun t => ip t == 0x112) &&
      runs [0x77, 0x10] (fl 0xF882 s0) (fun t => ip t == 0x112) &&
      runs [0x77, 0x10] (fl 0xF047 s0) (fun t => ip t == 0x102) &&
      runs [0x77, 0x10] (fl 0xF082 s0) (fun t => ip t == 0x112)) = true := by
  decide +kernel

/-- the row of §2.9 under its four premises. -/
theorem test_js :
    (runs [0x78, 0x10] (fl 0xF002 s0) (fun t => ip t == 0x102) &&
      runs [0x78, 0x10] (fl 0xF882 s0) (fun t => ip t == 0x112) &&
      runs [0x78, 0x10] (fl 0xF047 s0) (fun t => ip t == 0x102) &&
      runs [0x78, 0x10] (fl 0xF082 s0) (fun t => ip t == 0x112)) = true := by
  decide +kernel

/-- the row of §2.9 under its four premises. -/
theorem test_jns :
    (runs [0x79, 0x10] (fl 0xF002 s0) (fun t => ip t == 0x112) &&
      runs [0x79, 0x10] (fl 0xF882 s0) (fun t => ip t == 0x102) &&
      runs [0x79, 0x10] (fl 0xF047 s0) (fun t => ip t == 0x112) &&
      runs [0x79, 0x10] (fl 0xF082 s0) (fun t => ip t == 0x102)) = true := by
  decide +kernel

/-- the row of §2.9 under its four premises. -/
theorem test_jp :
    (runs [0x7A, 0x10] (fl 0xF002 s0) (fun t => ip t == 0x102) &&
      runs [0x7A, 0x10] (fl 0xF882 s0) (fun t => ip t == 0x102) &&
      runs [0x7A, 0x10] (fl 0xF047 s0) (fun t => ip t == 0x112) &&
      runs [0x7A, 0x10] (fl 0xF082 s0) (fun t => ip t == 0x102)) = true := by
  decide +kernel

/-- the row of §2.9 under its four premises. -/
theorem test_jnp :
    (runs [0x7B, 0x10] (fl 0xF002 s0) (fun t => ip t == 0x112) &&
      runs [0x7B, 0x10] (fl 0xF882 s0) (fun t => ip t == 0x112) &&
      runs [0x7B, 0x10] (fl 0xF047 s0) (fun t => ip t == 0x102) &&
      runs [0x7B, 0x10] (fl 0xF082 s0) (fun t => ip t == 0x112)) = true := by
  decide +kernel

/-- the row of §2.9 under its four premises. -/
theorem test_jl :
    (runs [0x7C, 0x10] (fl 0xF002 s0) (fun t => ip t == 0x102) &&
      runs [0x7C, 0x10] (fl 0xF882 s0) (fun t => ip t == 0x102) &&
      runs [0x7C, 0x10] (fl 0xF047 s0) (fun t => ip t == 0x102) &&
      runs [0x7C, 0x10] (fl 0xF082 s0) (fun t => ip t == 0x112)) = true := by
  decide +kernel

/-- the row of §2.9 under its four premises. -/
theorem test_jge :
    (runs [0x7D, 0x10] (fl 0xF002 s0) (fun t => ip t == 0x112) &&
      runs [0x7D, 0x10] (fl 0xF882 s0) (fun t => ip t == 0x112) &&
      runs [0x7D, 0x10] (fl 0xF047 s0) (fun t => ip t == 0x112) &&
      runs [0x7D, 0x10] (fl 0xF082 s0) (fun t => ip t == 0x102)) = true := by
  decide +kernel

/-- the row of §2.9 under its four premises. -/
theorem test_jle :
    (runs [0x7E, 0x10] (fl 0xF002 s0) (fun t => ip t == 0x102) &&
      runs [0x7E, 0x10] (fl 0xF882 s0) (fun t => ip t == 0x102) &&
      runs [0x7E, 0x10] (fl 0xF047 s0) (fun t => ip t == 0x112) &&
      runs [0x7E, 0x10] (fl 0xF082 s0) (fun t => ip t == 0x112)) = true := by
  decide +kernel

/-- the row of §2.9 under its four premises. -/
theorem test_jg :
    (runs [0x7F, 0x10] (fl 0xF002 s0) (fun t => ip t == 0x112) &&
      runs [0x7F, 0x10] (fl 0xF882 s0) (fun t => ip t == 0x112) &&
      runs [0x7F, 0x10] (fl 0xF047 s0) (fun t => ip t == 0x102) &&
      runs [0x7F, 0x10] (fl 0xF082 s0) (fun t => ip t == 0x102)) = true := by
  decide +kernel

/-- J17. -/
theorem test_loop_1 :
    runs [0xE2, 0xFE] (s0) (fun t => t.regs.cx == 0xFFFF && ip t == 0x100) = true := by
  decide +kernel

/-- J18. -/
theorem test_loop_2 :
    runs [0xE2, 0xFE] (cx 1 s0) (fun t => t.regs.cx == 0 && ip t == 0x102) = true := by
  decide +kernel

/-- J19. -/
theorem test_loope_1 :
    runs [0xE1, 0xFE] (cx 2 (zf true s0)) (fun t => t.regs.cx == 1 && ip t == 0x100) = true := by
  decide +kernel

/-- J20. -/
theorem test_loope_2 :
    runs [0xE1, 0xFE] (cx 1 (zf true s0)) (fun t => t.regs.cx == 0 && ip t == 0x102) = true := by
  decide +kernel

/-- J21. -/
theorem test_loopne :
    runs [0xE0, 0xFE] (cx 5 (zf true s0)) (fun t => t.regs.cx == 4 && ip t == 0x102) = true := by
  decide +kernel

/-- J22. -/
theorem test_jcxz_1 :
    runs [0xE3, 0x05] (cx 1 s0) (fun t => ip t == 0x102) = true := by
  decide +kernel

/-- J23. -/
theorem test_jcxz_2 :
    runs [0xE3, 0x05] (s0) (fun t => ip t == 0x107) = true := by
  decide +kernel

/-- I1. -/
theorem test_int_1 :
    runs [0xCD, 0x60] (mem 0x180 [0, 2, 0, 0] (fl 0xF202 s0)) (fun t => wd t 0x3FA == 0x102 && wd t 0x3FC == 0 && wd t 0x3FE == 0xF202 && at_ t 0 0x200 && flw t == 0xF002 && t.regs.sp == 0x3FA) = true := by
  decide +kernel

/-- I15. -/
theorem test_int_2 :
    runs [0xCD, 0x00] (sp 0xA s0) (fun t => wd t 4 == 0x102 && t.regs.sp == 4) = true := by
  decide +kernel

/-- I2. -/
theorem test_int3 :
    runs [0xCC] (mem 0xC [0, 3, 0, 0] s0) (fun t => wd t 0x3FA == 0x101 && at_ t 0 0x300) = true := by
  decide +kernel

/-- I3. -/
theorem test_into_1 :
    runs [0xCE] (mem 0x10 [0, 3, 0, 0] (fl 0xF802 s0)) (fun t => wd t 0x3FA == 0x101 && wd t 0x3FE == 0xF802 && at_ t 0 0x300) = true := by
  decide +kernel

/-- I4. -/
theorem test_into_2 :
    runs [0xCE] (s0) (fun t => ip t == 0x101 && t.regs.sp == 0x400) = true := by
  decide +kernel

/-- I5. -/
theorem test_iret_1 :
    runs [0xCF] (sp 0x3FA (mem 0x3FA [2, 1, 0, 0, 2, 0xF2] s0)) (fun t => at_ t 0 0x102 && flw t == 0xF202 && t.regs.sp == 0x400) = true := by
  decide +kernel

/-- I6. -/
theorem test_iret_2 :
    runs [0xCF] (sp 0x3FA (fl 0xFFD7 s0)) (fun t => flw t == 0xF002) = true := by
  decide +kernel

/-- K2. -/
theorem test_clc :
    runs [0xF8] (fl 0xF003 s0) (fun t => flw t == 0xF002) = true := by
  decide +kernel

/-- K1. -/
theorem test_stc :
    runs [0xF9] (s0) (fun t => flw t == 0xF003) = true := by
  decide +kernel

/-- K3. -/
theorem test_cmc :
    runs [0xF5] (fl 0xF003 s0) (fun t => flw t == 0xF002) = true := by
  decide +kernel

/-- K5. -/
theorem test_cld :
    runs [0xFC] (fl 0xF402 s0) (fun t => flw t == 0xF002) = true := by
  decide +kernel

/-- K4. -/
theorem test_std :
    runs [0xFD] (s0) (fun t => flw t == 0xF402) = true := by
  decide +kernel

/-- K7. -/
theorem test_cli :
    runs [0xFA] (fl 0xF202 s0) (fun t => flw t == 0xF002) = true := by
  decide +kernel

/-- K6. -/
theorem test_sti :
    runs [0xFB] (s0) (fun t => flw t == 0xF202) = true := by
  decide +kernel

/-- H1. -/
theorem test_hlt :
    runs [0xF4] (s0) (fun t => t.eu.halted && ip t == 0x101 && t.sys.reports == [.cpuHalted 0x100]) = true := by
  decide +kernel

/-- K11. -/
theorem test_esc_1 :
    runs [0xD9, 0x07] (bx 0x300 s0) (fun t => t.regs == (bx 0x300 s0).regs && flw t == 0xF002 && ip t == 0x102) = true := by
  decide +kernel

/-- K12. -/
theorem test_esc_2 :
    runs [0xD9, 0xC0] (s0) (fun t => t.regs == s0.regs && flw t == 0xF002 && ip t == 0x102) = true := by
  decide +kernel

/-- I7: an NMI at the boundary after NOP. -/
theorem test_nop_1 :
    runs [0x90] (mem 8 [0, 3, 0, 0] (eu (fun e => { e with nmiLatch := true }) s0)) (fun t => wd t 0x3FA == 0x101 && at_ t 0 0x300 && !t.eu.nmiLatch) = true := by
  decide +kernel

/-- I9, its second instruction: the trap. -/
theorem test_nop_2 :
    runs [0x90] (mem 4 [0, 3, 0, 0] (fl 0xF302 s0)) (fun t => wd t 0x3FA == 0x101 && wd t 0x3FE == 0xF302 && flw t == 0xF002 && at_ t 0 0x300) = true := by
  decide +kernel

/-- 95_test_vectors.md §2.13. -/
theorem test_popCs : refuses [0x0F] s0 .popCs = true := by decide +kernel

/-- 95_test_vectors.md §2.13. -/
theorem test_movSregHigh : refuses [0x8C, 0xE0] s0 .movSregHigh = true := by decide +kernel

/-- 95_test_vectors.md §2.13. -/
theorem test_movCs : refuses [0x8E, 0xC8] s0 .movCs = true := by decide +kernel

/-- 95_test_vectors.md §2.13. -/
theorem test_leaRegister : refuses [0x8D, 0xC0] s0 .leaRegister = true := by decide +kernel

/-- 95_test_vectors.md §2.13. -/
theorem test_lesRegister : refuses [0xC4, 0xC0] s0 .lesRegister = true := by decide +kernel

/-- 95_test_vectors.md §2.13. -/
theorem test_ldsRegister : refuses [0xC5, 0xC0] s0 .ldsRegister = true := by decide +kernel

/-- 95_test_vectors.md §2.13. -/
theorem test_fe2 : refuses [0xFE, 0xD0] s0 (.feHigh .r2) = true := by decide +kernel

/-- 95_test_vectors.md §2.13. -/
theorem test_fe3 : refuses [0xFE, 0xD8] s0 (.feHigh .r3) = true := by decide +kernel

/-- 95_test_vectors.md §2.13. -/
theorem test_fe4 : refuses [0xFE, 0xE0] s0 (.feHigh .r4) = true := by decide +kernel

/-- 95_test_vectors.md §2.13. -/
theorem test_fe5 : refuses [0xFE, 0xE8] s0 (.feHigh .r5) = true := by decide +kernel

/-- 95_test_vectors.md §2.13. -/
theorem test_fe6 : refuses [0xFE, 0xF0] s0 (.feHigh .r6) = true := by decide +kernel

/-- 95_test_vectors.md §2.13. -/
theorem test_fe7 : refuses [0xFE, 0xF8] s0 (.feHigh .r7) = true := by decide +kernel

/-- 95_test_vectors.md §2.13. -/
theorem test_callRegisterFar : refuses [0xFF, 0xD8] s0 .callRegisterFar = true := by decide +kernel

/-- 95_test_vectors.md §2.13. -/
theorem test_jmpRegisterFar : refuses [0xFF, 0xE8] s0 .jmpRegisterFar = true := by decide +kernel

/-- 95_test_vectors.md T30, X7, H5, I14: the forms refused on some operands. -/
theorem test_refused_forms :
    (refuses [0xEC] (dx 0x400 s0) .portAbove3FF && refuses [0xF6, 0xE3] (repe s0) .repMulDiv &&
      refuses [0xF4] (fl 0xF102 s0) .hltSingleStep && refuses [0xCD, 0x00] (sp 4 s0) .frameOverlapsVector) = true := by
  decide +kernel

/-- 95_test_vectors.md X2: a fifth prefix byte. -/
theorem test_five_prefixes :
    faults [0x26] (pre { Prefixes.empty with count := 4 } s0) (.instructionDecodeError 0xFF) = true := by
  decide +kernel

/-- R88 on 95_test_vectors.md K10 and R82's loop: the peek reads every prefix byte, the operands and the size, at CS:IP or in a list; it
stops past the prefix limit and where the bytes end. -/
theorem test_peek :
    let size (p : Peeked) : Option (Instr × Nat × Nat) :=
      match p with
      | .insn d => some (d.instr, d.size, d.prefixes.count)
      | .instructionDecodeError => none
      | .readOutOfBounds => none
    size (peekBytes 0 0x100 [0xF0, 0x86, 0x07]) = some (.xchgRm .byte (.mem (.base .bx)) .r0, 3, 1) ∧
      size (peekInsn (mem 0x100 [0x26, 0xF3, 0xC7, 0x87, 0x34, 0x12, 0x78, 0x56] s0)) =
        some (.movRmImm .r0 (.mem (.disp16 .bx 0x1234)) (.word 0x5678), 8, 2) ∧
      peekBytes 0 0x100 [0xC7, 0x87, 0x34] = .readOutOfBounds ∧ peekBytes 0 0x100 [0x26, 0x26] = .readOutOfBounds ∧
      peekBytes 0 0x100 [0x26, 0x2E, 0x36, 0x3E, 0x26, 0x90] = .instructionDecodeError := by decide +kernel

/-- R88: the peek and the true decode leave the same record, from memory and from the queue. -/
theorem test_peek_agrees :
    let agree (s : State) : Bool :=
      match (decodeNext (beginInsn s)).2.eu.decoded with
      | some d => decide (peekInsn s = .insn d)
      | none => false
    (agree (mem 0x100 [0xF6, 0x47, 0x05, 0x7F] s0) &&
      agree (mem 0x100 [0x78, 0x56, 0x90] { s0 with biu := { s0.biu with queue := [0xC7, 0x87, 0x34, 0x12] } }) &&
      agree (mem 0x100 [0x90, 0xFF] s0)) = true := by decide +kernel

/-- R82, R92: each prefix byte is charged its cycle, the fifth before it faults. -/
theorem test_prefix_cycles :
    let cycles (n : Nat) : Nat :=
      match exec .segEs (pre { Prefixes.empty with count := n } s0) with
      | .next t => t.biu.cycleCount - s0.biu.cycleCount
      | .fault _ => 0
      | .refused _ => 0
    cycles 0 = 1 ∧ cycles 4 = 1 := by decide +kernel

/-- R97, R183: REP sets `rep_mnemonic`, also with CX = 0, and the end of the repetition keeps it. -/
theorem test_rep_mnemonic :
    runs [0xA4] (repe s0) (fun t => t.eu.repMnemonic == some .movsb && !t.eu.inRep && t.eu.repType == .none) = true ∧
      runs [0xAB] (repe (cx 1 s0)) (fun t => t.eu.repMnemonic == some .stosw && !t.eu.inRep && t.eu.repType == .none) = true := by
  decide +kernel

/-- 95_test_vectors.md ST11: an interrupted repetition returns to its prefix byte. -/
theorem test_rep_interrupted :
    runs [0xA4] (eu (fun e => { e with nmiLatch := true }) (repe (mem 8 [0, 3, 0, 0] (cx 3 (si 0x200 (di 0x300 s0))))))
      (fun t => t.regs.cx == 2 && t.regs.si == 0x201 && t.regs.di == 0x301 && wd t 0x3FA == 0xFF && at_ t 0 0x300) = true := by
  decide +kernel

/-! ### The bus unit's clock, the devices' ports and the launch -/

/-- `n` ticks, a code fetch being planned at the first. -/
def ticks (n : Nat) (s : State) : State := Nat.repeat idleTick (n - 1) (clockTick ⟨some 1, none⟩ s)

/-- R69, R70, R73, R75: a fetch scheduled for the next cycle is in T1 after one tick and pushes its byte at T4, available from the
cycle after it on. -/
theorem test_clocked_fetch :
    let s := mem 0x100 [0x90] s0
    (ticks 1 s).biu.tCycle = .t1 ∧ (ticks 1 s).biu.busStatus = .codeFetch ∧ (ticks 1 s).biu.busAddr = 0x100 ∧
      (ticks 3 s).biu.queue = [] ∧ (ticks 4 s).biu.queue = [0x90] ∧ (ticks 4 s).biu.fresh = 1 ∧ (ticks 5 s).biu.fresh = 0 ∧
      (ticks 5 s).biu.busStatus = .passive ∧ (ticks 4 s).biu.pc = 0x101 ∧ ip (ticks 4 s) = 0x100 := by decide +kernel

/-- R69, R71: a bus cycle takes four T-states at least; a counter of 3, loaded at T1 and counting down at each tick, is 1 at T3, so one
Tw follows. -/
theorem test_wait_states :
    let slow (s : State) : State := { s with cfg := { s.cfg with waits := [⟨true, 0x20, 0x3FF, 3⟩] } }
    let cycles (s : State) : Nat := (busCycle .ioRead 0x21 s).biu.cycleCount - s.biu.cycleCount
    cycles s0 = 4 ∧ cycles (slow s0) = 5 := by decide +kernel

/-- R5, R71: `WAIT_STATES` is any function of space and address, RAM included; its default for RAM is 0. -/
theorem test_ram_wait_states :
    let c := { Config.default with waits := [⟨false, 0x200, 0x2FF, 3⟩] }
    waitStates c .memRead 0x200 = 3 ∧ waitStates c .memWrite 0x2FF = 3 ∧ waitStates c .codeFetch 0x250 = 3 ∧
      waitStates c .memRead 0x300 = 0 ∧ waitStates c .ioRead 0x200 = 0 ∧ waitStates Config.default .memRead 0x200 = 0 := by
  decide +kernel

/-- R298, R324: a machine reset keeps a mounted image and takes a drive without one, its geometry too, to power-on. -/
theorem test_machine_reset_drives :
    let f := State.reset.sys.fdc.mount Config.default 0 163840 [(0, 0xEB)] true
    let d := { f.drives.c0 with cyl := 7, error := true }
    let e := { (f.eject 0).drives.c0 with cyl := 7 }
    d.machineReset = f.drives.c0 ∧ d.machineReset.maxCyl = 40 ∧ d.machineReset.writeProtected = true ∧ e.maxCyl = 40 ∧
      e.machineReset = Drive.reset := by decide +kernel

/-- R74, R75: a fetch is scheduled from an owner of the bus, and none in a transition (log entry 30). -/
theorem test_plan_fetch :
    let at_ (b : BiuState) : FetchState := (planFetch 2 { s0 with biu := { s0.biu with state := b } }).biu.fetchState
    at_ .idle = .scheduled 2 ∧ at_ .eu = .scheduled 2 ∧ at_ (.toIdle 1) = .idle := by decide +kernel

/-- R66, R67, R76, R91: a taken jump leaves the queue empty, and its next fetch starts `FLUSH_PENALTY` = 2 cycles later. -/
theorem test_flush_penalty :
    let s := jumpShort 0 s0
    s.biu.queue = [] ∧ s.biu.fetchState = .idle ∧ s.biu.cycleCount = s0.biu.cycleCount + 2 ∧
      (codeFetch s).biu.cycleCount = s.biu.cycleCount + 2 + 4 := by decide +kernel

/-- R220: LOCK is asserted in the bus cycles of a prefixed instruction; R79: in the second acknowledge cycle. -/
theorem test_lock_output :
    runs [0xFE, 0x07] (pre { Prefixes.empty with lock := true, count := 1 } (bx 0x200 s0)) (fun t => t.biu.lock) = true ∧
      runs [0xFE, 0x07] (bx 0x200 s0) (fun t => !t.biu.lock) = true ∧ (intaCycles s0).biu.lock = true ∧
      (intaCycles s0).biu.busStatus = .inta ∧ (intaCycles s0).biu.cycleCount = s0.biu.cycleCount + 8 := by decide +kernel

/-- A launch of NOP, NOP at 0000:0100 that is to end after the first. -/
def launch : Launch where
  cfg := Config.default
  cpu := some ⟨Regs.const 0, ⟨0, 0, 0, 0⟩, Flags.reset, 0x100⟩
  memory := [(0x100, 0x90), (0x101, 0x90)]
  rom := []
  devices := none
  media := []
  irqSchedule := []
  nmiSchedule := [(.turn 2, true)]
  turns := []
  interleave := []
  endAt := (0, 0x101)

/-- R343, R344: the run is over at the boundary whose CS:IP is E and not before; a scheduled action follows the turns before it. -/
theorem test_launch :
    launch.state.agenda = [.eu, .eu, .host (.setNmi true)] ∧ runEnded (0, 0x100) launch.state = false ∧
      (launch.runTo 1 launch.state).map ip = some 0x101 ∧ ({ launch with endAt := (0, 0x105) }).runTo 1 launch.state = none := by
  decide +kernel

/-- An FDC operation that has not started. -/
def op0 : FdcOp where
  kind := .readSectorId
  d := 0
  h := 0
  c := 0
  s := 1
  n := 2
  eot := 1
  mt := false
  started := false
  stalled := false
  byte := 0
  sectorsLeft := 1
  last := none

/-- R338, R344: a drive with an operation in flight has its image at the launch; in a run nothing is mounted on it. -/
theorem test_launch_media :
    let y := State.reset.sys
    let f := { y.fdc with phase := .operation, op := some op0 }
    let l := { launch with devices := some ⟨y.pic, y.dma, y.crtc, f, true⟩, media := [⟨0, 163840, [(0, 0xEB)], true⟩] }
    l.state.sys.fdc.drives.c0.present = true ∧ l.state.sys.fdc.drives.c0.image = [(0, 0xEB)] ∧
      l.state.sys.fdc.op = some op0 ∧ (f.mount Config.default 0 163840 [(0, 0xEB)] true).drives.c0.present = false ∧
      l.MediaMountable ∧ ¬ ({ l with media := [⟨0, 5, [], true⟩] }).MediaMountable := by decide +kernel

/-- The same launch with INTR and NMI moves between two transactions. -/
def launchGaps : Launch :=
  { launch with nmiSchedule := [(.gap 1 0, true)], irqSchedule := [(.gap 0 1, 0, true)], interleave := [[.crtc, .fdc]] }

/-- R55, R344: a move between two transactions stands in its batch. -/
theorem test_launch_gaps :
    launchGaps.state.interleave = [[.crtc, .host (.setIrq 0 true), .fdc], [.host (.setNmi true)]] ∧ launchGaps.state.agenda = [] := by
  decide +kernel

/-- R344: both launches meet the premises. -/
theorem test_launch_admitted : launch.Admitted ∧ launchGaps.Admitted := by decide +kernel

/-- R338, R344: the lines move by the schedules alone, and IR6 is no line of the host's; a liberty may stand among the turns. -/
theorem test_launch_lines :
    let turns (ts : List Turn) : Launch := { launch with turns := ts }
    ¬ (turns [.host (.setNmi true)]).LinesScheduled ∧ (turns [.host (.eject 0)]).LinesScheduled ∧
      ¬ ({ launch with interleave := [[.host (.setIrq 1 true)]] }).LinesScheduled ∧
      ¬ ({ launch with irqSchedule := [(.turn 0, 6, true)] }).LinesScheduled := by decide +kernel

/-- R322, R338: the host acts between two transactions too. -/
theorem test_host_between_transactions :
    runs [0x50] { s0 with interleave := [[.host (.setTag 0x50 ⟨true, false, false⟩), .host (.setNmi true)]] }
      (fun t => t.eu.nmiPrev && (tagAt t.sys.tags 0x50).execBp && t.sregs.cs == 0) = true := by decide +kernel

/-- Whether a choice schedules an agent in the step it makes from a state. -/
def schedules (c : Choice) (s : State) (a : Agent) : Bool :=
  match step (place c s) with
  | .next t => scheduled a c.turn (place c s) t
  | .fault _ => false
  | .refused _ => false

/-- R65, R322: an execution unit that waits for a byte gives the prefetcher its step; one whose byte is queued does not. -/
theorem test_scheduled :
    let s := mem 0x100 [0x90, 0x90] s0
    let c : Choice := ⟨.eu, []⟩
    let queued := { s with biu := { s.biu with queue := [0x90], pc := 0x101 } }
    schedules c s .eu = true ∧ schedules c s .prefetch = true ∧ schedules c s .crtc = false ∧
      schedules c queued .eu = true ∧ schedules c queued .prefetch = false ∧ schedules ⟨.fdc, []⟩ s .fdc = true := by decide +kernel

/-- R55, R322: a step in a batch that the instruction uses schedules its agent, one in a batch left over does not: PUSH AX of a queued
byte has three points on the 8088, before each byte it writes (R44) and before its interrupt lines are sampled. -/
theorem test_scheduled_between :
    let s := mem 0x100 [0x50] s0
    let queued := { s with biu := { s.biu with queue := [0x50], pc := 0x101 } }
    schedules ⟨.eu, [[], [.crtc], [.fdc], [.prefetch]]⟩ queued .crtc = true ∧
      schedules ⟨.eu, [[], [.crtc], [.fdc], [.prefetch]]⟩ queued .fdc = true ∧
      schedules ⟨.eu, [[], [.crtc], [.fdc], [.prefetch]]⟩ queued .prefetch = false := by decide +kernel

/-- R322, R344: a launch with an execution that the observation considers. -/
theorem test_launch_considered : launch.Considered roundRobin := roundRobin_considered test_launch_admitted.1

/-- R279, R340: with the CGA and the default clock 16 cycles are 48 dots, three 16-dot characters, and 3 microseconds with a rest; with
14.318180 MHz a cycle is a dot. -/
theorem test_quantum :
    (quantumTurns Config.default 16 16 ⟨0, 0⟩).1 = [.fdc, .fdc, .fdc, .crtc, .crtc, .crtc] ∧
      (quantumTurns Config.default 16 16 ⟨0, 0⟩).2.us = 16000000 - 3 * 4772727 ∧
      (quantumTurns { Config.default with cpuClockHz := 14318180 } 8 16 ⟨0, 0⟩).1 = [.fdc, .crtc, .crtc] := by decide +kernel

/-- R235, R323: a CPU that holds a fault stands still and is revived by a CPU reset; the video card steps on. -/
theorem test_fault_held :
    let s := holdFault (.instructionDecodeError 0x100) (mem 0xFFFF0 [0x90] s0)
    outcome .eu s = none ∧ outcome .prefetch s = none ∧ (outcome .crtc s).isSome = true ∧
      isNext (step (hostReset .cpu s)) = true := by
  refine ⟨rfl, rfl, rfl, by decide +kernel⟩

/-! ### Witnesses: states and operands that meet the hypotheses of each statement, clause by clause -/

/-- An outcome that is a next state has one. -/
theorem next_of_isNext {α : Type} {r : Res α} (h : isNext r = true) : ∃ t, r = .next t := by
  cases r with
  | next t => exact ⟨t, rfl⟩
  | fault _ => cases h
  | refused _ => cases h

/-- What a decode that succeeds answers. -/
theorem decoded_of_isSome {s : State} (h : (decodeNext s).1.isSome = true) : ∃ i t, decodeNext s = (some i, t) := by
  obtain ⟨i, e⟩ := Option.isSome_iff_exists.1 h
  exact ⟨i, _, Prod.ext e rfl⟩

/-- What a decode that fails answers. -/
theorem failed_of_isNone {s : State} (h : (decodeNext s).1.isNone = true) : ∃ t, decodeNext s = (none, t) :=
  ⟨_, Prod.ext (Option.isNone_iff_eq_none.1 h) rfl⟩

/-- A PIC in 8086 mode with base 8 and IR0 requested. -/
def pic0 : Pic := { ((State.reset.sys.pic.write20 0x13).write21 0x08).write21 0x01 with lines := 1, irr := 1 }

/-- IR0 requested, and INTR therefore asserted. -/
def irq0 (s : State) : State := { s with sys := { s.sys with pic := pic0 } }

/-- The execute phase just over. -/
def done (s : State) : State := eu (fun e => { e with phase := .executing }) s

/-- The execute phase of HLT just over. -/
def halting (s : State) : State := eu (fun e => { e with phase := .halting }) s

/-- Halted. -/
def halt (s : State) : State := eu (fun e => { e with halted := true }) s

/-- An NMI latched. -/
def nmi (s : State) : State := eu (fun e => { e with nmiLatch := true }) s

/-- What the acknowledge of `pic0` answers. -/
theorem pic0_inta : ∃ q, pic0.inta = some (8, q) := by
  have h : pic0.inta.map Prod.fst = some 8 := by decide +kernel
  obtain ⟨⟨v, q⟩, e, rfl⟩ := Option.map_eq_some_iff.1 h
  exact ⟨q, e⟩

/-- DecodeOfEncode: the terms at the edge of well-formedness. -/
theorem witness_DecodeOfEncode :
    (Instr.lea .r0 (.disp8 .bp 0)).wellFormed = true ∧ (Instr.add (.rmImm true (.reg .r0) (.byte 1))).wellFormed = true ∧
      (Instr.movToSreg .ss (.reg .r0)).wellFormed = true ∧ (Instr.xchgAx .r1).wellFormed = true := by decide

/-- EncodeOfDecode. -/
theorem witness_EncodeOfDecode : decode [0x8D, 0x46, 0x00, 0x90] = some (.lea .r0 (.disp8 .bp 0), [0x90]) := by decide +kernel

/-- DecodeLength: four bytes after the first two. -/
theorem witness_DecodeLength : 4 ≤ ([0x34, 0x12, 0x78, 0x56] : List Byte).length := by decide

/-- StepRunsDecoded: at an instruction's start and after a prefix byte, and past the length limit. -/
theorem witness_StepRunsDecoded :
    (let s := mem 0x100 [0x90] s0
     s.agenda = [] ∧ s.eu.halted = false ∧ s.eu.fault = none ∧ s.eu.phase = .start ∧
       ∃ i t, decodeNext (beginInsn s) = (some i, t)) ∧
      (let s := mem 0x100 [0x90] (seg .es s0)
       s.agenda = [] ∧ s.eu.halted = false ∧ s.eu.fault = none ∧ s.eu.phase = .prefixed ∧ ∃ i t, decodeNext s = (some i, t)) ∧
      let s := mem 0x100 [0x90] (eu (fun e => { e with insnStart := 0xF1 }) (seg .es s0))
      s.agenda = [] ∧ s.eu.halted = false ∧ s.eu.fault = none ∧ s.eu.phase = .prefixed ∧ ∃ t, decodeNext s = (none, t) :=
  ⟨⟨rfl, rfl, rfl, rfl, decoded_of_isSome (by decide +kernel)⟩, ⟨rfl, rfl, rfl, rfl, decoded_of_isSome (by decide +kernel)⟩, rfl, rfl,
    rfl, rfl, failed_of_isNone (by decide +kernel)⟩

/-- FetchConsumesStream: from memory, and from the queue with the length limit just reached (nine prefix bytes' worth consumed
and a six-byte instruction). -/
theorem witness_FetchConsumesStream :
    (let s := mem 0x100 [0x90] (eu (fun e => { e with insnStart := 0x100 }) s0)
     s.Quiet ∧ Instr.nop.wellFormed = true ∧ StreamAt s (encode .nop) ∧
       (ip s - s.eu.insnStart).toNat + (encode .nop).length ≤ maxInsnLen ∧
       (ip s - s.eu.insnStart).toNat = s.eu.prefixes.count ∧ ∀ b ∈ (encode .nop).head?, prefixByte b = none) ∧
      (let s := mem 0x100 [0xA4] (repe s0)
       s.Quiet ∧ StreamAt s (encode .movsb) ∧ (ip s - s.eu.insnStart).toNat + (encode .movsb).length ≤ maxInsnLen ∧
         (ip s - s.eu.insnStart).toNat = s.eu.prefixes.count ∧ ∀ b ∈ (encode .movsb).head?, prefixByte b = none) ∧
      let i := Instr.movRmImm .r0 (.mem (.disp16 .bx 0x1234)) (.word 0x5678)
      let s := mem 0x100 [0x78, 0x56]
        (eu (fun e => { e with insnStart := 0xF3 }) { s0 with biu := { s0.biu with queue := [0xC7, 0x87, 0x34, 0x12] } })
      s.Quiet ∧ i.wellFormed = true ∧ StreamAt s (encode i) ∧ (ip s - s.eu.insnStart).toNat + (encode i).length = maxInsnLen := by
  decide +kernel

/-- PrefixBytes: the last admitted prefix byte and the first refused one. -/
theorem witness_PrefixBytes :
    s0.Quiet ∧ (pre { Prefixes.empty with count := 3 } s0).eu.prefixes.count < maxPrefixes ∧
      maxPrefixes ≤ (pre { Prefixes.empty with count := 4 } s0).eu.prefixes.count := by decide

/-- The premise of every statement about one data, control or stack instruction (MovCompletes, MovSegmentRegister, Pushes, Pops,
Exchange, TableAndPointerLoads, AddAndAdc, SubSbbAndCmp, IncAndDec, NegAndNot, BitwiseLogic, Jumps, Calls, Returns,
IretCompletes). -/
theorem witness_quiet : s0.Quiet ∧ State.reset.Quiet := by decide

/-- Pushes and Pops: the clauses on the register operand SP. -/
theorem witness_stack_operands : Rm.reg .r4 = .reg .r4 ∧ Rm.reg .r0 ≠ .reg .r4 ∧ Rm.mem (.direct 0) ≠ .reg .r4 := by decide

/-- PortTransfers: the last ports below 0400h. -/
theorem witness_PortTransfers :
    s0.Quiet ∧ (portOf .dx (dx 0x3FF s0)).toNat < 0x400 ∧ (portOf .dx (dx 0x3FE s0)).toNat + 1 < 0x400 ∧
      (portOf (.imm 0xFF) s0).toNat + 1 < 0x400 := by decide +kernel

/-- The machine of R5's defaults with the MDA. -/
def mdaCfg : Config := { Config.default with videoAdapter := .mda }

/-- R53: the owner of a port at each end of each range, with each adapter, and of the ports beside them. -/
theorem test_port_owner :
    let c := Config.default
    portOwner c 0x00 = .dma 0 ∧ portOwner c 0x0F = .dma 15 ∧ portOwner c 0x10 = .none ∧ portOwner c 0x20 = .pic0 ∧
      portOwner c 0x21 = .pic1 ∧ portOwner c 0x22 = .none ∧ portOwner c 0x7F = .none ∧ portOwner c 0x80 = .page 0x80 ∧
      portOwner c 0x8F = .page 0x8F ∧ portOwner c 0x90 = .none ∧ portOwner c 0x3B4 = .none ∧ portOwner c 0x3D0 = .video 0 ∧
      portOwner c 0x3DF = .video 15 ∧ portOwner mdaCfg 0x3B0 = .video 0 ∧ portOwner mdaCfg 0x3BF = .video 15 ∧
      portOwner mdaCfg 0x3D4 = .none ∧ portOwner c 0x3EF = .none ∧ portOwner c 0x3F0 = .fdc 0 ∧ portOwner c 0x3F7 = .fdc 7 ∧
      portOwner c 0x3F8 = .none := by decide +kernel

/-- PortTransfers, its second conjunct: a port for each clause, the last one silent; the byte pointer read and a read no rule gives
(port 08h and port 09h) for the two cases of the DMA controller. -/
theorem witness_port_owners :
    let d := State.reset.sys.dma
    (0x0F : Word).toNat < 0x10 ∧ (∃ b, (d.read false 8).1 = some b) ∧ (d.read false 9).1 = none ∧ (0x20 : Word).toNat = 0x20 ∧
      (0x21 : Word).toNat = 0x21 ∧ 0x80 ≤ (0x8F : Word).toNat ∧ (0x8F : Word).toNat < 0x90 ∧
      Config.default.videoAdapter = .cga ∧ 0x3D0 ≤ (0x3DF : Word).toNat ∧ (0x3DF : Word).toNat < 0x3E0 ∧
      mdaCfg.videoAdapter = .mda ∧ 0x3B0 ≤ (0x3B0 : Word).toNat ∧ (0x3B0 : Word).toNat < 0x3C0 ∧
      0x3F0 ≤ (0x3F7 : Word).toNat ∧ (0x3F7 : Word).toNat < 0x3F8 ∧ 0x10 ≤ (0x3FF : Word).toNat ∧
      0x3F8 ≤ (0x3FF : Word).toNat ∧ (0x3FF : Word).toNat < 0x400 := by
  refine ⟨by decide, Option.isSome_iff_exists.1 (by decide +kernel), by decide +kernel⟩

/-- RefusedForms, clause by clause: port 0400h, a word at 03FFh, REP, `tf_prev`, and a frame over vector n, 3, 4 and 0. -/
theorem witness_RefusedForms :
    0x400 ≤ (portOf .dx (dx 0x400 s0)).toNat ∧ 0x400 ≤ (portOf .dx (dx 0x3FF s0)).toNat + 1 ∧ repPrefixed (repe s0) = true ∧
      (eu (fun e => { e with tfPrev := true }) s0).eu.tfPrev = true ∧ frameOverlapsVector 0x60 (sp 0x186 s0) = true ∧
      frameOverlapsVector 3 (sp 16 s0) = true ∧ frameOverlapsVector 4 (sp 20 s0) = true ∧ (of_ true (sp 20 s0)).flags.of_ = true ∧
      frameOverlapsVector 0 (sp 4 s0) = true := by decide +kernel

/-- RefusedForms, the divide errors whose frame overlaps vector 0: at both widths the divisor 0 and the first quotients out of range. -/
theorem witness_RefusedForms_divide :
    let at4 (s : State) : Prop := frameOverlapsVector 0 s = true ∧ s.Quiet ∧ repPrefixed s = false
    let q8 (s : State) : Int := s.regs.ax.toInt.tdiv (rmVal .byte (.reg .r3) s).toInt
    let q16 (s : State) : Int := (s.regs.dx.toInt * 65536 + s.regs.ax.toNat).tdiv (rmVal .word (.reg .r3) s).toInt
    let s := sp 4 s0
    (at4 s ∧ (rmVal .byte (.reg .r3) s).toNat = 0 ∧ (rmVal .word (.reg .r3) s).toInt = 0) ∧
      (let s := ax 0x200 (bx 2 s)
       at4 s ∧ 256 * (rmVal .byte (.reg .r3) s).toNat ≤ s.regs.ax.toNat) ∧
      (let s := dx 2 (bx 2 s)
       at4 s ∧ 65536 * (rmVal .word (.reg .r3) s).toNat ≤ s.regs.dx.toNat * 65536 + s.regs.ax.toNat) ∧
      (at4 (ax 0xFF80 (bx 1 s)) ∧ q8 (ax 0xFF80 (bx 1 s)) ≤ -128) ∧ (at4 (ax 0x80 (bx 1 s)) ∧ 128 ≤ q8 (ax 0x80 (bx 1 s))) ∧
      (at4 (dx 0xFFFF (ax 0x8000 (bx 1 s))) ∧ q16 (dx 0xFFFF (ax 0x8000 (bx 1 s))) ≤ -32768) ∧
      at4 (ax 0x8000 (bx 1 s)) ∧ 32768 ≤ q16 (ax 0x8000 (bx 1 s)) := by decide +kernel

/-- A PIC left in MCS-80/85 mode (ICW4 = 00h) with IR0 requested. -/
def mcs80 (s : State) : State :=
  { s with
    sys := { s.sys with
      pic := { ((State.reset.sys.pic.write20 0x13).write21 0x08).write21 0x00 with lines := 1, irr := 1 } } }

/-- RefusedForms, the overlaps and the mode of the acknowledge: an NMI over vector 2, an INTR over vector 8, and MCS-80/85 mode at the
two boundaries and in a halted CPU. -/
theorem witness_RefusedForms_interrupt :
    (let s := nmi (sp 12 s0)
     s.eu.nmiLatch = true ∧ frameOverlapsVector 2 s = true) ∧
      (let s := irq0 (fl 0xF202 (sp 36 s0))
       s.eu.nmiLatch = false ∧ (∃ p, s.sys.pic.inta = some (8, p)) ∧ frameOverlapsVector 8 s = true) ∧
      (let s := mcs80 (fl 0xF202 (done s0))
       s.eu.nmiLatch = false ∧ s.sys.pic.upm = false ∧ s.Quiet ∧ s.eu.phase = .executing ∧ s.eu.intInhibit = false ∧
         intrPending s = true) ∧
      (let s := mcs80 (fl 0xF202 (halting s0))
       s.eu.nmiLatch = false ∧ s.sys.pic.upm = false ∧ s.Quiet ∧ s.eu.phase = .halting ∧ s.eu.intInhibit = false ∧
         intrPending s = true) ∧
      let s := mcs80 (fl 0xF202 (halt s0))
      s.eu.nmiLatch = false ∧ s.sys.pic.upm = false ∧ s.agenda = [] ∧ s.eu.fault = none ∧ s.eu.halted = true ∧
        intrPending s = true := by
  refine ⟨by decide +kernel, ⟨rfl, pic0_inta, by decide +kernel⟩, by decide +kernel⟩

/-- Multiply. -/
theorem witness_Multiply : s0.Quiet ∧ repPrefixed s0 = false := by decide

/-- DivideCompletes: the largest quotients of DIV and the two ends of IDIV's, at both widths. -/
theorem witness_DivideCompletes :
    s0.Quiet ∧ repPrefixed s0 = false ∧
      (let s := ax 0x1FF (bx 2 s0)
       (rmVal .byte (.reg .r3) s).toNat ≠ 0 ∧ s.regs.ax.toNat < 256 * (rmVal .byte (.reg .r3) s).toNat) ∧
      (let s := dx 1 (ax 0xFFFF (bx 2 s0))
       (rmVal .word (.reg .r3) s).toNat ≠ 0 ∧
         s.regs.dx.toNat * 65536 + s.regs.ax.toNat < 65536 * (rmVal .word (.reg .r3) s).toNat) ∧
      (let q (v : Word) : Int := (ax v s0).regs.ax.toInt.tdiv (rmVal .byte (.reg .r3) (bx 1 s0)).toInt
       (rmVal .byte (.reg .r3) (bx 1 s0)).toInt ≠ 0 ∧ q 0x7F = 127 ∧ q 0xFF81 = -127) ∧
      let q (h l : Word) : Int :=
        ((dx h s0).regs.dx.toInt * 65536 + (ax l s0).regs.ax.toNat).tdiv (rmVal .word (.reg .r3) (bx 1 s0)).toInt
      (rmVal .word (.reg .r3) (bx 1 s0)).toInt ≠ 0 ∧ q 0 0x7FFF = 32767 ∧ q 0xFFFF 0x8001 = -32767 := by decide +kernel

/-- DivideErrors: the divisor 0, and the first quotients out of range. -/
theorem witness_DivideErrors :
    s0.Quiet ∧ frameOverlapsVector 0 s0 = false ∧ repPrefixed s0 = false ∧ (rmVal .byte (.reg .r3) s0).toNat = 0 ∧
      (rmVal .word (.reg .r3) s0).toInt = 0 ∧
      (let s := ax 0x200 (bx 2 s0)
       256 * (rmVal .byte (.reg .r3) s).toNat ≤ s.regs.ax.toNat) ∧
      (let s := dx 2 (bx 2 s0)
       65536 * (rmVal .word (.reg .r3) s).toNat ≤ s.regs.dx.toNat * 65536 + s.regs.ax.toNat) ∧
      (let s := ax 0xFF80 (bx 1 s0)
       s.regs.ax.toInt.tdiv (rmVal .byte (.reg .r3) s).toInt ≤ -128) ∧
      (let s := ax 0x80 (bx 1 s0)
       128 ≤ s.regs.ax.toInt.tdiv (rmVal .byte (.reg .r3) s).toInt) ∧
      (let s := dx 0xFFFF (ax 0x8000 (bx 1 s0))
       (s.regs.dx.toInt * 65536 + s.regs.ax.toNat).tdiv (rmVal .word (.reg .r3) s).toInt ≤ -32768) ∧
      let s := ax 0x8000 (bx 1 s0)
      32768 ≤ (s.regs.dx.toInt * 65536 + s.regs.ax.toNat).tdiv (rmVal .word (.reg .r3) s).toInt := by decide +kernel

/-- Adjusts: the bases 1 and FFh of AAM. -/
theorem witness_Adjusts : (1 : Byte) ≠ 0 ∧ (0xFF : Byte) ≠ 0 := by decide

/-- RotateCompletes, RotateThroughCarry, ShiftCompletes, ZeroCountsAndSetmo: the counts 1 and 255, and 0. -/
theorem witness_shift_counts :
    s0.Quiet ∧ 1 ≤ shiftCount .one s0 ∧ shiftCount .cl (cx 1 s0) = 1 ∧ 1 ≤ shiftCount .cl (cx 0xFF s0) ∧
      (s0.regs.get8 .r1 : Byte) = 0 := by decide +kernel

/-- StringPrimitives. -/
theorem witness_StringPrimitives : s0.Quiet ∧ repPrefixed s0 = false ∧ repPrefixed (seg .es s0) = false := by decide

/-- RepIterates: CX = 0; CX = 1, the last iteration; CX = 2, with and without an end by ZF. -/
theorem witness_RepIterates :
    isString .movsb = true ∧ repPrefixed (repe s0) = true ∧ (repe s0).regs.cx = 0 ∧
      (let s := repe (cx 1 s0)
       s.Quiet ∧ s.regs.cx ≠ 0 ∧ s.eu.nmiLatch = false ∧ intrPending s = false ∧ s.regs.cx = 1) ∧
      (let s := repe (cx 2 s0)
       s.Quiet ∧ s.regs.cx ≠ 0 ∧ s.eu.nmiLatch = false ∧ intrPending s = false ∧ s.regs.cx ≠ 1 ∧ isCompare .movsb = false) ∧
      isCompare .cmpsb = true ∧
      runs [0xA6] (repe (cx 2 s0)) (fun t => t.flags.zf) = true ∧
      runs [0xA6] (repe (cx 2 (mem 0 [1] (di 1 s0)))) (fun t => !t.flags.zf) = true := by decide +kernel

/-- RepInterrupted: MOVS and a CMPS that goes on, with an NMI, and with INTR alone. -/
theorem witness_RepInterrupted :
    (let s := nmi (repe (cx 2 s0))
     s.Quiet ∧ isString .movsb = true ∧ isCompare .movsb = false ∧ isString .cmpsb = true ∧ repPrefixed s = true ∧ s.regs.cx ≠ 0 ∧
       s.regs.cx ≠ 1 ∧ s.eu.nmiLatch = true ∧ frameOverlapsVector 2 s = false) ∧
      (let s := irq0 (fl 0xF202 (repe (cx 2 s0)))
       s.Quiet ∧ repPrefixed s = true ∧ s.regs.cx ≠ 0 ∧ s.regs.cx ≠ 1 ∧ s.eu.nmiLatch = false ∧ intrPending s = true ∧
         (∃ p, s.sys.pic.inta = some (8, p)) ∧ frameOverlapsVector 8 s = false) ∧
      runs [0xA6] (repe (cx 2 s0)) (fun t => t.flags.zf) = true := by
  refine ⟨by decide +kernel, ⟨by decide, by decide, by decide, by decide, rfl, by decide +kernel, pic0_inta, by decide +kernel⟩,
    by decide +kernel⟩

/-- Jumps: FLAGS = F002h, F882h, F047h and F082h make each of the sixteen conditions true once and false once. -/
theorem witness_Jumps :
    (fl 0xF882 s0).flags.of_ = true ∧ s0.flags.of_ = false ∧ (fl 0xF047 s0).flags.cf = true ∧ s0.flags.cf = false ∧
      (fl 0xF047 s0).flags.zf = true ∧ s0.flags.zf = false ∧ (fl 0xF882 s0).flags.sf = true ∧ s0.flags.sf = false ∧
      (fl 0xF047 s0).flags.pf = true ∧ s0.flags.pf = false ∧ (fl 0xF082 s0).flags.sf ≠ (fl 0xF082 s0).flags.of_ ∧
      (fl 0xF882 s0).flags.sf = (fl 0xF882 s0).flags.of_ := by decide +kernel

/-- Loops: CX = 0, 1 and 2, with ZF = 1 and ZF = 0. -/
theorem witness_Loops :
    (cx 1 s0).regs.cx = 1 ∧ (cx 2 s0).regs.cx ≠ 1 ∧ (zf true (cx 2 s0)).flags.zf = true ∧ (cx 2 s0).flags.zf = false ∧
      s0.regs.cx = 0 ∧ (cx 1 s0).regs.cx ≠ 0 := by decide

/-- SoftwareInterrupts: a frame that just misses the vector, for INT 0, and S0 for INT3 and INTO with OF = 1 and 0. -/
theorem witness_SoftwareInterrupts :
    s0.Quiet ∧ frameOverlapsVector 0 (sp 10 s0) = false ∧ frameOverlapsVector 3 s0 = false ∧ frameOverlapsVector 4 s0 = false ∧
      (of_ true s0).flags.of_ = true ∧ s0.flags.of_ = false := by decide +kernel

/-- The bytes S0 pushes an interrupt frame to lie in RAM. -/
theorem s0_frame_ram : ∀ a ∈ frameSpan s0, ∃ k, cellOf s0.cfg a = some (k, true) := by
  have h : (frameSpan s0).all (fun a => cellOf s0.cfg a == some (a.toNat, true)) = true := by decide +kernel
  exact fun a ha => ⟨_, eq_of_beq (List.all_eq_true.1 h a ha)⟩

/-- IretUndoesInt. -/
theorem witness_IretUndoesInt :
    s0.Quiet ∧ (∀ a ∈ frameSpan s0, ∃ k, cellOf s0.cfg a = some (k, true)) ∧ ∃ t, exec (.int 0x60) s0 = .next t :=
  ⟨by decide, s0_frame_ram, next_of_isNext (by decide +kernel)⟩

/-- InterruptEnableHltEscNop. -/
theorem witness_InterruptEnableHltEscNop : s0.Quiet ∧ s0.eu.tfPrev = false := by decide

/-- RefusedEncodings: a word of each disjunct, at the ends of its range. -/
theorem witness_RefusedEncodings :
    4 ≤ ([0, 0, 0, 0] : List Byte).length ∧ 4 ≤ (regField 0xE0).toNat ∧ 4 ≤ (regField 0xF8).toNat ∧ regField 0xC8 = 1 ∧
      modField 0xC0 = 3 ∧ 2 ≤ (regField 0xD0).toNat ∧ 2 ≤ (regField 0xF8).toNat ∧ regField 0xD8 = 3 ∧ modField 0xD8 = 3 ∧
      regField 0xE8 = 5 ∧ modField 0xE8 = 3 := by decide

/-- StackPrimitives: a push from S0 goes to RAM. -/
theorem witness_StackPrimitives : s0.Quiet ∧ ∀ a ∈ pushSpan s0, ∃ k, cellOf s0.cfg a = some (k, true) := by
  have h : (pushSpan s0).all (fun a => cellOf s0.cfg a == some (a.toNat, true)) = true := by decide +kernel
  exact ⟨by decide, fun a ha => ⟨_, eq_of_beq (List.all_eq_true.1 h a ha)⟩⟩

/-- Two bytes of RAM are two cells. -/
theorem two_cells : ¬ sameCell Config.default 0 1 := by
  rintro ⟨p, h0, h1⟩
  have h := h0.trans h1.symm
  revert h
  decide +kernel

/-- MemoryMap, clause by clause: the ends of the ROM and of RAM, two cells, the ends of each aperture with the address that repeats
it, and the ends of the unpopulated ranges. -/
theorem witness_MemoryMap :
    ¬ sameCell Config.default 0 1 ∧ 0xF0000 ≤ (0xF0000 : Phys).toNat ∧ 0xF0000 ≤ (0xFFFFF : Phys).toNat ∧
      (0x9FFFF : Phys).toNat < Config.default.ramSize ∧ (0x9FFFF : Phys).toNat < 0xA0000 ∧ (0 : Phys).toNat < Config.default.ramSize ∧
      (Config.default.videoAdapter = .cga ∧ 0xB8000 ≤ (0xB8000 : Phys).toNat ∧ (0xBC000 : Phys).toNat < 0xC0000 ∧
        (0xB8000 : Phys).toNat % 0x4000 = (0xBC000 : Phys).toNat % 0x4000 ∧ (0xBFFFF : Phys).toNat < 0xC0000 ∧
        (0xBFFFF : Phys).toNat % 0x4000 = (0xBBFFF : Phys).toNat % 0x4000) ∧
      (mdaCfg.videoAdapter = .mda ∧ 0xB0000 ≤ (0xB0000 : Phys).toNat ∧ (0xB7FFF : Phys).toNat < 0xB8000 ∧
        (0xB0000 : Phys).toNat % 0x2000 = (0xB6000 : Phys).toNat % 0x2000 ∧
        (0xB7FFF : Phys).toNat % 0x2000 = (0xB1FFF : Phys).toNat % 0x2000) :=
  ⟨two_cells, by decide +kernel⟩

/-- R48, D37: the two ends of each range nothing answers, with each adapter and with 64 KiB of RAM, and the addresses beside them. -/
theorem test_unpopulated :
    let silent (c : Config) (a : Phys) : Bool := (peek c [] a).isNone
    let c := Config.default
    let small : Config := { c with ramSize := 0x10000 }
    (silent c 0x9FFFF = false ∧ silent c 0xA0000 = true ∧ silent c 0xAFFFF = true ∧ silent small 0xFFFF = false ∧
      silent small 0x10000 = true) ∧
      (silent c 0xB0000 = true ∧ silent c 0xB7FFF = true ∧ silent c 0xB8000 = false ∧ silent c 0xBFFFF = false) ∧
      (silent mdaCfg 0xB0000 = false ∧ silent mdaCfg 0xB7FFF = false ∧ silent mdaCfg 0xB8000 = true ∧ silent mdaCfg 0xBFFFF = true) ∧
      silent c 0xC0000 = true ∧ silent c 0xEFFFF = true ∧ silent c 0xF0000 = false ∧ silent c 0xFFFFF = false := by decide +kernel

/-- BoundaryPriority: a state for each of the five branches, after an instruction and after HLT. -/
theorem witness_BoundaryPriority :
    ∀ p ∈ [EuPhase.executing, .halting],
      let s1 := eu (fun e => { e with phase := p }) s0
      (let s := eu (fun e => { e with intInhibit := true }) s1
       s.Quiet ∧ s.eu.phase = p ∧ s.eu.intInhibit = true) ∧
        (let s := nmi s1
         s.Quiet ∧ s.eu.phase = p ∧ s.eu.intInhibit = false ∧ s.eu.nmiLatch = true ∧ frameOverlapsVector 2 s = false) ∧
        (let s := irq0 (fl 0xF202 s1)
         s.Quiet ∧ s.eu.phase = p ∧ s.eu.intInhibit = false ∧ s.eu.nmiLatch = false ∧ s.sys.pic.intr = true ∧
           s.flags.if_ = true ∧ (s.sys.pic.inta.map Prod.fst = some 8) ∧ frameOverlapsVector 8 s = false) ∧
        (let s := eu (fun e => { e with tfPrev := true }) s1
         s.Quiet ∧ s.eu.phase = p ∧ s.eu.intInhibit = false ∧ s.eu.nmiLatch = false ∧ s.sys.pic.intr = false ∧
           s.eu.tfPrev = true ∧ frameOverlapsVector 1 s = false) ∧
        s1.Quiet ∧ s1.eu.phase = p ∧ s1.eu.intInhibit = false ∧ s1.eu.nmiLatch = false ∧ s1.sys.pic.intr = false ∧
          s1.eu.tfPrev = false := by decide +kernel

/-- HaltAndWake, the boundary after HLT: nothing pending, an inhibit over a latched NMI, an NMI, and INTR. -/
theorem witness_HaltAndWake_boundary :
    (let s := halting s0
     s.Quiet ∧ s.eu.phase = .halting ∧ s.eu.intInhibit = false ∧ s.eu.nmiLatch = false ∧ intrPending s = false ∧
       s.eu.tfPrev = false) ∧
      (let s := eu (fun e => { e with intInhibit := true }) (nmi (halting s0))
       s.Quiet ∧ s.eu.phase = .halting ∧ s.eu.intInhibit = true) ∧
      (let s := nmi (halting s0)
       s.Quiet ∧ s.eu.phase = .halting ∧ s.eu.intInhibit = false ∧ s.eu.nmiLatch = true ∧ frameOverlapsVector 2 s = false) ∧
      let s := irq0 (fl 0xF202 (halting s0))
      s.Quiet ∧ s.eu.phase = .halting ∧ s.eu.intInhibit = false ∧ s.eu.nmiLatch = false ∧ intrPending s = true ∧
        (s.sys.pic.inta.map Prod.fst = some 8) ∧ frameOverlapsVector 8 s = false := by decide +kernel

/-- HaltAndWake, the halted CPU: nothing pending, an NMI, and INTR. -/
theorem witness_HaltAndWake :
    (let s := halt s0
     s.Quiet ∧ s.eu.halted = true ∧ s.agenda = [] ∧ s.eu.fault = none ∧ s.eu.nmiLatch = false ∧ intrPending s = false) ∧
      (let s := nmi (halt s0)
       s.Quiet ∧ s.eu.halted = true ∧ s.agenda = [] ∧ s.eu.fault = none ∧ s.eu.nmiLatch = true ∧ frameOverlapsVector 2 s = false) ∧
      let s := irq0 (fl 0xF202 (halt s0))
      s.Quiet ∧ s.eu.halted = true ∧ s.agenda = [] ∧ s.eu.fault = none ∧ s.eu.nmiLatch = false ∧ intrPending s = true ∧
        (s.sys.pic.inta.map Prod.fst = some 8) ∧ frameOverlapsVector 8 s = false := by decide +kernel

/-- PicAcknowledge: nothing permitted; and level 0 best in edge mode without AEOI, whose acknowledge `pic0_inta` gives. -/
theorem witness_PicAcknowledge :
    pic0.upm = true ∧ ({ pic0 with irr := 0 }).best = none ∧ pic0.best = some 0 ∧ pic0.permitted 0 = true ∧ pic0.ltim = false ∧
      pic0.aeoi = false ∧ (∃ q, pic0.inta = some (8, q)) ∧ ∀ j, ({ pic0 with irr := 0 }).permitted j = false := by
  refine ⟨by decide +kernel, by decide +kernel, by decide +kernel, by decide +kernel, by decide +kernel, by decide +kernel,
    pic0_inta, ?_⟩
  decide +kernel

/-- PicInitAndEoi: two levels in service, 0 the more urgent; and only the least urgent. -/
theorem witness_PicInitAndEoi :
    (let p := { pic0 with isr := 0x81 }
     bitOf p.isr 0 = true ∧ ∀ j : BitVec 3, bitOf p.isr j.toNat = true → p.rank 0 ≤ p.rank j) ∧
      let p := { pic0 with isr := 0x80 }
      bitOf p.isr 7 = true ∧ ∀ j : BitVec 3, bitOf p.isr j.toNat = true → p.rank 7 ≤ p.rank j := by decide +kernel

/-- DmaTransfersAndRegisters: the counts 0 and 1, with and without auto-initialise; a verify and a read, at an address memory holds;
the first and the last channel port and page port, even and odd. -/
theorem witness_DmaTransfersAndRegisters :
    (let k := State.reset.sys.dma.ch.c0
     k.curCount = 0 ∧ k.autoInit = false ∧ ({ k with mode := 0x04 }).autoInit = true ∧ ({ k with curCount := 1 }).curCount ≠ 0 ∧
       k.transferType = 0 ∧ ({ k with mode := 0x02 }).transferType ≠ 0) ∧
      peek Config.default [] (State.reset.sys.dma.address 0) = some 0 ∧ (0 : Word).toNat < 8 ∧ (7 : Word).toNat < 8 ∧
      (0 : Word).getLsbD 0 = false ∧ (7 : Word).getLsbD 0 = true ∧ (0 : BitVec 2) ≠ 3 ∧ 0x80 ≤ (0x80 : Word).toNat ∧
      (0x8F : Word).toNat < 0x90 := by decide +kernel

/-- FdcResetPolling: the least and the greatest bytes of each kind. -/
theorem witness_FdcResetPolling :
    bitOf 0x00 2 = false ∧ bitOf 0xFB 2 = false ∧ (bitOf 0x0C 2 = true ∧ bitOf 0x0C 3 = true) ∧
      bitOf 0xFF 2 = true ∧ bitOf 0xFF 3 = true := by decide

/-- CrtcRegisterAccess: an index byte for each clause, at the ends of its range: 0 and 15 are written, 16 and 31 are not, 14 to 17 are
read back and 13 and 18 are not. -/
theorem witness_CrtcRegisterAccess :
    (0x00 : Byte).truncate 5 < (16 : BitVec 5) ∧ (0x0F : Byte).truncate 5 < (16 : BitVec 5) ∧
      (16 : BitVec 5) ≤ (0x10 : Byte).truncate 5 ∧ (16 : BitVec 5) ≤ (0xFF : Byte).truncate 5 ∧
      (14 : BitVec 5) ≤ (0x0E : Byte).truncate 5 ∧ (0x11 : Byte).truncate 5 ≤ (17 : BitVec 5) ∧
      (0x0D : Byte).truncate 5 < (14 : BitVec 5) ∧ (17 : BitVec 5) < (0x12 : Byte).truncate 5 ∧
      (0 : BitVec 5) ≠ (0x0E : Byte).truncate 5 := by decide

/-- A state that meets the CPU's invariant: any of S0's CPU fields with the phase at an instruction's start or after a prefix
byte. -/
theorem cpuInv_of (s : State) (hq : s.biu.queue = []) (hb : s.biu.fetching = false) (hp : s.eu.prefixes.count ≤ maxPrefixes) (hh : s.eu.halted = false)
    (hs : s.eu.phase = .start ∨ s.eu.phase = .prefixed) (hv : s.host = HostView.reset) : CpuInv s where
  queue := by simp [hq, hb]
  prefixes := Nat.le_add_right_of_le hp
  halted := by simp [hh]
  phase := hs.elim .inl fun h => .inr (.inl h)
  repeating := by rcases hs with h | h <;> simp [h]
  history := by simp [hv, HostView.reset]
  callStack := by simp [hv, HostView.reset]

/-- StepKeepsCpuInv. -/
theorem witness_StepKeepsCpuInv : CpuInv (mem 0x100 [0x50] s0) ∧ ∃ t, step (mem 0x100 [0x50] s0) = .next t :=
  ⟨cpuInv_of _ rfl rfl (by decide) rfl (.inl rfl) rfl, next_of_isNext (by decide +kernel)⟩

/-- StepKeepsMemInv: a step that stores. -/
theorem witness_StepKeepsMemInv : MemInv (mem 0x100 [0x50] s0) ∧ ∃ t, step (mem 0x100 [0x50] s0) = .next t :=
  ⟨⟨by decide +kernel, by decide +kernel, by decide +kernel, by decide +kernel, by decide +kernel⟩,
    next_of_isNext (by decide +kernel)⟩

/-- StepKeepsDeviceInv: a step that writes a device. -/
theorem witness_StepKeepsDeviceInv : DeviceInv (mem 0x100 [0xE6, 0x20] s0) ∧ ∃ t, step (mem 0x100 [0xE6, 0x20] s0) = .next t :=
  ⟨⟨by decide +kernel, by decide +kernel, by decide +kernel⟩, next_of_isNext (by decide +kernel)⟩

/-- A bus unit in a T-state of a code fetch. -/
def fetchingAt (t : TCycle) (busWait : Nat) (s : State) : State :=
  { s with biu := { s.biu with tCycle := t, fetchState := .inProgress, state := .prefetch, busWait := busWait } }

/-- OtherAgentsLeaveTheCpu: each of the three agents at the head of the agenda; a tick from each T-state, ready or not, with a code
fetch in flight and without one. -/
theorem witness_OtherAgentsLeaveTheCpu :
    (∀ u ∈ [Turn.prefetch, .fdc, .crtc], ∃ t, step { s0 with agenda := [u] } = .next t) ∧
      (∀ c ∈ [TCycle.ti, .t1, .t2, .t3, .tw, .t4], ∀ w ∈ [0, 1],
        let s := fetchingAt c w s0
        s.biu.fetching = true ∧ ∃ t, step { s with agenda := [.clock ⟨some 0, none⟩] } = .next t) ∧
      s0.biu.fetching = false ∧ ∃ t, step { s0 with agenda := [.clock ⟨none, some 5⟩] } = .next t := by
  refine ⟨fun u hu => next_of_isNext ?_, fun c hc w hw => ⟨rfl, next_of_isNext ?_⟩, rfl, next_of_isNext (by decide +kernel)⟩
  · revert u
    decide +kernel
  · revert c
    revert w
    decide +kernel

/-- OnlyDecodeFaults: a fifth prefix byte; a state that holds its fault, with an FDC that has something to do. -/
theorem witness_OnlyDecodeFaults :
    (let s := mem 0x100 [0x26] (pre { Prefixes.empty with count := 4 } s0)
     CpuInv s ∧ s.eu.fault = none ∧ ∃ t, step s = .next t ∧ t.eu.fault = some (.instructionDecodeError 0xFF)) ∧
      let s := holdFault (.instructionDecodeError 0xFF) { s0 with sys := { s0.sys with fdc := { s0.sys.fdc with phase := .operation, op := some op0 } } }
      s.eu.fault = some (.instructionDecodeError 0xFF) ∧ s.agenda = [] ∧ s.sys.fdc.ticking = true ∧
        step s = .fault (.instructionDecodeError 0xFF) := by
  refine ⟨⟨cpuInv_of _ rfl rfl (by decide) rfl (.inr rfl) rfl, rfl, ?_⟩, rfl, rfl, by decide +kernel, rfl⟩
  have h := test_five_prefixes
  unfold faults at h
  split at h
  · rename_i t e
    exact ⟨t, e, eq_of_beq (Bool.and_eq_true_iff.1 h).1⟩
  · cases h
  · cases h

end Sys2Proof.Tests
end

namespace Sys2Proof.Machine

/-! ### Operands of one state and another -/

/-- Two states in which every memory operand names the same bytes, and those bytes hold the same: what a store's outcome depends on. -/
structure SameOperands (s t : State) : Prop where
  cfg : t.cfg = s.cfg
  mem : t.sys.mem = s.sys.mem
  seg : ∀ m, memSeg m t = memSeg m s
  ea : ∀ m, ea m t = ea m s

theorem SameOperands.trans {s t u : State} (h : SameOperands s t) (k : SameOperands t u) : SameOperands s u :=
  ⟨k.cfg.trans h.cfg, k.mem.trans h.mem, fun m => (k.seg m).trans (h.seg m), fun m => (k.ea m).trans (h.ea m)⟩

theorem BusOnly.sameOperands {s t : State} (h : BusOnly s t) (m : t.sys.mem = s.sys.mem) : SameOperands s t :=
  ⟨h.cfg, m, memSeg_congr h.sregs h.prefixes, ea_congr h.regs⟩

theorem setFlags_sameOperands (f : Flags) (s : State) : SameOperands s (setFlags f s) :=
  ⟨rfl, rfl, memSeg_congr rfl rfl, ea_congr rfl⟩

/-- No effective address uses SP (R102). -/
theorem setSp_sameOperands (v : Word) (s : State) : SameOperands s (setSp v s) := by
  refine ⟨rfl, rfl, memSeg_congr rfl rfl, fun m => ?_⟩
  have base (b : Base) : baseOffset b (setSp v s) = baseOffset b s := by cases b <;> rfl
  cases m <;> simp [Sys2Proof.Machine.ea, base]

/-- A store seen from a state before it in which the operand is the same. -/
theorem Stored.of_sameOperands {w : Width} {rm : Rm} {v : Val w} {s t u : State} (h : Stored w rm v t u) (k : SameOperands s t) :
    Stored w rm v s u := by
  cases rm with
  | reg r => exact h
  | mem m =>
    simp only [Stored] at h ⊢
    rw [h, k.cfg, k.mem, k.seg, k.ea]

theorem SameOperands.rmSpan {s t : State} (h : SameOperands s t) (w : Width) (rm : Rm) : rmSpan w rm t = rmSpan w rm s := by
  cases rm with
  | reg r => rfl
  | mem m => simp [Sys2Proof.Machine.rmSpan, h.seg, h.ea]

/-- Writing an r/m operand some steps after the state in which it is named. -/
theorem rmWrite_after {s t : State} (q : t.Quiet) (k : SameOperands s t) (w : Width) (rm : Rm) (v : Val w) :
    Stored w rm v s (rmWrite w rm v t) ∧ DataStep (rmParts w rm) [] (rmSpan w rm s) t (rmWrite w rm v t) :=
  have h := rmWrite_spec q w rm v
  ⟨h.1.of_sameOperands k, k.rmSpan w rm ▸ h.2⟩

theorem rmWrite_flags (w : Width) (rm : Rm) (v : Val w) (s : State) : (rmWrite w rm v s).flags = s.flags := by
  cases rm with
  | reg r => rfl
  | mem m => exact (segWrite_busOnly w _ _ v s).flags

/-! ### Moves between registers and memory -/

/-- A register loaded from an r/m operand (R115). -/
theorem setReg_rmRead {s : State} (q : s.Quiet) (w : Width) (rm : Rm) (r : Reg) :
    let t := setReg w r (rmRead w rm s).1 (rmRead w rm s).2
    getReg w r t = rmVal w rm s ∧ DataStep [regPart w r] [] [] s t :=
  ⟨(getReg_setReg ..).trans (rmRead_quiet q w rm).1, (rmRead_dataStep q w rm).trans (setReg_dataStep ..)⟩

/-- A register loaded from `seg:off` (R117). -/
theorem setReg_segRead {s : State} (q : s.Quiet) (w : Width) (seg off : Word) (r : Reg) :
    let t := setReg w r (segRead w seg off s).1 (segRead w seg off s).2
    getReg w r t = heldVal w seg off s ∧ DataStep [regPart w r] [] [] s t :=
  ⟨(getReg_setReg ..).trans (segRead_quiet q w seg off).1, (segRead_dataStep q w seg off).trans (setReg_dataStep ..)⟩

theorem exec_movRegImm (r : Reg) (i : Imm) (s : State) : exec (.movRegImm r i) s = .next (setReg i.width r (immVal i) s) := by
  cases i <;> rfl

theorem exec_movRmImm (ext : Reg) (rm : Rm) (i : Imm) (s : State) :
    exec (.movRmImm ext rm i) s = .next (rmWrite i.width rm (immVal i) s) := by
  cases i <;> rfl

/-- Settles O8: each form is one write of an operand, after at most one read. -/
theorem movCompletes : Obligations.MovCompletes := by
  unfold Obligations.MovCompletes
  intro s q
  refine ⟨fun w rm r => ⟨⟨_, rfl, rmWrite_spec q w rm _⟩, ⟨_, rfl, setReg_rmRead q w rm r⟩⟩, fun w off => ⟨?_, ?_⟩,
    fun r i => ?_, fun ext rm i => ?_⟩
  · exact ⟨_, rfl, setReg_segRead q w _ off .r0⟩
  · exact ⟨_, rfl, congrArg Sys.mem (segWrite_quiet q w _ off _).1, segWrite_dataStep q w _ off _⟩
  · exact ⟨_, exec_movRegImm r i s, getReg_setReg .., setReg_dataStep ..⟩
  · exact ⟨_, exec_movRmImm ext rm i s, rmWrite_spec q i.width rm _⟩

/-! ### Pushes and pops -/

/-- A word has been pushed (R10): SP is down by 2, the word is stored there, and nothing else has changed. -/
abbrev Pushed (v : Word) (s t : State) : Prop :=
  t.regs.sp = s.regs.sp - 2 ∧ t.sys.mem = storeVal s.cfg .word s.sregs.ss (s.regs.sp - 2) v s.sys.mem ∧
    DataStep [.word .r4] [] (pushSpan s) s t

/-- A push after reads of the bus is a push from the state before them. -/
theorem push_after {s t : State} (q : s.Quiet) (h : QuietBus s t) (m : t.sys.mem = s.sys.mem) (v : Word) : Pushed v s (push v t) := by
  obtain ⟨sp, mem, step⟩ := push_spec (h.quiet q) v
  have hs : pushSpan t = pushSpan s := by simp [pushSpan, h.sregs, h.regs]
  rw [h.regs] at sp
  rw [h.cfg, h.sregs, h.regs, m] at mem
  exact ⟨sp, mem, hs ▸ (h.dataStep m).trans step⟩

/-- PUSH SP reads its operand after SP has gone down (R120). -/
theorem exec_pushReg (r : Reg) (s : State) :
    exec (.pushReg r) s = .next (push (if r = .r4 then s.regs.sp - 2 else s.regs.get16 r) s) := by
  cases r <;> rfl

theorem drawBit_quietBus (s : State) : QuietBus s (drawBit s).2 :=
  ⟨rfl, rfl, rfl, rfl, rfl, rfl, rfl, Iff.rfl, id, rfl, rfl, rfl, rfl, rfl, rfl, rfl, rfl, rfl, rfl⟩

/-- PUSH r/m of the register SP stores the old or the decremented SP, as a draw says (R122). -/
theorem exec_pushRm_sp (alt : Bool) (s : State) :
    exec (.pushRm alt (.reg .r4)) s = .next (push (if (drawBit s).1 then s.regs.sp else s.regs.sp - 2) (drawBit s).2) := rfl

theorem exec_pushRm_of_ne (alt : Bool) {rm : Rm} (h : rm ≠ .reg .r4) (s : State) :
    exec (.pushRm alt rm) s = .next (push (rmRead .word rm s).1 (rmRead .word rm s).2) := if_neg h

/-- Settles O10: each form is one push, of an operand read before SP changes except by PUSH SP. -/
theorem pushes : Obligations.Pushes := by
  unfold Obligations.Pushes
  intro s q
  refine ⟨fun r => ⟨_, exec_pushReg r s, push_spec q _⟩, fun sr => ⟨_, rfl, push_spec q _⟩, ⟨_, rfl, push_spec q _⟩,
    fun alt rm => ?_⟩
  by_cases h : rm = .reg .r4
  · subst h
    refine ⟨_, _, exec_pushRm_sp alt s, push_after q (drawBit_quietBus s) rfl _, fun n => absurd rfl n, fun _ => ?_⟩
    cases (drawBit s).1
    · exact .inr rfl
    · exact .inl rfl
  · obtain ⟨val, mem, bus⟩ := rmRead_quiet q .word rm
    exact ⟨_, _, exec_pushRm_of_ne alt h s, push_after q bus mem _, fun _ => val, fun e => absurd e h⟩

theorem setSreg_frame (r : SReg) (v : Word) (s : State) : Frame [] [] [] s (setSreg r v s) :=
  ⟨RegsKept.of_eq rfl, FlagsKept.of_eq rfl, MemKept.of_eq rfl, rfl, rfl, rfl, rfl, rfl, rfl, rfl, rfl, ⟨rfl, id⟩⟩

theorem inhibitNext_frame (s : State) : Frame [] [] [] s (inhibitNext s) :=
  ⟨RegsKept.of_eq rfl, FlagsKept.of_eq rfl, MemKept.of_eq rfl, rfl, rfl, rfl, rfl, rfl, rfl, rfl, rfl, ⟨rfl, id⟩⟩

/-- No effective address uses SP, so an operand is the same before and after a pop (R125). -/
theorem pop_sameOperands {s : State} (q : s.Quiet) : SameOperands s (pop s).2 :=
  have h := segRead_quiet q .word s.sregs.ss s.regs.sp
  (h.2.2.busOnly.sameOperands h.2.1).trans (setSp_sameOperands _ _)

/-- A write of an r/m operand other than the register SP leaves SP. -/
theorem rmWrite_sp {s : State} (q : s.Quiet) {rm : Rm} (h : rm ≠ .reg .r4) (v : Word) : (rmWrite .word rm v s).regs.sp = s.regs.sp := by
  refine (rmWrite_spec q .word rm v).2.1.regs.1 .r4 fun p hp => ?_
  cases rm with
  | reg r =>
    rw [List.mem_singleton.mp hp]
    exact beq_false_of_ne fun e => h (congrArg Rm.reg e)
  | mem m => exact absurd hp List.not_mem_nil

/-- Settles O11: each form is one pop, followed by a write of its destination. -/
theorem pops : Obligations.Pops := by
  unfold Obligations.Pops
  intro s q v
  obtain ⟨val, sp, -, step⟩ := pop_spec q
  have val : (pop s).1 = v := val
  refine ⟨fun r => ⟨_, rfl, ?_, fun h => ?_, step.trans (setReg_dataStep .word r _ _)⟩,
    fun sr => ⟨_, rfl, ?_, fun p h => ?_, sp, ?_, ?_, ?_⟩, ⟨_, rfl, congrArg Flags.ofWord val, sp, ?_⟩, fun ext rm => ?_⟩
  · exact (getReg_setReg .word r _ _).trans val
  · exact ((Regs.get16_set16 .r4 r _ _).trans (if_neg h.symm)).trans sp
  · exact (SRegs.get_set_self sr _ _).trans val
  · exact ((SRegs.get_set p sr _ _).trans (if_neg h)).trans (congrArg (SRegs.get p) step.2.1.sregs)
  · exact congrArg (fun e : Eu => { e with intInhibit := true }) step.2.1.eu
  · exact (step.1.trans (setSreg_frame sr _ _)).trans (inhibitNext_frame _)
  · exact ⟨step.2.2.pc, step.2.2.queue, step.2.2.suspended⟩
  · exact step.trans (setFlags_dataStep fun n hn => absurd (by cases n <;> decide) hn)
  · obtain ⟨stored, write⟩ := rmWrite_after (pop_quiet q) (pop_sameOperands q) .word rm (pop s).1
    exact ⟨_, rfl, val ▸ stored, fun h => (rmWrite_sp (pop_quiet q) h _).trans sp, step.trans write⟩

end Sys2Proof.Machine

namespace Sys2Proof.Machine

/-! ### A word in RAM, read back -/

theorem phys_toNat (seg off : Word) : (phys seg off).toNat = (seg.toNat * 16 + off.toNat) % 2 ^ 20 := by
  have := seg.isLt
  have := off.isLt
  simp only [phys, BitVec.toNat_add, BitVec.toNat_shiftLeft, BitVec.zeroExtend, BitVec.toNat_setWidth, Nat.shiftLeft_eq]
  omega

/-- The number an address is held under: its own outside the apertures, its place in the video memory within (R48, R51). -/
theorem cellOf_number {c : Config} {a : Phys} {p : Nat × Bool} (h : cellOf c a = some p) :
    (p.1 = a.toNat ∧ (a.toNat < 0xA0000 ∨ 0xF0000 ≤ a.toNat)) ∨
      (p.1 = 0xB0000 + a.toNat % 0x2000 ∧ 0xB0000 ≤ a.toNat ∧ a.toNat < 0xB8000) ∨
      (p.1 = 0xB8000 + a.toNat % 0x4000 ∧ 0xB8000 ≤ a.toNat ∧ a.toNat < 0xC0000) := by
  unfold cellOf at h
  simp only at h
  split at h
  · cases h
    exact .inl ⟨rfl, by omega⟩
  · split at h
    · cases h
      exact .inl ⟨rfl, by omega⟩
    · split at h
      · split at h <;> cases h
        rename_i inside
        exact .inr (.inl ⟨rfl, by simpa using inside⟩)
      · split at h <;> cases h
        rename_i inside
        exact .inr (.inr ⟨rfl, by simpa using inside⟩)

/-- The two bytes of a word are never one cell: consecutive addresses are held under different numbers, and so are the two ends of a
segment, which lie too far apart for an aperture (R42, R51). -/
theorem cellOf_next_ne {c : Config} {seg off : Word} {p q : Nat × Bool} (hp : cellOf c (phys seg off) = some p)
    (hq : cellOf c (phys seg (off + 1)) = some q) : p.1 ≠ q.1 := by
  have ho := off.isLt
  have one : (off + 1).toNat = (off.toNat + 1) % 2 ^ 16 := BitVec.toNat_add off 1
  have ea := phys_toNat seg off
  have eb := phys_toNat seg (off + 1)
  rw [one] at eb
  rcases cellOf_number hp with a | a | a <;> rcases cellOf_number hq with b | b | b <;> omega

/-- Two writable bytes of different cells read back as they were written, one after the other. -/
theorem peek_poke_poke {c : Config} {a b : Phys} {i j : Nat} (ha : cellOf c a = some (i, true)) (hb : cellOf c b = some (j, true))
    (ne : i ≠ j) (x y : Byte) (m : Memory) :
    peek c (poke c (poke c m a x) b y) a = some x ∧ peek c (poke c (poke c m a x) b y) b = some y := by
  simp [peek, poke, ha, hb, Memory.get_set, ne]

/-- A word stored in RAM or in the aperture of the adapter present reads back as it was stored (R43, R48). -/
theorem heldFrom_storeVal {c : Config} {seg off : Word} (h : ∀ a ∈ span .word seg off, ∃ k, cellOf c a = some (k, true)) (v : Word)
    (m : Memory) (k : Nat) : heldFrom c (storeVal c .word seg off v m) k .word seg off = v := by
  obtain ⟨i, hi⟩ := h (phys seg off) List.mem_cons_self
  obtain ⟨j, hj⟩ := h (phys seg (off + 1)) (List.mem_cons_of_mem _ List.mem_cons_self)
  obtain ⟨lo, hi⟩ := peek_poke_poke hi hj (cellOf_next_ne hi hj) (loByte v) (hiByte v) m
  simp only [heldFrom, heldByte, storeVal, lo, hi, Option.getD_some, wordOf_loByte_hiByte]

/-- Settles O45: SP comes back to where it was, and the word read there is the word stored. -/
theorem stackPrimitives : Obligations.StackPrimitives := by
  unfold Obligations.StackPrimitives
  intro s v q
  obtain ⟨pushSp, pushMem, -⟩ := push_spec q v
  obtain ⟨popVal, popSp, popMem, -⟩ := pop_spec q
  refine ⟨pushSp, pushMem, popVal, popSp, popMem, fun ram => ⟨?_, ?_⟩⟩
  · obtain ⟨sregs, -, cfg, -⟩ := push_busOnly_regs v s
    rw [(pop_spec (push_quiet q v)).1, heldVal, cfg, sregs, pushSp, pushMem]
    exact heldFrom_storeVal ram v s.sys.mem _
  · obtain ⟨-, -, -, -, pushRegs, -⟩ := push_busOnly_regs v s
    obtain ⟨-, -, -, -, popRegs, -⟩ := pop_busOnly_regs (push v s)
    have sp : s.regs.sp - 2 + 2 = s.regs.sp := BitVec.sub_add_cancel ..
    rw [popRegs, pushRegs, sp]

end Sys2Proof.Machine

namespace Sys2Proof.Machine

/-! ### Sums and differences of one width (R139, R140) -/

theorem addCarry_eq {n : Nat} (a b : BitVec n) (c : Bool) : addCarry a b c = BitVec.ofNat n (a.toNat + b.toNat + c.toNat) := by
  simp [addCarry, BitVec.ofNat_add]

theorem subBorrow_eq {n : Nat} (a b : BitVec n) (c : Bool) : subBorrow a b c = BitVec.ofInt n (a.toInt - b.toInt - c.toNat) := by
  simp only [subBorrow, Int.sub_eq_add_neg, BitVec.sub_eq_add_neg, BitVec.ofInt_add, BitVec.ofInt_neg, BitVec.ofInt_toInt,
    BitVec.ofInt_natCast]

/-- An addition undoes a subtraction. -/
theorem addCarry_subBorrow {n : Nat} (a b : BitVec n) (c : Bool) : addCarry (subBorrow a b c) b c = a := by
  rw [addCarry, subBorrow, BitVec.add_assoc, BitVec.add_comm b, ← BitVec.add_assoc, BitVec.sub_add_cancel, BitVec.sub_add_cancel]

/-- `r` is the sum of two values and a carry, but for a carry out (R139).  Read from right to left, `a` is the difference of `r` and
`b` and a borrow (R140). -/
def SumOf {n : Nat} (a b : BitVec n) (c : Bool) (r : BitVec n) : Prop :=
  r.toNat = a.toNat + b.toNat + c.toNat ∨ r.toNat + 2 ^ n = a.toNat + b.toNat + c.toNat

theorem bits_eq_or (w : Width) : w.bits = 8 ∨ w.bits = 16 := by
  cases w
  · exact .inl rfl
  · exact .inr rfl

theorem getLsbD_four {n : Nat} (x : BitVec n) : x.getLsbD 4 = decide (x.toNat / 16 % 2 = 1) := by
  rw [BitVec.getLsbD, Nat.testBit_eq_decide_div_mod_eq]

theorem xor_eq_true_iff (p q : Bool) : (p ^^ q) = true ↔ ¬ p = q := by
  cases p <;> cases q <;> decide

theorem xor_odd (x y : Nat) : (decide (x % 2 = 1) ^^ decide (y % 2 = 1)) = decide ((x + y) % 2 = 1) := by
  rw [Bool.eq_iff_iff]
  simp only [xor_eq_true_iff, decide_eq_decide, decide_eq_true_eq]
  omega

/-- The signed value of a word is its number, or that less 2^n, and lies within its range. -/
theorem toInt_range {n : Nat} (x : BitVec n) :
    (x.toInt = x.toNat ∨ x.toInt = x.toNat - 2 ^ n) ∧ -2 ^ (n - 1) ≤ x.toInt ∧ x.toInt < 2 ^ (n - 1) := by
  refine ⟨?_, BitVec.le_toInt x, BitVec.toInt_lt⟩
  rw [BitVec.toInt_eq_toNat_cond]
  split
  · exact .inl rfl
  · exact .inr (by simp)

section
variable {n : Nat} (hn : n = 8 ∨ n = 16) (a b : BitVec n) (c : Bool)
include hn

theorem sumOf_addCarry : SumOf a b c (addCarry a b c) := by
  have ha := a.isLt
  have hb := b.isLt
  have hc := c.toNat_le
  have r : (addCarry a b c).toNat = (a.toNat + b.toNat + c.toNat) % 2 ^ n := by rw [addCarry_eq, BitVec.toNat_ofNat]
  unfold SumOf
  rcases hn with rfl | rfl <;> omega

theorem sumOf_subBorrow : SumOf (subBorrow a b c) b c a := by
  have h := sumOf_addCarry hn (subBorrow a b c) b c
  rwa [addCarry_subBorrow] at h

variable {a b c} {r : BitVec n} (h : SumOf a b c r)
include h

/-- Bit 4 of the exclusive or of a sum and its operands says that the low nibbles carry (R139). -/
theorem SumOf.nibble : (a ^^^ b ^^^ r).getLsbD 4 = decide (16 ≤ a.toNat % 16 + b.toNat % 16 + c.toNat) := by
  have hc := c.toNat_le
  unfold SumOf at h
  rw [BitVec.getLsbD_xor, BitVec.getLsbD_xor]
  simp only [getLsbD_four, xor_odd, decide_eq_decide]
  rcases hn with rfl | rfl <;> omega

/-- Bit 4 of the exclusive or of a difference and its operands says that the low nibbles borrow (R140). -/
theorem SumOf.borrowNibble : (r ^^^ b ^^^ a).getLsbD 4 = decide (r.toNat % 16 < b.toNat % 16 + c.toNat) := by
  have hc := c.toNat_le
  unfold SumOf at h
  rw [BitVec.getLsbD_xor, BitVec.getLsbD_xor]
  simp only [getLsbD_four, xor_odd, decide_eq_decide]
  rcases hn with rfl | rfl <;> omega

/-- The signed sum does not fit where the sum's sign is that of neither operand (R139). -/
theorem SumOf.overflow : ((a ^^^ r) &&& (b ^^^ r)).msb =
    decide (a.toInt + b.toInt + c.toNat < -2 ^ (n - 1) ∨ 2 ^ (n - 1) ≤ a.toInt + b.toInt + c.toNat) := by
  have hc := c.toNat_le
  have ha := toInt_range a
  have hb := toInt_range b
  have hr := toInt_range r
  unfold SumOf at h
  rw [Bool.eq_iff_iff, BitVec.msb_and, BitVec.msb_xor, BitVec.msb_xor]
  simp only [BitVec.msb_eq_toInt, Bool.and_eq_true, xor_eq_true_iff, decide_eq_decide, decide_eq_true_eq]
  rcases hn with rfl | rfl <;> omega

/-- The signed difference does not fit where the second operand's sign and the difference's are not the first's (R140). -/
theorem SumOf.borrowOverflow : ((r ^^^ b) &&& (r ^^^ a)).msb =
    decide (r.toInt - b.toInt - c.toNat < -2 ^ (n - 1) ∨ 2 ^ (n - 1) ≤ r.toInt - b.toInt - c.toNat) := by
  have hc := c.toNat_le
  have ha := toInt_range a
  have hb := toInt_range b
  have hr := toInt_range r
  unfold SumOf at h
  rw [Bool.eq_iff_iff, BitVec.msb_and, BitVec.msb_xor, BitVec.msb_xor]
  simp only [BitVec.msb_eq_toInt, Bool.and_eq_true, xor_eq_true_iff, decide_eq_decide, decide_eq_true_eq]
  rcases hn with rfl | rfl <;> omega

end

/-- The flags of an addition are those of the exact sums (R139). -/
theorem Flags.add_flags (w : Width) (a b : Val w) (c : Bool) (f : Flags) : AddFlags a b c (f.add a b c) where
  cf := rfl
  af := SumOf.nibble (bits_eq_or w) (sumOf_addCarry (bits_eq_or w) a b c)
  of_ := SumOf.overflow (bits_eq_or w) (sumOf_addCarry (bits_eq_or w) a b c)
  szp := addCarry_eq a b c ▸ (Flags.szp_spec w (addCarry a b c) _).1

/-- The flags of a subtraction are those of the exact differences (R140). -/
theorem Flags.sub_flags (w : Width) (a b : Val w) (c : Bool) (f : Flags) : SubFlags a b c (f.sub a b c) where
  cf := rfl
  af := SumOf.borrowNibble (bits_eq_or w) (sumOf_subBorrow (bits_eq_or w) a b c)
  of_ := SumOf.borrowOverflow (bits_eq_or w) (sumOf_subBorrow (bits_eq_or w) a b c)
  szp := subBorrow_eq a b c ▸ (Flags.szp_spec w (subBorrow a b c) _).1

end Sys2Proof.Machine

namespace Sys2Proof.Machine

/-! ### What an ALU operation computes -/

/-- An operation of two operands and CF computes a result and flags, and changes nothing but the six status flags and the count of free
values (R94, R138). -/
structure AluOp.Computes (op : AluOp) (res : (w : Width) → Val w → Val w → Bool → Val w)
    (post : (w : Width) → Val w → Val w → Bool → Flags → Prop) : Prop where
  result : ∀ w a b s, (op w a b s).1 = res w a b s.flags.cf
  flags : ∀ w a b s, post w a b s.flags.cf (op w a b s).2.flags
  operands : ∀ w a b s, SameOperands s (op w a b s).2
  step : ∀ w a b s, DataStep [] statusFlags [] s (op w a b s).2

section
variable {op : AluOp} {res : (w : Width) → Val w → Val w → Bool → Val w}
  {post : (w : Width) → Val w → Val w → Bool → Flags → Prop} (h : op.Computes res post)
include h

/-- An r/m destination: read, computed with, and written back (R94, R138). -/
theorem AluOp.Computes.toRm {s : State} (q : s.Quiet) (w : Width) (rm : Rm) (b : Val w) :
    let t := aluToRm op true w rm b s
    Stored w rm (res w (rmVal w rm s) b s.flags.cf) s t ∧ post w (rmVal w rm s) b s.flags.cf t.flags ∧
      DataStep (rmParts w rm) statusFlags (rmSpan w rm s) s t := by
  obtain ⟨val, mem, bus⟩ := rmRead_quiet q w rm
  have read := rmRead_dataStep q w rm
  have step := read.trans (h.step w (rmRead w rm s).1 b _)
  have same := (bus.busOnly.sameOperands mem).trans (h.operands w (rmRead w rm s).1 b _)
  have write := rmWrite_after (step.toQuiet q) same w rm (op w (rmRead w rm s).1 b (rmRead w rm s).2).1
  have flags := h.flags w (rmRead w rm s).1 b (rmRead w rm s).2
  rw [val, bus.flags] at flags
  refine ⟨?_, ?_, step.trans write.2⟩
  · rw [← val, ← bus.flags, ← h.result]
    exact write.1
  · rw [aluToRm, if_pos rfl, rmWrite_flags, val]
    exact flags

/-- A destination that is only compared (R145, R166). -/
theorem AluOp.Computes.compare {s : State} (q : s.Quiet) (w : Width) (rm : Rm) (b : Val w) :
    let t := aluToRm op false w rm b s
    post w (rmVal w rm s) b s.flags.cf t.flags ∧ DataStep [] statusFlags [] s t := by
  obtain ⟨val, -, bus⟩ := rmRead_quiet q w rm
  have flags := h.flags w (rmRead w rm s).1 b (rmRead w rm s).2
  rw [val, bus.flags] at flags
  exact ⟨val ▸ flags, (rmRead_dataStep q w rm).trans (h.step w (rmRead w rm s).1 b _)⟩

end

/-- The nine forms are one (R138): the source is read, then the destination takes part as an r/m operand, which has the value it had. -/
theorem aluForm_eq {s : State} (q : s.Quiet) (f : AluForm) :
    ∃ t, (∀ op wb, aluForm op wb f s = aluToRm op wb (aluWidth f) (aluDst f) (aluSrc f s) t) ∧ QuietBus s t ∧
      t.sys.mem = s.sys.mem ∧ rmVal (aluWidth f) (aluDst f) t = rmVal (aluWidth f) (aluDst f) s := by
  cases f with
  | rmReg d w rm r =>
    cases d with
    | toRm => exact ⟨s, fun _ _ => rfl, QuietBus.refl s, rfl, rfl⟩
    | toReg =>
      obtain ⟨val, mem, bus⟩ := rmRead_quiet q w rm
      refine ⟨(rmRead w rm s).2, fun op wb => ?_, bus, mem, congrArg (Regs.getW w r) bus.regs⟩
      show aluToReg op wb w r (rmRead w rm s).1 (rmRead w rm s).2 = aluToRm op wb w (.reg r) (rmVal w rm s) (rmRead w rm s).2
      rw [val]
      rfl
  | acc i => cases i <;> exact ⟨s, fun _ _ => rfl, QuietBus.refl s, rfl, rfl⟩
  | rmImm alt rm i => cases i <;> exact ⟨s, fun _ _ => rfl, QuietBus.refl s, rfl, rfl⟩
  | rmImm8s rm i => exact ⟨s, fun _ _ => rfl, QuietBus.refl s, rfl, rfl⟩

/-- The forms of TEST are one (R166). -/
theorem testForm_eq (op : AluOp) (f : TestForm) (s : State) :
    testForm op f s = aluToRm op false (testWidth f) (testDst f) (testSrc f s) s := by
  cases f with
  | rmReg w rm r => rfl
  | acc i => cases i <;> rfl
  | rmImm alt rm i => cases i <;> rfl

section
variable {op : AluOp} {res : (w : Width) → Val w → Val w → Bool → Val w}
  {post : (w : Width) → Val w → Val w → Bool → Flags → Prop} (h : op.Computes res post)
include h

/-- An operation in any of its forms, the result stored at the destination. -/
theorem AluOp.Computes.form {s : State} (q : s.Quiet) (f : AluForm) :
    let t := aluForm op true f s
    Stored (aluWidth f) (aluDst f) (res _ (rmVal (aluWidth f) (aluDst f) s) (aluSrc f s) s.flags.cf) s t ∧
      post _ (rmVal (aluWidth f) (aluDst f) s) (aluSrc f s) s.flags.cf t.flags ∧
      DataStep (rmParts (aluWidth f) (aluDst f)) statusFlags (rmSpan (aluWidth f) (aluDst f) s) s t := by
  obtain ⟨t, eq, bus, mem, val⟩ := aluForm_eq q f
  have same := bus.busOnly.sameOperands mem
  obtain ⟨stored, flags, step⟩ := h.toRm (bus.quiet q) (aluWidth f) (aluDst f) (aluSrc f s)
  rw [val, bus.flags] at stored flags
  rw [same.rmSpan] at step
  simp only [eq]
  exact ⟨stored.of_sameOperands same, flags, (bus.dataStep mem).trans step⟩

/-- An operation in any of its forms, nothing stored. -/
theorem AluOp.Computes.formCompare {s : State} (q : s.Quiet) (f : AluForm) :
    let t := aluForm op false f s
    post _ (rmVal (aluWidth f) (aluDst f) s) (aluSrc f s) s.flags.cf t.flags ∧ DataStep [] statusFlags [] s t := by
  obtain ⟨t, eq, bus, mem, val⟩ := aluForm_eq q f
  obtain ⟨flags, step⟩ := h.compare (bus.quiet q) (aluWidth f) (aluDst f) (aluSrc f s)
  rw [val, bus.flags] at flags
  simp only [eq]
  exact ⟨flags, (bus.dataStep mem).trans step⟩

end

/-- A flag write that keeps TF, IF and DF. -/
theorem setFlags_status {f : Flags} {s : State} (tf : f.tf = s.flags.tf) (if_ : f.if_ = s.flags.if_) (df : f.df = s.flags.df) :
    DataStep [] statusFlags [] s (setFlags f s) :=
  setFlags_dataStep (flagsKept_status (t := setFlags f s) tf if_ df)

/-! ### Addition, subtraction and comparison -/

theorem addOp_computes : addOp.Computes (fun _ a b _ => BitVec.ofNat _ (a.toNat + b.toNat + false.toNat))
    (fun _ a b _ f => AddFlags a b false f) where
  result _ a b _ := addCarry_eq a b false
  flags w a b s := Flags.add_flags w a b false s.flags
  operands _ _ _ s := setFlags_sameOperands _ s
  step _ _ _ _ := setFlags_status rfl rfl rfl

theorem adcOp_computes : adcOp.Computes (fun _ a b c => BitVec.ofNat _ (a.toNat + b.toNat + c.toNat))
    (fun _ a b c f => AddFlags a b c f) where
  result _ a b s := addCarry_eq a b s.flags.cf
  flags w a b s := Flags.add_flags w a b s.flags.cf s.flags
  operands _ _ _ s := setFlags_sameOperands _ s
  step _ _ _ _ := setFlags_status rfl rfl rfl

theorem subOp_computes : subOp.Computes (fun _ a b _ => BitVec.ofInt _ (a.toInt - b.toInt - false.toNat))
    (fun _ a b _ f => SubFlags a b false f) where
  result _ a b _ := subBorrow_eq a b false
  flags w a b s := Flags.sub_flags w a b false s.flags
  operands _ _ _ s := setFlags_sameOperands _ s
  step _ _ _ _ := setFlags_status rfl rfl rfl

theorem sbbOp_computes : sbbOp.Computes (fun _ a b c => BitVec.ofInt _ (a.toInt - b.toInt - c.toNat))
    (fun _ a b c f => SubFlags a b c f) where
  result _ a b s := subBorrow_eq a b s.flags.cf
  flags w a b s := Flags.sub_flags w a b s.flags.cf s.flags
  operands _ _ _ s := setFlags_sameOperands _ s
  step _ _ _ _ := setFlags_status rfl rfl rfl

/-- Settles O17: `addOp` and `adcOp` compute the exact sums, in whatever form. -/
theorem addAndAdc : Obligations.AddAndAdc := by
  unfold Obligations.AddAndAdc
  intro s f q
  exact ⟨⟨_, rfl, addOp_computes.form q f⟩, ⟨_, rfl, adcOp_computes.form q f⟩⟩

/-- Settles O18: `subOp` and `sbbOp` compute the exact differences, and CMP is `subOp` with nothing stored. -/
theorem subSbbAndCmp : Obligations.SubSbbAndCmp := by
  unfold Obligations.SubSbbAndCmp
  intro s f q
  exact ⟨⟨_, rfl, subOp_computes.form q f⟩, ⟨_, rfl, sbbOp_computes.form q f⟩, ⟨_, rfl, subOp_computes.formCompare q f⟩⟩

/-! ### Bitwise operations (R162) -/

/-- CF and OF are 0, and SF, ZF and PF are the result's (R162); AF is free. -/
abbrev LogicFlags {n : Nat} (r : BitVec n) (f : Flags) : Prop := f.cf = false ∧ f.of_ = false ∧ SzpOf r f

theorem logicOp_computes (g : (n : Nat) → BitVec n → BitVec n → BitVec n) :
    (logicOp g).Computes (fun w a b _ => g w.bits a b) (fun w a b _ f => LogicFlags (g w.bits a b) f) where
  result _ _ _ _ := rfl
  flags w a b _ := ⟨rfl, rfl, (Flags.szp_spec w (g w.bits a b) _).1⟩
  operands _ _ _ s := ((drawBit_busOnly s).sameOperands rfl).trans (setFlags_sameOperands _ _)
  step _ _ _ s := (drawBit_dataStep s).trans (setFlags_status rfl rfl rfl)

/-- Settles O26: the three operations are one with another bitwise function, and TEST is AND with nothing stored. -/
theorem bitwiseLogic : Obligations.BitwiseLogic := by
  unfold Obligations.BitwiseLogic
  intro s q
  have form (g : (n : Nat) → BitVec n → BitVec n → BitVec n) (f : AluForm) :
      let r := g _ (rmVal (aluWidth f) (aluDst f) s) (aluSrc f s)
      let t := aluForm (logicOp g) true f s
      Stored (aluWidth f) (aluDst f) r s t ∧ t.flags.cf = false ∧ t.flags.of_ = false ∧ SzpOf r t.flags ∧
        DataStep (rmParts (aluWidth f) (aluDst f)) statusFlags (rmSpan (aluWidth f) (aluDst f) s) s t :=
    have ⟨stored, ⟨cf, of_, szp⟩, step⟩ := (logicOp_computes g).form q f
    ⟨stored, cf, of_, szp, step⟩
  refine ⟨fun f => ⟨⟨_, rfl, form _ f⟩, ⟨_, rfl, form _ f⟩, ⟨_, rfl, form _ f⟩⟩, fun f => ?_⟩
  obtain ⟨⟨cf, of_, szp⟩, step⟩ := (logicOp_computes fun _ a b => a &&& b).compare q (testWidth f) (testDst f) (testSrc f s)
  exact ⟨_, congrArg Host.Outcome.next (testForm_eq andOp f s), cf, of_, szp, step⟩

end Sys2Proof.Machine

namespace Sys2Proof.Machine

/-! ### What the meaning of an instruction leaves as it is -/

/-- The parameters, the start of the instruction and the fault held: what the meaning of an instruction leaves as it is. -/
def State.anchor (s : State) : Config × Word × Option Fault := (s.cfg, s.eu.insnStart, s.eu.fault)

theorem BusOnly.anchor {s t : State} (h : BusOnly s t) : t.anchor = s.anchor := by
  obtain ⟨_, _, eu⟩ := h.eu
  simp only [State.anchor, h.cfg, eu]

theorem FetchOnly.anchor {s t : State} (h : FetchOnly s t) : t.anchor = s.anchor := h.busOnly.anchor

/-- No fault is answered, and the next state, where there is one, meets a condition (R14). -/
def NextMeets {α : Type} (P : α → Prop) (r : Res α) : Prop :=
  match r with
  | .next t => P t
  | .fault _ => False
  | .refused _ => True

theorem NextMeets.andThen {α β : Type} {P : α → Prop} {Q : β → Prop} {r : Res α} {f : α → Res β} (h : NextMeets P r)
    (k : ∀ t, P t → NextMeets Q (f t)) : NextMeets Q (andThen r f) := by
  cases r with
  | next t => exact k t h
  | fault e => exact h
  | refused e => trivial

theorem NextMeets.mono {α : Type} {P Q : α → Prop} {r : Res α} (h : NextMeets P r) (k : ∀ t, P t → Q t) : NextMeets Q r := by
  cases r with
  | next t => exact k t h
  | fault e => exact h
  | refused e => trivial

theorem NextMeets.next {α : Type} {P : α → Prop} {r : Res α} {t : α} (h : NextMeets P r) (e : r = .next t) : P t := by
  rwa [e] at h

theorem NextMeets.no_fault {α : Type} {P : α → Prop} {r : Res α} {f : Fault} (h : NextMeets P r) : r ≠ .fault f := by
  rintro rfl
  exact h

/-- No fault is answered, and the next state keeps the anchor. -/
abbrev Anchored (s : State) (r : Res State) : Prop := NextMeets (fun t => t.anchor = s.anchor) r

theorem Anchored.of_eq {s t : State} {r : Res State} (h : Anchored t r) (k : t.anchor = s.anchor) : Anchored s r :=
  h.mono fun _ e => e.trans k

theorem anchored_next {s t : State} (h : t.anchor = s.anchor) : Anchored s (.next t) := h

/-! ### The shared operations -/

@[simp] theorem segRead_anchor (w : Width) (seg off : Word) (s : State) : (segRead w seg off s).2.anchor = s.anchor :=
  (segRead_busOnly w seg off s).anchor

@[simp] theorem segWrite_anchor (w : Width) (seg off : Word) (v : Val w) (s : State) : (segWrite w seg off v s).anchor = s.anchor :=
  (segWrite_busOnly w seg off v s).anchor

@[simp] theorem rmRead_anchor (w : Width) (rm : Rm) (s : State) : (rmRead w rm s).2.anchor = s.anchor := (rmRead_busOnly w rm s).anchor

@[simp] theorem rmWrite_anchor (w : Width) (rm : Rm) (v : Val w) (s : State) : (rmWrite w rm v s).anchor = s.anchor := by
  cases rm with
  | reg r => rfl
  | mem m => exact segWrite_anchor ..

@[simp] theorem readFar_anchor (m : MemOp) (s : State) : (readFar m s).2.2.anchor = s.anchor := (readFar_busOnly m s).anchor

@[simp] theorem busReadWord_anchor (a b : Phys) (s : State) : (busReadWord a b s).2.anchor = s.anchor :=
  (busReadWord_busOnly a b s).anchor

@[simp] theorem busGap_anchor (s : State) : (busGap s).anchor = s.anchor := (busGap_busOnly s).anchor

@[simp] theorem haltCycle_anchor (s : State) : (haltCycle s).anchor = s.anchor := (haltCycle_busOnly s).anchor

@[simp] theorem suspendFetch_anchor (s : State) : (suspendFetch s).anchor = s.anchor := (suspendFetch_fetchOnly s).anchor

@[simp] theorem push_anchor (v : Word) (s : State) : (push v s).anchor = s.anchor := segWrite_anchor .word _ _ v (setSp _ s)

@[simp] theorem pop_anchor (s : State) : (pop s).2.anchor = s.anchor := segRead_anchor .word _ _ s

@[simp] theorem setIp_anchor (v : Word) (s : State) : (setIp v s).anchor = s.anchor := suspendFetch_anchor s

@[simp] theorem setCsIp_anchor (seg off : Word) (s : State) : (setCsIp seg off s).anchor = s.anchor := suspendFetch_anchor s

@[simp] theorem setReg_anchor (w : Width) (r : Reg) (v : Val w) (s : State) : (setReg w r v s).anchor = s.anchor := rfl
@[simp] theorem setAx_anchor (v : Word) (s : State) : (setAx v s).anchor = s.anchor := rfl
@[simp] theorem setCx_anchor (v : Word) (s : State) : (setCx v s).anchor = s.anchor := rfl
@[simp] theorem setDx_anchor (v : Word) (s : State) : (setDx v s).anchor = s.anchor := rfl
@[simp] theorem setSp_anchor (v : Word) (s : State) : (setSp v s).anchor = s.anchor := rfl
@[simp] theorem setSreg_anchor (r : SReg) (v : Word) (s : State) : (setSreg r v s).anchor = s.anchor := rfl
@[simp] theorem setFlags_anchor (f : Flags) (s : State) : (setFlags f s).anchor = s.anchor := rfl
@[simp] theorem setPhase_anchor (p : EuPhase) (s : State) : (setPhase p s).anchor = s.anchor := rfl
@[simp] theorem inhibitNext_anchor (s : State) : (inhibitNext s).anchor = s.anchor := rfl
@[simp] theorem clearRep_anchor (s : State) : (clearRep s).anchor = s.anchor := rfl
@[simp] theorem beginRep_anchor (i : Instr) (c : Bool) (s : State) : (beginRep i c s).anchor = s.anchor := rfl
@[simp] theorem pushCall_anchor (k : CallKind) (s : State) : (pushCall k s).anchor = s.anchor := rfl
@[simp] theorem popCall_anchor (s : State) : (popCall s).anchor = s.anchor := rfl
@[simp] theorem drawBit_anchor (s : State) : (drawBit s).2.anchor = s.anchor := rfl
@[simp] theorem drawSzap_anchor (s : State) : (drawSzap s).anchor = s.anchor := by simp [drawSzap]
@[simp] theorem drawCo_anchor (s : State) : (drawCo s).anchor = s.anchor := by simp [drawCo]
@[simp] theorem drawOf_anchor (s : State) : (drawOf s).anchor = s.anchor := by simp [drawOf]
@[simp] theorem drawOac_anchor (s : State) : (drawOac s).anchor = s.anchor := by simp [drawOac]
@[simp] theorem drawOszp_anchor (s : State) : (drawOszp s).anchor = s.anchor := by simp [drawOszp]
@[simp] theorem stepSi_anchor (w : Width) (s : State) : (stepSi w s).anchor = s.anchor := rfl
@[simp] theorem stepDi_anchor (w : Width) (s : State) : (stepDi w s).anchor = s.anchor := rfl

/-! ### Interrupts -/

theorem enterInterrupt_anchored (n : Byte) (ret : Word) (s : State) : Anchored s (enterInterrupt n ret s) := by
  unfold enterInterrupt
  split
  · trivial
  · have h : (loadVector n (pushFrame ret (suspendFetch s))).anchor = s.anchor := by simp [loadVector, pushFrame]
    simp only
    generalize loadVector n (pushFrame ret (suspendFetch s)) = t at h ⊢
    exact h

theorem divideError_anchored (s : State) : Anchored s (divideError s) := by
  unfold divideError
  refine (enterInterrupt_anchored 0 (ip s) _).of_eq ?_
  rfl

theorem takeInterrupt_anchored (ret : Word) (s : State) : Anchored s (takeInterrupt ret s) := by
  unfold takeInterrupt
  split
  · refine (enterInterrupt_anchored 2 ret _).of_eq ?_
    rfl
  · split
    · trivial
    · have h := (intaCycles_fetchOnly s).anchor
      simp only
      generalize intaCycles s = u at h ⊢
      exact (enterInterrupt_anchored _ ret _).of_eq h

theorem returnFromInterrupt_anchor (s : State) : (returnFromInterrupt s).anchor = s.anchor := by simp [returnFromInterrupt]

/-! ### Operand forms -/

theorem aluToRm_anchor {op : AluOp} (h : ∀ w a b s, (op w a b s).2.anchor = s.anchor) (wb : Bool) (w : Width) (rm : Rm) (b : Val w)
    (s : State) : (aluToRm op wb w rm b s).anchor = s.anchor := by
  cases wb <;> simp [aluToRm, h]

theorem aluForm_anchor {op : AluOp} (h : ∀ w a b s, (op w a b s).2.anchor = s.anchor) (wb : Bool) (f : AluForm) (s : State) :
    (aluForm op wb f s).anchor = s.anchor := by
  have toReg (w : Width) (r : Reg) := aluToRm_anchor h wb w (.reg r)
  cases f with
  | rmReg d w rm r =>
    cases d with
    | toRm => exact aluToRm_anchor h wb w rm _ s
    | toReg => exact (toReg w r _ _).trans (rmRead_anchor w rm s)
  | acc i => cases i <;> exact toReg _ .r0 _ s
  | rmImm alt rm i => cases i <;> exact aluToRm_anchor h wb _ rm _ s
  | rmImm8s rm i => exact aluToRm_anchor h wb .word rm _ s

theorem unaryRm_anchor {op : UnaryOp} (h : ∀ w a s, (op w a s).2.anchor = s.anchor) (w : Width) (rm : Rm) (s : State) :
    (unaryRm op w rm s).anchor = s.anchor := by
  simp [unaryRm, h]

theorem incForm_anchor {op : UnaryOp} (h : ∀ w a s, (op w a s).2.anchor = s.anchor) (f : IncForm) (s : State) :
    (incForm op f s).anchor = s.anchor := by
  cases f <;> exact unaryRm_anchor h _ _ s

theorem shiftRm_anchor (step : ShiftOp) {after : (w : Width) → Val w → State → State} (h : ∀ w v s, (after w v s).anchor = s.anchor)
    (w : Width) (c : ShiftCount) (rm : Rm) (s : State) : (shiftRm step after w c rm s).anchor = s.anchor := by
  have flags (n : Nat) (cf of_ : Bool) (t : State) : (shiftFlags n cf of_ t).anchor = t.anchor := by
    unfold shiftFlags
    split <;> rfl
  unfold shiftRm
  simp only
  split
  · simp
  · simp [h, flags]

/-- A jump taken or not. -/
theorem branchIf_anchor (c : Bool) (rel : Byte) (s : State) : (branchIf c rel s).anchor = s.anchor := by
  cases c
  · rfl
  · exact setIp_anchor _ s

/-! ### Ports -/

theorem ioReadByte_anchored (port : Word) (s : State) : NextMeets (fun r => r.2.anchor = s.anchor) (ioReadByte port s) := by
  unfold ioReadByte
  split
  · trivial
  · have h := (beginBus_busOnly .ioRead (port.zeroExtend 20) s).anchor
    simp only
    generalize beginBus .ioRead (port.zeroExtend 20) s = t at h ⊢
    exact h

theorem ioWriteByte_anchored (port : Word) (v : Byte) (s : State) : Anchored s (ioWriteByte port v s) := by
  unfold ioWriteByte
  split
  · trivial
  · have h := (beginBus_busOnly .ioWrite (port.zeroExtend 20) s).anchor
    simp only
    generalize beginBus .ioWrite (port.zeroExtend 20) s = t at h ⊢
    exact h

theorem ioRead_anchored (w : Width) (port : Word) (s : State) : NextMeets (fun r => r.2.anchor = s.anchor) (ioRead w port s) := by
  cases w
  · exact ioReadByte_anchored port s
  · exact (ioReadByte_anchored port s).andThen fun lo h =>
      (ioReadByte_anchored (port + 1) lo.2).andThen fun hi k => k.trans h

theorem ioWrite_anchored (w : Width) (port : Word) (v : Val w) (s : State) : Anchored s (ioWrite w port v s) := by
  cases w
  · exact ioWriteByte_anchored port v s
  · exact (ioWriteByte_anchored port _ s).andThen fun t h => (ioWriteByte_anchored (port + 1) _ t).mono fun _ k => k.trans h

/-! ### String instructions -/

theorem repIterate_anchored (c : Bool) {once : State → State} (h : ∀ s, (once s).anchor = s.anchor) (s : State) :
    Anchored s (repIterate c once s) := by
  unfold repIterate
  simp only
  split
  · exact h s
  · unfold betweenIterations
    simp only
    split
    · refine (takeInterrupt_anchored _ _).of_eq ?_
      simp [h]
    · exact anchored_next (by simp [h])

theorem execString_anchored (i : Instr) (c : Bool) {once : State → State} (h : ∀ s, (once s).anchor = s.anchor) (s : State) :
    Anchored s (execString i c once s) := by
  unfold execString
  split
  · exact h s
  · simp only
    split
    · rfl
    · exact repIterate_anchored c h (beginRep i c s)

theorem movsOnce_anchor (w : Width) (s : State) : (movsOnce w s).anchor = s.anchor := by simp [movsOnce]
theorem cmpsOnce_anchor (w : Width) (s : State) : (cmpsOnce w s).anchor = s.anchor := by simp [cmpsOnce]
theorem scasOnce_anchor (w : Width) (s : State) : (scasOnce w s).anchor = s.anchor := by simp [scasOnce]
theorem lodsOnce_anchor (w : Width) (s : State) : (lodsOnce w s).anchor = s.anchor := by simp [lodsOnce]
theorem stosOnce_anchor (w : Width) (s : State) : (stosOnce w s).anchor = s.anchor := by simp [stosOnce]

/-! ### Multiplication and division -/

theorem mulFlags_anchor (c : Bool) (s : State) : (mulFlags c s).anchor = s.anchor := by simp [mulFlags]

theorem mulBy_anchor (w : Width) (v : Val w) (s : State) : (mulBy w v s).anchor = s.anchor := by
  cases w <;> simp [mulBy, mulFlags_anchor]

theorem imulBy_anchor (w : Width) (v : Val w) (s : State) : (imulBy w v s).anchor = s.anchor := by
  cases w <;> simp [imulBy, mulFlags_anchor]

theorem setQuotient_anchor (w : Width) (q m : Val w) (s : State) : (setQuotient w q m s).anchor = s.anchor := by cases w <;> rfl

theorem execMul_anchored (w : Width) (rm : Rm) (s : State) : Anchored s (execMul w rm s) := by
  unfold execMul
  split
  · trivial
  · exact anchored_next (by simp [mulBy_anchor])

theorem execImul_anchored (w : Width) (rm : Rm) (s : State) : Anchored s (execImul w rm s) := by
  unfold execImul
  split
  · trivial
  · exact anchored_next (by simp [imulBy_anchor])

theorem execDiv_anchored (w : Width) (rm : Rm) (s : State) : Anchored s (execDiv w rm s) := by
  unfold execDiv
  simp only
  split
  · trivial
  · split
    · exact (divideError_anchored (rmRead w rm s).2).of_eq (rmRead_anchor w rm s)
    · exact anchored_next (by simp [setQuotient_anchor])

theorem execIdiv_anchored (w : Width) (rm : Rm) (s : State) : Anchored s (execIdiv w rm s) := by
  unfold execIdiv
  simp only
  split
  · trivial
  · split
    · exact (divideError_anchored (rmRead w rm s).2).of_eq (rmRead_anchor w rm s)
    · exact anchored_next (by simp [setQuotient_anchor])

theorem execAam_anchored (i : Byte) (s : State) : Anchored s (execAam i s) := by
  unfold execAam
  split
  · exact divideError_anchored s
  · exact anchored_next (by simp)

/-! ### The rest -/

theorem execPushRm_anchored (alt : Bool) (rm : Rm) (s : State) : Anchored s (execPushRm alt rm s) := by
  unfold execPushRm
  simp only
  split
  · exact anchored_next (by simp)
  · exact anchored_next (by simp)

theorem execSetmo_anchored (w : Width) (c : ShiftCount) (rm : Rm) (s : State) : Anchored s (execSetmo w c rm s) := by
  unfold execSetmo
  simp only
  split
  · exact rmRead_anchor w rm s
  · exact anchored_next (by simp)

theorem execHlt_anchored (s : State) : Anchored s (execHlt s) := by
  unfold execHlt
  split
  · trivial
  · exact anchored_next (by simp)

theorem execInto_anchored (s : State) : Anchored s (execInto s) := by
  unfold execInto
  split
  · exact enterInterrupt_anchored 4 (ip s) s
  · rfl

theorem execSti_anchored (s : State) : Anchored s (execSti s) := by
  unfold execSti
  simp only
  split <;> rfl

theorem farCall_anchor (seg off ret : Word) (s : State) : (farCall seg off ret s).anchor = s.anchor := by simp [farCall]
theorem retNear_anchor (n : Word) (s : State) : (retNear n s).anchor = s.anchor := by simp [retNear]
theorem retFar_anchor (n : Word) (s : State) : (retFar n s).anchor = s.anchor := by simp [retFar]

end Sys2Proof.Machine

namespace Sys2Proof.Machine

/-! ### The meaning of an instruction -/

/-- The anchor stays, or a decode fault at the start of the instruction is held (R82). -/
def AnchoredOrFault (s t : State) : Prop :=
  t.anchor = s.anchor ∨ t.anchor = (s.cfg, s.eu.insnStart, some (.instructionDecodeError s.eu.insnStart))

theorem Anchored.orFault {s : State} {r : Res State} (h : Anchored s r) : NextMeets (AnchoredOrFault s) r := h.mono fun _ => .inl

/-- A byte added to `eu.prefixes` leaves the decode fault held where it is the fifth (R82). -/
theorem addPrefix_anchor (f : Prefixes → Prefixes) (s : State) : NextMeets (AnchoredOrFault s) (addPrefix f s) := by
  have tick (t : State) : (idleTick t).anchor = t.anchor := (idleTick_fetchOnly t).anchor
  unfold addPrefix
  simp only
  split
  · refine .inr ?_
    have h := tick { s with eu := { s.eu with prefixes := { f s.eu.prefixes with count := s.eu.prefixes.count + 1 }, phase := .prefixed } }
    generalize idleTick _ = t at h ⊢
    simp only [State.anchor, Prod.mk.injEq] at h
    simp only [State.anchor, holdFault, h]
  · exact .inl (tick _)

/-- No instruction answers a fault, and the only one it can hold is that of a fifth byte added to `eu.prefixes` (R14, R82). -/
theorem exec_anchor (i : Instr) (s : State) : NextMeets (AnchoredOrFault s) (exec i s) := by
  cases i with
  | segEs | segCs | segSs | segDs | lock | repne | rep | wait => exact addPrefix_anchor _ s
  | movRmReg d w rm r =>
    cases d with
    | toRm => exact Anchored.orFault (anchored_next (rmWrite_anchor w rm _ s))
    | toReg => exact Anchored.orFault (anchored_next (rmRead_anchor w rm s))
  | movFromSreg rm => exact Anchored.orFault (anchored_next (rmWrite_anchor .word rm _ s))
  | movToSreg sr rm => exact Anchored.orFault (anchored_next (rmRead_anchor .word rm s))
  | movMoffs store w off =>
    cases store with
    | false => exact Anchored.orFault (anchored_next (segRead_anchor w _ off s))
    | true => exact Anchored.orFault (anchored_next (segWrite_anchor w _ off _ s))
  | movRegImm r v => cases v <;> exact Anchored.orFault (anchored_next (setReg_anchor _ r _ s))
  | movRmImm ext rm v => cases v <;> exact Anchored.orFault (anchored_next (rmWrite_anchor _ rm _ s))
  | pushReg => exact Anchored.orFault (anchored_next (segWrite_anchor .word _ _ _ (setSp _ s)))
  | pushSreg | pushf => exact Anchored.orFault (anchored_next (push_anchor _ s))
  | pushRm alt rm => exact (execPushRm_anchored alt rm s).orFault
  | popReg | popSreg | popf => exact Anchored.orFault (anchored_next (pop_anchor s))
  | popRm ext rm => exact Anchored.orFault (anchored_next ((rmWrite_anchor .word rm _ _).trans (pop_anchor s)))
  | xchgRm w rm => exact Anchored.orFault (anchored_next ((rmWrite_anchor w rm _ _).trans (rmRead_anchor w rm s)))
  | inp w p => exact Anchored.orFault ((ioRead_anchored w _ s).andThen fun _ => anchored_next)
  | out w p => exact (ioWrite_anchored w _ _ s).orFault
  | xlat => exact Anchored.orFault (anchored_next (segRead_anchor .byte _ _ s))
  | lds r m | les r m => exact Anchored.orFault (anchored_next (readFar_anchor m s))
  | xchgAx | lea | lahf | sahf | cbw | cwd | salc | clc | stc | cmc | cld | std | cli | nop =>
    exact Anchored.orFault (anchored_next rfl)
  | add f | adc f | sub f | sbb f | and f | or f | xor f =>
    refine Anchored.orFault (anchored_next (aluForm_anchor ?_ true f s))
    exact fun _ _ _ _ => rfl
  | cmp f =>
    refine Anchored.orFault (anchored_next (aluForm_anchor ?_ false f s))
    exact fun _ _ _ _ => rfl
  | test f =>
    refine Anchored.orFault (anchored_next ((congrArg State.anchor (testForm_eq andOp f s)).trans (aluToRm_anchor ?_ false _ _ _ s)))
    exact fun _ _ _ _ => rfl
  | inc f | dec f =>
    refine Anchored.orFault (anchored_next (incForm_anchor ?_ f s))
    exact fun _ _ _ => rfl
  | neg w rm | not w rm =>
    refine Anchored.orFault (anchored_next (unaryRm_anchor ?_ w rm s))
    exact fun _ _ _ => rfl
  | mul w rm => exact (execMul_anchored w rm s).orFault
  | imul w rm => exact (execImul_anchored w rm s).orFault
  | div w rm => exact (execDiv_anchored w rm s).orFault
  | idiv w rm => exact (execIdiv_anchored w rm s).orFault
  | daa | das => exact Anchored.orFault (anchored_next (drawOf_anchor _))
  | aaa | aas => exact Anchored.orFault (anchored_next (drawOszp_anchor _))
  | aam v => exact (execAam_anchored v s).orFault
  | aad => exact Anchored.orFault (anchored_next (drawOac_anchor _))
  | rol w c rm | ror w c rm | rcl w c rm | rcr w c rm =>
    refine Anchored.orFault (anchored_next (shiftRm_anchor _ ?_ w c rm s))
    exact fun _ _ _ => rfl
  | shl w c rm | shr w c rm | sar w c rm =>
    refine Anchored.orFault (anchored_next (shiftRm_anchor _ ?_ w c rm s))
    exact fun _ _ _ => rfl
  | setmo w c rm => exact (execSetmo_anchored w c rm s).orFault
  | movsb | movsw => exact (execString_anchored _ _ (movsOnce_anchor _) s).orFault
  | cmpsb | cmpsw => exact (execString_anchored _ _ (cmpsOnce_anchor _) s).orFault
  | scasb | scasw => exact (execString_anchored _ _ (scasOnce_anchor _) s).orFault
  | lodsb | lodsw => exact (execString_anchored _ _ (lodsOnce_anchor _) s).orFault
  | stosb | stosw => exact (execString_anchored _ _ (stosOnce_anchor _) s).orFault
  | jmpShort | jmpNear => exact Anchored.orFault (anchored_next (setIp_anchor _ s))
  | jmpFar off seg => exact Anchored.orFault (anchored_next (setCsIp_anchor seg off s))
  | jmpRm rm => exact Anchored.orFault (anchored_next (by simp))
  | jmpMem m => exact Anchored.orFault (anchored_next (by simp))
  | callNear rel => exact Anchored.orFault (anchored_next (by simp))
  | callFar off seg => exact Anchored.orFault (anchored_next (by simp [farCall_anchor]))
  | callRm rm => exact Anchored.orFault (anchored_next (by simp))
  | callMem m => exact Anchored.orFault (anchored_next (by simp [farCall_anchor]))
  | ret | retImm => exact Anchored.orFault (anchored_next (retNear_anchor _ s))
  | retf | retfImm => exact Anchored.orFault (anchored_next (retFar_anchor _ s))
  | jo _ rel | jno _ rel | jb _ rel | jae _ rel | je _ rel | jne _ rel | jbe _ rel | ja _ rel | js _ rel | jns _ rel | jp _ rel
  | jnp _ rel | jl _ rel | jge _ rel | jle _ rel | jg _ rel | jcxz rel =>
    exact Anchored.orFault (anchored_next (branchIf_anchor _ rel s))
  | loop rel | loope rel | loopne rel => exact Anchored.orFault (anchored_next (branchIf_anchor _ rel (decCx s)))
  | int3 | int => exact (enterInterrupt_anchored _ _ s).orFault
  | into => exact (execInto_anchored s).orFault
  | iret => exact Anchored.orFault (anchored_next (returnFromInterrupt_anchor s))
  | sti => exact (execSti_anchored s).orFault
  | hlt => exact (execHlt_anchored s).orFault
  | esc op ext rm => exact Anchored.orFault (anchored_next (rmRead_anchor .word rm s))
  | popCs | movSregHigh | movCs | leaRegister | lesRegister | ldsRegister | fe2 | fe3 | fe4 | fe5 | fe6 | fe7 | callRegisterFar
  | jmpRegisterFar => trivial

end Sys2Proof.Machine

namespace Sys2Proof.Machine

/-! ### What follows an execute phase (R81, R95) -/

theorem boundary_anchored (s : State) : Anchored s (boundary s) := by
  unfold boundary
  simp only
  split
  · split <;> rfl
  · split
    · exact (takeInterrupt_anchored _ (completeInsn s)).of_eq rfl
    · split
      · exact (enterInterrupt_anchored 1 _ (completeInsn s)).of_eq rfl
      · split <;> rfl

theorem finishInsn_anchored (s : State) : Anchored s (finishInsn s) := by
  have ended : Anchored s (boundary (busGap s)) := (boundary_anchored (busGap s)).of_eq (busGap_anchor s)
  unfold finishInsn
  split
  · exact ended
  · exact ended
  · rfl
  · rfl
  · rfl

theorem wakeStep_anchored (s : State) : Anchored s (wakeStep s) := by
  unfold wakeStep
  refine (takeInterrupt_anchored (ip s) _).of_eq ?_
  rfl

/-! ### Decoding (R82) -/

theorem fetchByte_anchor (s : State) : (fetchByte s).2.anchor = s.anchor := by
  have h := ((fillQueue_busOnly s).trans (awaitByte_busOnly _)).anchor
  unfold fetchByte
  simp only
  generalize awaitByte (fillQueue s) = t at h ⊢
  split <;> exact h

theorem fetchInstr_anchor (n : Nat) (acc : List Byte) (s : State) : (fetchInstr n acc s).2.2.anchor = s.anchor := by
  induction n generalizing acc s with
  | zero => rfl
  | succ n ih =>
    unfold fetchInstr
    simp only
    split
    · exact fetchByte_anchor s
    · exact (ih _ _).trans (fetchByte_anchor s)

theorem AnchoredOrFault.after {s t u : State} (h : AnchoredOrFault s t) (k : u.anchor = t.anchor) : AnchoredOrFault s u :=
  h.imp k.trans k.trans

theorem anchor_parts {s t : State} (h : t.anchor = s.anchor) :
    t.cfg = s.cfg ∧ t.eu.insnStart = s.eu.insnStart ∧ t.eu.fault = s.eu.fault := by
  simpa [State.anchor] using h

theorem AnchoredOrFault.before {s t u : State} (h : t.anchor = s.anchor) (k : AnchoredOrFault t u) : AnchoredOrFault s u := by
  obtain ⟨cfg, start, -⟩ := anchor_parts h
  unfold AnchoredOrFault at k
  rwa [h, cfg, start] at k

/-- A decode that answers an instruction keeps the anchor; one that answers none holds the decode fault. -/
theorem decodeNext_anchor (s : State) :
    AnchoredOrFault s (decodeNext s).2 ∧ ((decodeNext s).1 ≠ none → (decodeNext s).2.anchor = s.anchor) := by
  have h := fetchInstr_anchor maxUnprefixed [] s
  unfold decodeNext
  simp only
  generalize fetchInstr maxUnprefixed [] s = r at h ⊢
  obtain ⟨cfg, start, -⟩ := anchor_parts h
  have failed : AnchoredOrFault s (holdFault (.instructionDecodeError s.eu.insnStart) r.2.2) :=
    .inr (by simp [State.anchor, cfg, start])
  cases r.1 with
  | none => exact ⟨failed, absurd rfl⟩
  | some i =>
    simp only
    split
    · exact ⟨failed, absurd rfl⟩
    · exact ⟨.inl h, fun _ => h⟩

theorem execFinish_anchor (i : Instr) (s : State) : NextMeets (AnchoredOrFault s) (andThen (exec i s) finishInsn) :=
  (exec_anchor i s).andThen fun t h => (finishInsn_anchored t).mono fun _ => h.after

theorem decodeExec_anchor (s : State) : NextMeets (AnchoredOrFault s) (decodeExec s) := by
  obtain ⟨failed, decoded⟩ := decodeNext_anchor s
  unfold decodeExec
  simp only
  split
  · exact failed
  · rename_i i answered
    exact (execFinish_anchor i _).mono fun _ => .before (decoded (by simp [answered]))

/-! ### The execution unit's step (R81) -/

/-- A step of the execution unit keeps the parameters, and the fault it comes to hold is a decode fault at the start of the instruction
it has begun. -/
def EuStepped (s t : State) : Prop :=
  t.cfg = s.cfg ∧ (t.eu.fault = s.eu.fault ∨ t.eu.fault = some (.instructionDecodeError t.eu.insnStart))

theorem AnchoredOrFault.euStepped {s t : State} (h : AnchoredOrFault s t) : EuStepped s t := by
  rcases h with h | h <;> simp only [State.anchor, Prod.mk.injEq] at h <;> obtain ⟨cfg, start, fault⟩ := h
  · exact ⟨cfg, .inl fault⟩
  · exact ⟨cfg, .inr (start ▸ fault)⟩

/-- A repetition has a string instruction recorded (R97). -/
abbrev RepRecorded (s : State) : Prop := s.eu.repMnemonic ≠ none ∨ s.eu.phase ≠ .repeating

theorem CpuInv.repRecorded {s : State} (inv : CpuInv s) : RepRecorded s := by
  by_cases h : s.eu.phase = .repeating
  · obtain ⟨-, -, i, hi, -⟩ := inv.repeating h
    exact .inl (by simp [hi])
  · exact .inr h

/-- The one exception is a repetition with no string instruction recorded, which no rule reaches (R97, R235). -/
theorem euStep_stepped (s : State) :
    NextMeets (fun t => t.cfg = s.cfg ∧ (RepRecorded s → EuStepped s t)) (euStep s) := by
  have plain {r : Res State} (h : NextMeets (EuStepped s) r) :
      NextMeets (fun t => t.cfg = s.cfg ∧ (RepRecorded s → EuStepped s t)) r :=
    h.mono fun _ k => ⟨k.1, fun _ => k⟩
  have begun : NextMeets (EuStepped s) (decodeExec (beginInsn s)) :=
    (decodeExec_anchor (beginInsn s)).mono fun _ => AnchoredOrFault.euStepped
  unfold euStep
  split
  · exact plain ((wakeStep_anchored s).orFault.mono fun _ => AnchoredOrFault.euStepped)
  · split
    · exact plain begun
    · exact plain begun
    · exact plain begun
    · exact plain ((decodeExec_anchor s).mono fun _ => AnchoredOrFault.euStepped)
    · rename_i _ phase
      unfold repeatExec
      split
      · rename_i unrecorded
        exact ⟨rfl, fun h => absurd h (by simp [unrecorded, phase])⟩
      · exact plain ((execFinish_anchor _ s).mono fun _ => AnchoredOrFault.euStepped)

/-! ### What a step can do (R14, R322) -/

/-- A step of an agent other than the execution unit changes nothing of the CPU but the NMI pin and its latch. -/
theorem agentStep_busOnly (u : Turn) (s : State) : BusOnly s (agentStep u s) := by
  cases u with
  | eu => exact BusOnly.refl s
  | prefetch => exact midStep_busOnly s .prefetch
  | fdc => exact midStep_busOnly s .fdc
  | crtc => exact midStep_busOnly s .crtc
  | clock c => exact midStep_busOnly s (.clock c)
  | host a => exact midStep_busOnly s (.host a)

/-- A turn is the agent's step where it is enabled (R14); the execution unit's where it holds no fault. -/
theorem outcome_cases (u : Turn) (s : State) :
    outcome u s = none ∨ (u = .eu ∧ s.eu.fault = none ∧ outcome u s = some (euStep s)) ∨
      outcome u s = some (.next (agentStep u s)) := by
  rcases Bool.eq_false_or_eq_true (enabled u s) with h | h
  · cases u with
    | eu =>
      have free : s.eu.fault = none := by
        simp only [enabled, Bool.and_eq_true, Option.isNone_iff_eq_none] at h
        exact h.1
      exact .inr (.inl ⟨rfl, free, if_pos h⟩)
    | prefetch | fdc | crtc | clock | host => exact .inr (.inr (if_pos h))
  · exact .inl (if_neg (by simp [h]))

/-- The turn at the head of the agenda, or its passing (log entry 9). -/
theorem step_turn {s : State} {u : Turn} {rest : List Turn} (h : s.agenda = u :: rest) :
    step s = (outcome u { s with agenda := rest }).getD (.next { s with agenda := rest }) := by
  rw [step, h]

/-- A step of the machine is a step of the execution unit, which holds no fault then; one of the agent at the head of the agenda; a
turn that passes; or the answer of the fault held. -/
theorem step_cases (s : State) :
    (s.eu.fault = none ∧ ∃ rest, step s = euStep { s with agenda := rest }) ∨
      (∃ u rest, s.agenda = u :: rest ∧ step s = .next (agentStep u { s with agenda := rest })) ∨
      (∃ rest, step s = .next { s with agenda := rest }) ∨ ∃ f, s.eu.fault = some f ∧ step s = .fault f := by
  cases agenda : s.agenda with
  | nil =>
    have same : { s with agenda := [] } = s := by rw [← agenda]
    have turn : step s = (outcome .eu s).getD (stuckEu s) := by rw [step, agenda]
    rcases outcome_cases .eu s with h | ⟨-, free, h⟩ | h <;> rw [h] at turn
    · cases fault : s.eu.fault with
      | none => exact .inr (.inr (.inl ⟨[], turn.trans (by simp [stuckEu, fault, same])⟩))
      | some f => exact .inr (.inr (.inr ⟨f, rfl, turn.trans (by simp [stuckEu, fault])⟩))
    · exact .inl ⟨free, [], turn.trans (by rw [same]; rfl)⟩
    · exact .inr (.inr (.inl ⟨[], turn.trans (by rw [same]; rfl)⟩))
  | cons u rest =>
    have turn := step_turn agenda
    rcases outcome_cases u { s with agenda := rest } with h | ⟨-, free, h⟩ | h <;> rw [h] at turn
    · exact .inr (.inr (.inl ⟨rest, turn⟩))
    · exact .inl ⟨free, rest, turn⟩
    · exact .inr (.inl ⟨u, rest, rfl, turn⟩)

/-- No step changes a parameter of the machine (R5). -/
theorem step_cfg {s t : State} (e : step s = .next t) : t.cfg = s.cfg := by
  rcases step_cases s with ⟨-, rest, h⟩ | ⟨u, rest, -, h⟩ | ⟨rest, h⟩ | ⟨g, -, h⟩ <;> rw [h] at e
  · exact ((euStep_stepped { s with agenda := rest }).next e).1
  · cases e
    exact (agentStep_busOnly u { s with agenda := rest }).cfg
  · cases e
    rfl
  · cases e

/-- Settles O60: what the execution unit's step can leave held, with the invariant excluding the inconsistent repetition. -/
theorem onlyDecodeFaults : Obligations.OnlyDecodeFaults := by
  unfold Obligations.OnlyDecodeFaults
  refine ⟨fun s t f inv free e held => ?_, fun s f e => ?_, fun s f held => ?_⟩
  · have kept : t.eu.fault = s.eu.fault ∨ t.eu.fault = some (.instructionDecodeError t.eu.insnStart) := by
      rcases step_cases s with ⟨-, rest, h⟩ | ⟨u, rest, -, h⟩ | ⟨rest, h⟩ | ⟨g, -, h⟩ <;> rw [h] at e
      · exact (((euStep_stepped { s with agenda := rest }).next e).2 inv.repRecorded).2
      · cases e
        obtain ⟨_, _, eu⟩ := (agentStep_busOnly u { s with agenda := rest }).eu
        exact .inl (by rw [eu])
      · cases e
        exact .inl rfl
      · cases e
    rw [free, held] at kept
    simpa using kept
  · rcases step_cases s with ⟨-, rest, h⟩ | ⟨u, rest, -, h⟩ | ⟨rest, h⟩ | ⟨g, held, h⟩ <;> rw [h] at e
    · exact absurd e (euStep_stepped _).no_fault
    · cases e
    · cases e
    · cases e
      exact held
  · have stuck : outcome .eu s = none := by simp [outcome, enabled, held]
    refine ⟨stuck, by simp [outcome, enabled, prefetchEnabled, held], fun agenda => ?_, rfl, fun ticking => if_pos ticking, rfl⟩
    rw [step, agenda, stuck]
    simp [stuckEu, held]

end Sys2Proof.Machine

namespace Sys2Proof.Machine

/-! ### One tick of the clock (R70, R73, R75, R80) -/

/-- The rows of R70's table: the T-cycle after one T-state, whether both wait counters are 0 given. -/
def TCycleRow (ready : Prop) (t u : TCycle) : Prop :=
  match t with
  | .ti => u = .ti ∨ u = .t1
  | .t1 => u = .t2
  | .t2 => u = .t3
  | .t3 => (ready → u = .t4) ∧ (¬ ready → u = .tw)
  | .tw => (ready → u = .t4) ∧ (¬ ready → u = .tw)
  | .t4 => u = .ti ∨ u = .t1

theorem nextTCycle_row (ready start : Bool) (t : TCycle) : TCycleRow (ready = true) t (nextTCycle ready start t) := by
  cases t <;> cases ready <;> cases start <;> simp [TCycleRow, nextTCycle]

/-- What one tick does to the bus unit: a cycle is counted, the T-cycle moves by a row of R70's table, fetching stays suspended or not,
and the queue grows at the T4 of a code fetch only (R70, R73, R80). -/
structure Ticked (s t : State) : Prop where
  cycleCount : t.biu.cycleCount = s.biu.cycleCount + 1
  suspended : t.biu.fetchState = .suspended ↔ s.biu.fetchState = .suspended
  row : TCycleRow (s.biu.busWait = 0 ∧ s.biu.dmaWait = 0) s.biu.tCycle t.biu.tCycle
  pushed : s.biu.fetching = true → t.biu.tCycle = .t4 → t.biu.queue.length = s.biu.queue.length + fetchWidth s
  kept : s.biu.fetching = false ∨ t.biu.tCycle ≠ .t4 → t.biu.queue = s.biu.queue

theorem Biu.fetching_iff (b : Biu) : b.fetching = true ↔ b.fetchState = .inProgress := by
  unfold Biu.fetching
  split <;> simp [*]

theorem fetchWidth_congr {s t : State} (cfg : t.cfg = s.cfg) (pc : t.biu.pc = s.biu.pc) : fetchWidth t = fetchWidth s := by
  unfold fetchWidth
  rw [cfg, pc]

/-- A fetch that is due was scheduled, and the bus is at rest. -/
theorem fetchDue_spec {s : State} (h : fetchDue s = true) :
    (∃ n, s.biu.fetchState = .scheduled n) ∧ (s.biu.tCycle = .ti ∨ s.biu.tCycle = .t4) := by
  unfold fetchDue at h
  split at h
  case h_1 n e =>
    simp only [Bool.and_eq_true, Bool.or_eq_true, beq_iff_eq] at h
    exact ⟨⟨n, e⟩, h.1.2⟩
  all_goals cases h

/-- The T-state of a tick: a fetch in flight stays so, and one that starts is in its T1, not its T4. -/
theorem tickBiu_spec (s : State) :
    ((tickBiu s).fetchState = .suspended ↔ s.biu.fetchState = .suspended) ∧
      TCycleRow (s.biu.busWait = 0 ∧ s.biu.dmaWait = 0) s.biu.tCycle (tickBiu s).tCycle ∧
      (s.biu.fetching = true → (tickBiu s).fetching = true) ∧
      (s.biu.fetching = false → (tickBiu s).tCycle = .t4 → (tickBiu s).fetching = false) := by
  have row (start : Option CycleStart) (b : Biu) : TCycleRow (b.busWait = 0 ∧ b.dmaWait = 0) b.tCycle (b.advance s.cfg start).tCycle := by
    rw [(Biu.advance_spec s.cfg start b).2.2.1]
    simpa using nextTCycle_row (b.busWait == 0 && b.dmaWait == 0) start.isSome b.tCycle
  unfold tickBiu
  split
  · rename_i due
    obtain ⟨⟨n, scheduled⟩, rest⟩ := fetchDue_spec due
    have idle : s.biu.fetching = false := by simp [Biu.fetching, scheduled]
    split
    · have k := Biu.advance_keeps s.cfg (some (fetchStart s)) { s.biu with fetchState := .inProgress }
      have t1 : (Biu.advance s.cfg (some (fetchStart s)) { s.biu with fetchState := .inProgress }).tCycle = .t1 := by
        rw [(Biu.advance_spec s.cfg _ _).2.2.1]
        rcases rest with e | e <;> simp [e, nextTCycle]
      exact ⟨k.suspended.trans (by simp [scheduled]), row _ { s.biu with fetchState := .inProgress }, fun _ => k.fetching,
        fun _ t4 => absurd (t1.symm.trans t4) (by decide)⟩
    · have k := Biu.advance_keeps s.cfg none { s.biu with fetchState := .idle }
      exact ⟨k.suspended.trans (by simp [scheduled]), row _ { s.biu with fetchState := .idle },
        fun f => absurd (idle.symm.trans f) (by decide), fun _ _ => k.fetching⟩
  · have k := Biu.advance_keeps s.cfg none s.biu
    exact ⟨k.suspended, row _ s.biu, k.fetching.trans, fun f _ => k.fetching.trans f⟩

/-- The state after the T-state of a tick, before the push at its T4. -/
def tState (mcPc : Option Nat) (s : State) : State := { s with biu := { tickBiu s with mcPc := mcPc.getD (tickBiu s).mcPc } }

theorem tick_eq (m : Option Nat) (s : State) :
    tick m s = if (tState m s).biu.fetching && (tState m s).biu.tCycle == .t4 then pushFetched (tState m s) else tState m s := rfl

/-- The push at T4 leaves the clock. -/
theorem pushFetched_clock (s : State) :
    (pushFetched s).biu.tCycle = s.biu.tCycle ∧ (pushFetched s).biu.cycleCount = s.biu.cycleCount := by
  have bytes (k : Nat) (s : State) :
      (codeFetchBytes k s).biu.tCycle = s.biu.tCycle ∧ (codeFetchBytes k s).biu.cycleCount = s.biu.cycleCount := by
    induction k generalizing s with
    | zero => exact ⟨rfl, rfl⟩
    | succ k ih => exact ih _
  exact bytes (fetchWidth s) s

theorem tick_ticked (m : Option Nat) (s : State) : Ticked s (tick m s) := by
  obtain ⟨pc, queue, cycle, -⟩ := tickBiu_keeps s
  obtain ⟨suspended, row, flight, start⟩ := tickBiu_spec s
  have width : fetchWidth (tState m s) = fetchWidth s := fetchWidth_congr rfl pc
  rw [tick_eq]
  split
  · rename_i t4
    rw [Bool.and_eq_true, beq_iff_eq] at t4
    obtain ⟨flying, at4⟩ := t4
    obtain ⟨-, length, idle⟩ := pushFetched_spec (tState m s)
    obtain ⟨clock, count⟩ := pushFetched_clock (tState m s)
    refine ⟨count.trans cycle, ?_, clock ▸ row, fun _ _ => ?_, fun h => ?_⟩
    · rw [idle, ← suspended, (Biu.fetching_iff (tickBiu s)).mp flying]
      simp
    · rw [length, width]
      exact congrArg (·.length + fetchWidth s) queue
    · rcases h with f | n
      · exact absurd (flying.symm.trans (start f at4)) (by decide)
      · exact absurd (clock.trans at4) n
  · rename_i t4
    refine ⟨cycle, suspended, row, fun f at4 => absurd ?_ t4, fun _ => queue⟩
    rw [Bool.and_eq_true, beq_iff_eq]
    exact ⟨flight f, at4⟩

/-- Scheduling a fetch changes nothing that a tick is said to change, and schedules none where one is in flight. -/
theorem Ticked.of_planFetch {n : Nat} {s t : State} (h : Ticked (planFetch n s) t) : Ticked s t := by
  unfold planFetch at h
  split at h
  · rename_i plan
    have state : s.biu.fetchState = .idle ∨ s.biu.fetchState = .delayDone := by
      simp only [Bool.and_eq_true, Bool.or_eq_true, beq_iff_eq] at plan
      exact plan.1.1.1
    have idle : s.biu.fetching = false := by rcases state with e | e <;> simp [Biu.fetching, e]
    refine ⟨h.cycleCount, h.suspended.trans ?_, h.row, fun f => absurd (idle.symm.trans f) (by decide), fun _ => h.kept (.inl rfl)⟩
    rcases state with e | e <;> simp [e]
  · exact h

theorem clockTick_ticked (c : ClockIn) (s : State) : Ticked s (clockTick c s) := by
  unfold clockTick
  split
  · exact (tick_ticked _ _).of_planFetch
  · exact tick_ticked _ s

/-! ### The other agents (R55, R322) -/

/-- A turn of the prefetcher, the FDC or the video card leaves the whole execution unit, the NMI pin included. -/
theorem agentStep_eu {u : Turn} (h : u ∈ [Turn.prefetch, .fdc, .crtc]) (s : State) : (agentStep u s).eu = s.eu := by
  simp only [List.mem_cons, List.not_mem_nil, or_false] at h
  rcases h with rfl | rfl | rfl
  · exact (prefetchStep_fetchOnly s).eu
  · rfl
  · rfl

/-- Settles O59: an agent's step changes the bus unit or the devices alone, and a tick of the clock is one row of R70's table. -/
theorem otherAgentsLeaveTheCpu : Obligations.OtherAgentsLeaveTheCpu := by
  unfold Obligations.OtherAgentsLeaveTheCpu
  refine ⟨fun s t => step_cfg, fun s t u rest hu agenda e => ?_, fun s t c rest agenda e => ?_⟩
  · rw [step_turn agenda] at e
    have turn : t = agentStep u { s with agenda := rest } ∨ t = { s with agenda := rest } := by
      rcases outcome_cases u { s with agenda := rest } with h | ⟨rfl, -⟩ | h
      · rw [h] at e
        exact .inr (Host.Outcome.next.inj e).symm
      · exact absurd hu (by decide)
      · rw [h] at e
        exact .inl (Host.Outcome.next.inj e).symm
    rcases turn with rfl | rfl
    · have k := agentStep_busOnly u { s with agenda := rest }
      exact ⟨k.regs, k.sregs, k.flags, k.ip, agentStep_eu hu _, k.agenda⟩
    · exact ⟨rfl, rfl, rfl, rfl, rfl, rfl⟩
  · rw [step_turn agenda] at e
    obtain rfl : clockTick c { s with agenda := rest } = t := by simpa [outcome, enabled, agentStep] using e
    have k := clockTick_fetchOnly c { s with agenda := rest }
    have h := clockTick_ticked c { s with agenda := rest }
    exact ⟨k.eu, k.regs, k.sregs, k.flags, k.ip, k.host, k.agenda, k.sys, h.cycleCount, h.suspended, h.row, h.pushed, h.kept⟩

end Sys2Proof.Machine

namespace Sys2Proof.Machine

/-! ### The interrupt flag, HLT and ESC (R78, R214, R215, R216, R218) -/

/-- STI sets the inhibit for the next boundary where the machine has one, and keeps one that stands (R215). -/
theorem exec_sti (s : State) :
    exec .sti s = .next { s with
      flags := { s.flags with if_ := true }, eu := { s.eu with intInhibit := s.eu.intInhibit || s.cfg.stiInhibit } } := by
  show execSti s = _
  unfold execSti
  cases h : s.cfg.stiInhibit
  · simp [setFlags]
  · simp [setFlags, inhibitNext]

theorem exec_hlt {s : State} (h : s.eu.tfPrev = false) :
    exec .hlt s = .next (setPhase .halting (suspendFetch (haltCycle s))) :=
  if_neg (by simp [h])

/-- A bus cycle of the execution unit ends at its T4, its status still latched (R69). -/
theorem busCycle_latched (st : BusStatus) (a : Phys) (s : State) :
    (busCycle st a s).biu.busStatus = st ∧ (busCycle st a s).biu.tCycle = .t4 :=
  let ⟨t4, status, _⟩ := Biu.euCycle_spec _ _ _
  ⟨status, t4⟩

/-- The halt cycle moves no data, so it marks no breakpoint of the host's either (R78, R342). -/
theorem haltCycle_host {s : State} (q : s.Quiet) : (haltCycle s).host = s.host := by
  unfold haltCycle
  simp only [busGap_quiet q, finishFetch_quiet q.2]
  exact (busCycle_fetchOnly _ _ s).host

/-- Settles O42: HLT is one bus cycle of status Halt and then a suspension of a bus unit that has no fetch planned, ESC is the read
of an operand, and the others are one update of the flags or none. -/
theorem interruptEnableHltEscNop : Obligations.InterruptEnableHltEscNop := by
  unfold Obligations.InterruptEnableHltEscNop
  refine fun s => ⟨rfl, exec_sti s, fun q tf => ⟨_, exec_hlt tf, ?_⟩, fun q op ext rm => ⟨_, rfl, rmRead_dataStep q .word rm⟩, rfl⟩
  obtain ⟨bus, sys⟩ := haltCycle_quiet q
  obtain ⟨status, t4⟩ : (haltCycle s).biu.busStatus = .halt ∧ (haltCycle s).biu.tCycle = .t4 := busCycle_latched _ _ _
  have host := haltCycle_host q
  rw [suspendFetch_quiet (bus.quiet q).2]
  generalize haltCycle s = t at *
  exact ⟨congrArg (fun e : Eu => { e with phase := .halting }) bus.eu, rfl, status, t4, bus.pc, bus.queue, bus.regs, bus.sregs,
    bus.flags, sys, host, bus.cfg⟩

end Sys2Proof.Machine

namespace Sys2Proof.Machine

/-! ### MOV to and from a segment register (R116) -/

/-- A segment register written, with the next boundary inhibited, after reads of the bus (R96, R116). -/
theorem setSreg_inhibitNext_after {s t : State} (h : DataStep [] [] [] s t) (sr : SReg) (v : Word) :
    let u := inhibitNext (setSreg sr v t)
    u.sregs.get sr = v ∧ (∀ p, p ≠ sr → u.sregs.get p = s.sregs.get p) ∧ u.eu = { s.eu with intInhibit := true } ∧
      Frame [] [] [] s u ∧ FallsThrough s u := by
  obtain ⟨frame, units, falls⟩ := h
  refine ⟨SRegs.get_set_self sr v _, fun p hp => ?_, congrArg (fun e : Eu => { e with intInhibit := true }) units.eu,
    (frame.trans (setSreg_frame sr v _)).trans (inhibitNext_frame _), ⟨falls.pc, falls.queue, falls.suspended⟩⟩
  exact ((SRegs.get_set p sr v _).trans (if_neg hp)).trans (congrArg (SRegs.get p) units.sregs)

/-- Settles O9: one write of an operand, or one read and then a write of the segment register with the inhibit. -/
theorem movSegmentRegister : Obligations.MovSegmentRegister := by
  unfold Obligations.MovSegmentRegister
  intro s rm sr q
  obtain ⟨written, others⟩ := setSreg_inhibitNext_after (rmRead_dataStep q .word rm) sr (rmRead .word rm s).1
  exact ⟨⟨_, rfl, rmWrite_spec q .word rm _⟩, _, rfl, written.trans (rmRead_quiet q .word rm).1, others⟩

end Sys2Proof.Machine

namespace Sys2Proof.Machine

/-! ### A step of the execution unit (R81, R322) -/

/-- With nothing scheduled, the step of the machine is that of an execution unit which holds no fault and is awake (log entry 6). -/
theorem step_eu {s : State} (agenda : s.agenda = []) (free : s.eu.fault = none) (awake : s.eu.halted = false ∨ wakes s = true) :
    step s = euStep s := by
  have on : enabled .eu s = true := by
    rcases awake with h | h <;> simp [enabled, free, h]
  simp [step, agenda, outcome, on]

theorem euStep_start {s : State} (awake : s.eu.halted = false) (phase : s.eu.phase = .start) :
    euStep s = decodeExec (beginInsn s) := by
  simp [euStep, awake, phase]

theorem euStep_prefixed {s : State} (awake : s.eu.halted = false) (phase : s.eu.phase = .prefixed) : euStep s = decodeExec s := by
  simp [euStep, awake, phase]

theorem decodeExec_some {s t : State} {i : Instr} (h : decodeNext s = (some i, t)) : decodeExec s = andThen (exec i t) finishInsn := by
  simp [decodeExec, h]

theorem decodeExec_none {s t : State} (h : decodeNext s = (none, t)) : decodeExec s = .next t := by
  simp [decodeExec, h]

/-- A decode that answers no instruction holds the decode fault at the start of the instruction it was decoding (R82, R235). -/
theorem decodeNext_none_fault {s t : State} (h : decodeNext s = (none, t)) :
    t.eu.fault = some (.instructionDecodeError t.eu.insnStart) := by
  obtain ⟨latch, pin, eu⟩ := decodeNext_eu s
  rw [h] at eu
  simp [show t.eu = _ from eu]

/-- Settles O5: the step decodes from the state begun or in the phase `.prefixed`, and then runs what was decoded. -/
theorem stepRunsDecoded : Obligations.StepRunsDecoded := by
  unfold Obligations.StepRunsDecoded
  intro s t d agenda awake free decoded
  have stepped : ∃ u, step s = decodeExec u ∧ decodeNext u = (d, t) := by
    rw [step_eu agenda free (.inl awake)]
    rcases decoded with ⟨phase, h⟩ | ⟨phase, h⟩
    · exact ⟨_, euStep_start awake phase, h⟩
    · exact ⟨_, euStep_prefixed awake phase, h⟩
  obtain ⟨u, run, h⟩ := stepped
  refine ⟨?_, ?_⟩
  · rintro i rfl
    exact run.trans (decodeExec_some h)
  · rintro rfl
    exact ⟨run.trans (decodeExec_none h), decodeNext_none_fault h⟩

/-! ### The bytes of the prefixes (R82, R108, R217, R220, R221) -/

/-- The execution unit with `q` for its prefixes, one byte more counted. -/
abbrev countPrefix (q : Prefixes) (e : Eu) : Eu := { e with prefixes := { q with count := e.prefixes.count + 1 } }

/-- A byte has been added to the prefixes, which are `q` now: one cycle is counted, the byte after it is decoded next within the limit,
and one past the limit is a decode fault held (R82, R92, R235). -/
abbrev PrefixAdded (q : Prefixes) (s t : State) : Prop :=
  (s.eu.prefixes.count < maxPrefixes → t.eu = { countPrefix q s.eu with phase := .prefixed }) ∧
    (maxPrefixes ≤ s.eu.prefixes.count →
      t.eu = { countPrefix q s.eu with phase := .start, fault := some (.instructionDecodeError s.eu.insnStart) }) ∧
    t.regs = s.regs ∧ t.sregs = s.sregs ∧ t.flags = s.flags ∧ t.cfg = s.cfg ∧ t.host = s.host ∧ t.agenda = s.agenda ∧
    t.interleave = s.interleave ∧ ip t = ip s ∧ t.biu.cycleCount = s.biu.cycleCount + 1 ∧
    (∃ d, t.sys = { s.sys with drawCtr := d }) ∧ (s.Quiet → t.sys = s.sys ∧ t.Quiet ∧ FallsThrough s t)

/-- Where no fetch is planned a tick in which nothing is chosen keeps the bus, and plans none. -/
theorem idleTick_keeps {s : State} (q : s.Quiet) : (idleTick s).sys = s.sys ∧ (idleTick s).Quiet ∧ FallsThrough s (idleTick s) := by
  have k := Biu.advance_keeps s.cfg none s.biu
  rw [idleTick_quiet q.2]
  exact ⟨rfl, ⟨q.1, k.planned q.2⟩, k.pc, k.queue, k.suspended⟩

/-- The fault of the fifth byte changes the execution unit alone. -/
theorem addPrefix_eq (f : Prefixes → Prefixes) (s : State) :
    let e := { countPrefix (f s.eu.prefixes) s.eu with phase := .prefixed }
    addPrefix f s = .next { idleTick { s with eu := e } with
      eu := if maxPrefixes < s.eu.prefixes.count + 1 then
        { e with phase := .start, fault := some (.instructionDecodeError s.eu.insnStart) } else e } := by
  intro e
  have eu : (idleTick { s with eu := e }).eu = e := (idleTick_fetchOnly { s with eu := e }).eu
  show Host.Outcome.next (if _ then holdFault _ (idleTick { s with eu := e }) else idleTick { s with eu := e }) = _
  split
  · rw [holdFault, eu]
  · exact congrArg (fun e' : Eu => Host.Outcome.next { idleTick { s with eu := e } with eu := e' }) eu

theorem addPrefix_adds (f : Prefixes → Prefixes) (s : State) : ∃ t, addPrefix f s = .next t ∧ PrefixAdded (f s.eu.prefixes) s t := by
  refine ⟨_, addPrefix_eq f s, ?_⟩
  generalize added : { countPrefix (f s.eu.prefixes) s.eu with phase := .prefixed } = e
  have k := idleTick_fetchOnly { s with eu := e }
  have cycle := (tick_ticked none { s with eu := e }).cycleCount
  refine ⟨fun within => ?_, fun past => ?_, k.regs, k.sregs, k.flags, k.cfg, k.host, k.agenda, k.interleave, k.ip, cycle, k.sys,
    fun q => ?_⟩
  · exact (if_neg (by omega)).trans added.symm
  · refine (if_pos (by omega)).trans ?_
    rw [← added]
  · obtain ⟨sys, quiet, falls⟩ := idleTick_keeps (s := { s with eu := e }) q
    exact ⟨sys, quiet, falls.pc, falls.queue, falls.suspended⟩

/-- Settles O7: each of the bytes is `addPrefix` of its change of the prefixes. -/
theorem prefixBytes : Obligations.PrefixBytes := by
  unfold Obligations.PrefixBytes
  intro s alt
  exact ⟨addPrefix_adds (overrideWith .es) s, addPrefix_adds (overrideWith .cs) s, addPrefix_adds (overrideWith .ss) s,
    addPrefix_adds (overrideWith .ds) s, addPrefix_adds withLock s, addPrefix_adds withWait s, addPrefix_adds withRepne s,
    addPrefix_adds withRep s⟩

end Sys2Proof.Machine

namespace Sys2Proof.Machine

/-! ### The instruction boundary (R95, R234) -/

/-- Where no other agent steps, what follows the execute phase is the boundary of the same state (R81). -/
theorem finishInsn_ended {s : State} (q : s.Quiet) (ended : s.eu.phase = .executing ∨ s.eu.phase = .halting) :
    finishInsn s = boundary s := by
  rcases ended with h | h <;> simp [finishInsn, h, busGap_quiet q]

/-- The state at a boundary where no interrupt is entered, with the inhibit that is left: the CPU halts after HLT (R95). -/
def passBoundary (inhibit : Bool) (s : State) : State :=
  let t := { completeInsn s with eu := { (completeInsn s).eu with intInhibit := inhibit } }
  if s.eu.phase == .halting then enterHalt t else t

theorem boundary_inhibited {s : State} (h : s.eu.intInhibit = true) :
    boundary s = .next (passBoundary false s) := if_pos h

theorem boundary_interrupted {s : State} (inhibit : s.eu.intInhibit = false) (pending : s.eu.nmiLatch = true ∨ intrPending s = true) :
    boundary s = takeInterrupt (ip s) (completeInsn s) := by
  refine (if_neg (by simp [completeInsn, inhibit])).trans (if_pos ?_)
  rw [Bool.or_eq_true]
  exact pending

theorem boundary_uninterrupted {s : State} (inhibit : s.eu.intInhibit = false) (nmi : s.eu.nmiLatch = false)
    (intr : intrPending s = false) :
    boundary s = if s.eu.tfPrev then enterInterrupt 1 (ip s) (completeInsn s) else .next (passBoundary s.eu.intInhibit s) := by
  refine (if_neg (by simp [completeInsn, inhibit])).trans (if_neg ?_)
  have clear : ¬ (s.eu.nmiLatch || intrPending s) = true := by simp [nmi, intr]
  exact clear

theorem boundary_passed {s : State} (inhibit : s.eu.intInhibit = false) (nmi : s.eu.nmiLatch = false) (intr : intrPending s = false)
    (trap : ¬ s.eu.tfPrev = true) : boundary s = .next (passBoundary s.eu.intInhibit s) :=
  (boundary_uninterrupted inhibit nmi intr).trans (if_neg trap)

/-- Completing an instruction changes nothing that an interrupt entry reads. -/
theorem Entered.of_completeInsn {n : Byte} {ret : Word} {s t : State} (h : Entered n ret (completeInsn s) t) : Entered n ret s t :=
  h.congr rfl rfl rfl rfl rfl rfl rfl rfl rfl

/-- A latched NMI at a boundary that nothing inhibits (R95, R230). -/
theorem boundary_nmi {s : State} (q : s.Quiet) (inhibit : s.eu.intInhibit = false) (nmi : s.eu.nmiLatch = true)
    (apart : frameOverlapsVector 2 s = false) :
    ∃ t, boundary s = .next t ∧ Entered 2 (ip s) s t ∧ t.eu.nmiLatch = false ∧ t.sys.reports = s.sys.reports := by
  obtain ⟨t, taken, entered, -, reports, eu⟩ := takeInterrupt_nmi (s := completeInsn s) q (ip s) nmi apart
  exact ⟨t, (boundary_interrupted inhibit (.inl nmi)).trans taken, entered.of_completeInsn, by rw [eu], reports⟩

/-- An enabled INTR at a boundary, with nothing before it (R95, R232). -/
theorem boundary_intr {s : State} (q : s.Quiet) (inhibit : s.eu.intInhibit = false) (nmi : s.eu.nmiLatch = false)
    (intr : intrPending s = true) {v : Byte} {p : Pic} (answer : s.sys.pic.inta = some (v, p))
    (apart : frameOverlapsVector v s = false) :
    ∃ t, boundary s = .next t ∧ Entered v (ip s) s t ∧ t.sys.pic = p ∧ t.sys.reports = s.sys.reports := by
  obtain ⟨t, taken, entered, pic, reports, -⟩ := takeInterrupt_intr (s := completeInsn s) q (ip s) nmi answer apart
  exact ⟨t, (boundary_interrupted inhibit (.inr intr)).trans taken, entered.of_completeInsn, pic, reports⟩

/-- A single-step trap at a boundary, with nothing before it (R95, R233). -/
theorem boundary_trap {s : State} (q : s.Quiet) (inhibit : s.eu.intInhibit = false) (nmi : s.eu.nmiLatch = false)
    (intr : intrPending s = false) (trap : s.eu.tfPrev = true) (apart : frameOverlapsVector 1 s = false) :
    ∃ t, boundary s = .next t ∧ Entered 1 (ip s) s t := by
  obtain ⟨t, taken, entered, -⟩ := enterInterrupt_spec (s := completeInsn s) q (ip s) apart
  exact ⟨t, ((boundary_uninterrupted inhibit nmi intr).trans (if_pos trap)).trans taken, entered.of_completeInsn⟩

/-- What a boundary without an interrupt leaves (R95): the registers, the flags, the bus unit and memory as they are; after HLT the CPU
is halted. -/
abbrev WentOn (s t : State) : Prop :=
  t.regs = s.regs ∧ t.sregs = s.sregs ∧ t.flags = s.flags ∧ t.biu = s.biu ∧ t.eu.phase = .start ∧
    t.eu.instrCount = s.eu.instrCount + 1 ∧ t.eu.nmiLatch = s.eu.nmiLatch ∧ t.sys.mem = s.sys.mem ∧ t.sys.pic = s.sys.pic ∧
    (s.eu.phase = .executing → t.sys = s.sys ∧ t.eu.halted = s.eu.halted) ∧ (s.eu.phase = .halting → t.eu.halted = true)

/-- A halt is reported once (R216). -/
theorem enterHalt_sys (s : State) :
    (enterHalt s).sys = { s.sys with
      reports := if s.eu.haltReported then s.sys.reports else .cpuHalted s.eu.insnStart :: s.sys.reports } := by
  unfold enterHalt
  simp only
  split <;> rfl

theorem passBoundary_executing {s : State} (inhibit : Bool) (h : s.eu.phase = .executing) :
    passBoundary inhibit s = { completeInsn s with eu := { (completeInsn s).eu with intInhibit := inhibit } } := by
  simp [passBoundary, h]

theorem passBoundary_halting {s : State} (inhibit : Bool) (h : s.eu.phase = .halting) :
    passBoundary inhibit s = enterHalt { completeInsn s with eu := { (completeInsn s).eu with intInhibit := inhibit } } := by
  simp [passBoundary, h]

theorem passBoundary_wentOn {s : State} (inhibit : Bool) (ended : s.eu.phase = .executing ∨ s.eu.phase = .halting) :
    WentOn s (passBoundary inhibit s) ∧ (passBoundary inhibit s).eu.intInhibit = inhibit := by
  rcases ended with phase | phase
  · rw [passBoundary_executing inhibit phase]
    exact ⟨⟨rfl, rfl, rfl, rfl, rfl, rfl, rfl, rfl, rfl, fun _ => ⟨rfl, rfl⟩, fun h => absurd (phase.symm.trans h) (by decide)⟩, rfl⟩
  · rw [passBoundary_halting inhibit phase]
    refine ⟨⟨rfl, rfl, rfl, rfl, rfl, rfl, rfl, ?_, ?_, fun h => absurd (phase.symm.trans h) (by decide), fun _ => rfl⟩, rfl⟩ <;>
      rw [enterHalt_sys] <;> rfl

/-- Settles O49: the branches of `boundary`, each by the lemma of its name. -/
theorem boundaryPriority : Obligations.BoundaryPriority := by
  unfold Obligations.BoundaryPriority
  intro s q ended
  have pending : intrPending s = true ↔ s.sys.pic.intr = true ∧ s.flags.if_ = true := Bool.and_eq_true_iff
  simp only [finishInsn_ended q ended, ← pending]
  split
  case isTrue inhibit => exact ⟨_, boundary_inhibited inhibit, passBoundary_wentOn false ended⟩
  case isFalse inhibit =>
  rw [Bool.not_eq_true] at inhibit
  split
  case isTrue nmi =>
    intro apart
    obtain ⟨t, next, entered, unlatched, -⟩ := boundary_nmi q inhibit nmi apart
    exact ⟨t, next, entered, unlatched⟩
  case isFalse nmi =>
  rw [Bool.not_eq_true] at nmi
  split
  case isTrue intr =>
    intro v p answer apart
    obtain ⟨t, next, entered, pic, -⟩ := boundary_intr q inhibit nmi intr answer apart
    exact ⟨t, next, entered, pic⟩
  case isFalse intr =>
  rw [Bool.not_eq_true] at intr
  split
  case isTrue trap => exact boundary_trap q inhibit nmi intr trap
  case isFalse trap => exact ⟨_, boundary_passed inhibit nmi intr trap, (passBoundary_wentOn _ ended).1⟩

/-! ### HALT (R216) -/

/-- The waking execution unit: `HALT_RESUME_DELAY` cycles later, no longer halted (R216). -/
abbrev awakened (s : State) : State :=
  { s with biu := s.biu.run s.cfg s.cfg.haltResume, eu := { s.eu with halted := false, haltReported := false } }

theorem awakened_quiet {s : State} (q : s.Quiet) : (awakened s).Quiet := ⟨q.1, (Biu.run_keeps s.cfg _ s.biu).planned q.2⟩

/-- Waking changes nothing that an interrupt entry reads. -/
theorem Entered.of_awakened {n : Byte} {ret : Word} {s t : State} (h : Entered n ret (awakened s) t) : Entered n ret s t :=
  h.congr rfl rfl rfl rfl rfl rfl rfl rfl rfl

/-- The step of a halted CPU that wakes is the entry of the pending interrupt, with IP (R216). -/
theorem step_wakes {s : State} (halted : s.eu.halted = true) (agenda : s.agenda = []) (free : s.eu.fault = none)
    (pending : s.eu.nmiLatch = true ∨ intrPending s = true) : step s = takeInterrupt (ip s) (awakened s) := by
  have wake : wakes s = true := by rcases pending with h | h <;> simp [wakes, h]
  exact (step_eu agenda free (.inr wake)).trans (if_pos halted)

/-- A halted CPU with nothing pending has no step (R216, R323). -/
theorem outcome_eu_halted {s : State} (halted : s.eu.halted = true) (nmi : s.eu.nmiLatch = false) (intr : intrPending s = false) :
    outcome .eu s = none := by
  simp [outcome, enabled, wakes, halted, nmi, intr]

theorem step_stuck {s : State} (agenda : s.agenda = []) (free : s.eu.fault = none) (stuck : outcome .eu s = none) :
    step s = .next s := by
  simp [step, agenda, stuck, stuckEu, free]

/-- A boundary where no interrupt is entered: an inhibit, or nothing pending (R95, R216). -/
theorem boundary_clear {s : State}
    (clear : s.eu.intInhibit = true ∨ s.eu.nmiLatch = false ∧ intrPending s = false ∧ s.eu.tfPrev = false) :
    ∃ inhibit, boundary s = .next (passBoundary inhibit s) := by
  cases inhibit : s.eu.intInhibit with
  | true => exact ⟨_, boundary_inhibited inhibit⟩
  | false =>
    rcases clear with h | ⟨nmi, intr, trap⟩
    · exact absurd (inhibit.symm.trans h) (by decide)
    · exact ⟨_, boundary_passed inhibit nmi intr (by simp [trap])⟩

/-- Settles O50: the boundary after HLT halts or enters an interrupt; a halted CPU is stuck or enters one. -/
theorem haltAndWake : Obligations.HaltAndWake := by
  unfold Obligations.HaltAndWake
  intro s q
  refine ⟨fun phase => ?_, fun halted => ⟨fun nmi intr => ?_, fun agenda free nmi apart => ?_,
    fun agenda free nmi intr v p answer apart => ?_⟩⟩
  · rw [finishInsn_ended q (.inr phase)]
    refine ⟨fun clear => ?_, fun inhibit nmi apart => ?_, fun inhibit nmi intr v p answer apart => ?_⟩
    · obtain ⟨inhibit, next⟩ := boundary_clear clear
      rw [passBoundary_halting inhibit phase] at next
      exact ⟨_, next, rfl, rfl, rfl, rfl, congrArg Sys.reports (enterHalt_sys _)⟩
    · obtain ⟨t, next, entered, unlatched, reports⟩ := boundary_nmi q inhibit nmi apart
      exact ⟨t, next, entered, unlatched, entered.unit.1, reports⟩
    · obtain ⟨t, next, entered, pic, reports⟩ := boundary_intr q inhibit nmi intr answer apart
      exact ⟨t, next, entered, pic, entered.unit.1, reports⟩
  · have stuck := outcome_eu_halted halted nmi intr
    exact ⟨stuck, fun agenda free => step_stuck agenda free stuck⟩
  · obtain ⟨t, taken, entered, -, -, eu⟩ := takeInterrupt_nmi (awakened_quiet q) (ip s) nmi apart
    exact ⟨t, (step_wakes halted agenda free (.inl nmi)).trans taken, entered.of_awakened, by rw [eu], by rw [eu]⟩
  · obtain ⟨t, taken, entered, pic, -, eu⟩ := takeInterrupt_intr (awakened_quiet q) (ip s) nmi answer apart
    exact ⟨t, (step_wakes halted agenda free (.inr intr)).trans taken, entered.of_awakened, pic, by rw [eu]⟩

end Sys2Proof.Machine

namespace Sys2Proof.Machine

/-! ### One iteration of a string instruction (R177 to R183) -/

/-- The primitives of the string instructions, at each width (R178 to R182). -/
inductive StringPrimitive : (State → State) → Prop where
  | movs (w : Width) : StringPrimitive (movsOnce w)
  | cmps (w : Width) : StringPrimitive (cmpsOnce w)
  | scas (w : Width) : StringPrimitive (scasOnce w)
  | lods (w : Width) : StringPrimitive (lodsOnce w)
  | stos (w : Width) : StringPrimitive (stosOnce w)

/-- A string instruction is its primitive under the REP engine (R183). -/
theorem exec_string {i : Instr} (h : isString i = true) :
    ∃ once, StringPrimitive once ∧ ∀ s, exec i s = execString i (isCompare i) once s := by
  simp only [isString, List.contains_eq_mem, List.mem_cons, List.not_mem_nil, or_false, decide_eq_true_eq] at h
  rcases h with rfl | rfl | rfl | rfl | rfl | rfl | rfl | rfl | rfl | rfl
  · exact ⟨_, .movs .byte, fun _ => rfl⟩
  · exact ⟨_, .movs .word, fun _ => rfl⟩
  · exact ⟨_, .cmps .byte, fun _ => rfl⟩
  · exact ⟨_, .cmps .word, fun _ => rfl⟩
  · exact ⟨_, .scas .byte, fun _ => rfl⟩
  · exact ⟨_, .scas .word, fun _ => rfl⟩
  · exact ⟨_, .lods .byte, fun _ => rfl⟩
  · exact ⟨_, .lods .word, fun _ => rfl⟩
  · exact ⟨_, .stos .byte, fun _ => rfl⟩
  · exact ⟨_, .stos .word, fun _ => rfl⟩

theorem execString_unprefixed {s : State} (h : repPrefixed s = false) (i : Instr) (c : Bool) (once : State → State) :
    execString i c once s = .next (once s) := if_pos (by simp [h])

theorem execString_done {s : State} (h : repPrefixed s = true) (cx : s.regs.cx = 0) (i : Instr) (c : Bool) (once : State → State) :
    execString i c once s = .next (endRep (beginRep i c s)) := (if_neg (by simp [h])).trans (if_pos cx)

theorem execString_iterates {s : State} (h : repPrefixed s = true) (cx : s.regs.cx ≠ 0) (i : Instr) (c : Bool) (once : State → State) :
    execString i c once s = repIterate c once (beginRep i c s) := (if_neg (by simp [h])).trans (if_neg cx)

/-! ### What an iteration leaves -/

theorem stepSi_dataStep (w : Width) (s : State) : DataStep [.word .r6] [] [] s (stepSi w s) := setReg_dataStep .word .r6 _ s

theorem stepDi_dataStep (w : Width) (s : State) : DataStep [.word .r7] [] [] s (stepDi w s) := setReg_dataStep .word .r7 _ s

/-- The comparison of CMPS and SCAS writes the status flags (R140). -/
theorem compare_dataStep {w : Width} (a b : Val w) (s : State) : DataStep [] statusFlags [] s (setFlags (s.flags.sub a b false) s) :=
  setFlags_status rfl rfl rfl

theorem movsOnce_dataStep {s : State} (q : s.Quiet) (w : Width) :
    DataStep [.word .r6, .word .r7] [] (span w s.sregs.es s.regs.di) s (movsOnce w s) := by
  have read := (segRead_quiet q w (segOf .ds s) s.regs.si).2.2
  have write := segWrite_dataStep (read.quiet q) w s.sregs.es s.regs.di (segRead w (segOf .ds s) s.regs.si s).1
  unfold movsOnce
  simp only [read.sregs, read.regs]
  refine (((segRead_dataStep q w _ _).trans write).trans ((stepSi_dataStep w _).trans (stepDi_dataStep w _))).mono ?_ ?_ ?_
  · simp
  · simp
  · simp

theorem cmpsOnce_dataStep {s : State} (q : s.Quiet) (w : Width) :
    DataStep [.word .r6, .word .r7] statusFlags [] s (cmpsOnce w s) := by
  have first := segRead_dataStep q w (segOf .ds s) s.regs.si
  have second := segRead_dataStep (first.toQuiet q) w
  exact ((first.trans (second _ _)).trans (compare_dataStep _ _ _)).trans ((stepSi_dataStep w _).trans (stepDi_dataStep w _))

theorem scasOnce_dataStep {s : State} (q : s.Quiet) (w : Width) : DataStep [.word .r7] statusFlags [] s (scasOnce w s) :=
  ((segRead_dataStep q w _ _).trans (compare_dataStep _ _ _)).trans (stepDi_dataStep w _)

theorem lodsOnce_dataStep {s : State} (q : s.Quiet) (w : Width) : DataStep [regPart w .r0, .word .r6] [] [] s (lodsOnce w s) :=
  ((segRead_dataStep q w _ _).trans (setReg_dataStep w .r0 _ _)).trans (stepSi_dataStep w _)

theorem stosOnce_dataStep {s : State} (q : s.Quiet) (w : Width) :
    DataStep [.word .r7] [] (span w s.sregs.es s.regs.di) s (stosOnce w s) := by
  refine ((segWrite_dataStep q w _ _ _).trans (stepDi_dataStep w _)).mono ?_ ?_ ?_
  · simp
  · simp
  · simp

/-- An iteration changes at most the accumulator, SI, DI, the status flags and some bytes of memory. -/
theorem StringPrimitive.dataStep {once : State → State} (p : StringPrimitive once) {s : State} (q : s.Quiet) :
    ∃ w as, DataStep [regPart w .r0, .word .r6, .word .r7] statusFlags as s (once s) := by
  cases p with
  | movs w => exact ⟨w, _, (movsOnce_dataStep q w).mono (by simp) (by simp) (List.Subset.refl _)⟩
  | cmps w => exact ⟨w, _, (cmpsOnce_dataStep q w).mono (by simp) (List.Subset.refl _) (List.Subset.refl _)⟩
  | scas w => exact ⟨w, _, (scasOnce_dataStep q w).mono (by simp) (List.Subset.refl _) (List.Subset.refl _)⟩
  | lods w => exact ⟨w, _, (lodsOnce_dataStep q w).mono (by simp) (by simp) (List.Subset.refl _)⟩
  | stos w => exact ⟨w, _, (stosOnce_dataStep q w).mono (by simp) (by simp) (List.Subset.refl _)⟩

/-- What the REP engine relies on: an iteration keeps the count, the execution unit and the interrupt lines. -/
structure Iterated (s t : State) : Prop where
  cx : t.regs.cx = s.regs.cx
  eu : t.eu = s.eu
  pending : intrPending t = intrPending s
  quiet : t.Quiet

theorem StringPrimitive.iterated {once : State → State} (p : StringPrimitive once) {s : State} (q : s.Quiet) : Iterated s (once s) := by
  obtain ⟨w, as, step⟩ := p.dataStep q
  obtain ⟨frame, units, -⟩ := id step
  refine ⟨frame.regs.1 .r1 ?_, units.eu, ?_, step.toQuiet q⟩
  · cases w <;> decide
  · have flag : (once s).flags.if_ = s.flags.if_ := frame.flags .if_ (by decide)
    rw [intrPending, intrPending, frame.pic, flag]

/-! ### An iteration with REP and one without -/

/-- Two states alike in all that a string primitive reads: they may differ in the execution unit, but not in the segment override, and in
the clock of the bus unit. -/
structure SameString (s t : State) : Prop where
  cfg : t.cfg = s.cfg
  regs : t.regs = s.regs
  sregs : t.sregs = s.sregs
  flags : t.flags = s.flags
  sys : t.sys = s.sys
  pc : t.biu.pc = s.biu.pc
  queue : t.biu.queue = s.biu.queue
  seg : t.eu.prefixes.seg = s.eu.prefixes.seg
  quiet : s.Quiet ∧ t.Quiet

section
variable {s t : State} (h : SameString s t)
include h

theorem SameString.segOf (d : SReg) : segOf d t = segOf d s := by
  simp [Sys2Proof.Machine.segOf, h.sregs, h.seg]

/-- What a bus transaction leaves of two alike states is alike where it does the same to the bus. -/
theorem SameString.bus {s' t' : State} (a : QuietBus s s') (b : QuietBus t t') (sys : t'.sys = s'.sys) : SameString s' t' where
  cfg := by rw [a.cfg, b.cfg, h.cfg]
  regs := by rw [a.regs, b.regs, h.regs]
  sregs := by rw [a.sregs, b.sregs, h.sregs]
  flags := by rw [a.flags, b.flags, h.flags]
  sys := sys
  pc := by rw [a.pc, b.pc, h.pc]
  queue := by rw [a.queue, b.queue, h.queue]
  seg := by rw [a.eu, b.eu, h.seg]
  quiet := ⟨a.quiet h.quiet.1, b.quiet h.quiet.2⟩

theorem SameString.segRead (w : Width) {seg seg' off off' : Word} (es : seg' = seg) (eo : off' = off) :
    (segRead w seg' off' t).1 = (segRead w seg off s).1 ∧ SameString (segRead w seg off s).2 (segRead w seg' off' t).2 := by
  subst es eo
  obtain ⟨vs, -, bs⟩ := segRead_quiet h.quiet.1 w seg' off'
  obtain ⟨vt, -, bt⟩ := segRead_quiet h.quiet.2 w seg' off'
  refine ⟨?_, h.bus bs bt ?_⟩
  · rw [vs, vt, heldVal, heldVal, h.cfg, h.sys]
  · rw [segRead_sys h.quiet.1, segRead_sys h.quiet.2, h.cfg, h.sys]

theorem SameString.segWrite (w : Width) {seg seg' off off' : Word} {v v' : Val w} (es : seg' = seg) (eo : off' = off) (ev : v' = v) :
    SameString (segWrite w seg off v s) (segWrite w seg' off' v' t) := by
  subst es eo ev
  obtain ⟨ys, bs⟩ := segWrite_quiet h.quiet.1 w seg' off' v'
  obtain ⟨yt, bt⟩ := segWrite_quiet h.quiet.2 w seg' off' v'
  exact h.bus bs bt (by rw [ys, yt, h.cfg, h.sys])

theorem SameString.getReg (w : Width) (r : Reg) : getReg w r t = getReg w r s := congrArg (Regs.getW w r) h.regs

theorem SameString.setReg (w : Width) (r : Reg) {v v' : Val w} (ev : v' = v) : SameString (setReg w r v s) (setReg w r v' t) :=
  { h with regs := by rw [setReg_regs, setReg_regs, h.regs, ev] }

theorem SameString.setFlags {f f' : Flags} (e : f' = f) : SameString (setFlags f s) (setFlags f' t) := { h with flags := e }

theorem SameString.stringDelta (w : Width) : stringDelta w t = stringDelta w s := by
  simp [Sys2Proof.Machine.stringDelta, h.flags]

theorem SameString.stepSi (w : Width) : SameString (stepSi w s) (stepSi w t) :=
  h.setReg .word .r6 (by rw [h.regs, h.stringDelta])

theorem SameString.stepDi (w : Width) : SameString (stepDi w s) (stepDi w t) :=
  h.setReg .word .r7 (by rw [h.regs, h.stringDelta])

/-- An iteration does the same in alike states. -/
theorem StringPrimitive.same {once : State → State} (p : StringPrimitive once) : SameString (once s) (once t) := by
  cases p with
  | movs w =>
    obtain ⟨v, k⟩ := h.segRead w (h.segOf .ds) (congrArg Regs.si h.regs)
    exact ((k.segWrite w (congrArg SRegs.es k.sregs) (congrArg Regs.di k.regs) v).stepSi w).stepDi w
  | cmps w =>
    obtain ⟨a, k⟩ := h.segRead w (h.segOf .ds) (congrArg Regs.si h.regs)
    obtain ⟨b, l⟩ := k.segRead w (congrArg SRegs.es k.sregs) (congrArg Regs.di k.regs)
    exact ((l.setFlags (by rw [a, b, l.flags])).stepSi w).stepDi w
  | scas w =>
    obtain ⟨b, k⟩ := h.segRead w (congrArg SRegs.es h.sregs) (congrArg Regs.di h.regs)
    exact (k.setFlags (by rw [b, k.flags, k.getReg])).stepDi w
  | lods w =>
    obtain ⟨v, k⟩ := h.segRead w (h.segOf .ds) (congrArg Regs.si h.regs)
    exact (k.setReg w .r0 v).stepSi w
  | stos w => exact (h.segWrite w (congrArg SRegs.es h.sregs) (congrArg Regs.di h.regs) (h.getReg w .r0)).stepDi w

end

/-- Neither the REP prefixes nor the beginning of the repetition is read by the primitive. -/
theorem sameString_beginRep {s : State} (q : s.Quiet) (i : Instr) (c : Bool) : SameString (withoutRep s) (beginRep i c s) :=
  ⟨rfl, rfl, rfl, rfl, rfl, rfl, rfl, rfl, q, q⟩

/-! ### The REP engine (R97, R183) -/

/-- What ends a repetition after a comparison: ZF = 0 under REPE, ZF = 1 under REPNE (R183). -/
abbrev ZfEnds (p : Prefixes) (f : Flags) : Prop := (p.repe = true ∧ f.zf = false) ∨ (p.repe = false ∧ f.zf = true)

theorem repExit_iff {c : Bool} {p : Prefixes} {s : State} (h : s.eu.repType = repTypeOf c p) :
    repExit c s = true ↔ c = true ∧ ZfEnds p s.flags := by
  unfold repExit
  rw [h]
  cases c
  · simp
  · cases repe : p.repe <;> simp [repTypeOf, repe, ZfEnds]

/-- Where nothing is pending a repetition goes on (R185). -/
theorem betweenIterations_clear {s : State} (q : s.Quiet) (nmi : s.eu.nmiLatch = false) (intr : intrPending s = false) :
    betweenIterations s = .next (setPhase .repeating s) := by
  simp [betweenIterations, busGap_quiet q, nmi, intr]

/-- The state after an iteration, its count taken (R183). -/
abbrev counted (once : State → State) (s : State) : State := setCx ((once s).regs.cx - 1) (once s)

/-- Whether the repetition ends after an iteration (R183). -/
abbrev RepEnds (c : Bool) (once : State → State) (s : State) : Prop :=
  repExit c (counted once s) = true ∨ (counted once s).regs.cx = 0

theorem repIterate_ends {c : Bool} {once : State → State} {s : State} (h : RepEnds c once s) :
    repIterate c once s = .next (endRep (counted once s)) :=
  if_pos (by rwa [Bool.or_eq_true, beq_iff_eq])

theorem repIterate_goes_on {c : Bool} {once : State → State} {s : State} (h : ¬ RepEnds c once s) :
    repIterate c once s = betweenIterations (counted once s) :=
  if_neg (by rwa [Bool.or_eq_true, beq_iff_eq])

/-- The iteration that `rep_execute` begins, its count taken, is the primitive's without REP, and the interrupt lines are as they were. -/
theorem StringPrimitive.counted_beginRep {once : State → State} (p : StringPrimitive once) {s : State} (q : s.Quiet) (i : Instr)
    (c : Bool) :
    let u := once (withoutRep s)
    let t := counted once (beginRep i c s)
    SameString { u with regs := { u.regs with cx := s.regs.cx - 1 } } t ∧ t.eu = (beginRep i c s).eu ∧ intrPending t = intrPending s := by
  have same := p.same (sameString_beginRep q i c)
  obtain ⟨count, eu, pending, -⟩ := p.iterated (s := beginRep i c s) q
  refine ⟨{ same with regs := ?_ }, eu, pending⟩
  rw [setCx_regs, count, same.regs]
  rfl

theorem repEnds_beginRep {once : State → State} (p : StringPrimitive once) {s : State} (q : s.Quiet) (i : Instr) (c : Bool) :
    RepEnds c once (beginRep i c s) ↔ s.regs.cx = 1 ∨ (c = true ∧ ZfEnds s.eu.prefixes (once (withoutRep s)).flags) := by
  obtain ⟨same, eu, -⟩ := p.counted_beginRep q i c
  have zero : s.regs.cx - 1 = 0 ↔ s.regs.cx = 1 := by bv_omega
  rw [RepEnds, repExit_iff (p := s.eu.prefixes) (by rw [eu]; rfl), same.regs, same.flags, zero, or_comm]

/-- Settles O32: with CX = 0 the repetition ends; else its iteration is the primitive's, and `repIterate` counts it and ends or goes on. -/
theorem repIterates : Obligations.RepIterates := by
  unfold Obligations.RepIterates
  intro s i string prefixed
  obtain ⟨once, p, run⟩ := exec_string string
  refine ⟨fun cx => ?_, fun q cx nmi intr => ?_⟩
  · exact ⟨_, (run s).trans (execString_done prefixed cx i _ once), rfl, rfl, rfl, rfl, rfl, rfl⟩
  · have plain : exec i (withoutRep s) = .next (once (withoutRep s)) := (run _).trans (execString_unprefixed rfl i _ once)
    have rep := (run s).trans (execString_iterates prefixed cx i (isCompare i) once)
    obtain ⟨same, eu, pending⟩ := p.counted_beginRep q i (isCompare i)
    have ends := repEnds_beginRep p q i (isCompare i)
    have mnemonic : (counted once (beginRep i (isCompare i) s)).eu.repMnemonic = some i := by rw [eu]; rfl
    by_cases done : RepEnds (isCompare i) once (beginRep i (isCompare i) s)
    · exact ⟨_, _, plain, rep.trans (repIterate_ends done), same.regs, same.flags, same.sregs, same.sys, same.pc, same.queue, mnemonic,
        fun _ => ⟨rfl, rfl, rfl⟩, fun n => absurd (ends.mp done) n⟩
    · have next := betweenIterations_clear same.quiet.2 (by rw [eu]; exact nmi) (pending.trans intr)
      exact ⟨_, _, plain, (rep.trans (repIterate_goes_on done)).trans next, same.regs, same.flags, same.sregs, same.sys, same.pc,
        same.queue, mnemonic, fun h => absurd (ends.mpr h) done, fun _ => ⟨rfl, congrArg Eu.inRep eu, congrArg Eu.repType eu⟩⟩

end Sys2Proof.Machine

namespace Sys2Proof.Machine

/-! ### Exchanges (R128, R129) -/

theorem getReg_setReg_of_ne {q r : Reg} (h : q ≠ r) (w : Width) (v : Val w) (s : State) : getReg w q (setReg w r v s) = getReg w q s := by
  cases w with
  | byte => exact (Regs.get8_set8 q r v s.regs).trans (if_neg h)
  | word => exact (Regs.get16_set16 q r v s.regs).trans (if_neg h)

/-- A store to an r/m operand is not undone by a write of another register. -/
theorem Stored.setReg_of_ne {w : Width} {rm : Rm} {v : Val w} {s t : State} (h : Stored w rm v s t) {r : Reg} (ne : rm ≠ .reg r) (x : Val w) :
    Stored w rm v s (setReg w r x t) := by
  cases rm with
  | reg q => exact (getReg_setReg_of_ne (fun e => ne (congrArg Rm.reg e)) w x t).trans h
  | mem m => exact h

/-- The operand is written before the register, so its store stays unless it names that same register (R128). -/
theorem xchgRm_exchanges {s : State} (q : s.Quiet) (w : Width) (rm : Rm) (r : Reg) :
    ∃ t, exec (.xchgRm w rm r) s = .next t ∧ getReg w r t = rmVal w rm s ∧
      (rm = .reg r ∨ Stored w rm (getReg w r s) s t) ∧ DataStep (regPart w r :: rmParts w rm) [] (rmSpan w rm s) s t := by
  obtain ⟨val, mem, bus⟩ := rmRead_quiet q w rm
  have reg : getReg w r (rmRead w rm s).2 = getReg w r s := congrArg (Regs.getW w r) bus.regs
  obtain ⟨stored, write⟩ := rmWrite_after (bus.quiet q) (bus.busOnly.sameOperands mem) w rm (getReg w r (rmRead w rm s).2)
  refine ⟨_, rfl, (getReg_setReg ..).trans val, ?_, ?_⟩
  · rw [← reg]
    by_cases same : rm = .reg r
    · exact .inl same
    · exact .inr (stored.setReg_of_ne same _)
  · have step := ((bus.dataStep mem).trans write).trans (setReg_dataStep w r (rmRead w rm s).1 _)
    exact step.mono List.perm_append_comm.subset (List.Subset.refl _) (by simp)

/-- The second write reaches AX only where the register is AX, and then it writes back AX's own value (R129). -/
theorem xchgAx_exchanges (r : Reg) (s : State) :
    ∃ t, exec (.xchgAx r) s = .next t ∧ t.regs.ax = s.regs.get16 r ∧ t.regs.get16 r = s.regs.ax ∧
      DataStep [.word .r0, .word r] [] [] s t := by
  refine ⟨_, rfl, ?_, Regs.get16_set16_self r _ _, (setReg_dataStep .word .r0 (s.regs.get16 r) s).trans (setReg_dataStep .word r _ _)⟩
  by_cases h : r = .r0
  · subst h
    rfl
  · exact getReg_setReg_of_ne (Ne.symm h) .word _ _

/-- Settles O12: a read, then a write of each operand with the other's value. -/
theorem exchange : Obligations.Exchange := by
  unfold Obligations.Exchange
  exact fun s q => ⟨xchgRm_exchanges q, fun r => xchgAx_exchanges r s⟩

end Sys2Proof.Machine

namespace Sys2Proof.Machine

/-! ### One-operand forms (R146 to R148, R167) -/

/-- An operation of one operand computes a result and flags, and changes nothing but the listed flags (R94). -/
structure UnaryOp.Computes (op : UnaryOp) (fs : List FlagName) (res : (w : Width) → Val w → Val w)
    (post : (w : Width) → Val w → Flags → Flags → Prop) : Prop where
  result : ∀ w a s, (op w a s).1 = res w a
  flags : ∀ w a s, post w a s.flags (op w a s).2.flags
  operands : ∀ w a s, SameOperands s (op w a s).2
  step : ∀ w a s, DataStep [] fs [] s (op w a s).2

/-- An r/m operand: read, computed with, and written back (R94). -/
theorem UnaryOp.Computes.onRm {op : UnaryOp} {fs : List FlagName} {res : (w : Width) → Val w → Val w}
    {post : (w : Width) → Val w → Flags → Flags → Prop} (h : op.Computes fs res post) {s : State} (q : s.Quiet) (w : Width) (rm : Rm) :
    let t := unaryRm op w rm s
    Stored w rm (res w (rmVal w rm s)) s t ∧ post w (rmVal w rm s) s.flags t.flags ∧
      DataStep (rmParts w rm) fs (rmSpan w rm s) s t := by
  obtain ⟨val, mem, bus⟩ := rmRead_quiet q w rm
  have step := (rmRead_dataStep q w rm).trans (h.step w (rmRead w rm s).1 _)
  have same := (bus.busOnly.sameOperands mem).trans (h.operands w (rmRead w rm s).1 _)
  have write := rmWrite_after (step.toQuiet q) same w rm (op w (rmRead w rm s).1 (rmRead w rm s).2).1
  have flags := h.flags w (rmRead w rm s).1 (rmRead w rm s).2
  rw [val, bus.flags] at flags
  have step := step.trans write.2
  simp only [List.nil_append, List.append_nil] at step
  refine ⟨?_, ?_, step⟩
  · rw [← val, ← h.result]
    exact write.1
  · rw [unaryRm, rmWrite_flags, val]
    exact flags

/-- The forms of INC and DEC are one (R146, R147). -/
theorem incForm_eq (op : UnaryOp) (f : IncForm) (s : State) : incForm op f s = unaryRm op (incWidth f) (incDst f) s := by
  cases f <;> rfl

/-- The five status flags that INC and DEC write: all but CF (R146, R147). -/
abbrev incFlags : List FlagName := [.pf, .af, .zf, .sf, .of_]

/-- A flag write that keeps CF, TF, IF and DF. -/
theorem setFlags_incFlags {f : Flags} {s : State} (cf : f.cf = s.flags.cf) (tf : f.tf = s.flags.tf) (if_ : f.if_ = s.flags.if_)
    (df : f.df = s.flags.df) : DataStep [] incFlags [] s (setFlags f s) := by
  refine setFlags_dataStep fun n hn => ?_
  cases n with
  | cf => exact cf
  | tf => exact tf
  | if_ => exact if_
  | df => exact df
  | pf | af | zf | sf | of_ => exact absurd (by decide) hn

/-- INC writes the flags of an addition of 1, with CF put back (R146). -/
theorem incOp_computes : incOp.Computes incFlags (fun _ a => a + 1)
    (fun _ a f g => (∃ c, AddFlags a 1 false { g with cf := c }) ∧ g.cf = f.cf) where
  result _ _ _ := rfl
  flags w a s := ⟨⟨(s.flags.add a 1 false).cf, Flags.add_flags w a 1 false s.flags⟩, rfl⟩
  operands _ _ s := setFlags_sameOperands _ s
  step _ _ _ := setFlags_incFlags rfl rfl rfl rfl

/-- DEC writes the flags of a subtraction of 1, with CF put back (R147). -/
theorem decOp_computes : decOp.Computes incFlags (fun _ a => a - 1)
    (fun _ a f g => (∃ c, SubFlags a 1 false { g with cf := c }) ∧ g.cf = f.cf) where
  result _ _ _ := rfl
  flags w a s := ⟨⟨(s.flags.sub a 1 false).cf, Flags.sub_flags w a 1 false s.flags⟩, rfl⟩
  operands _ _ s := setFlags_sameOperands _ s
  step _ _ _ := setFlags_incFlags rfl rfl rfl rfl

/-- Settles O19: each form is one r/m operand, read, changed by 1 and written back. -/
theorem incAndDec : Obligations.IncAndDec := by
  unfold Obligations.IncAndDec
  intro s f q
  obtain ⟨incStored, ⟨sum, incCf⟩, incStep⟩ := incOp_computes.onRm q (incWidth f) (incDst f)
  obtain ⟨decStored, ⟨difference, decCf⟩, decStep⟩ := decOp_computes.onRm q (incWidth f) (incDst f)
  exact ⟨⟨_, congrArg Host.Outcome.next (incForm_eq incOp f s), incStored, sum, incCf, incStep⟩,
    ⟨_, congrArg Host.Outcome.next (incForm_eq decOp f s), decStored, difference, decCf, decStep⟩⟩

/-- 0 minus a value does not fit as a signed value exactly where the value is the most negative one (R148). -/
theorem neg_overflow_iff {n : Nat} (hn : n = 8 ∨ n = 16) (a : BitVec n) :
    ((0 : BitVec n).toInt - a.toInt - false.toNat < -2 ^ (n - 1) ∨ 2 ^ (n - 1) ≤ (0 : BitVec n).toInt - a.toInt - false.toNat) ↔
      a.toNat = 2 ^ (n - 1) := by
  obtain ⟨value, low, high⟩ := toInt_range a
  have ha := a.isLt
  have zero : (0 : BitVec n).toInt = 0 := BitVec.toInt_zero
  rw [zero, Bool.toNat_false]
  rcases hn with rfl | rfl <;> omega

/-- NEG writes the flags of a subtraction from 0 (R148). -/
theorem negOp_computes : negOp.Computes statusFlags (fun _ a => -a)
    (fun w a _ g => SubFlags 0 a false g ∧ g.cf = decide (a.toNat ≠ 0) ∧ g.of_ = decide (a.toNat = 2 ^ (w.bits - 1))) where
  result _ a _ := by simp [negOp, subBorrow]
  flags w a s := by
    have sub := Flags.sub_flags w 0 a false s.flags
    exact ⟨sub, sub.cf.trans (decide_eq_decide.mpr (by simp [Nat.pos_iff_ne_zero])),
      sub.of_.trans (decide_eq_decide.mpr (neg_overflow_iff (bits_eq_or w) a))⟩
  operands _ _ s := setFlags_sameOperands _ s
  step _ _ _ := setFlags_status rfl rfl rfl

theorem notOp_computes : notOp.Computes [] (fun _ a => ~~~a) (fun _ _ _ _ => True) where
  result _ _ _ := rfl
  flags _ _ _ := trivial
  operands _ _ s := setFlags_sameOperands s.flags s
  step _ _ s := dataStep_refl s

/-- Settles O20: both operations read an r/m operand and write it back. -/
theorem negAndNot : Obligations.NegAndNot := by
  unfold Obligations.NegAndNot
  intro s w rm q
  obtain ⟨negStored, ⟨sub, cf, of_⟩, negStep⟩ := negOp_computes.onRm q w rm
  obtain ⟨notStored, -, notStep⟩ := notOp_computes.onRm q w rm
  exact ⟨⟨_, rfl, negStored, sub, cf, of_, negStep⟩, ⟨_, rfl, notStored, notStep⟩⟩

end Sys2Proof.Machine

namespace Sys2Proof.Machine

/-! ### The halves of AX (R18) -/

theorem loByte_toNat (v : Word) : (loByte v).toNat = v.toNat % 256 := BitVec.toNat_setWidth 8 v

theorem hiByte_toNat (v : Word) : (hiByte v).toNat = v.toNat / 256 := by
  have := v.isLt
  simp only [hiByte, BitVec.truncate, BitVec.toNat_setWidth, BitVec.toNat_ushiftRight, Nat.shiftRight_eq_div_pow]
  omega

/-- AX changed: no flag, and nothing else. -/
theorem setAx_dataStep (v : Word) (s : State) : DataStep [.word .r0] [] [] s (setAx v s) := setReg_dataStep .word .r0 v s

/-- DX changed: no flag, and nothing else. -/
theorem setDx_dataStep (v : Word) (s : State) : DataStep [.word .r2] [] [] s (setDx v s) := setReg_dataStep .word .r2 v s

/-! ### Conversions (R159 to R161) -/

/-- Settles O25: each is one write of a register; CBW's keeps the signed value. -/
theorem conversions : Obligations.Conversions := by
  unfold Obligations.Conversions
  intro s
  refine ⟨⟨_, rfl, ?_, setAx_dataStep _ s⟩, ⟨_, rfl, ?_, setDx_dataStep _ s⟩, ⟨_, rfl, ?_, setReg_dataStep .byte .r0 _ s⟩⟩
  · exact BitVec.toInt_signExtend_of_le (by decide)
  · rfl
  · exact Regs.get8_set8_self .r0 _ s.regs

/-! ### Decimal adjusts (R153 to R158) -/

/-- Registers written, then status flags, some of them free: the step of an adjust. -/
theorem DataStep.thenStatus {rs : List RegPart} {fs gs : List FlagName} {s t u : State} (h : DataStep rs fs [] s t)
    (k : DataStep [] gs [] t u) (hf : fs ⊆ statusFlags) (hg : gs ⊆ statusFlags) : DataStep rs statusFlags [] s u :=
  (h.trans k).mono (by simp) (List.append_subset.mpr ⟨hf, hg⟩) (List.Subset.refl _)

theorem lowNibble_toNat (v : Byte) : (v &&& 0x0F).toNat = v.toNat % 16 := Nat.and_two_pow_sub_one_eq_mod v.toNat 4

/-- The low nibble is adjusted where it is above 9 or AF is 1 (R153 to R156). -/
theorem lowAdjust_eq (al : Byte) (f : Flags) : lowAdjust al f = (decide (9 < al.toNat % 16) || f.af) := by
  rw [lowAdjust, lowNibble_toNat]

/-- The limit above which AL's high nibble is adjusted: `BCD_AF_LIMIT` counts only where AF is 1 (R153, R154). -/
theorem highAdjust_eq (c : Config) (al : Byte) (f : Flags) :
    highAdjust c al f = (decide ((if f.af = true ∧ c.bcdAfLimit = .x9F then 0x9F else 0x99) < al.toNat) || f.cf) := by
  unfold highAdjust
  cases f.af <;> cases c.bcdAfLimit <;> rfl

/-- A byte to which another is added only under a condition. -/
theorem add_ite_toNat (v k : Byte) (c : Bool) : (v + if c then k else 0).toNat = (v.toNat + if c then k.toNat else 0) % 256 := by
  rw [BitVec.toNat_add]
  cases c <;> rfl

/-- A byte from which another is subtracted only under a condition. -/
theorem sub_ite_toNat (v k : Byte) (c : Bool) :
    (v - if c then k else 0).toNat = (v.toNat + 256 - if c then k.toNat else 0) % 256 := by
  have hk := k.isLt
  rw [BitVec.toNat_sub]
  cases c
  · show (256 - 0 + v.toNat) % 256 = (v.toNat + 256 - 0) % 256
    omega
  · show (256 - k.toNat + v.toNat) % 256 = (v.toNat + 256 - k.toNat) % 256
    omega

/-- AL, CF, AF and SZP of a decimal adjust, with OF free (R153, R154). -/
theorem drawOf_setAdjusted (al : Byte) (cf af : Bool) (s : State) :
    let t := drawOf (setAdjusted al cf af s)
    t.regs.get8 .r0 = al ∧ t.flags.cf = cf ∧ t.flags.af = af ∧ SzpOf (t.regs.get8 .r0) t.flags ∧
      DataStep [.byte .r0] statusFlags [] s t := by
  have value : (drawOf (setAdjusted al cf af s)).regs.get8 .r0 = al := Regs.get8_set8_self .r0 al s.regs
  have flags : DataStep [] statusFlags [] (setReg .byte .r0 al s) (setAdjusted al cf af s) := setFlags_status rfl rfl rfl
  have written := (setReg_dataStep .byte .r0 al s).thenStatus flags (by simp) (List.Subset.refl _)
  refine ⟨value, rfl, rfl, ?_, written.thenStatus (drawOf_dataStep _) (List.Subset.refl _) (by simp)⟩
  rw [value]
  exact (Flags.szp_spec .byte al s.flags).1

/-- AL and AH, AF and CF of an ASCII adjust, with the other four flags free (R155, R156). -/
theorem drawOszp_setAx (al ah : Byte) (c : Bool) (s : State) :
    let t := drawOszp (setFlags { s.flags with af := c, cf := c } (setAx (wordOf al ah) s))
    t.regs.get8 .r0 = al ∧ t.regs.get8 .r4 = ah ∧ t.flags.af = c ∧ t.flags.cf = c ∧ DataStep [.word .r0] statusFlags [] s t := by
  have flags : DataStep [] statusFlags [] (setAx (wordOf al ah) s)
      (setFlags { s.flags with af := c, cf := c } (setAx (wordOf al ah) s)) := setFlags_status rfl rfl rfl
  have written := (setAx_dataStep (wordOf al ah) s).thenStatus flags (by simp) (List.Subset.refl _)
  exact ⟨loByte_wordOf al ah, hiByte_wordOf al ah, rfl, rfl, written.thenStatus (drawOszp_dataStep _) (List.Subset.refl _) (by simp)⟩

/-- AL and AH and SZP of AL, with OF, AF and CF free (R157, R158). -/
theorem drawOac_setAx (al ah : Byte) (s : State) :
    let t := drawOac (setFlags (s.flags.szp al) (setAx (wordOf al ah) s))
    t.regs.get8 .r0 = al ∧ t.regs.get8 .r4 = ah ∧ SzpOf (t.regs.get8 .r0) t.flags ∧ DataStep [.word .r0] statusFlags [] s t := by
  have value : (drawOac (setFlags (s.flags.szp al) (setAx (wordOf al ah) s))).regs.get8 .r0 = al := loByte_wordOf al ah
  have flags : DataStep [] statusFlags [] (setAx (wordOf al ah) s)
      (setFlags (s.flags.szp al) (setAx (wordOf al ah) s)) := setFlags_status rfl rfl rfl
  have written := (setAx_dataStep (wordOf al ah) s).thenStatus flags (by simp) (List.Subset.refl _)
  refine ⟨value, hiByte_wordOf al ah, ?_, written.thenStatus (drawOac_dataStep _) (List.Subset.refl _) (by simp)⟩
  rw [value]
  exact (Flags.szp_spec .byte al s.flags).1

section
variable {s : State} {lo hi : Bool} (hlo : lowAdjust (s.regs.get8 .r0) s.flags = lo)
  (hhi : highAdjust s.cfg (s.regs.get8 .r0) s.flags = hi)
include hlo

/-- AAA adds 6 to AL and 1 to AH where the low nibble is adjusted, and keeps AL's low nibble (R155). -/
theorem exec_aaa : exec .aaa s = .next (drawOszp (setFlags { s.flags with af := lo, cf := lo }
    (setAx (wordOf ((s.regs.get8 .r0 + if lo then 6 else 0) &&& 0x0F) (s.regs.get8 .r4 + if lo then 1 else 0)) s))) := by
  simp only [exec, execAaa, hlo]
  cases lo <;> simp

/-- AAS subtracts them (R156). -/
theorem exec_aas : exec .aas s = .next (drawOszp (setFlags { s.flags with af := lo, cf := lo }
    (setAx (wordOf ((s.regs.get8 .r0 - if lo then 6 else 0) &&& 0x0F) (s.regs.get8 .r4 - if lo then 1 else 0)) s))) := by
  simp only [exec, execAas, hlo]
  cases lo <;> simp

include hhi

/-- DAA adds 6 and 60h where the nibbles are adjusted (R153). -/
theorem exec_daa :
    exec .daa s = .next (drawOf (setAdjusted (s.regs.get8 .r0 + (if lo then 6 else 0) + (if hi then 0x60 else 0)) hi lo s)) := by
  simp only [exec, execDaa, hlo, hhi]
  cases lo <;> cases hi <;> simp

/-- DAS subtracts them, and a borrow of the first subtraction stays in CF (R154). -/
theorem exec_das :
    exec .das s = .next (drawOf (setAdjusted (s.regs.get8 .r0 - (if lo then 6 else 0) - (if hi then 0x60 else 0))
      (hi || (lo && (s.flags.cf || decide ((s.regs.get8 .r0).toNat < 6)))) lo s)) := by
  simp only [exec, execDas, hlo, hhi]
  cases lo <;> cases hi <;> simp

end

/-- AAM with a base other than 0 divides AL by it (R157). -/
theorem exec_aam {i : Byte} (h : i ≠ 0) (s : State) :
    exec (.aam i) s = .next (drawOac (setFlags (s.flags.szp (s.regs.get8 .r0 % i))
      (setAx (wordOf (s.regs.get8 .r0 % i) (s.regs.get8 .r0 / i)) s))) := by
  simp only [exec, execAam, if_neg h, BitVec.udiv_def, BitVec.umod_def]

/-- Settles O24: the results are read off the registers written, and no free flag is a defined one. -/
theorem adjusts : Obligations.Adjusts := by
  unfold Obligations.Adjusts
  intro s al ah limit lo hi
  have hlo : lowAdjust al s.flags = lo := lowAdjust_eq al s.flags
  have hhi : highAdjust s.cfg al s.flags = hi := highAdjust_eq s.cfg al s.flags
  refine ⟨⟨_, exec_daa hlo hhi, ?_⟩, ⟨_, exec_das hlo hhi, ?_⟩, ⟨_, exec_aaa hlo, ?_⟩, ⟨_, exec_aas hlo, ?_⟩,
    fun i h => ⟨_, exec_aam h s, ?_⟩, fun i => ⟨_, rfl, ?_⟩⟩
  · obtain ⟨value, cf, af, szp, step⟩ := drawOf_setAdjusted (al + (if lo then 6 else 0) + (if hi then 0x60 else 0)) hi lo s
    refine ⟨?_, cf, af, szp, step⟩
    rw [value, add_ite_toNat, add_ite_toNat, Nat.mod_add_mod]
    rfl
  · obtain ⟨value, cf, af, szp, step⟩ := drawOf_setAdjusted (al - (if lo then 6 else 0) - (if hi then 0x60 else 0))
      (hi || (lo && (s.flags.cf || decide (al.toNat < 6)))) lo s
    refine ⟨?_, cf, af, szp, step⟩
    rw [value, sub_ite_toNat, sub_ite_toNat]
    simp only [BitVec.reduceToNat]
    split <;> split <;> omega
  · obtain ⟨low, high, af, cf, step⟩ := drawOszp_setAx ((al + if lo then 6 else 0) &&& 0x0F) (ah + if lo then 1 else 0) lo s
    refine ⟨?_, ?_, af, cf, step⟩
    · rw [low, lowNibble_toNat, add_ite_toNat]
      exact Nat.mod_mod_of_dvd _ (by decide)
    · rw [high, add_ite_toNat]
      cases lo <;> rfl
  · obtain ⟨low, high, af, cf, step⟩ := drawOszp_setAx ((al - if lo then 6 else 0) &&& 0x0F) (ah - if lo then 1 else 0) lo s
    refine ⟨?_, ?_, af, cf, step⟩
    · rw [low, lowNibble_toNat, sub_ite_toNat]
      simp only [BitVec.reduceToNat]
      split <;> omega
    · rw [high, sub_ite_toNat]
      cases lo <;> rfl
  · obtain ⟨low, high, szp, step⟩ := drawOac_setAx (al % i) (al / i) s
    exact ⟨(congrArg BitVec.toNat high).trans BitVec.toNat_udiv, (congrArg BitVec.toNat low).trans BitVec.toNat_umod, szp, step⟩
  · obtain ⟨low, high, szp, step⟩ := drawOac_setAx (al + ah * i) 0 s
    refine ⟨?_, high, szp, step⟩
    rw [low, BitVec.toNat_add, BitVec.toNat_mul, Nat.add_mod_mod]

end Sys2Proof.Machine

namespace Sys2Proof.Machine

/-! ### A value and its halves -/

theorem toNat_halves {n : Nat} (hi lo : BitVec n) : (hi ++ lo).toNat = hi.toNat * 2 ^ n + lo.toNat := by
  rw [BitVec.toNat_append, ← Nat.shiftLeft_add_eq_or_of_lt lo.isLt, Nat.shiftLeft_eq]

/-- The signed value of DX:AX (R150, R152). -/
theorem toInt_words (hi lo : Word) : (hi ++ lo).toInt = hi.toInt * 65536 + lo.toNat := by
  rw [BitVec.toInt_append, Int.mul_comm]
  rfl

/-- A double word is its two words, one after the other. -/
theorem words_eq (p : BitVec 32) : (p.extractLsb' 16 16 : Word) ++ (p.truncate 16 : Word) = p := by
  rw [BitVec.truncate, BitVec.setWidth_eq_extractLsb' (by decide)]
  exact (BitVec.extractLsb'_append_extractLsb'_eq_extractLsb' rfl).trans BitVec.extractLsb'_eq_self

/-- The high half says whether a value fits in the low one as an unsigned value (R149). -/
theorem high_ne_zero {n : Nat} (hi lo : BitVec n) : (hi != 0) = decide (2 ^ n ≤ (hi ++ lo).toNat) := by
  have hlo := lo.isLt
  have zero : hi = 0 ↔ hi.toNat = 0 := BitVec.toNat_eq
  rw [toNat_halves, Bool.eq_iff_iff, bne_iff_ne, decide_eq_true_eq, ne_eq, zero]
  constructor
  · intro pos
    exact Nat.le_trans (Nat.le_mul_of_pos_left _ (Nat.pos_of_ne_zero pos)) (Nat.le_add_right ..)
  · intro le none
    rw [none] at le
    omega

theorem hiByte_ne_zero (p : Word) : (hiByte p != 0) = decide (256 ≤ p.toNat) := by
  have halves : hiByte p ++ loByte p = p := wordOf_loByte_hiByte p
  exact (high_ne_zero _ _).trans (congrArg (fun x : Word => decide (256 ≤ x.toNat)) halves)

theorem highWord_ne_zero (p : BitVec 32) : ((p.extractLsb' 16 16 : Word) != 0) = decide (65536 ≤ p.toNat) :=
  (high_ne_zero _ _).trans (congrArg (fun x : BitVec 32 => decide (65536 ≤ x.toNat)) (words_eq p))

/-- A value differs from its low half, both signed, exactly where it lies outside the signed range of the half (R150). -/
theorem toInt_ne_half_iff {n : Nat} (hn : n = 8 ∨ n = 16) (p : BitVec (n + n)) :
    p.toInt ≠ (p.truncate n).toInt ↔ p.toInt < -2 ^ (n - 1) ∨ 2 ^ (n - 1) ≤ p.toInt := by
  have whole := toInt_range p
  have half := toInt_range (p.truncate n)
  have low : (p.truncate n).toNat = p.toNat % 2 ^ n := BitVec.toNat_setWidth n p
  have hp := p.isLt
  rcases hn with rfl | rfl <;> omega

/-! ### Products (R149, R150) -/

/-- The product of two values at twice their width is exact. -/
theorem toNat_mul_zeroExtend {n : Nat} (a b : BitVec n) :
    (a.zeroExtend (n + n) * b.zeroExtend (n + n)).toNat = a.toNat * b.toNat := by
  have fits : a.toNat * b.toNat < 2 ^ (n + n) := Nat.mul_two n ▸ BitVec.toNat_mul_toNat_lt
  have wide (x : BitVec n) : (x.zeroExtend (n + n)).toNat = x.toNat := BitVec.toNat_setWidth_of_le (Nat.le_add_left n n)
  rw [BitVec.toNat_mul, wide, wide, Nat.mod_eq_of_lt fits]

/-- So is the signed product. -/
theorem toInt_mul_signExtend {n : Nat} (hn : n = 8 ∨ n = 16) (a b : BitVec n) :
    (a.signExtend (n + n) * b.signExtend (n + n)).toInt = a.toInt * b.toInt := by
  have low := BitVec.le_toInt_mul_toInt (x := a) (y := b)
  have high := BitVec.toInt_mul_toInt_le (x := a) (y := b)
  have wide (x : BitVec n) : (x.signExtend (n + n)).toInt = x.toInt := BitVec.toInt_signExtend_of_le (Nat.le_add_left n n)
  rw [BitVec.toInt_mul, wide, wide]
  generalize a.toInt * b.toInt = p at low high
  apply Int.bmod_eq_of_le <;> rcases hn with rfl | rfl <;> omega

/-! ### The accumulator -/

/-- The registers of a double-width accumulator: AX, or DX:AX (R149 to R152). -/
def accParts (w : Width) : List RegPart :=
  match w with
  | .byte => [.word .r0]
  | .word => [.word .r0, .word .r2]

/-- A write of DX and then AX. -/
theorem setDxAx_dataStep (hi lo : Word) (s : State) : DataStep (accParts .word) [] [] s (setAx lo (setDx hi s)) :=
  ((setDx_dataStep hi s).trans (setAx_dataStep lo _)).mono List.perm_append_comm.subset (List.Subset.refl _) (List.Subset.refl _)

/-- An operand that is read without another agent's step: its value, and nothing changed but the bus. -/
theorem rmRead_eq {s : State} (q : s.Quiet) (w : Width) (rm : Rm) :
    ∃ u, rmRead w rm s = (rmVal w rm s, u) ∧ QuietBus s u ∧ u.sys.mem = s.sys.mem := by
  obtain ⟨val, mem, bus⟩ := rmRead_quiet q w rm
  exact ⟨(rmRead w rm s).2, Prod.ext val rfl, bus, mem⟩

/-! ### Multiplication (R149, R150) -/

/-- A multiplication writes all six status flags (R149, R150). -/
theorem mulFlags_dataStep (c : Bool) (s : State) : DataStep [] statusFlags [] s (mulFlags c s) := by
  have flags : DataStep [] statusFlags [] (drawSzap s) (mulFlags c s) := setFlags_status rfl rfl rfl
  exact (drawSzap_dataStep s).thenStatus flags (by simp) (List.Subset.refl _)

theorem mulBy_dataStep (w : Width) (v : Val w) (s : State) : DataStep (accParts w) statusFlags [] s (mulBy w v s) := by
  cases w with
  | byte => exact (setAx_dataStep _ s).trans (mulFlags_dataStep _ _)
  | word => exact (setDxAx_dataStep _ _ s).trans (mulFlags_dataStep _ _)

theorem imulBy_dataStep (w : Width) (v : Val w) (s : State) : DataStep (accParts w) statusFlags [] s (imulBy w v s) := by
  cases w with
  | byte => exact (setAx_dataStep _ s).trans (mulFlags_dataStep _ _)
  | word => exact (setDxAx_dataStep _ _ s).trans (mulFlags_dataStep _ _)

/-- MUL of AL: the product is in AX, and CF says that AH is not 0 (R149). -/
theorem mulBy_byte (v : Byte) (s : State) :
    let p := (s.regs.get8 .r0).toNat * v.toNat
    (mulBy .byte v s).regs.ax.toNat = p ∧ (mulBy .byte v s).flags.cf = decide (256 ≤ p) := by
  have product := toNat_mul_zeroExtend (s.regs.get8 .r0) v
  exact ⟨product, product ▸ hiByte_ne_zero _⟩

/-- MUL of AX: the product is in DX:AX, and CF says that DX is not 0 (R149). -/
theorem mulBy_word (v : Word) (s : State) :
    let p := s.regs.ax.toNat * v.toNat
    (mulBy .word v s).regs.dx.toNat * 65536 + (mulBy .word v s).regs.ax.toNat = p ∧
      (mulBy .word v s).flags.cf = decide (65536 ≤ p) := by
  have product := toNat_mul_zeroExtend s.regs.ax v
  refine ⟨?_, product ▸ highWord_ne_zero _⟩
  rw [← product, ← words_eq (s.regs.ax.zeroExtend 32 * v.zeroExtend 32)]
  exact (toNat_halves _ _).symm

/-- IMUL of AL: the signed product is in AX, and CF says that AL alone does not hold it (R150). -/
theorem imulBy_byte (v : Byte) (s : State) :
    let p := (s.regs.get8 .r0).toInt * v.toInt
    (imulBy .byte v s).regs.ax.toInt = p ∧ (imulBy .byte v s).flags.cf = decide (p < -128 ∨ 127 < p) := by
  have product := toInt_mul_signExtend (.inl rfl) (s.regs.get8 .r0) v
  exact ⟨product, product ▸ decide_eq_decide.mpr (toInt_ne_half_iff (.inl rfl) _)⟩

/-- IMUL of AX: the signed product is in DX:AX, and CF says that AX alone does not hold it (R150). -/
theorem imulBy_word (v : Word) (s : State) :
    let p := s.regs.ax.toInt * v.toInt
    (imulBy .word v s).regs.dx.toInt * 65536 + (imulBy .word v s).regs.ax.toNat = p ∧
      (imulBy .word v s).flags.cf = decide (p < -32768 ∨ 32767 < p) := by
  have product := toInt_mul_signExtend (.inr rfl) s.regs.ax v
  refine ⟨?_, product ▸ decide_eq_decide.mpr (toInt_ne_half_iff (.inr rfl) _)⟩
  rw [← product, ← words_eq (s.regs.ax.signExtend 32 * v.signExtend 32)]
  exact (toInt_words _ _).symm

section
variable {s : State} (q : s.Quiet) (rep : repPrefixed s = false) (w : Width) (rm : Rm)
include q rep

/-- MUL, not REP-prefixed, multiplies by the operand it has read (R149, R222). -/
theorem exec_mul : ∃ u, exec (.mul w rm) s = .next (mulBy w (rmVal w rm s) u) ∧ u.regs = s.regs ∧
    DataStep (accParts w) statusFlags [] s (mulBy w (rmVal w rm s) u) := by
  obtain ⟨u, read, bus, mem⟩ := rmRead_eq q w rm
  exact ⟨u, by simp [exec, execMul, rep, read], bus.regs, (bus.dataStep mem).trans (mulBy_dataStep w _ u)⟩

/-- IMUL, not REP-prefixed, likewise (R150, R222). -/
theorem exec_imul : ∃ u, exec (.imul w rm) s = .next (imulBy w (rmVal w rm s) u) ∧ u.regs = s.regs ∧
    DataStep (accParts w) statusFlags [] s (imulBy w (rmVal w rm s) u) := by
  obtain ⟨u, read, bus, mem⟩ := rmRead_eq q w rm
  exact ⟨u, by simp [exec, execImul, rep, read], bus.regs, (bus.dataStep mem).trans (imulBy_dataStep w _ u)⟩

end

/-- Settles O21: the operand is read, and the accumulator multiplied by it exactly. -/
theorem multiply : Obligations.Multiply := by
  unfold Obligations.Multiply
  intro s q rep
  refine ⟨fun rm => ⟨?_, ?_⟩, fun rm => ⟨?_, ?_⟩⟩
  · obtain ⟨u, run, regs, step⟩ := exec_mul q rep .byte rm
    obtain ⟨product, cf⟩ := regs ▸ mulBy_byte (rmVal .byte rm s) u
    exact ⟨_, run, product, cf, rfl, step⟩
  · obtain ⟨u, run, regs, step⟩ := exec_imul q rep .byte rm
    obtain ⟨product, cf⟩ := regs ▸ imulBy_byte (rmVal .byte rm s) u
    exact ⟨_, run, product, cf, rfl, step⟩
  · obtain ⟨u, run, regs, step⟩ := exec_mul q rep .word rm
    obtain ⟨product, cf⟩ := regs ▸ mulBy_word (rmVal .word rm s) u
    exact ⟨_, run, product, cf, rfl, step⟩
  · obtain ⟨u, run, regs, step⟩ := exec_imul q rep .word rm
    obtain ⟨product, cf⟩ := regs ▸ imulBy_word (rmVal .word rm s) u
    exact ⟨_, run, product, cf, rfl, step⟩

end Sys2Proof.Machine

namespace Sys2Proof.Machine

/-! ### A divide error (R151, R152, R157, R225) -/

/-- A divide error has entered interrupt 0 with `IP_next` and been reported (R225, R235). -/
abbrev Trapped (s t : State) : Prop := Entered 0 (ip s) s t ∧ t.sys.reports = .divideError (ip s) :: s.sys.reports

/-- A divide error raised after reads of the bus is one of the state before them. -/
theorem divideError_after {s u : State} (q : s.Quiet) (bus : QuietBus s u) (mem : u.sys.mem = s.sys.mem)
    (clear : frameOverlapsVector 0 s = false) : ∃ t, divideError u = .next t ∧ Trapped s t := by
  have same : ip u = ip s := bus.busOnly.ip
  have clear' : frameOverlapsVector 0 { u with sys := u.sys.report (.divideError (ip s)) } = false := by
    simpa [frameOverlapsVector, bus.sregs, bus.regs] using clear
  have quiet : ({ u with sys := u.sys.report (.divideError (ip s)) } : State).Quiet := bus.quiet q
  obtain ⟨t, run, entered, -, reports, -⟩ := enterInterrupt_spec quiet (ip s) clear'
  refine ⟨t, ?_, entered.congr bus.regs bus.sregs bus.flags mem bus.cfg bus.callStack bus.dma bus.crtc bus.fdc, ?_⟩
  · rw [divideError, same]
    exact run
  · rw [reports]
    exact congrArg _ bus.reports

/-! ### Quotients (R151, R152) -/

/-- The unsigned dividend is AX or DX:AX. -/
theorem dividend_word_toNat (s : State) : (dividend .word s).toNat = s.regs.dx.toNat * 65536 + s.regs.ax.toNat := toNat_halves _ _

/-- The signed dividend likewise. -/
theorem dividend_word_toInt (s : State) : (dividend .word s).toInt = s.regs.dx.toInt * 65536 + s.regs.ax.toNat := toInt_words _ _

theorem dividend_congr {s t : State} (h : t.regs = s.regs) (w : Width) : dividend w t = dividend w s := by
  cases w <;> simp [dividend, h]

theorem setQuotient_dataStep (w : Width) (a b : Val w) (s : State) : DataStep (accParts w) [] [] s (setQuotient w a b s) := by
  cases w with
  | byte => exact setAx_dataStep (wordOf a b) s
  | word => exact setDxAx_dataStep b a s

/-- A division has completed: a quotient and a remainder with the given property are written, and the six status flags are free
(R151, R152). -/
def Divided (w : Width) (i : Instr) (s : State) (correct : Val w → Val w → Prop) : Prop :=
  ∃ a b u, exec i s = .next (setQuotient w a b u) ∧ correct a b ∧ DataStep (accParts w) statusFlags [] s (setQuotient w a b u)

/-- AL holds the quotient and AH the remainder. -/
theorem Divided.byte {i : Instr} {s : State} {correct : Byte → Byte → Prop} (h : Divided .byte i s correct) :
    ∃ t, exec i s = .next t ∧ correct (t.regs.get8 .r0) (t.regs.get8 .r4) ∧ DataStep [.word .r0] statusFlags [] s t := by
  obtain ⟨a, b, u, run, ok, step⟩ := h
  have quotient : (setQuotient .byte a b u).regs.get8 .r0 = a := loByte_wordOf a b
  have remainder : (setQuotient .byte a b u).regs.get8 .r4 = b := hiByte_wordOf a b
  exact ⟨_, run, by rwa [quotient, remainder], step⟩

/-- AX holds the quotient and DX the remainder. -/
theorem Divided.word {i : Instr} {s : State} {correct : Word → Word → Prop} (h : Divided .word i s correct) :
    ∃ t, exec i s = .next t ∧ correct t.regs.ax t.regs.dx ∧ DataStep [.word .r0, .word .r2] statusFlags [] s t := by
  obtain ⟨a, b, u, run, ok, step⟩ := h
  exact ⟨_, run, ok, step⟩

/-- All six status flags free, as a completed division leaves them. -/
theorem drawCo_drawSzap_dataStep (s : State) : DataStep [] statusFlags [] s (drawCo (drawSzap s)) :=
  ((drawSzap_dataStep s).trans (drawCo_dataStep _)).mono (List.Subset.refl _) (by simp) (List.Subset.refl _)

/-- From the read of the divisor to the registers written: what a completed division changes (R151, R152). -/
theorem setQuotient_after {s u : State} (bus : QuietBus s u) (mem : u.sys.mem = s.sys.mem) (w : Width) (a b : Val w) :
    DataStep (accParts w) statusFlags [] s (setQuotient w a b (drawCo (drawSzap u))) :=
  ((bus.dataStep mem).trans (drawCo_drawSzap_dataStep u)).trans (setQuotient_dataStep w a b _)

/-- A quotient that fits, and its remainder, are written as they are (R151). -/
theorem unsigned_quotient {k n : Nat} {d : BitVec k} (nonzero : d.toNat ≠ 0) (fits : n < 2 ^ k * d.toNat) :
    let a := BitVec.ofNat k (n / d.toNat)
    let b := BitVec.ofNat k (n % d.toNat)
    n = a.toNat * d.toNat + b.toNat ∧ b.toNat < d.toNat := by
  have below : n % d.toNat < d.toNat := Nat.mod_lt _ (Nat.pos_of_ne_zero nonzero)
  have quotient : n / d.toNat < 2 ^ k := Nat.div_lt_of_lt_mul (Nat.mul_comm .. ▸ fits)
  have remainder : n % d.toNat < 2 ^ k := Nat.lt_trans below d.isLt
  simp only [BitVec.toNat_ofNat, Nat.mod_eq_of_lt quotient, Nat.mod_eq_of_lt remainder]
  exact ⟨(Nat.div_add_mod' n d.toNat).symm, below⟩

/-- A signed quotient that fits, and its remainder, are written as they are (R152). -/
theorem signed_quotient {k : Nat} (hk : 0 < k) {n : Int} {d : BitVec k} (nonzero : d.toInt ≠ 0)
    (above : -2 ^ (k - 1) < n.tdiv d.toInt) (below : n.tdiv d.toInt < 2 ^ (k - 1)) :
    (BitVec.ofInt k (n.tdiv d.toInt)).toInt = n.tdiv d.toInt ∧ (BitVec.ofInt k (n.tmod d.toInt)).toInt = n.tmod d.toInt := by
  have abs : (n.tmod d.toInt).natAbs < d.toInt.natAbs := by
    rw [Int.natAbs_tmod]
    exact Nat.mod_lt _ (Int.natAbs_pos.mpr nonzero)
  obtain ⟨-, low, high⟩ := toInt_range d
  exact ⟨BitVec.toInt_ofInt_eq_self hk (Int.le_of_lt above) below, BitVec.toInt_ofInt_eq_self hk (by omega) (by omega)⟩

section
variable {s : State} (q : s.Quiet) (rep : repPrefixed s = false) (w : Width) (rm : Rm)
include q rep

/-- DIV, not REP-prefixed: it completes, or raises a divide error (R151, R222). -/
theorem exec_div :
    let n := (dividend w s).toNat
    let d := (rmVal w rm s).toNat
    (d ≠ 0 → n < 2 ^ w.bits * d → Divided w (.div w rm) s fun a b => n = a.toNat * d + b.toNat ∧ b.toNat < d) ∧
      (frameOverlapsVector 0 s = false → d = 0 ∨ 2 ^ w.bits * d ≤ n → ∃ t, exec (.div w rm) s = .next t ∧ Trapped s t) := by
  obtain ⟨u, read, bus, mem⟩ := rmRead_eq q w rm
  intro n d
  have run : exec (.div w rm) s = if d = 0 ∨ 2 ^ w.bits ≤ n / d then divideError u
      else .next (setQuotient w (BitVec.ofNat _ (n / d)) (BitVec.ofNat _ (n % d)) (drawCo (drawSzap u))) := by
    simp [exec, execDiv, rep, read, dividend_congr bus.regs, n, d]
  refine ⟨fun nonzero fits => ?_, fun clear err => ?_⟩
  · have ok : ¬ (d = 0 ∨ 2 ^ w.bits ≤ n / d) := not_or.mpr ⟨nonzero, by
      rw [Nat.le_div_iff_mul_le (Nat.pos_of_ne_zero nonzero)]; omega⟩
    rw [if_neg ok] at run
    exact ⟨_, _, _, run, unsigned_quotient nonzero fits, setQuotient_after bus mem w _ _⟩
  · have bad : d = 0 ∨ 2 ^ w.bits ≤ n / d := Decidable.or_iff_not_imp_left.mpr fun nonzero =>
      (Nat.le_div_iff_mul_le (Nat.pos_of_ne_zero nonzero)).mpr (err.resolve_left nonzero)
    rw [run, if_pos bad]
    exact divideError_after q bus mem clear

/-- IDIV, not REP-prefixed, likewise, with a limit that is the same on both sides (R152, R222). -/
theorem exec_idiv :
    let n := (dividend w s).toInt
    let d := (rmVal w rm s).toInt
    (d ≠ 0 → -2 ^ (w.bits - 1) < n.tdiv d → n.tdiv d < 2 ^ (w.bits - 1) →
        Divided w (.idiv w rm) s fun a b => a.toInt = n.tdiv d ∧ b.toInt = n.tmod d) ∧
      (frameOverlapsVector 0 s = false → d = 0 ∨ n.tdiv d ≤ -2 ^ (w.bits - 1) ∨ 2 ^ (w.bits - 1) ≤ n.tdiv d →
        ∃ t, exec (.idiv w rm) s = .next t ∧ Trapped s t) := by
  obtain ⟨u, read, bus, mem⟩ := rmRead_eq q w rm
  intro n d
  have run : exec (.idiv w rm) s =
      if d = 0 ∨ (2 ^ (w.bits - 1) - 1 < n.tdiv d ∨ n.tdiv d < -(2 ^ (w.bits - 1) - 1)) then divideError u
      else .next (setQuotient w (BitVec.ofInt _ (n.tdiv d)) (BitVec.ofInt _ (n.tmod d)) (drawCo (drawSzap u))) := by
    simp [exec, execIdiv, rep, read, dividend_congr bus.regs, n, d, or_assoc]
  refine ⟨fun nonzero above below => ?_, fun clear err => ?_⟩
  · rw [if_neg (by omega)] at run
    exact ⟨_, _, _, run, signed_quotient (by cases w <;> decide) nonzero above below, setQuotient_after bus mem w _ _⟩
  · rw [run, if_pos (by omega)]
    exact divideError_after q bus mem clear

end

/-- Settles O22: the dividend is AX or DX:AX, and the quotient and the remainder are read off the registers written. -/
theorem divideCompletes : Obligations.DivideCompletes := by
  unfold Obligations.DivideCompletes
  intro s rm q rep
  have divWord := (exec_div q rep .word rm).1
  have idivWord := (exec_idiv q rep .word rm).1
  rw [dividend_word_toNat] at divWord
  rw [dividend_word_toInt] at idivWord
  refine ⟨fun nonzero fits => ?_, fun nonzero fits => ?_, fun nonzero above below => ?_, fun nonzero above below => ?_⟩
  · obtain ⟨t, run, ⟨whole, below⟩, step⟩ := ((exec_div q rep .byte rm).1 nonzero fits).byte
    exact ⟨t, run, whole, below, step⟩
  · obtain ⟨t, run, ⟨whole, below⟩, step⟩ := (divWord nonzero fits).word
    exact ⟨t, run, whole, below, step⟩
  · obtain ⟨t, run, ⟨quotient, remainder⟩, step⟩ := ((exec_idiv q rep .byte rm).1 nonzero above below).byte
    exact ⟨t, run, quotient, remainder, step⟩
  · obtain ⟨t, run, ⟨quotient, remainder⟩, step⟩ := (idivWord nonzero above below).word
    exact ⟨t, run, quotient, remainder, step⟩

/-- Settles O23: each of the five raises its divide error before anything is written, so the entry is one from `s` itself. -/
theorem divideErrors : Obligations.DivideErrors := by
  unfold Obligations.DivideErrors
  intro s q clear
  refine ⟨fun rm rep => ?_, divideError_after q (QuietBus.refl s) rfl clear⟩
  have divWord := (exec_div q rep .word rm).2 clear
  have idivWord := (exec_idiv q rep .word rm).2 clear
  rw [dividend_word_toNat] at divWord
  rw [dividend_word_toInt] at idivWord
  exact ⟨(exec_div q rep .byte rm).2 clear, divWord, (exec_idiv q rep .byte rm).2 clear, idivWord⟩

end Sys2Proof.Machine

namespace Sys2Proof.Machine

/-! ### Repeated steps (R168) -/

theorem shiftTimes_last {n : Nat} (step : ShiftSt n → ShiftSt n) {k : Nat} (hk : 1 ≤ k) (t : ShiftSt n) :
    shiftTimes step k t = step (shiftTimes step (k - 1) t) := by
  obtain ⟨j, rfl⟩ := Nat.exists_eq_add_of_le' hk
  induction j generalizing t with
  | zero => rfl
  | succ j ih => exact ih (step t) (Nat.le_add_left 1 j)

/-- Where one step is an operation by one place, seen through `view`, and places add up, `k` steps are the operation by `k` places. -/
theorem shiftTimes_view {n : Nat} {α : Type} {step : ShiftSt n → ShiftSt n} (view : ShiftSt n → α) (op : α → Nat → α)
    (zero : ∀ a, op a 0 = a) (add : ∀ a k, op (op a 1) k = op a (1 + k)) (one : ∀ t, view (step t) = op (view t) 1) (k : Nat)
    (t : ShiftSt n) : view (shiftTimes step k t) = op (view t) k := by
  induction k generalizing t with
  | zero => exact (zero _).symm
  | succ k ih => rw [shiftTimes, ih, one, add, Nat.add_comm]

/-! ### A bit shifted in -/

theorem getLsbD_ofNat_toNat (n : Nat) (b : Bool) (i : Nat) :
    (BitVec.ofNat n b.toNat).getLsbD i = (decide (0 < n) && decide (i = 0) && b) := by
  cases b with
  | false => simp
  | true => simp [BitVec.getLsbD_one]

theorem getLsbD_shiftInLeft {n : Nat} (x : BitVec n) (b : Bool) (i : Nat) :
    (x <<< 1 ||| BitVec.ofNat n b.toNat).getLsbD i = (decide (i < n) && if i = 0 then b else x.getLsbD (i - 1)) := by
  cases i with
  | zero => simp [getLsbD_ofNat_toNat]
  | succ i => simp [getLsbD_ofNat_toNat]

theorem getLsbD_shiftInRight {n : Nat} (x : BitVec n) (b : Bool) (i : Nat) :
    (x >>> 1 ||| BitVec.ofNat n b.toNat <<< (n - 1)).getLsbD i = if i + 1 = n then b else x.getLsbD (i + 1) := by
  rw [BitVec.getLsbD_or, BitVec.getLsbD_ushiftRight, BitVec.getLsbD_shiftLeft, getLsbD_ofNat_toNat, Nat.add_comm 1 i]
  by_cases last : i + 1 = n
  · subst last
    simp
  · have outside : i < n → i < n - 1 := by omega
    rw [if_neg last]
    by_cases hi : i < n <;> simp [hi, outside]

/-! ### Rotations add up -/

theorem rotateLeft_rotateLeft {n : Nat} (x : BitVec n) (j k : Nat) : (x.rotateLeft j).rotateLeft k = x.rotateLeft (j + k) := by
  refine BitVec.eq_of_getMsbD_eq fun i hi => ?_
  have pos : 0 < n := Nat.zero_lt_of_lt hi
  simp [BitVec.getMsbD_rotateLeft, hi, Nat.mod_lt, pos, Nat.add_assoc]

theorem getLsbD_rotateRight_mod {n : Nat} (x : BitVec n) (k i : Nat) :
    (x.rotateRight k).getLsbD i = (decide (i < n) && x.getLsbD ((k + i) % n)) := by
  by_cases hi : i < n
  · have hk : k % n < n := Nat.mod_lt _ (Nat.zero_lt_of_lt hi)
    rw [BitVec.getLsbD_rotateRight, ← Nat.mod_add_mod]
    by_cases wraps : i < n - k % n
    · simp [hi, wraps, Nat.mod_eq_of_lt (show k % n + i < n by omega)]
    · have wrapped : (k % n + i) % n = i - (n - k % n) := by
        rw [Nat.mod_eq_sub_mod (by omega), Nat.mod_eq_of_lt (by omega)]
        omega
      simp [hi, wraps, wrapped]
  · rw [BitVec.getLsbD_of_ge _ _ (Nat.le_of_not_lt hi)]
    simp [hi]

theorem rotateRight_rotateRight {n : Nat} (x : BitVec n) (j k : Nat) :
    (x.rotateRight j).rotateRight k = x.rotateRight (j + k) := by
  refine BitVec.eq_of_getLsbD_eq fun i hi => ?_
  have pos : 0 < n := Nat.zero_lt_of_lt hi
  simp only [getLsbD_rotateRight_mod, hi, Nat.mod_lt _ pos, decide_true, Bool.true_and, Nat.add_mod_mod, Nat.add_assoc]

theorem rotateLeft_zero {n : Nat} (x : BitVec n) : x.rotateLeft 0 = x := by
  refine BitVec.eq_of_getLsbD_eq fun i hi => ?_
  simp [hi]

theorem rotateRight_zero {n : Nat} (x : BitVec n) : x.rotateRight 0 = x := by
  refine BitVec.eq_of_getLsbD_eq fun i hi => ?_
  simp [hi]

/-! ### One step (R169 to R175) -/

theorem getLsbD_rotateLeft_one {n : Nat} (x : BitVec n) {i : Nat} (hi : i < n) :
    (x.rotateLeft 1).getLsbD i = if i = 0 then x.msb else x.getLsbD (i - 1) := by
  rcases (show n = 1 ∨ 1 < n by omega) with rfl | more
  · obtain rfl : i = 0 := by omega
    rw [← BitVec.rotateLeft_mod_eq_rotateLeft, Nat.mod_self, rotateLeft_zero, if_pos rfl, BitVec.msb_eq_getLsbD_last]
  · rw [BitVec.getLsbD_rotateLeft_of_le more, BitVec.msb_eq_getLsbD_last]
    by_cases bottom : i = 0 <;> simp [bottom, hi]

theorem rolStep_x {n : Nat} (t : ShiftSt n) : (rolStep t).x = t.x.rotateLeft 1 := by
  refine BitVec.eq_of_getLsbD_eq fun i hi => ?_
  rw [rolStep, getLsbD_shiftInLeft, getLsbD_rotateLeft_one _ hi]
  simp [hi]

theorem rorStep_x {n : Nat} (t : ShiftSt n) : (rorStep t).x = t.x.rotateRight 1 := by
  refine BitVec.eq_of_getLsbD_eq fun i hi => ?_
  rw [rorStep, getLsbD_shiftInRight, getLsbD_rotateRight_mod, Nat.add_comm 1 i]
  by_cases last : i + 1 = n
  · simp [last, hi]
  · simp [last, hi, Nat.mod_eq_of_lt (show i + 1 < n by omega)]

/-- CF above the operand: the value that RCL and RCR rotate (R171, R172). -/
def ShiftSt.withCarry {n : Nat} (t : ShiftSt n) : BitVec (n + 1) := BitVec.cons t.cf t.x

theorem rclStep_withCarry {n : Nat} (pos : 0 < n) (t : ShiftSt n) : (rclStep t).withCarry = t.withCarry.rotateLeft 1 := by
  refine BitVec.eq_of_getLsbD_eq fun i hi => ?_
  rw [getLsbD_rotateLeft_one _ hi]
  simp only [ShiftSt.withCarry, rclStep, BitVec.getLsbD_cons, getLsbD_shiftInLeft, BitVec.msb_cons]
  by_cases top : i = n
  · simp [top, Nat.ne_of_gt pos, show n - 1 ≠ n by omega, BitVec.msb_eq_getLsbD_last]
  · have below : i < n := by omega
    simp [top, below, show i - 1 ≠ n by omega]

theorem rcrStep_withCarry {n : Nat} (pos : 0 < n) (t : ShiftSt n) : (rcrStep t).withCarry = t.withCarry.rotateRight 1 := by
  refine BitVec.eq_of_getLsbD_eq fun i hi => ?_
  rw [getLsbD_rotateRight_mod, Nat.add_comm 1 i]
  simp only [ShiftSt.withCarry, rcrStep, BitVec.getLsbD_cons, getLsbD_shiftInRight]
  by_cases top : i = n
  · simp [top, Nat.ne_of_lt pos]
  · simp [top, hi, Nat.mod_eq_of_lt (show i + 1 < n + 1 by omega)]

theorem sarStep_x {n : Nat} (t : ShiftSt n) : (sarStep t).x = t.x.sshiftRight 1 := by
  refine BitVec.eq_of_getLsbD_eq fun i hi => ?_
  rw [sarStep, getLsbD_shiftInRight, BitVec.getLsbD_sshiftRight, Nat.add_comm 1 i]
  by_cases last : i + 1 = n
  · simp [last, hi]
  · simp [last, hi, show i + 1 < n by omega]

/-! ### CF and OF of one step -/

section
variable {n : Nat} (t : ShiftSt n)

theorem ShiftSt.withCarry_truncate : t.withCarry.truncate n = t.x := BitVec.setWidth_cons

theorem ShiftSt.withCarry_msb : t.withCarry.msb = t.cf := BitVec.msb_cons

theorem ShiftSt.withCarry_getLsbD_last (pos : 0 < n) : t.withCarry.getLsbD (n - 1) = t.x.msb := by
  rw [ShiftSt.withCarry, BitVec.getLsbD_cons, if_neg (by omega), BitVec.msb_eq_getLsbD_last]

theorem rolStep_cf (pos : 0 < n) : (rolStep t).cf = (rolStep t).x.getLsbD 0 := by
  rw [rolStep_x, getLsbD_rotateLeft_one _ pos]
  rfl

theorem rorStep_cf (pos : 0 < n) : (rorStep t).cf = (rorStep t).x.msb := by
  rw [BitVec.msb_eq_getLsbD_last, rorStep, getLsbD_shiftInRight, if_pos (Nat.sub_add_cancel pos)]

theorem rolStep_of : (rolStep t).of_ = ((t.x.rotateLeft 1).msb ^^ t.x.msb) := by
  rw [← rolStep_x]
  rfl

/-- After a step to the right the sign stands one place below the top. -/
theorem getLsbD_shiftInRight_second (two : 1 < n) (x : BitVec n) (b : Bool) :
    (x >>> 1 ||| BitVec.ofNat n b.toNat <<< (n - 1)).getLsbD (n - 2) = x.msb := by
  rw [getLsbD_shiftInRight, if_neg (by omega), BitVec.msb_eq_getLsbD_last, show n - 2 + 1 = n - 1 by omega]

theorem rorStep_of (two : 1 < n) : (rorStep t).of_ = ((t.x.rotateRight 1).msb ^^ t.x.msb) := by
  rw [← rorStep_x, BitVec.msb_eq_getLsbD_last (rorStep t).x, ← getLsbD_shiftInRight_second two t.x (t.x.getLsbD 0)]
  rfl

theorem rclStep_of (pos : 0 < n) : (rclStep t).of_ = ((t.withCarry.rotateLeft 1).getLsbD (n - 1) ^^ t.x.msb) := by
  rw [← rclStep_withCarry pos, ShiftSt.withCarry_getLsbD_last _ pos]
  rfl

theorem rcrStep_of (two : 1 < n) : (rcrStep t).of_ = ((t.withCarry.rotateRight 1).getLsbD (n - 1) ^^ t.x.msb) := by
  have pos : 0 < n := by omega
  rw [← rcrStep_withCarry pos, ShiftSt.withCarry_getLsbD_last _ pos, BitVec.msb_eq_getLsbD_last (rcrStep t).x,
    ← getLsbD_shiftInRight_second two t.x t.cf]
  rfl

end

/-! ### Any number of steps, and what the last one leaves (R168 to R175) -/

section
variable {n : Nat} (t : ShiftSt n)

theorem rolSteps_x (k : Nat) : (shiftTimes rolStep k t).x = t.x.rotateLeft k :=
  shiftTimes_view ShiftSt.x BitVec.rotateLeft rotateLeft_zero (rotateLeft_rotateLeft · 1) rolStep_x k t

theorem rorSteps_x (k : Nat) : (shiftTimes rorStep k t).x = t.x.rotateRight k :=
  shiftTimes_view ShiftSt.x BitVec.rotateRight rotateRight_zero (rotateRight_rotateRight · 1) rorStep_x k t

theorem rclSteps_withCarry (pos : 0 < n) (k : Nat) : (shiftTimes rclStep k t).withCarry = t.withCarry.rotateLeft k :=
  shiftTimes_view ShiftSt.withCarry BitVec.rotateLeft rotateLeft_zero (rotateLeft_rotateLeft · 1) (rclStep_withCarry pos) k t

theorem rcrSteps_withCarry (pos : 0 < n) (k : Nat) : (shiftTimes rcrStep k t).withCarry = t.withCarry.rotateRight k :=
  shiftTimes_view ShiftSt.withCarry BitVec.rotateRight rotateRight_zero (rotateRight_rotateRight · 1) (rcrStep_withCarry pos) k t

theorem shlSteps_x (k : Nat) : (shiftTimes shlStep k t).x = t.x <<< k :=
  shiftTimes_view ShiftSt.x (· <<< ·) BitVec.shiftLeft_zero (fun x k => (BitVec.shiftLeft_add x 1 k).symm) (fun _ => rfl) k t

theorem shrSteps_x (k : Nat) : (shiftTimes shrStep k t).x = t.x >>> k :=
  shiftTimes_view ShiftSt.x (· >>> ·) BitVec.ushiftRight_zero (fun x k => (BitVec.shiftRight_add x 1 k).symm) (fun _ => rfl) k t

theorem sarSteps_x (k : Nat) : (shiftTimes sarStep k t).x = t.x.sshiftRight k :=
  shiftTimes_view ShiftSt.x BitVec.sshiftRight (fun _ => BitVec.sshiftRight_zero) (fun _ _ => BitVec.sshiftRight_add.symm) sarStep_x
    k t

theorem rolSteps_cf (pos : 0 < n) {k : Nat} (hk : 1 ≤ k) : (shiftTimes rolStep k t).cf = (t.x.rotateLeft k).getLsbD 0 := by
  rw [← rolSteps_x, shiftTimes_last _ hk]
  exact rolStep_cf _ pos

theorem rorSteps_cf (pos : 0 < n) {k : Nat} (hk : 1 ≤ k) : (shiftTimes rorStep k t).cf = (t.x.rotateRight k).msb := by
  rw [← rorSteps_x, shiftTimes_last _ hk]
  exact rorStep_cf _ pos

theorem shlSteps_cf (pos : 0 < n) {k : Nat} (hk : 1 ≤ k) :
    (shiftTimes shlStep k t).cf = (decide (k ≤ n) && t.x.getLsbD (n - k)) := by
  have last : (shiftTimes shlStep k t).cf = (t.x <<< (k - 1)).msb := by
    rw [← shlSteps_x, shiftTimes_last _ hk]
    rfl
  rw [last, BitVec.msb_eq_getLsbD_last, BitVec.getLsbD_shiftLeft, show n - 1 - (k - 1) = n - k by omega]
  have inside : ¬ n - 1 < k - 1 ↔ k ≤ n := by omega
  simp only [Nat.sub_lt pos Nat.one_pos, decide_true, Bool.true_and, ← decide_not, inside]

theorem shrSteps_cf {k : Nat} (hk : 1 ≤ k) : (shiftTimes shrStep k t).cf = t.x.getLsbD (k - 1) := by
  have last : (shiftTimes shrStep k t).cf = (t.x >>> (k - 1)).getLsbD 0 := by
    rw [← shrSteps_x, shiftTimes_last _ hk]
    rfl
  rw [last, BitVec.getLsbD_ushiftRight, Nat.add_zero]

theorem sarSteps_cf {k : Nat} (hk : 1 ≤ k) : (shiftTimes sarStep k t).cf = (t.x.sshiftRight (k - 1)).getLsbD 0 := by
  rw [← sarSteps_x, shiftTimes_last _ hk]
  rfl

end

end Sys2Proof.Machine

namespace Sys2Proof.Machine

/-! ### Reading, writing back, and the flags (R168) -/

/-- An operand stays stored where only flags change. -/
theorem Stored.thenFlags {w : Width} {rm : Rm} {v : Val w} {fs : List FlagName} {s t u : State} (h : Stored w rm v s t)
    (step : DataStep [] fs [] t u) (mem : u.sys.mem = t.sys.mem) : Stored w rm v s u := by
  cases rm with
  | mem m => exact mem.trans h
  | reg r =>
    obtain ⟨word, byte⟩ := step.1.regs
    cases w with
    | byte => exact (byte r (by simp)).trans h
    | word => exact (word r (by simp)).trans h

/-- An operand read, then written, then flags: the operand has the value, and nothing but it and the flags changed. -/
theorem rmWrite_thenFlags {s u : State} (q : s.Quiet) (bus : QuietBus s u) (mem : u.sys.mem = s.sys.mem) {w : Width} {rm : Rm}
    {v : Val w} {fs : List FlagName} {t : State} (step : DataStep [] fs [] (rmWrite w rm v u) t)
    (kept : t.sys.mem = (rmWrite w rm v u).sys.mem) :
    Stored w rm v s t ∧ DataStep (rmParts w rm) fs (rmSpan w rm s) s t := by
  have read := bus.dataStep mem
  obtain ⟨stored, write⟩ := rmWrite_after (read.toQuiet q) (bus.busOnly.sameOperands mem) w rm v
  refine ⟨stored.thenFlags step kept, ?_⟩
  simpa using (read.trans write).trans step

theorem shiftCount_congr {s t : State} (h : t.regs = s.regs) (c : ShiftCount) : shiftCount c t = shiftCount c s := by
  cases c with
  | one => rfl
  | cl => rw [shiftCount, h]; rfl

/-- CF and OF of a shift or rotate, OF drawn for a count above 1: nothing else changes. -/
theorem shiftFlags_dataStep (n : Nat) (cf of_ : Bool) (s : State) : DataStep [] [.cf, .of_] [] s (shiftFlags n cf of_ s) := by
  have written (d : Bool) (u : State) : DataStep [] [.cf, .of_] [] u (setFlags { u.flags with cf := cf, of_ := d } u) := by
    refine setFlags_dataStep fun n hn => ?_
    cases n with
    | cf | of_ => exact absurd (by decide) hn
    | pf | af | zf | sf | tf | if_ | df => rfl
  rw [shiftFlags]
  split
  · exact written of_ s
  · exact (drawBit_dataStep s).trans (written _ _)

theorem shiftFlags_mem (n : Nat) (cf of_ : Bool) (s : State) : (shiftFlags n cf of_ s).sys.mem = s.sys.mem := by
  rw [shiftFlags]
  split <;> rfl

theorem shiftFlags_cf (n : Nat) (cf of_ : Bool) (s : State) : (shiftFlags n cf of_ s).flags.cf = cf := by
  rw [shiftFlags]
  split <;> rfl

theorem shiftFlags_one_of (cf of_ : Bool) (s : State) : (shiftFlags 1 cf of_ s).flags.of_ = of_ := rfl

/-- What a group-2 operation does after CF and OF: some other flags are written, by the result. -/
structure ShiftTail (after : (w : Width) → Val w → State → State) (fs : List FlagName) (post : (w : Width) → Val w → Flags → Prop) :
    Prop where
  flags : ∀ w v s, post w v (after w v s).flags
  mem : ∀ w v s, (after w v s).sys.mem = s.sys.mem
  step : ∀ w v s, DataStep [] fs [] s (after w v s)
  others : FlagName.cf ∉ fs ∧ FlagName.of_ ∉ fs

theorem keepSzp_tail : ShiftTail keepSzp [] fun _ _ _ => True where
  flags _ _ _ := trivial
  mem _ _ _ := rfl
  step _ _ s := dataStep_refl s
  others := by decide

theorem shiftSzp_tail : ShiftTail shiftSzp [.sf, .zf, .af, .pf] fun _ v f => SzpOf v f where
  flags w v _ := (Flags.szp_spec w v _).1
  mem _ _ _ := rfl
  step _ _ s := by
    refine (drawBit_dataStep s).trans (setFlags_dataStep fun n hn => ?_)
    cases n with
    | sf | zf | af | pf => exact absurd (by decide) hn
    | cf | of_ | tf | if_ | df => rfl
  others := by decide

/-! ### Group 2 (R168) -/

/-- The operand, CF and OF that a shift or rotate begins with. -/
def shiftStart (w : Width) (rm : Rm) (s : State) : ShiftSt w.bits := ⟨rmVal w rm s, s.flags.cf, s.flags.of_⟩

/-- The operand is read; a count other than 0 is that many steps, written back before the flags. -/
theorem shiftRm_eq {s : State} (q : s.Quiet) (step : ShiftOp) (after : (w : Width) → Val w → State → State) (w : Width)
    (c : ShiftCount) (rm : Rm) :
    ∃ u, QuietBus s u ∧ u.sys.mem = s.sys.mem ∧ shiftRm step after w c rm s =
      if shiftCount c s = 0 then u
      else
        let r := shiftTimes (step w.bits) (shiftCount c s) (shiftStart w rm s)
        after w r.x (shiftFlags (shiftCount c s) r.cf r.of_ (rmWrite w rm r.x u)) := by
  obtain ⟨u, read, bus, mem⟩ := rmRead_eq q w rm
  refine ⟨u, bus, mem, ?_⟩
  simp only [shiftRm, read, shiftCount_congr bus.regs, bus.flags, shiftStart]

theorem shiftRm_zero {s : State} (q : s.Quiet) (step : ShiftOp) (after : (w : Width) → Val w → State → State) (w : Width)
    {c : ShiftCount} (zero : shiftCount c s = 0) (rm : Rm) : DataStep [] [] [] s (shiftRm step after w c rm s) := by
  obtain ⟨u, bus, mem, run⟩ := shiftRm_eq q step after w c rm
  rw [run, if_pos zero]
  exact bus.dataStep mem

/-- A shift or rotate by a count that is not 0, from what its steps give. -/
theorem ShiftTail.completes {after : (w : Width) → Val w → State → State} {fs : List FlagName}
    {post : (w : Width) → Val w → Flags → Prop} (tail : ShiftTail after fs post) {s : State} (q : s.Quiet) {step : ShiftOp}
    {w : Width} {c : ShiftCount} {rm : Rm} (pos : 1 ≤ shiftCount c s) {r : Val w} {cf of1 : Bool}
    (result : (shiftTimes (step w.bits) (shiftCount c s) (shiftStart w rm s)).x = r)
    (carry : (shiftTimes (step w.bits) (shiftCount c s) (shiftStart w rm s)).cf = cf)
    (overflow : (step w.bits (shiftStart w rm s)).of_ = of1) :
    let t := shiftRm step after w c rm s
    Stored w rm r s t ∧ t.flags.cf = cf ∧ post w r t.flags ∧ (shiftCount c s = 1 → t.flags.of_ = of1) ∧
      DataStep (rmParts w rm) ([.cf, .of_] ++ fs) (rmSpan w rm s) s t := by
  obtain ⟨u, bus, mem, run⟩ := shiftRm_eq q step after w c rm
  rw [if_neg (by omega)] at run
  obtain ⟨cfKept, ofKept⟩ := tail.others
  simp only [run, result, carry]
  have flags := tail.step w r
    (shiftFlags (shiftCount c s) cf (shiftTimes (step w.bits) (shiftCount c s) (shiftStart w rm s)).of_ (rmWrite w rm r u))
  obtain ⟨stored, frame⟩ := rmWrite_thenFlags q bus mem ((shiftFlags_dataStep _ _ _ _).trans flags)
    ((tail.mem _ _ _).trans (shiftFlags_mem _ _ _ _))
  refine ⟨stored, (flags.1.flags .cf cfKept).trans (shiftFlags_cf _ _ _ _), tail.flags _ _ _, fun one => ?_, frame⟩
  refine (flags.1.flags .of_ ofKept).trans ?_
  rw [one]
  exact (shiftFlags_one_of _ _ _).trans overflow

theorem one_lt_bits (w : Width) : 1 < w.bits := by cases w <;> decide

theorem bits_pos (w : Width) : 0 < w.bits := Nat.zero_lt_of_lt (one_lt_bits w)

/-- Settles O27: each step rotates by one place. -/
theorem rotateCompletes : Obligations.RotateCompletes := by
  unfold Obligations.RotateCompletes
  intro s w c rm q n x pos frame
  obtain ⟨rolStored, rolCf, -, rolOf, rolFrame⟩ := keepSzp_tail.completes q (rm := rm) pos (rolSteps_x _ _)
    (rolSteps_cf _ (bits_pos w) pos) (rolStep_of _)
  obtain ⟨rorStored, rorCf, -, rorOf, rorFrame⟩ := keepSzp_tail.completes q (rm := rm) pos (rorSteps_x _ _)
    (rorSteps_cf _ (bits_pos w) pos) (rorStep_of _ (one_lt_bits w))
  exact ⟨⟨_, rfl, rolStored, rolCf, rolOf, rolFrame⟩, ⟨_, rfl, rorStored, rorCf, rorOf, rorFrame⟩⟩

/-- Settles O28: each step rotates the operand with CF above it by one place. -/
theorem rotateThroughCarry : Obligations.RotateThroughCarry := by
  unfold Obligations.RotateThroughCarry
  intro s w c rm q n x pos y rotated
  have rotates {step : ShiftOp} (rotate : BitVec (w.bits + 1) → Nat → BitVec (w.bits + 1))
      (many : (shiftTimes (step w.bits) n (shiftStart w rm s)).withCarry = rotate y n)
      (overflow : (step w.bits (shiftStart w rm s)).of_ = ((rotate y 1).getLsbD (w.bits - 1) ^^ x.msb)) :
      rotated (rotate y n) (shiftRm step keepSzp w c rm s) := by
    obtain ⟨stored, cf, -, of_, frame⟩ := keepSzp_tail.completes q (step := step) (rm := rm) pos
      ((ShiftSt.withCarry_truncate _).symm.trans (congrArg _ many)) ((ShiftSt.withCarry_msb _).symm.trans (congrArg _ many)) overflow
    exact ⟨stored, cf, fun one => by rw [one]; exact of_ one, frame⟩
  exact ⟨⟨_, rfl, rotates BitVec.rotateLeft (rclSteps_withCarry _ (bits_pos w) n) (rclStep_of _ (bits_pos w))⟩,
    ⟨_, rfl, rotates BitVec.rotateRight (rcrSteps_withCarry _ (bits_pos w) n) (rcrStep_of _ (one_lt_bits w))⟩⟩

/-- Settles O29: each step shifts by one place, and CF is the bit the last step lets out. -/
theorem shiftCompletes : Obligations.ShiftCompletes := by
  unfold Obligations.ShiftCompletes
  intro s w c rm q n x pos shifted
  have shifts {step : ShiftOp} {r : Val w} {cf of1 : Bool} (result : (shiftTimes (step w.bits) n (shiftStart w rm s)).x = r)
      (carry : (shiftTimes (step w.bits) n (shiftStart w rm s)).cf = cf) (overflow : (step w.bits (shiftStart w rm s)).of_ = of1) :
      shifted r cf of1 (shiftRm step shiftSzp w c rm s) := by
    obtain ⟨stored, cf, szp, of_, frame⟩ := shiftSzp_tail.completes q (rm := rm) pos result carry overflow
    exact ⟨stored, cf, szp, of_, frame.mono (List.Subset.refl _) (by simp) (List.Subset.refl _)⟩
  exact ⟨⟨_, rfl, shifts (shlSteps_x _ n) (shlSteps_cf _ (bits_pos w) pos) (Bool.xor_comm _ _)⟩,
    ⟨_, rfl, shifts (shrSteps_x _ n) (shrSteps_cf _ pos) rfl⟩, ⟨_, rfl, shifts (sarSteps_x _ n) (sarSteps_cf _ pos) rfl⟩⟩

/-! ### SETMO (R176) -/

/-- The flags of SETMO (R176): SZP of the value with every bit set, and CF, OF and AF 0. -/
def setmoFlags (w : Width) (f : Flags) : Flags :=
  Flags.szp (BitVec.allOnes w.bits) { f with cf := false, of_ := false, af := false }

theorem setmoFlags_szp (w : Width) (f : Flags) :
    (setmoFlags w f).sf = true ∧ (setmoFlags w f).zf = false ∧ (setmoFlags w f).pf = true := by
  cases w with
  | byte | word => exact ⟨rfl, rfl, rfl⟩

/-- SETMO reads its operand; a count other than 0 sets its every bit and writes the flags. -/
theorem exec_setmo {s : State} (q : s.Quiet) (w : Width) (c : ShiftCount) (rm : Rm) :
    ∃ u, QuietBus s u ∧ u.sys.mem = s.sys.mem ∧ exec (.setmo w c rm) s = .next (
      if shiftCount c s = 0 then u
      else
        let t := rmWrite w rm (BitVec.allOnes w.bits) u
        setFlags (setmoFlags w t.flags) t) := by
  obtain ⟨u, read, bus, mem⟩ := rmRead_eq q w rm
  refine ⟨u, bus, mem, ?_⟩
  simp only [exec, execSetmo, read, shiftCount_congr bus.regs]
  split <;> rfl

/-- Settles O30: a count of 0 is the read alone, and SETMO is a write of the operand, then of the flags. -/
theorem zeroCountsAndSetmo : Obligations.ZeroCountsAndSetmo := by
  unfold Obligations.ZeroCountsAndSetmo
  intro s w rm q
  refine ⟨fun cl => ?_, fun c pos => ?_⟩
  · have zero : shiftCount .cl s = 0 := by rw [shiftCount, cl]; rfl
    have shift (step : ShiftOp) (after : (w : Width) → Val w → State → State) :
        DataStep [] [] [] s (shiftRm step after w .cl rm s) := shiftRm_zero q step after w zero rm
    have setmo : ∃ t, exec (.setmo w .cl rm) s = .next t ∧ DataStep [] [] [] s t := by
      obtain ⟨u, bus, mem, run⟩ := exec_setmo q w .cl rm
      exact ⟨u, by rw [run, if_pos zero], bus.dataStep mem⟩
    simp only [List.forall_mem_cons]
    exact ⟨⟨_, rfl, shift _ _⟩, ⟨_, rfl, shift _ _⟩, ⟨_, rfl, shift _ _⟩, ⟨_, rfl, shift _ _⟩, ⟨_, rfl, shift _ _⟩,
      ⟨_, rfl, shift _ _⟩, setmo, ⟨_, rfl, shift _ _⟩, by simp⟩
  · obtain ⟨u, bus, mem, run⟩ := exec_setmo q w c rm
    rw [if_neg (by omega)] at run
    have flags (t : State) : DataStep [] statusFlags [] t (setFlags (setmoFlags w t.flags) t) := setFlags_status rfl rfl rfl
    obtain ⟨stored, frame⟩ := rmWrite_thenFlags q bus mem (flags (rmWrite w rm (BitVec.allOnes w.bits) u)) rfl
    obtain ⟨sf, zf, pf⟩ := setmoFlags_szp w (rmWrite w rm (BitVec.allOnes w.bits) u).flags
    exact ⟨_, run, stored, rfl, rfl, rfl, sf, zf, pf, frame⟩

end Sys2Proof.Machine

namespace Sys2Proof.Machine

/-! ### What an iteration computes (R177 to R182) -/

/-- A string instruction without a REP prefix is its primitive (R183). -/
theorem exec_stringOf {s : State} (h : repPrefixed s = false) (w : Width) :
    exec (movsOf w) s = .next (movsOnce w s) ∧ exec (cmpsOf w) s = .next (cmpsOnce w s) ∧ exec (scasOf w) s = .next (scasOnce w s) ∧
      exec (lodsOf w) s = .next (lodsOnce w s) ∧ exec (stosOf w) s = .next (stosOnce w s) := by
  have once (i : Instr) (c : Bool) (f : State → State) := execString_unprefixed h i c f
  cases w with
  | byte => exact ⟨once .., once .., once .., once .., once ..⟩
  | word => exact ⟨once .., once .., once .., once .., once ..⟩

/-- Adding `delta` is the step to the next element, by the DF from before the iteration (R177). -/
theorem add_stringDelta {s u : State} (df : u.flags.df = s.flags.df) (w : Width) (p : Word) :
    p + stringDelta w u = nextElement w s p := by
  unfold stringDelta nextElement
  rw [df]
  cases w with
  | byte => cases s.flags.df <;> simp [BitVec.sub_eq_add_neg]
  | word => cases s.flags.df <;> simp [BitVec.sub_eq_add_neg]

/-- SI steps from where it stood before the accesses of the iteration, by the DF from then (R177). -/
theorem stepSi_si {s u : State} (si : u.regs.si = s.regs.si) (df : u.flags.df = s.flags.df) (w : Width) :
    (stepSi w u).regs.si = nextElement w s s.regs.si :=
  si ▸ add_stringDelta df w u.regs.si

theorem stepDi_di {s u : State} (di : u.regs.di = s.regs.di) (df : u.flags.df = s.flags.df) (w : Width) :
    (stepDi w u).regs.di = nextElement w s s.regs.di :=
  di ▸ add_stringDelta df w u.regs.di

/-- A read after a first read: the first one uses free values and stores nothing (R48). -/
theorem heldVal_segRead {s : State} (q : s.Quiet) (w : Width) (seg1 off1 seg off : Word) :
    heldVal w seg off (segRead w seg1 off1 s).2 = heldNext w seg1 off1 seg off s := by
  rw [heldVal, segRead_sys q, (segRead_quiet q w seg1 off1).2.2.cfg]
  rfl

/-- MOVS copies the element at SI to ES:DI (R178). -/
theorem movsOnce_copies {s : State} (q : s.Quiet) (w : Width) :
    let t := movsOnce w s
    t.sys.mem = storeVal s.cfg w s.sregs.es s.regs.di (heldVal w (segOf .ds s) s.regs.si s) s.sys.mem ∧
      t.regs.si = nextElement w s s.regs.si ∧ t.regs.di = nextElement w s s.regs.di := by
  obtain ⟨val, mem, read⟩ := segRead_quiet q w (segOf .ds s) s.regs.si
  unfold movsOnce
  generalize segRead w (segOf .ds s) s.regs.si s = v at val mem read ⊢
  obtain ⟨stored, write⟩ := segWrite_quiet (read.quiet q) w v.2.sregs.es v.2.regs.di v.1
  have bus := read.trans write
  refine ⟨(congrArg Sys.mem stored).trans ?_, stepSi_si (congrArg Regs.si bus.regs) (congrArg Flags.df bus.flags) w,
    stepDi_di (congrArg Regs.di bus.regs) (congrArg Flags.df bus.flags) w⟩
  simp only [val, mem, read.cfg, read.sregs, read.regs]

/-- CMPS subtracts the element at ES:DI from the one at SI, for the flags alone (R179). -/
theorem cmpsOnce_compares {s : State} (q : s.Quiet) (w : Width) :
    let t := cmpsOnce w s
    SubFlags (heldVal w (segOf .ds s) s.regs.si s) (heldNext w (segOf .ds s) s.regs.si s.sregs.es s.regs.di s) false t.flags ∧
      t.regs.si = nextElement w s s.regs.si ∧ t.regs.di = nextElement w s s.regs.di := by
  obtain ⟨val, -, first⟩ := segRead_quiet q w (segOf .ds s) s.regs.si
  have next := heldVal_segRead q w (segOf .ds s) s.regs.si s.sregs.es s.regs.di
  unfold cmpsOnce
  generalize segRead w (segOf .ds s) s.regs.si s = a at val first next ⊢
  obtain ⟨val', -, second⟩ := segRead_quiet (first.quiet q) w a.2.sregs.es a.2.regs.di
  have bus := first.trans second
  rw [first.sregs, first.regs, next] at val'
  refine ⟨?_, stepSi_si (congrArg Regs.si bus.regs) (congrArg Flags.df bus.flags) w,
    stepDi_di (congrArg Regs.di bus.regs) (congrArg Flags.df bus.flags) w⟩
  rw [← val, ← val', ← first.sregs, ← first.regs]
  exact Flags.sub_flags w _ _ false _

/-- SCAS subtracts the element at ES:DI from the accumulator, for the flags alone (R180). -/
theorem scasOnce_compares {s : State} (q : s.Quiet) (w : Width) :
    let t := scasOnce w s
    SubFlags (getReg w .r0 s) (heldVal w s.sregs.es s.regs.di s) false t.flags ∧ t.regs.di = nextElement w s s.regs.di := by
  obtain ⟨val, -, bus⟩ := segRead_quiet q w s.sregs.es s.regs.di
  have acc : getReg w .r0 (segRead w s.sregs.es s.regs.di s).2 = getReg w .r0 s := congrArg (Regs.getW w .r0) bus.regs
  refine ⟨?_, stepDi_di (congrArg Regs.di bus.regs) (congrArg Flags.df bus.flags) w⟩
  rw [← val, ← acc]
  exact Flags.sub_flags w _ _ false _

/-- LODS loads the accumulator; that write does not reach SI (R181). -/
theorem lodsOnce_loads {s : State} (q : s.Quiet) (w : Width) :
    let t := lodsOnce w s
    getReg w .r0 t = heldVal w (segOf .ds s) s.regs.si s ∧ t.regs.si = nextElement w s s.regs.si := by
  obtain ⟨val, -, bus⟩ := segRead_quiet q w (segOf .ds s) s.regs.si
  have acc (v : Val w) (u : State) : getReg w .r0 (stepSi w (setReg w .r0 v u)) = v ∧ (setReg w .r0 v u).regs.si = u.regs.si := by
    cases w with
    | byte => exact ⟨getReg_setReg .byte .r0 v u, rfl⟩
    | word => exact ⟨getReg_setReg .word .r0 v u, rfl⟩
  exact ⟨(acc _ _).1.trans val, stepSi_si ((acc _ _).2.trans (congrArg Regs.si bus.regs)) (congrArg Flags.df bus.flags) w⟩

/-- STOS stores the accumulator at ES:DI (R182). -/
theorem stosOnce_stores {s : State} (q : s.Quiet) (w : Width) :
    let t := stosOnce w s
    t.sys.mem = storeVal s.cfg w s.sregs.es s.regs.di (getReg w .r0 s) s.sys.mem ∧ t.regs.di = nextElement w s s.regs.di := by
  obtain ⟨stored, bus⟩ := segWrite_quiet q w s.sregs.es s.regs.di (getReg w .r0 s)
  exact ⟨congrArg Sys.mem stored, stepDi_di (congrArg Regs.di bus.regs) (congrArg Flags.df bus.flags) w⟩

/-- Settles O31: each instruction is its primitive, which does what its lemma says in the frame of its `dataStep`. -/
theorem stringPrimitives : Obligations.StringPrimitives := by
  unfold Obligations.StringPrimitives
  intro s w q unprefixed
  obtain ⟨movs, cmps, scas, lods, stos⟩ := exec_stringOf unprefixed w
  obtain ⟨copied, movsSi, movsDi⟩ := movsOnce_copies q w
  obtain ⟨compared, cmpsSi, cmpsDi⟩ := cmpsOnce_compares q w
  obtain ⟨scanned, scasDi⟩ := scasOnce_compares q w
  obtain ⟨loaded, lodsSi⟩ := lodsOnce_loads q w
  obtain ⟨stored, stosDi⟩ := stosOnce_stores q w
  exact ⟨⟨_, movs, copied, movsSi, movsDi, movsOnce_dataStep q w⟩, ⟨_, cmps, compared, cmpsSi, cmpsDi, cmpsOnce_dataStep q w⟩,
    ⟨_, scas, scanned, scasDi, scasOnce_dataStep q w⟩, ⟨_, lods, loaded, lodsSi, lodsOnce_dataStep q w⟩,
    ⟨_, stos, stored, stosDi, stosOnce_dataStep q w⟩⟩

/-! ### An interrupted repetition (R185) -/

/-- Where something is pending, a repetition ends with the entry of that interrupt (R185). -/
theorem betweenIterations_pending {s : State} (q : s.Quiet) (pending : s.eu.nmiLatch = true ∨ intrPending s = true) :
    betweenIterations s = takeInterrupt (repResume s) (setPhase .start (clearRep s)) := by
  rw [betweenIterations, busGap_quiet q]
  exact if_pos (by rwa [Bool.or_eq_true])

/-- What an iteration leaves for an interrupt entry that follows it: the return offset, the frame's place, the PIC and the call stack. -/
structure EntryKept (s t : State) : Prop where
  resume : repResume t = repResume s
  overlap : ∀ n, frameOverlapsVector n t = frameOverlapsVector n s
  pic : t.sys.pic = s.sys.pic
  callStack : t.host.callStack = s.host.callStack

/-- An iteration and its count reach neither SP, nor IP, nor the segment registers. -/
theorem StringPrimitive.counted_entryKept {once : State → State} (p : StringPrimitive once) {s : State} (q : s.Quiet) :
    EntryKept s (counted once s) := by
  obtain ⟨w, as, step⟩ := p.dataStep q
  have counting : DataStep _ _ _ s (counted once s) := step.trans (setReg_dataStep .word .r1 ((once s).regs.cx - 1) (once s))
  obtain ⟨frame, units, falls⟩ := counting
  have sp : (counted once s).regs.sp = s.regs.sp := frame.regs.1 .r4 (by cases w <;> decide)
  refine ⟨?_, fun n => ?_, frame.pic, units.callStack⟩
  · rw [repResume, repResume, falls.ip, units.eu, frame.cfg]
  · rw [frameOverlapsVector, frameOverlapsVector, sp, units.sregs]

/-- Settles O33: an iteration that does not end the repetition is followed by the entry, which finds the state as after the primitive,
CX counted. -/
theorem repInterrupted : Obligations.RepInterrupted := by
  unfold Obligations.RepInterrupted
  intro s i q string prefixed cx last
  obtain ⟨once, p, run⟩ := exec_string string
  refine ⟨_, (run _).trans (execString_unprefixed rfl i _ once), ?_⟩
  intro goesOn ret after
  obtain ⟨same, eu, lines⟩ := p.counted_beginRep q i (isCompare i)
  obtain ⟨resume, overlap, pic, callStack⟩ := p.counted_entryKept (s := beginRep i (isCompare i) s) q
  have notDone : ¬ RepEnds (isCompare i) once (beginRep i (isCompare i) s) := fun ends =>
    ((repEnds_beginRep p q i (isCompare i)).mp ends).elim last goesOn
  have rep := ((run s).trans (execString_iterates prefixed cx i (isCompare i) once)).trans (repIterate_goes_on notDone)
  obtain ⟨_, _, ⟨-, units, -⟩⟩ := p.dataStep (s := withoutRep s) q
  generalize counted once (beginRep i (isCompare i) s) = t at *
  have entered {n : Byte} {e : State} (h : Entered n (repResume t) (setPhase .start (clearRep t)) e) : Entered n ret after e := by
    rw [resume] at h
    exact h.congr same.regs same.sregs same.flags (congrArg Sys.mem same.sys) same.cfg (callStack.trans units.callStack.symm)
      (congrArg Sys.dma same.sys) (congrArg Sys.crtc same.sys) (congrArg Sys.fdc same.sys)
  have latch : t.eu.nmiLatch = s.eu.nmiLatch := by rw [eu]; rfl
  have quiet : (setPhase .start (clearRep t)).Quiet := same.quiet.2
  have entry (pending : t.eu.nmiLatch = true ∨ intrPending t = true) :
      exec i s = takeInterrupt (repResume t) (setPhase .start (clearRep t)) :=
    rep.trans (betweenIterations_pending same.quiet.2 pending)
  refine ⟨fun nmi apart => ?_, fun nmi intr v answered answer apart => ?_⟩
  · rw [← latch] at nmi
    obtain ⟨e, taken, into, kept, -, eu'⟩ := takeInterrupt_nmi quiet (repResume t) nmi ((overlap 2).trans apart)
    exact ⟨e, (entry (.inl nmi)).trans taken, entered into, by rw [eu'], by rw [eu']; rfl, kept.trans pic⟩
  · rw [← latch] at nmi
    obtain ⟨e, taken, into, acknowledged, -, eu'⟩ :=
      takeInterrupt_intr quiet (repResume t) nmi ((congrArg Pic.inta pic).trans answer) ((overlap v).trans apart)
    exact ⟨e, (entry (.inr (lines.trans intr))).trans taken, entered into, by rw [eu']; rfl, acknowledged⟩

end Sys2Proof.Machine

namespace Sys2Proof.Machine

/-! ### A transfer of control under way (R10, R66, R67) -/

/-- The stack in the course of a transfer: SP, memory, and the bytes written so far. -/
structure StackView where
  sp : Word
  mem : Memory
  written : List Phys

/-- The stack before the transfer. -/
def State.stackView (s : State) : StackView := ⟨s.regs.sp, s.sys.mem, []⟩

/-- The stack of `s` after one more push (R10). -/
def StackView.push (s : State) (v : Word) (k : StackView) : StackView where
  sp := k.sp - 2
  mem := storeVal s.cfg .word s.sregs.ss (k.sp - 2) v k.mem
  written := k.written ++ span .word s.sregs.ss (k.sp - 2)

/-- The stack after `n` bytes are released. -/
def StackView.release (n : Word) (k : StackView) : StackView := { k with sp := k.sp + n }

/-- A transfer begun in `s` has reached `t` with no other agent stepping: the stack is as the view says; the rest that a frame names, and
the CPU's other units, are as they were. -/
structure Underway (k : StackView) (s t : State) : Prop where
  quiet : t.Quiet
  sp : t.regs.sp = k.sp
  mem : t.sys.mem = k.mem
  frame : Frame [.word .r4] [] k.written s t
  units : UnitsKept s t

/-- A transfer begun in `s` has ended in `t` at an offset, with the segment registers and the call stack it leaves. -/
abbrev Arrived (target : Word) (sregs : SRegs) (calls : List CallKind) (k : StackView) (s t : State) : Prop :=
  JumpedTo target t ∧ t.regs.sp = k.sp ∧ t.sys.mem = k.mem ∧ t.sregs = sregs ∧ t.eu = s.eu ∧ t.host.callStack = calls ∧
    Frame [.word .r4] [] k.written s t

/-- A step that changes nothing a frame names leaves the frame. -/
theorem Frame.thenKept {rs : List RegPart} {fs : List FlagName} {as : List Phys} {s t u : State} (h : Frame rs fs as s t)
    (k : Frame [] [] [] t u) : Frame rs fs as s u := by
  simpa only [List.append_nil] using h.trans k

/-- A step that moves SP and writes more bytes. -/
theorem Frame.thenStack {as bs : List Phys} {s t u : State} (h : Frame [.word .r4] [] as s t) (k : Frame [.word .r4] [] bs t u) :
    Frame [.word .r4] [] (as ++ bs) s u :=
  (h.trans k).mono (by simp) (by simp) (List.Subset.refl _)

/-- Suspending fetch is the first step of a transfer (R67). -/
theorem underway_suspendFetch {s : State} (q : s.Quiet) : Underway s.stackView s (suspendFetch s) where
  quiet := suspendFetch_isQuiet q
  sp := by rw [suspendFetch_regs]; rfl
  mem := by rw [suspendFetch_sys_quiet q.2]; rfl
  frame := ((suspendFetch_fetchOnly s).frame fun _ => suspendFetch_planned s).1.mono (List.nil_subset _) (List.Subset.refl _)
    (List.Subset.refl _)
  units := ((suspendFetch_fetchOnly s).frame fun _ => suspendFetch_planned s).2

section
variable {k : StackView} {s t u : State} (h : Underway k s t)
include h

/-- A read of the bus leaves the stack. -/
theorem Underway.read (bus : QuietBus t u) (mem : u.sys.mem = t.sys.mem) : Underway k s u where
  quiet := bus.quiet h.quiet
  sp := by rw [bus.regs, h.sp]
  mem := mem.trans h.mem
  frame := h.frame.thenKept (bus.dataStep mem).1
  units := h.units.trans (bus.dataStep mem).2.1

theorem Underway.push (v : Word) : Underway (k.push s v) s (push v t) := by
  obtain ⟨sp, mem, step⟩ := push_spec h.quiet v
  rw [h.sp] at sp
  rw [h.frame.cfg, h.units.sregs, h.sp, h.mem] at mem
  have written : pushSpan t = span .word s.sregs.ss (k.sp - 2) := by rw [pushSpan, h.units.sregs, h.sp]
  rw [written] at step
  exact ⟨push_quiet h.quiet v, sp, mem, h.frame.thenStack step.1, h.units.trans step.2.1⟩

theorem Underway.pop : Underway (k.release 2) s (pop t).2 := by
  obtain ⟨-, sp, mem, step⟩ := pop_spec h.quiet
  rw [h.sp] at sp
  exact ⟨pop_quiet h.quiet, sp, mem.trans h.mem, (List.append_nil k.written) ▸ h.frame.thenStack step.1, h.units.trans step.2.1⟩

theorem Underway.release (n : Word) : Underway (k.release n) s (setSp (t.regs.sp + n) t) := by
  have step : DataStep [.word .r4] [] [] t (setSp (t.regs.sp + n) t) := setReg_dataStep .word .r4 _ t
  exact ⟨h.quiet, congrArg (· + n) h.sp, h.mem, (List.append_nil k.written) ▸ h.frame.thenStack step.1, h.units.trans step.2.1⟩

/-- A transfer within the code segment ends (R11). -/
theorem Underway.setIp (target : Word) : Arrived target s.sregs s.host.callStack k s (setIp target t) := by
  obtain ⟨jumped, frame, units⟩ := setIp_spec target t
  refine ⟨jumped, ?_, ?_, units.sregs.trans h.units.sregs, units.eu.trans h.units.eu, units.callStack.trans h.units.callStack, ?_⟩
  · rw [setIp_regs, h.sp]
  · rw [setIp_sys_quiet _ h.quiet.2, h.mem]
  · exact h.frame.thenKept frame

/-- A transfer to another code segment ends (R11). -/
theorem Underway.setCsIp (seg off : Word) : Arrived off { s.sregs with cs := seg } s.host.callStack k s (setCsIp seg off t) := by
  obtain ⟨jumped, frame, sregs, eu, host⟩ := setCsIp_spec seg off t
  refine ⟨jumped, ?_, ?_, ?_, eu.trans h.units.eu, (congrArg HostView.callStack host).trans h.units.callStack, ?_⟩
  · rw [setCsIp_regs, h.sp]
  · rw [setCsIp_sys_quiet _ _ h.quiet.2, h.mem]
  · rw [sregs, h.units.sregs]
  · exact h.frame.thenKept frame

end

/-- No frame names the host's call stack. -/
theorem callStack_frame (calls : List CallKind) (s : State) : Frame [] [] [] s { s with host := { s.host with callStack := calls } } :=
  ⟨RegsKept.of_eq rfl, FlagsKept.of_eq rfl, MemKept.of_eq rfl, rfl, rfl, rfl, rfl, rfl, rfl, rfl, rfl, ⟨rfl, id⟩⟩

section
variable {target : Word} {sregs : SRegs} {calls : List CallKind} {k : StackView} {s t : State} (h : Arrived target sregs calls k s t)
include h

/-- The host records a call (R341). -/
theorem Arrived.pushCall (c : CallKind) : Arrived target sregs ((c :: calls).take 128) k s (pushCall c t) := by
  obtain ⟨jumped, sp, mem, segs, eu, stack, frame⟩ := h
  exact ⟨jumped, sp, mem, segs, eu, congrArg (fun l => (c :: l).take 128) stack, frame.thenKept (callStack_frame _ t)⟩

/-- The host drops the call returned from (R341). -/
theorem Arrived.popCall : Arrived target sregs calls.tail k s (popCall t) := by
  obtain ⟨jumped, sp, mem, segs, eu, stack, frame⟩ := h
  exact ⟨jumped, sp, mem, segs, eu, congrArg List.tail stack, frame.thenKept (callStack_frame _ t)⟩

end

end Sys2Proof.Machine

namespace Sys2Proof.Machine

/-! ### Calls (R192 to R195) -/

/-- A far pointer is read: the offset held at EA, then the segment held at EA + 2 (R45). -/
theorem readFar_quiet {s : State} (q : s.Quiet) (m : MemOp) :
    (readFar m s).1 = heldVal .word (memSeg m s) (ea m s) s ∧
      (readFar m s).2.1 = heldNext .word (memSeg m s) (ea m s) (memSeg m s) (ea m s + 2) s ∧
      (readFar m s).2.2.sys.mem = s.sys.mem ∧ QuietBus s (readFar m s).2.2 := by
  obtain ⟨off, mem, bus⟩ := segRead_quiet q .word (memSeg m s) (ea m s)
  obtain ⟨seg, mem', bus'⟩ := segRead_quiet (bus.quiet q) .word (memSeg m s) (ea m s + 2)
  refine ⟨off, seg.trans ?_, mem'.trans mem, bus.trans bus'⟩
  rw [heldVal, bus.cfg, segRead_sys q]
  rfl

/-- An operand read once fetching is suspended is the operand before (R67). -/
theorem rmVal_suspendFetch {s : State} (q : s.Quiet) (rm : Rm) : rmVal .word rm (suspendFetch s) = rmVal .word rm s := by
  rw [suspendFetch_quiet q.2]
  rfl

/-- A near call from a state in which its target has been read (R192, R194). -/
theorem Underway.call {s t : State} (h : Underway s.stackView s t) (target ret : Word) :
    Arrived target s.sregs ((.call :: s.host.callStack).take 128) (s.stackView.push s ret) s
      (Machine.pushCall .call (Machine.setIp target (Machine.push ret t))) :=
  ((h.push ret).setIp target).pushCall .call

/-- A far call from a state in which its target has been read (R193, R195). -/
theorem Underway.farCall {s t : State} (h : Underway s.stackView s t) (seg off ret : Word) :
    Arrived off { s.sregs with cs := seg } ((.callFar :: s.host.callStack).take 128)
      ((s.stackView.push s s.sregs.cs).push s ret) s (farCall seg off ret t) := by
  rw [Machine.farCall, h.units.sregs]
  exact (((h.push s.sregs.cs).push ret).setCsIp seg off).pushCall .callFar

/-- Settles O36: a call suspends fetching, reads its target, pushes, and transfers. -/
theorem calls : Obligations.Calls := by
  unfold Obligations.Calls
  intro s q near far
  have begun := underway_suspendFetch q
  have farCalled {t : State} (h : Underway s.stackView s t) (seg off : Word) (i : Instr)
      (run : exec i s = .next (farCall seg off (ip s) t)) : far off seg i := by
    have second : s.regs.sp - 2 - 2 = s.regs.sp - 4 := BitVec.sub_sub ..
    have arrived := h.farCall seg off (ip s)
    simp only [State.stackView, StackView.push, second, List.nil_append] at arrived
    refine ⟨_, run, ?_⟩
    simp only [pushAll, second]
    exact arrived
  refine ⟨fun rel => ⟨_, rfl, begun.call _ _⟩, fun rm => ?_, fun off seg => farCalled begun seg off _ rfl, fun m => ?_⟩
  · obtain ⟨val, mem, bus⟩ := rmRead_quiet begun.quiet .word rm
    rw [rmVal_suspendFetch q] at val
    exact ⟨_, rfl, val ▸ (begun.read bus mem).call _ _⟩
  · obtain ⟨off, seg, mem, bus⟩ := readFar_quiet begun.quiet m
    have run := farCalled (begun.read bus mem) (readFar m (suspendFetch s)).2.1 (readFar m (suspendFetch s)).1 (.callMem m) rfl
    rw [off, seg, suspendFetch_quiet q.2] at run
    exact run

end Sys2Proof.Machine

namespace Sys2Proof.Machine

/-! ### Returns (R196 to R199, R208) -/

/-- The words on the stack are the word a pop gives, and those on the stack after it (R10). -/
theorem stackWords_succ {s : State} (q : s.Quiet) (n : Nat) : stackWords (n + 1) s = (pop s).1 :: stackWords n (pop s).2 := by
  obtain ⟨val, sp, -⟩ := pop_spec q
  obtain ⟨sregs, -, cfg, -⟩ := pop_busOnly_regs s
  rw [val, stackWords, stackWords, sp, sregs, cfg, pop_sys q]
  rfl

theorem stackWords_zero (s : State) : stackWords 0 s = [] := rfl

theorem stackWords_suspendFetch {s : State} (q : s.Quiet) (n : Nat) : stackWords n (suspendFetch s) = stackWords n s := by
  rw [suspendFetch_quiet q.2]
  rfl

/-- A near return (R196, R197). -/
theorem retNear_returns {s : State} (q : s.Quiet) (n : Word) :
    ∃ target, stackWords 1 s = [target] ∧
      Arrived target s.sregs s.host.callStack.tail ((s.stackView.release 2).release n) s (retNear n s) := by
  have begun := underway_suspendFetch q
  refine ⟨(pop (suspendFetch s)).1, ?_, ((begun.pop.release n).setIp _).popCall⟩
  rw [← stackWords_suspendFetch q, stackWords_succ begun.quiet, stackWords_zero]

/-- A far return (R198, R199). -/
theorem retFar_returns {s : State} (q : s.Quiet) (n : Word) :
    ∃ off seg, stackWords 2 s = [off, seg] ∧ Arrived off { s.sregs with cs := seg } s.host.callStack.tail
      (((s.stackView.release 2).release 2).release n) s (retFar n s) := by
  have begun := underway_suspendFetch q
  refine ⟨(pop (suspendFetch s)).1, (pop (pop (suspendFetch s)).2).1, ?_, ((begun.pop.pop.release n).setCsIp _ _).popCall⟩
  rw [← stackWords_suspendFetch q, stackWords_succ begun.quiet, stackWords_succ begun.pop.quiet, stackWords_zero]

/-- Settles O37: a return suspends fetching, pops its target, releases the bytes, and transfers. -/
theorem returns : Obligations.Returns := by
  unfold Obligations.Returns
  intro s alt q near far
  have nearReturned (n : Word) (i : Instr) (run : exec i s = .next (retNear n s)) : near n i := by
    obtain ⟨target, words, ⟨rfl, queue, idle, -⟩, sp, -, sregs, eu, stack, frame⟩ := retNear_returns q n
    exact ⟨_, run, words, queue, idle, sp, sregs, eu, stack, frame⟩
  have farReturned (n : Word) (i : Instr) (run : exec i s = .next (retFar n s)) : far n i := by
    obtain ⟨off, seg, words, ⟨rfl, queue, idle, -⟩, sp, -, sregs, eu, stack, frame⟩ := retFar_returns q n
    obtain rfl : (retFar n s).sregs.cs = seg := congrArg SRegs.cs sregs
    have past : s.regs.sp + 2 + 2 = s.regs.sp + 4 := BitVec.add_assoc ..
    exact ⟨_, run, words, queue, idle, sp.trans (congrArg (· + n) past), sregs, eu, stack, frame⟩
  exact ⟨nearReturned 0 _ rfl, fun n => nearReturned n _ rfl, farReturned 0 _ rfl, fun n => farReturned n _ rfl⟩

/-- The return of IRET is a far return that takes FLAGS too (R208, R228). -/
theorem returnFromInterrupt_returns {s : State} (q : s.Quiet) :
    ∃ off seg f t, stackWords 3 s = [off, seg, f] ∧ returnFromInterrupt s = popCall (setFlags (Flags.ofWord f) t) ∧
      Arrived off { s.sregs with cs := seg } s.host.callStack (((s.stackView.release 2).release 2).release 2) s t := by
  have begun := underway_suspendFetch q
  refine ⟨_, _, _, _, ?_, rfl, begun.pop.pop.pop.setCsIp _ _⟩
  rw [← stackWords_suspendFetch q, stackWords_succ begun.quiet, stackWords_succ begun.pop.quiet, stackWords_succ begun.pop.pop.quiet,
    stackWords_zero]

/-- Settles O39: after the far return, FLAGS is written and the call dropped. -/
theorem iretCompletes : Obligations.IretCompletes := by
  unfold Obligations.IretCompletes
  intro s q
  obtain ⟨off, seg, f, t, words, ret, ⟨rfl, queue, idle, -⟩, sp, -, sregs, eu, stack, frame⟩ := returnFromInterrupt_returns q
  obtain rfl : t.sregs.cs = seg := congrArg SRegs.cs sregs
  have past : s.regs.sp + 2 + 2 + 2 = s.regs.sp + 6 := by bv_omega
  have flags : FlagsKept [.cf, .pf, .af, .zf, .sf, .tf, .if_, .df, .of_] t (setFlags (Flags.ofWord f) t) :=
    fun n hn => absurd (by cases n <;> decide) hn
  exact ⟨_, f, congrArg Host.Outcome.next ret, words, rfl, sp.trans past, sregs, queue, idle, eu, congrArg List.tail stack,
    (frame.trans (setFlags_dataStep flags).1).thenKept (callStack_frame _ _)⟩

end Sys2Proof.Machine

namespace Sys2Proof.Machine

/-! ### LOOP and JCXZ (R201 to R204) -/

/-- A jump on a condition: taken where it holds, nothing done where it does not (R200). -/
theorem branchIf_true (rel : Byte) (s : State) : branchIf true rel s = setIp (ip s + rel.signExtend 16) s := rfl

theorem branchIf_false (rel : Byte) (s : State) : branchIf false rel s = s := rfl

/-- CX has been counted down, wrapping, and the jump made where a condition holds (R201 to R203). -/
abbrev Looped (rel : Byte) (p : Prop) (s t : State) : Prop :=
  t.regs.cx.toNat = (s.regs.cx.toNat + 65535) % 65536 ∧ Frame [.word .r1] [] [] s t ∧ UnitsKept s t ∧
    (p → JumpedTo (ip s + rel.signExtend 16) t) ∧ (¬ p → FallsThrough s t)

theorem branchIf_decCx {c : Bool} {p : Prop} (h : c = true ↔ p) (rel : Byte) (s : State) :
    Looped rel p s (branchIf c rel (decCx s)) := by
  obtain ⟨frame, units, falls⟩ : DataStep [.word .r1] [] [] s (decCx s) := setReg_dataStep .word .r1 _ s
  have cx : (decCx s).regs.cx.toNat = (s.regs.cx.toNat + 65535) % 65536 :=
    (BitVec.toNat_sub ..).trans (congrArg (· % 65536) (Nat.add_comm ..))
  cases c with
  | true =>
    rw [branchIf_true]
    obtain ⟨jumped, frame', units'⟩ := setIp_spec (ip (decCx s) + rel.signExtend 16) (decCx s)
    refine ⟨?_, frame.trans frame', units.trans units', fun _ => jumped, fun no => absurd (h.mp rfl) no⟩
    rw [setIp_regs, cx]
  | false =>
    rw [branchIf_false]
    exact ⟨cx, frame, units, fun yes => absurd (h.mpr yes) Bool.false_ne_true, fun _ => falls⟩

/-- CX is not 0 after the count where it was not 1. -/
theorem decCx_ne_zero (s : State) : ((decCx s).regs.cx != 0) = true ↔ s.regs.cx ≠ 1 := by
  have counted : (decCx s).regs.cx = s.regs.cx - 1 := rfl
  have zero : s.regs.cx - 1 = 0 ↔ s.regs.cx = 1 := by bv_omega
  rw [bne_iff_ne, counted]
  exact not_congr zero

/-- Settles O35: the loops are a count and a conditional jump; JCXZ is the jump alone. -/
theorem loops : Obligations.Loops := by
  unfold Obligations.Loops
  intro s rel
  have zf : (decCx s).flags.zf = s.flags.zf := rfl
  refine ⟨⟨_, rfl, branchIf_decCx (decCx_ne_zero s) rel s⟩, ⟨_, rfl, branchIf_decCx ?_ rel s⟩,
    ⟨_, rfl, branchIf_decCx ?_ rel s⟩, ⟨branchIf (s.regs.cx == 0) rel s, rfl, fun zero => ?_, fun nonzero => ?_⟩⟩
  · rw [Bool.and_eq_true, decCx_ne_zero, zf]
  · rw [Bool.and_eq_true, decCx_ne_zero, zf, Bool.not_eq_true']
  · rw [beq_iff_eq.mpr zero]
    exact setIp_spec _ s
  · rw [beq_false_of_ne nonzero]
    rfl

end Sys2Proof.Machine

namespace Sys2Proof.Machine

/-! ### Software interrupts (R205 to R207, R226) -/

theorem exec_into (s : State) : exec .into s = if s.flags.of_ then enterInterrupt 4 (ip s) s else .next s := rfl

/-- Settles O38: each is an interrupt entry with `IP_next`, INTO on its condition. -/
theorem softwareInterrupts : Obligations.SoftwareInterrupts := by
  unfold Obligations.SoftwareInterrupts
  intro s q enters
  have entry (n : Byte) (i : Instr) (run : exec i s = enterInterrupt n (ip s) s) : enters n i := fun clear =>
    have ⟨t, entered, into, pic, _⟩ := enterInterrupt_spec q (ip s) clear
    ⟨t, run.trans entered, into, pic⟩
  refine ⟨fun n => entry n _ rfl, entry 3 _ rfl, fun overflow => entry 4 _ ?_, fun clear => ?_⟩
  · rw [exec_into, if_pos overflow]
  · rw [exec_into, if_neg (Bool.eq_false_iff.mp clear)]

/-! ### Returning undoes entering (R226, R228) -/

theorem Flags.ofWord_toWord (f : Flags) : Flags.ofWord f.toWord = f := by
  simp (disch := decide) only [Flags.ofWord, Flags.toWord_getLsbD]
  simp

/-- Two bytes a few offsets apart in a segment are never one cell: their numbers differ, and so do those of bytes at the two ends of
a segment, which lie too far apart for an aperture (R42, R51). -/
theorem not_sameCell_of_near {c : Config} {seg a b : Word} (apart : 0 < (a - b).toNat) (near : (a - b).toNat < 8) :
    ¬ sameCell c (phys seg a) (phys seg b) := by
  rintro ⟨p, ha, hb⟩
  have ea := phys_toNat seg a
  have eb := phys_toNat seg b
  rw [BitVec.toNat_sub] at apart near
  have la := a.isLt
  have lb := b.isLt
  rcases cellOf_number ha with x | x | x <;> rcases cellOf_number hb with y | y | y <;> omega

/-- A read depends on the bytes of its span only. -/
theorem heldFrom_congr {c : Config} {m m' : Memory} {seg off : Word}
    (h : ∀ a ∈ span .word seg off, peek c m' a = peek c m a) (k : Nat) :
    heldFrom c m' k .word seg off = heldFrom c m k .word seg off := by
  simp only [span, List.forall_mem_cons] at h
  simp only [heldFrom, heldByte, drawsAt, h]

/-- A word stored just below another leaves it. -/
theorem heldFrom_storeVal_below {c : Config} {seg off off' : Word} (apart : 2 ≤ (off - off').toNat) (near : (off - off').toNat < 7)
    (v : Word) (m : Memory) (k : Nat) :
    heldFrom c (storeVal c .word seg off' v m) k .word seg off = heldFrom c m k .word seg off := by
  refine heldFrom_congr (fun a ha => storeVal_kept fun b hb => ?_) k
  simp only [span, List.mem_cons, List.not_mem_nil, or_false] at ha hb
  rcases ha with rfl | rfl <;> rcases hb with rfl | rfl <;> apply not_sameCell_of_near <;> bv_omega

/-- Two offsets below one SP lie as far apart as their distances from it. -/
theorem sub_sub_sub_left (sp i j : Word) : sp - i - (sp - j) = j - i := by bv_omega

/-- The frame of an interrupt entry in RAM reads back as it was pushed, whatever free values have been used (R226). -/
theorem heldFrom_frame {s : State} (ram : ∀ a ∈ frameSpan s, ∃ k, cellOf s.cfg a = some (k, true)) {x y z : Word} {m m' : Memory}
    (pushed : m' = pushAll s.cfg s.sregs.ss s.regs.sp [x, y, z] m) (k : Nat) :
    heldFrom s.cfg m' k .word s.sregs.ss (s.regs.sp - 2) = x ∧ heldFrom s.cfg m' k .word s.sregs.ss (s.regs.sp - 4) = y ∧
      heldFrom s.cfg m' k .word s.sregs.ss (s.regs.sp - 6) = z := by
  have second : s.regs.sp - 2 - 2 = s.regs.sp - 4 := BitVec.sub_sub ..
  have third : s.regs.sp - 4 - 2 = s.regs.sp - 6 := BitVec.sub_sub ..
  have apart := sub_sub_sub_left s.regs.sp
  simp only [pushAll, second, third] at pushed
  simp only [frameSpan, List.forall_mem_append] at ram
  obtain ⟨⟨ram2, ram4⟩, ram6⟩ := ram
  subst pushed
  refine ⟨?_, ?_, heldFrom_storeVal ram6 z _ k⟩
  · rw [heldFrom_storeVal_below (apart 2 6 ▸ by decide) (apart 2 6 ▸ by decide),
      heldFrom_storeVal_below (apart 2 4 ▸ by decide) (apart 2 4 ▸ by decide)]
    exact heldFrom_storeVal ram2 x m k
  · rw [heldFrom_storeVal_below (apart 4 6 ▸ by decide) (apart 4 6 ▸ by decide)]
    exact heldFrom_storeVal ram4 y _ k

/-- With nothing queued, IP is the address of the next fetch (R24). -/
theorem ip_of_queue_nil {s : State} (h : s.biu.queue = []) : ip s = s.biu.pc := by
  simp [ip, h]

/-- INT n completes only where its frame does not overlap the vector (R226). -/
theorem frame_apart_of_int {n : Byte} {s t : State} (run : exec (.int n) s = .next t) : frameOverlapsVector n s = false := by
  refine Bool.eq_false_iff.mpr fun overlaps => ?_
  have refused : exec (.int n) s = .refused .frameOverlapsVector := if_pos overlaps
  rw [refused] at run
  cases run

/-- Settles O40: the three words that IRET pops are the three words that the entry pushed. -/
theorem iretUndoesInt : Obligations.IretUndoesInt := by
  unfold Obligations.IretUndoesInt
  intro s t n q ram run
  obtain ⟨t', entered, into, -, -, -, -, quiet, regs, -⟩ := enterInterrupt_spec q (ip s) (frame_apart_of_int run)
  obtain rfl : t = t' := Host.Outcome.next.inj (run.symm.trans entered)
  obtain ⟨es, ss, ds⟩ := into.segments
  obtain ⟨-, -, -, cfg⟩ := into.devices
  obtain ⟨pc, queue, -, sregs, flags, regs', -, -, -, -, -, -, d, sys⟩ := returnFromInterrupt_spec quiet
  have sp4 : s.regs.sp - 6 + 2 = s.regs.sp - 4 := by bv_omega
  have sp2 : s.regs.sp - 6 + 4 = s.regs.sp - 2 := by bv_omega
  have sp0 : s.regs.sp - 6 + 6 = s.regs.sp := BitVec.sub_add_cancel ..
  have held := heldFrom_frame ram into.mem
  rw [heldVal, cfg, ss, into.sp, (held _).2.2] at pc
  rw [cfg, ss, into.sp, sp4, (held _).2.1] at sregs
  rw [cfg, ss, into.sp, sp2, (held _).1, Flags.ofWord_toWord] at flags
  refine ⟨_, rfl, ?_, flags, ?_, (ip_of_queue_nil queue).trans pc, ?_⟩
  · rw [regs', regs, sp0]
  · simp only [sregs, es, ss, ds]
  · rw [sys]

end Sys2Proof.Machine

namespace Sys2Proof.Machine

/-! ### What a step does to memory and the devices -/

/-- The operations by which memory, the tags, the devices and the reports change: a draw, a byte written, a port read or written, a step of
the FDC or of the video card, an interrupt line moved, an interrupt acknowledged, a medium mounted, ejected or protected, a tag set, a
report given. -/
inductive SysOp : Sys → Sys → Prop where
  | draw (d : Nat) (y : Sys) : SysOp y { y with drawCtr := d }
  | writeByte (c : Config) (a : Phys) (v : Byte) (y : Sys) : SysOp y (y.writeByte c a v)
  | portRead (c : Config) (port : Word) (y : Sys) : SysOp y (y.portRead c port).2
  | portWrite (c : Config) (port : Word) (v : Byte) (y : Sys) : SysOp y (y.portWrite c port v)
  | fdcStep (c : Config) (y : Sys) : SysOp y (y.fdcStep c).1
  | crtcStep (c : Config) (cycle : Nat) (y : Sys) : SysOp y (y.crtcStep c cycle)
  | envIrq (i : BitVec 3) (level : Bool) (y : Sys) : SysOp y (envIrq i level y)
  | inta {v : Byte} {p : Pic} {y : Sys} (h : y.pic.inta = some (v, p)) : SysOp y { y with pic := p }
  | mount (c : Config) (d : BitVec 2) (size : Nat) (bytes : List Host.Cell) (wp : Bool) (y : Sys) :
    SysOp y { y with fdc := y.fdc.mount c d size bytes wp }
  | eject (d : BitVec 2) (y : Sys) : SysOp y { y with fdc := y.fdc.eject d }
  | protect (d : BitVec 2) (wp : Bool) (y : Sys) : SysOp y { y with fdc := y.fdc.setWriteProtect d wp }
  | tag (ts : List (Nat × Tag)) (y : Sys) : SysOp y { y with tags := ts }
  | report (r : Report) (y : Sys) : SysOp y (y.report r)

/-- Any number of these operations, one after the other. -/
abbrev SysRun : Sys → Sys → Prop := Relation.ReflTransGen SysOp

/-- A predicate that every operation keeps is kept by a run of them. -/
theorem SysRun.keeps {P : Sys → Prop} (h : ∀ y z, SysOp y z → P y → P z) {y z : Sys} (r : SysRun y z) (p : P y) : P z := by
  induction r with
  | refl => exact p
  | tail _ op ih => exact h _ _ op ih

theorem sysRun_of_draws {s t : State} (h : ∃ d, t.sys = { s.sys with drawCtr := d }) : SysRun s.sys t.sys := by
  obtain ⟨d, h⟩ := h
  rw [h]
  exact .single (.draw d _)

theorem FetchOnly.sysRun {s t : State} (h : FetchOnly s t) : SysRun s.sys t.sys := sysRun_of_draws h.sys

/-! ### Bus transactions -/

theorem midStep_sysRun (s : State) (t : MidTurn) : SysRun s.sys (midStep s t).sys := by
  cases t with
  | prefetch => exact (prefetchStep_fetchOnly s).sysRun
  | fdc => exact .single (.fdcStep s.cfg s.sys)
  | crtc => exact .single (.crtcStep s.cfg s.biu.cycleCount s.sys)
  | clock c => exact (clockTick_fetchOnly c s).sysRun
  | host a =>
    cases a with
    | setNmi level => exact .refl
    | setIrq i level => exact .single (.envIrq i level s.sys)
    | mount d size bytes wp => exact .single (.mount s.cfg d size bytes wp s.sys)
    | eject d => exact .single (.eject d s.sys)
    | setWriteProtect d wp => exact .single (.protect d wp s.sys)
    | setTag a t => exact .single (.tag _ s.sys)

theorem foldl_midStep_sysRun (b : List MidTurn) (s : State) : SysRun s.sys (b.foldl midStep s).sys := by
  induction b generalizing s with
  | nil => exact .refl
  | cons t b ih => exact (midStep_sysRun s t).trans (ih (midStep s t))

theorem busGap_sysRun (s : State) : SysRun s.sys (busGap s).sys := by
  unfold busGap
  split
  · exact .refl
  · rename_i b rest _
    exact foldl_midStep_sysRun b { s with interleave := rest }

theorem beginBus_sysRun (st : BusStatus) (a : Phys) (s : State) : SysRun s.sys (beginBus st a s).sys :=
  (busGap_sysRun s).trans (busCycle_fetchOnly st a (busGap s)).sysRun

theorem haltCycle_sysRun (s : State) : SysRun s.sys (haltCycle s).sys :=
  (busGap_sysRun s).trans ((finishFetch_fetchOnly _).trans (busCycle_fetchOnly _ _ _)).sysRun

theorem readCell_sysRun (a : Phys) (s : State) : SysRun s.sys (readCell a s).2.sys := by
  rw [(readCell_sys a s).2]
  exact .single (.draw _ _)

theorem writeCell_sysRun (a : Phys) (v : Byte) (s : State) : SysRun s.sys (writeCell a v s).sys := by
  rw [writeCell_sys]
  exact .single (.writeByte s.cfg a v s.sys)

theorem busRead_sysRun (a : Phys) (s : State) : SysRun s.sys (busRead a s).2.sys :=
  (beginBus_sysRun .memRead a s).trans (readCell_sysRun a _)

theorem busWrite_sysRun (a : Phys) (v : Byte) (s : State) : SysRun s.sys (busWrite a v s).sys :=
  (beginBus_sysRun .memWrite a s).trans (writeCell_sysRun a v _)

theorem busReadWord_sysRun (a b : Phys) (s : State) : SysRun s.sys (busReadWord a b s).2.sys := by
  refine (busRead_sysRun a s).trans ?_
  unfold busReadWord
  simp only
  split
  · exact readCell_sysRun b _
  · exact busRead_sysRun b _

theorem busWriteWord_sysRun (a b : Phys) (v : Word) (s : State) : SysRun s.sys (busWriteWord a b v s).sys := by
  refine (busWrite_sysRun a (loByte v) s).trans ?_
  unfold busWriteWord
  simp only
  split
  · exact writeCell_sysRun b _ _
  · exact busWrite_sysRun b _ _

theorem segRead_sysRun (w : Width) (seg off : Word) (s : State) : SysRun s.sys (segRead w seg off s).2.sys := by
  cases w
  · exact busRead_sysRun _ s
  · exact busReadWord_sysRun _ _ s

theorem segWrite_sysRun (w : Width) (seg off : Word) (v : Val w) (s : State) : SysRun s.sys (segWrite w seg off v s).sys := by
  cases w
  · exact busWrite_sysRun _ v s
  · exact busWriteWord_sysRun _ _ v s

theorem rmRead_sysRun (w : Width) (rm : Rm) (s : State) : SysRun s.sys (rmRead w rm s).2.sys := by
  cases rm with
  | reg r => exact .refl
  | mem m => exact segRead_sysRun w _ _ s

theorem rmWrite_sysRun (w : Width) (rm : Rm) (v : Val w) (s : State) : SysRun s.sys (rmWrite w rm v s).sys := by
  cases rm with
  | reg r => exact .refl
  | mem m => exact segWrite_sysRun w _ _ v s

theorem readFar_sysRun (m : MemOp) (s : State) : SysRun s.sys (readFar m s).2.2.sys :=
  (segRead_sysRun .word _ _ s).trans (segRead_sysRun .word _ _ _)

theorem push_sysRun (v : Word) (s : State) : SysRun s.sys (push v s).sys :=
  segWrite_sysRun .word s.sregs.ss (s.regs.sp - 2) v (setSp (s.regs.sp - 2) s)

theorem pop_sysRun (s : State) : SysRun s.sys (pop s).2.sys := segRead_sysRun .word _ _ s

theorem suspendFetch_sysRun (s : State) : SysRun s.sys (suspendFetch s).sys := (suspendFetch_fetchOnly s).sysRun

theorem setIp_sysRun (v : Word) (s : State) : SysRun s.sys (setIp v s).sys := suspendFetch_sysRun s

theorem setCsIp_sysRun (seg off : Word) (s : State) : SysRun s.sys (setCsIp seg off s).sys := suspendFetch_sysRun s

/-! ### Interrupts -/

/-- No fault is answered, and memory and the devices of the next state come from those of a state by a run. -/
abbrev Runs (s : State) (r : Res State) : Prop := NextMeets (fun t => SysRun s.sys t.sys) r

theorem runs_next {s t : State} (h : SysRun s.sys t.sys) : Runs s (.next t) := h

theorem Runs.after {s t : State} {r : Res State} (h : Runs t r) (k : SysRun s.sys t.sys) : Runs s r := h.mono fun _ => k.trans

theorem loadVector_sysRun (n : Byte) (s : State) : SysRun s.sys (loadVector n s).sys :=
  ((busReadWord_sysRun _ _ s).trans (busReadWord_sysRun _ _ _)).trans (setCsIp_sysRun _ _ _)

theorem pushFrame_sysRun (ret : Word) (s : State) : SysRun s.sys (pushFrame ret s).sys := by
  refine (push_sysRun s.flags.toWord s).trans ?_
  unfold pushFrame
  simp only
  generalize push s.flags.toWord s = t
  exact (push_sysRun t.sregs.cs (setFlags { t.flags with if_ := false, tf := false } t)).trans (push_sysRun ret _)

theorem enterInterrupt_runs (n : Byte) (ret : Word) (s : State) : Runs s (enterInterrupt n ret s) := by
  unfold enterInterrupt
  split
  · trivial
  · have entered := ((suspendFetch_sysRun s).trans (pushFrame_sysRun ret _)).trans (loadVector_sysRun n _)
    simp only
    generalize loadVector n (pushFrame ret (suspendFetch s)) = t at entered ⊢
    exact entered

theorem divideError_runs (s : State) : Runs s (divideError s) :=
  (enterInterrupt_runs 0 (ip s) { s with sys := s.sys.report (.divideError (ip s)) }).after (.single (.report _ s.sys))

theorem takeInterrupt_runs (ret : Word) (s : State) : Runs s (takeInterrupt ret s) := by
  unfold takeInterrupt
  split
  · exact enterInterrupt_runs 2 ret { s with eu := { s.eu with nmiLatch := false } }
  · split
    · trivial
    · rename_i r answer
      obtain ⟨d, drawn⟩ := (intaCycles_fetchOnly s).sys
      have cycles : SysRun s.sys { (intaCycles s).sys with pic := r.2 } := by
        rw [drawn]
        exact (Relation.ReflTransGen.single (.inta answer)).trans (.single (.draw d _))
      exact (enterInterrupt_runs r.1 ret { intaCycles s with sys := { (intaCycles s).sys with pic := r.2 } }).after cycles

theorem returnFromInterrupt_sysRun (s : State) : SysRun s.sys (returnFromInterrupt s).sys := by
  refine (suspendFetch_sysRun s).trans ?_
  unfold returnFromInterrupt
  simp only
  generalize suspendFetch s = t
  refine ((pop_sysRun t).trans ((pop_sysRun _).trans (pop_sysRun _))).trans ?_
  generalize pop t = o
  generalize pop o.2 = c
  generalize pop c.2 = f
  exact setCsIp_sysRun c.1 o.1 f.2

/-! ### Operand forms -/

theorem aluToRm_sysRun {op : AluOp} (h : ∀ w a b s, SysRun s.sys (op w a b s).2.sys) (wb : Bool) (w : Width) (rm : Rm) (b : Val w)
    (s : State) : SysRun s.sys (aluToRm op wb w rm b s).sys := by
  have computed := (rmRead_sysRun w rm s).trans (h w (rmRead w rm s).1 b _)
  cases wb with
  | false => exact computed
  | true => exact computed.trans (rmWrite_sysRun w rm _ _)

theorem aluForm_sysRun {op : AluOp} (h : ∀ w a b s, SysRun s.sys (op w a b s).2.sys) (wb : Bool) (f : AluForm) (s : State) :
    SysRun s.sys (aluForm op wb f s).sys := by
  have toReg (w : Width) (r : Reg) := aluToRm_sysRun h wb w (.reg r)
  cases f with
  | rmReg d w rm r =>
    cases d with
    | toRm => exact aluToRm_sysRun h wb w rm _ s
    | toReg => exact (rmRead_sysRun w rm s).trans (toReg w r _ _)
  | acc i => cases i <;> exact toReg _ .r0 _ s
  | rmImm alt rm i => cases i <;> exact aluToRm_sysRun h wb _ rm _ s
  | rmImm8s rm i => exact aluToRm_sysRun h wb .word rm _ s

theorem unaryRm_sysRun {op : UnaryOp} (h : ∀ w a s, SysRun s.sys (op w a s).2.sys) (w : Width) (rm : Rm) (s : State) :
    SysRun s.sys (unaryRm op w rm s).sys :=
  ((rmRead_sysRun w rm s).trans (h w _ _)).trans (rmWrite_sysRun w rm _ _)

theorem incForm_sysRun {op : UnaryOp} (h : ∀ w a s, SysRun s.sys (op w a s).2.sys) (f : IncForm) (s : State) :
    SysRun s.sys (incForm op f s).sys := by
  cases f with
  | reg r => exact unaryRm_sysRun h .word (.reg r) s
  | rm w m => exact unaryRm_sysRun h w m s

theorem shiftFlags_sysRun (n : Nat) (cf of_ : Bool) (s : State) : SysRun s.sys (shiftFlags n cf of_ s).sys := by
  unfold shiftFlags
  split
  · exact .refl
  · exact .single (.draw _ _)

theorem shiftRm_sysRun (step : ShiftOp) {after : (w : Width) → Val w → State → State}
    (h : ∀ w v s, SysRun s.sys (after w v s).sys) (w : Width) (c : ShiftCount) (rm : Rm) (s : State) :
    SysRun s.sys (shiftRm step after w c rm s).sys := by
  refine (rmRead_sysRun w rm s).trans ?_
  unfold shiftRm
  simp only
  split
  · exact .refl
  · exact ((rmWrite_sysRun w rm _ _).trans (shiftFlags_sysRun _ _ _ _)).trans (h w _ _)

theorem branchIf_sysRun (c : Bool) (rel : Byte) (s : State) : SysRun s.sys (branchIf c rel s).sys := by
  cases c
  · exact .refl
  · exact setIp_sysRun _ s

/-! ### Ports -/

theorem ioReadByte_sysRun (port : Word) (s : State) : NextMeets (fun r => SysRun s.sys r.2.sys) (ioReadByte port s) := by
  unfold ioReadByte
  split
  · trivial
  · exact (beginBus_sysRun .ioRead _ s).tail (.portRead _ port _)

theorem ioWriteByte_runs (port : Word) (v : Byte) (s : State) : Runs s (ioWriteByte port v s) := by
  unfold ioWriteByte
  split
  · trivial
  · exact (beginBus_sysRun .ioWrite _ s).tail (.portWrite _ port v _)

theorem ioRead_sysRun (w : Width) (port : Word) (s : State) : NextMeets (fun r => SysRun s.sys r.2.sys) (ioRead w port s) := by
  cases w
  · exact ioReadByte_sysRun port s
  · exact (ioReadByte_sysRun port s).andThen fun lo h => (ioReadByte_sysRun (port + 1) lo.2).andThen fun _ k => h.trans k

theorem ioWrite_runs (w : Width) (port : Word) (v : Val w) (s : State) : Runs s (ioWrite w port v s) := by
  cases w
  · exact ioWriteByte_runs port v s
  · exact (ioWriteByte_runs port _ s).andThen fun t h => (ioWriteByte_runs (port + 1) _ t).after h

/-! ### String instructions -/

theorem repIterate_runs (c : Bool) {once : State → State} (h : ∀ s, SysRun s.sys (once s).sys) (s : State) :
    Runs s (repIterate c once s) := by
  unfold repIterate
  simp only
  split
  · exact h s
  · unfold betweenIterations
    have gap : SysRun s.sys (busGap (setCx ((once s).regs.cx - 1) (once s))).sys :=
      (h s).trans (busGap_sysRun (setCx ((once s).regs.cx - 1) (once s)))
    simp only
    generalize busGap (setCx ((once s).regs.cx - 1) (once s)) = t at gap ⊢
    split
    · exact (takeInterrupt_runs (repResume t) (setPhase .start (clearRep t))).after gap
    · exact gap

theorem execString_runs (i : Instr) (c : Bool) {once : State → State} (h : ∀ s, SysRun s.sys (once s).sys) (s : State) :
    Runs s (execString i c once s) := by
  unfold execString
  split
  · exact h s
  · simp only
    split
    · exact .refl
    · exact repIterate_runs c h (beginRep i c s)

theorem movsOnce_sysRun (w : Width) (s : State) : SysRun s.sys (movsOnce w s).sys :=
  (segRead_sysRun w _ _ s).trans (segWrite_sysRun w _ _ _ _)

theorem cmpsOnce_sysRun (w : Width) (s : State) : SysRun s.sys (cmpsOnce w s).sys :=
  (segRead_sysRun w _ _ s).trans (segRead_sysRun w _ _ _)

theorem scasOnce_sysRun (w : Width) (s : State) : SysRun s.sys (scasOnce w s).sys := segRead_sysRun w _ _ s

theorem lodsOnce_sysRun (w : Width) (s : State) : SysRun s.sys (lodsOnce w s).sys := segRead_sysRun w _ _ s

theorem stosOnce_sysRun (w : Width) (s : State) : SysRun s.sys (stosOnce w s).sys := segWrite_sysRun w _ _ _ s

/-! ### Multiplication, division and the rest -/

theorem mulBy_sysRun (w : Width) (v : Val w) (s : State) : SysRun s.sys (mulBy w v s).sys := by
  cases w <;> exact sysRun_of_draws ⟨_, rfl⟩

theorem imulBy_sysRun (w : Width) (v : Val w) (s : State) : SysRun s.sys (imulBy w v s).sys := by
  cases w <;> exact sysRun_of_draws ⟨_, rfl⟩

theorem drawSzap_sysRun (s : State) : SysRun s.sys (drawSzap s).sys := sysRun_of_draws ⟨_, rfl⟩

theorem drawCo_sysRun (s : State) : SysRun s.sys (drawCo s).sys := sysRun_of_draws ⟨_, rfl⟩

theorem setQuotient_sysRun (w : Width) (q m : Val w) (s : State) :
    SysRun s.sys (setQuotient w q m (drawCo (drawSzap s))).sys := by
  refine ((drawSzap_sysRun s).trans (drawCo_sysRun _)).trans ?_
  generalize drawCo (drawSzap s) = t
  cases w <;> exact .refl

theorem execMul_runs (w : Width) (rm : Rm) (s : State) : Runs s (execMul w rm s) := by
  unfold execMul
  split
  · trivial
  · exact runs_next ((rmRead_sysRun w rm s).trans (mulBy_sysRun w _ _))

theorem execImul_runs (w : Width) (rm : Rm) (s : State) : Runs s (execImul w rm s) := by
  unfold execImul
  split
  · trivial
  · exact runs_next ((rmRead_sysRun w rm s).trans (imulBy_sysRun w _ _))

theorem execDiv_runs (w : Width) (rm : Rm) (s : State) : Runs s (execDiv w rm s) := by
  unfold execDiv
  simp only
  split
  · trivial
  · split
    · exact (divideError_runs (rmRead w rm s).2).after (rmRead_sysRun w rm s)
    · exact runs_next ((rmRead_sysRun w rm s).trans (setQuotient_sysRun w _ _ _))

theorem execIdiv_runs (w : Width) (rm : Rm) (s : State) : Runs s (execIdiv w rm s) := by
  unfold execIdiv
  simp only
  split
  · trivial
  · split
    · exact (divideError_runs (rmRead w rm s).2).after (rmRead_sysRun w rm s)
    · exact runs_next ((rmRead_sysRun w rm s).trans (setQuotient_sysRun w _ _ _))

theorem execAam_runs (i : Byte) (s : State) : Runs s (execAam i s) := by
  unfold execAam
  split
  · exact divideError_runs s
  · exact runs_next (sysRun_of_draws ⟨_, rfl⟩)

theorem execPushRm_runs (alt : Bool) (rm : Rm) (s : State) : Runs s (execPushRm alt rm s) := by
  have read := rmRead_sysRun .word rm s
  unfold execPushRm
  simp only
  generalize rmRead .word rm s = v at read ⊢
  split
  · exact runs_next ((read.tail (.draw _ _)).trans (push_sysRun _ (drawBit v.2).2))
  · exact runs_next (read.trans (push_sysRun v.1 v.2))

theorem execSetmo_runs (w : Width) (c : ShiftCount) (rm : Rm) (s : State) : Runs s (execSetmo w c rm s) := by
  have read := rmRead_sysRun w rm s
  unfold execSetmo
  simp only
  generalize rmRead w rm s = a at read ⊢
  split
  · exact read
  · exact runs_next (read.trans (rmWrite_sysRun w rm (BitVec.allOnes w.bits) a.2))

theorem execHlt_runs (s : State) : Runs s (execHlt s) := by
  have ended := (haltCycle_sysRun s).trans (suspendFetch_sysRun _)
  unfold execHlt
  split
  · trivial
  · generalize suspendFetch (haltCycle s) = t at ended ⊢
    exact ended

theorem execInto_runs (s : State) : Runs s (execInto s) := by
  unfold execInto
  split
  · exact enterInterrupt_runs 4 (ip s) s
  · exact .refl

theorem farCall_sysRun (seg off ret : Word) (s : State) : SysRun s.sys (farCall seg off ret s).sys := by
  refine ((push_sysRun s.sregs.cs s).trans (push_sysRun ret _)).trans ?_
  unfold farCall
  generalize push ret (push s.sregs.cs s) = t
  exact setCsIp_sysRun seg off t

theorem execCallRm_runs (rm : Rm) (s : State) : Runs s (execCallRm rm s) := by
  have read := (suspendFetch_sysRun s).trans (rmRead_sysRun .word rm _)
  unfold execCallRm
  simp only
  generalize rmRead .word rm (suspendFetch s) = t at read ⊢
  exact runs_next ((read.trans (push_sysRun (ip s) t.2)).trans (setIp_sysRun t.1 _))

theorem retNear_sysRun (n : Word) (s : State) : SysRun s.sys (retNear n s).sys := by
  refine ((suspendFetch_sysRun s).trans (pop_sysRun _)).trans ?_
  unfold retNear
  simp only
  generalize pop (suspendFetch s) = t
  exact setIp_sysRun t.1 (setSp (t.2.regs.sp + n) t.2)

theorem retFar_sysRun (n : Word) (s : State) : SysRun s.sys (retFar n s).sys := by
  refine (suspendFetch_sysRun s).trans ((pop_sysRun _).trans (pop_sysRun _)) |>.trans ?_
  unfold retFar
  simp only
  generalize pop (suspendFetch s) = o
  generalize pop o.2 = c
  exact setCsIp_sysRun c.1 o.1 (setSp (c.2.regs.sp + n) c.2)

theorem addPrefix_runs (f : Prefixes → Prefixes) (s : State) : Runs s (addPrefix f s) := by
  unfold addPrefix
  simp only
  split <;>
    exact (idleTick_fetchOnly
      { s with eu := { s.eu with prefixes := { f s.eu.prefixes with count := s.eu.prefixes.count + 1 }, phase := .prefixed } }).sysRun

end Sys2Proof.Machine


namespace Sys2Proof.Machine

/-! ### The meaning of an instruction -/

/-- Memory and the devices change in an instruction by their own operations only. -/
theorem exec_runs (i : Instr) (s : State) : Runs s (exec i s) := by
  cases i with
  | segEs | segCs | segSs | segDs | lock | repne | rep | wait => exact addPrefix_runs _ s
  | movRmReg d w rm r =>
    cases d with
    | toRm => exact runs_next (rmWrite_sysRun w rm _ s)
    | toReg => exact runs_next (rmRead_sysRun w rm s)
  | movFromSreg rm => exact runs_next (rmWrite_sysRun .word rm _ s)
  | movToSreg sr rm => exact runs_next (rmRead_sysRun .word rm s)
  | movMoffs store w off =>
    cases store with
    | false => exact runs_next (segRead_sysRun w _ off s)
    | true => exact runs_next (segWrite_sysRun w _ off _ s)
  | movRegImm r v => cases v <;> exact runs_next .refl
  | movRmImm ext rm v => cases v <;> exact runs_next (rmWrite_sysRun _ rm _ s)
  | pushReg r => exact exec_pushReg r s ▸ runs_next (push_sysRun _ s)
  | pushSreg | pushf => exact runs_next (push_sysRun _ s)
  | pushRm alt rm => exact execPushRm_runs alt rm s
  | popReg | popSreg | popf => exact runs_next (pop_sysRun s)
  | popRm ext rm => exact runs_next ((pop_sysRun s).trans (rmWrite_sysRun .word rm _ _))
  | xchgRm w rm => exact runs_next ((rmRead_sysRun w rm s).trans (rmWrite_sysRun w rm _ _))
  | inp w p => exact (ioRead_sysRun w _ s).andThen fun _ => runs_next
  | out w p => exact ioWrite_runs w _ _ s
  | xlat => exact runs_next (segRead_sysRun .byte _ _ s)
  | lds r m | les r m => exact runs_next (readFar_sysRun m s)
  | xchgAx | lea | lahf | sahf | cbw | cwd | salc | clc | stc | cmc | cld | std | cli | nop => exact runs_next .refl
  | add f | adc f | sub f | sbb f =>
    refine runs_next (aluForm_sysRun ?_ true f s)
    exact fun _ _ _ _ => .refl
  | and f | or f | xor f =>
    refine runs_next (aluForm_sysRun ?_ true f s)
    exact fun _ _ _ t => .single (.draw _ t.sys)
  | cmp f =>
    refine runs_next (aluForm_sysRun ?_ false f s)
    exact fun _ _ _ _ => .refl
  | test f =>
    have run : SysRun s.sys (testForm andOp f s).sys := by
      rw [testForm_eq]
      exact aluToRm_sysRun (fun _ _ _ t => .single (.draw _ t.sys)) false _ _ _ s
    exact runs_next run
  | inc f | dec f =>
    refine runs_next (incForm_sysRun ?_ f s)
    exact fun _ _ _ => .refl
  | neg w rm | not w rm =>
    refine runs_next (unaryRm_sysRun ?_ w rm s)
    exact fun _ _ _ => .refl
  | mul w rm => exact execMul_runs w rm s
  | imul w rm => exact execImul_runs w rm s
  | div w rm => exact execDiv_runs w rm s
  | idiv w rm => exact execIdiv_runs w rm s
  | daa | das | aaa | aas | aad => exact runs_next (sysRun_of_draws ⟨_, rfl⟩)
  | aam v => exact execAam_runs v s
  | rol w c rm | ror w c rm | rcl w c rm | rcr w c rm =>
    refine runs_next (shiftRm_sysRun _ ?_ w c rm s)
    exact fun _ _ _ => .refl
  | shl w c rm | shr w c rm | sar w c rm =>
    refine runs_next (shiftRm_sysRun _ ?_ w c rm s)
    exact fun _ _ t => .single (.draw _ t.sys)
  | setmo w c rm => exact execSetmo_runs w c rm s
  | movsb | movsw => exact execString_runs _ _ (movsOnce_sysRun _) s
  | cmpsb | cmpsw => exact execString_runs _ _ (cmpsOnce_sysRun _) s
  | scasb | scasw => exact execString_runs _ _ (scasOnce_sysRun _) s
  | lodsb | lodsw => exact execString_runs _ _ (lodsOnce_sysRun _) s
  | stosb | stosw => exact execString_runs _ _ (stosOnce_sysRun _) s
  | jmpShort | jmpNear => exact runs_next (setIp_sysRun _ s)
  | jmpFar off seg => exact runs_next (setCsIp_sysRun seg off s)
  | jmpRm rm => exact runs_next (((suspendFetch_sysRun s).trans (rmRead_sysRun .word rm _)).trans (setIp_sysRun _ _))
  | jmpMem m => exact runs_next (((suspendFetch_sysRun s).trans (readFar_sysRun m _)).trans (setCsIp_sysRun _ _ _))
  | callNear rel => exact runs_next (((suspendFetch_sysRun s).trans (push_sysRun _ _)).trans (setIp_sysRun (ip s + rel) _))
  | callFar off seg => exact runs_next ((suspendFetch_sysRun s).trans (farCall_sysRun seg off _ _))
  | callRm rm => exact execCallRm_runs rm s
  | callMem m => exact runs_next (((suspendFetch_sysRun s).trans (readFar_sysRun m _)).trans (farCall_sysRun _ _ _ _))
  | ret | retImm => exact runs_next (retNear_sysRun _ s)
  | retf | retfImm => exact runs_next (retFar_sysRun _ s)
  | jo _ rel | jno _ rel | jb _ rel | jae _ rel | je _ rel | jne _ rel | jbe _ rel | ja _ rel | js _ rel | jns _ rel | jp _ rel
  | jnp _ rel | jl _ rel | jge _ rel | jle _ rel | jg _ rel | jcxz rel => exact runs_next (branchIf_sysRun _ rel s)
  | loop rel | loope rel | loopne rel => exact runs_next (branchIf_sysRun _ rel (decCx s))
  | int3 | int => exact enterInterrupt_runs _ _ s
  | into => exact execInto_runs s
  | iret => exact runs_next (returnFromInterrupt_sysRun s)
  | sti => exact exec_sti s ▸ runs_next .refl
  | hlt => exact execHlt_runs s
  | esc op ext rm => exact runs_next (rmRead_sysRun .word rm s)
  | popCs | movSregHigh | movCs | leaRegister | lesRegister | ldsRegister | fe2 | fe3 | fe4 | fe5 | fe6 | fe7 | callRegisterFar
  | jmpRegisterFar => trivial

/-! ### The step of the machine (R81, R95, R322) -/

theorem enterHalt_sysRun (s : State) : SysRun s.sys (enterHalt s).sys := by
  unfold enterHalt
  simp only
  split
  · exact .refl
  · exact .single (.report _ s.sys)

theorem boundary_runs (s : State) : Runs s (boundary s) := by
  unfold boundary
  simp only
  split
  · split
    · exact enterHalt_sysRun { completeInsn s with eu := { (completeInsn s).eu with intInhibit := false } }
    · exact .refl
  · split
    · exact takeInterrupt_runs _ (completeInsn s)
    · split
      · exact enterInterrupt_runs 1 _ (completeInsn s)
      · split
        · exact enterHalt_sysRun (completeInsn s)
        · exact .refl

theorem finishInsn_runs (s : State) : Runs s (finishInsn s) := by
  have ended : Runs s (boundary (busGap s)) := (boundary_runs (busGap s)).after (busGap_sysRun s)
  unfold finishInsn
  split
  · exact ended
  · exact ended
  · exact .refl
  · exact .refl
  · exact .refl

theorem fillQueue_sysRun (s : State) : SysRun s.sys (fillQueue s).sys := by
  unfold fillQueue
  split
  · simp only
    split
    · refine (busGap_sysRun s).trans (sysRun_of_draws ?_)
      exact (codeFetch_fetchOnly _).sys
    · exact busGap_sysRun s
  · exact .refl

theorem awaitByte_sysRun (s : State) : SysRun s.sys (awaitByte s).sys := by
  unfold awaitByte
  split
  · exact (idleTick_fetchOnly s).sysRun
  · exact .refl

theorem fetchByte_sysRun (s : State) : SysRun s.sys (fetchByte s).2.sys := by
  have filled := (fillQueue_sysRun s).trans (awaitByte_sysRun _)
  unfold fetchByte
  simp only
  split <;> exact filled

theorem fetchInstr_sysRun (n : Nat) (acc : List Byte) (s : State) : SysRun s.sys (fetchInstr n acc s).2.2.sys := by
  induction n generalizing acc s with
  | zero => exact .refl
  | succ n ih =>
    unfold fetchInstr
    simp only
    split
    · exact fetchByte_sysRun s
    · exact (fetchByte_sysRun s).trans (ih _ _)

theorem decodeNext_sysRun (s : State) : SysRun s.sys (decodeNext s).2.sys := by
  have fetched := fetchInstr_sysRun maxUnprefixed [] s
  unfold decodeNext
  simp only
  split
  · exact fetched
  · split <;> exact fetched

theorem execFinish_runs (i : Instr) (s : State) : Runs s (andThen (exec i s) finishInsn) :=
  (exec_runs i s).andThen fun t h => (finishInsn_runs t).after h

theorem decodeExec_runs (s : State) : Runs s (decodeExec s) := by
  unfold decodeExec
  simp only
  split
  · exact decodeNext_sysRun s
  · exact (execFinish_runs _ _).after (decodeNext_sysRun s)

theorem wakeStep_runs (s : State) : Runs s (wakeStep s) := by
  unfold wakeStep
  exact (takeInterrupt_runs (ip s) _).after .refl

theorem euStep_runs (s : State) : Runs s (euStep s) := by
  have begun : Runs s (decodeExec (beginInsn s)) := decodeExec_runs (beginInsn s)
  unfold euStep
  split
  · exact wakeStep_runs s
  · split
    · exact begun
    · exact begun
    · exact begun
    · exact decodeExec_runs s
    · unfold repeatExec
      split
      · exact .refl
      · exact execFinish_runs _ s

theorem agentStep_sysRun (u : Turn) (s : State) : SysRun s.sys (agentStep u s).sys := by
  cases u with
  | eu => exact .refl
  | prefetch => exact midStep_sysRun s .prefetch
  | fdc => exact midStep_sysRun s .fdc
  | crtc => exact midStep_sysRun s .crtc
  | clock c => exact midStep_sysRun s (.clock c)
  | host a => exact midStep_sysRun s (.host a)

/-- A step of the machine, of whichever agent, changes memory and the devices by a run of their own operations. -/
theorem step_sysRun {s t : State} (e : step s = .next t) : SysRun s.sys t.sys := by
  rcases step_cases s with ⟨-, rest, h⟩ | ⟨u, rest, -, h⟩ | ⟨rest, h⟩ | ⟨g, -, h⟩ <;> rw [h] at e
  · exact (euStep_runs { s with agenda := rest }).next e
  · cases e
    exact agentStep_sysRun u { s with agenda := rest }
  · cases e
    exact .refl
  · cases e

end Sys2Proof.Machine

namespace Sys2Proof.Machine

/-! ### The interrupt controller's `vector_base` (R241, R247) -/

@[simp] theorem Pic.setIrq_vectorBase (i : BitVec 3) (level : Bool) (p : Pic) : (p.setIrq i level).vectorBase = p.vectorBase := by
  unfold Pic.setIrq
  simp only
  split
  · rfl
  · split
    · split <;> rfl
    · rfl

@[simp] theorem Pic.ack_vectorBase (r : BitVec 3) (p : Pic) : (p.ack r).vectorBase = p.vectorBase := by
  unfold Pic.ack
  extract_lets q
  have kept : q.vectorBase = p.vectorBase := by unfold q; split <;> rfl
  clear_value q
  split
  · exact kept
  · split <;> exact kept

theorem Pic.inta_vectorBase {p q : Pic} {v : Byte} (h : p.inta = some (v, q)) : q.vectorBase = p.vectorBase := by
  unfold Pic.inta at h
  split at h
  · cases h
  · split at h
    · cases h
      rfl
    · cases h
      exact Pic.ack_vectorBase _ p

theorem Pic.read20_vectorBase (p : Pic) : p.read20.2.vectorBase = p.vectorBase := by
  unfold Pic.read20 Pic.poll
  split
  · simp only
    split
    · rfl
    · exact Pic.ack_vectorBase _ _
  · rfl

theorem Pic.ocw2_vectorBase (v : Byte) (p : Pic) : (p.ocw2 v).vectorBase = p.vectorBase := by
  unfold Pic.ocw2
  simp only
  split <;> (try split) <;> rfl

theorem Pic.write20_vectorBase (v : Byte) (p : Pic) : (p.write20 v).vectorBase = p.vectorBase := by
  unfold Pic.write20
  split
  · unfold Pic.icw1
    simp only
    split <;> rfl
  · split
    · rfl
    · exact Pic.ocw2_vectorBase v p

/-- A write to port 21h leaves `vector_base`, or makes it the five high bits of ICW2 (R247). -/
theorem Pic.write21_vectorBase (v : Byte) (p : Pic) :
    (p.write21 v).vectorBase = p.vectorBase ∨ (p.write21 v).vectorBase = v &&& 0xF8 := by
  unfold Pic.write21
  split
  case h_2 => exact .inr rfl
  all_goals exact .inl rfl

/-! ### The DMA controller's dropout counters (R265) -/

/-- Every channel's dropout counter is within `DMA_DROPOUT`. -/
def Dma.DropoutOk (x : Dma) : Prop := ∀ c, (x.ch.get c).dropout ≤ dmaDropout

theorem bitVec2_cases (i : BitVec 2) : i = 0 ∨ i = 1 ∨ i = 2 ∨ i = 3 := by
  revert i
  decide

theorem Quad.get_map {α β : Type} (f : α → β) (q : Quad α) (i : BitVec 2) : (q.map f).get i = f (q.get i) := by
  unfold Quad.get Quad.map
  split <;> rfl

theorem Quad.get_set {α : Type} (q : Quad α) (i j : BitVec 2) (v : α) : (q.set i v).get j = if j = i then v else q.get j := by
  rcases bitVec2_cases i with rfl | rfl | rfl | rfl <;> rcases bitVec2_cases j with rfl | rfl | rfl | rfl <;> rfl

theorem Dma.modify_get (c d : BitVec 2) (f : DmaChannel → DmaChannel) (x : Dma) :
    (x.modify c f).ch.get d = if d = c then f (x.ch.get c) else x.ch.get d := Quad.get_set x.ch c d _

theorem Dma.DropoutOk.modify {x : Dma} (h : x.DropoutOk) {c : BitVec 2} {f : DmaChannel → DmaChannel}
    (k : (f (x.ch.get c)).dropout ≤ dmaDropout) : (x.modify c f).DropoutOk := by
  intro d
  rw [Dma.modify_get]
  split
  · exact k
  · exact h d

theorem Dma.DropoutOk.map {x : Dma} (h : x.DropoutOk) {f : DmaChannel → DmaChannel} (k : ∀ c, (f c).dropout ≤ c.dropout) :
    Dma.DropoutOk { x with ch := x.ch.map f } := by
  intro d
  show ((x.ch.map f).get d).dropout ≤ dmaDropout
  rw [Quad.get_map]
  exact (k _).trans (h d)

theorem DmaChannel.advance_dropout (k : DmaChannel) : k.advance.dropout = dmaDropout := by
  unfold DmaChannel.advance
  simp only
  split
  · split <;> rfl
  · rfl

theorem Dma.DropoutOk.advance {x : Dma} (h : x.DropoutOk) (c : BitVec 2) : (x.modify c DmaChannel.advance).DropoutOk :=
  h.modify (DmaChannel.advance_dropout _).le

theorem Dma.DropoutOk.tick {x : Dma} (h : x.DropoutOk) (c : BitVec 2) : (x.tick c).DropoutOk :=
  h.modify ((Nat.sub_le _ 1).trans (h c))

theorem Dma.DropoutOk.write {x : Dma} (h : x.DropoutOk) (port : BitVec 4) (v : Byte) : (x.write port v).DropoutOk := by
  unfold Dma.write
  simp only
  split
  · have half : (x.modify (port.extractLsb' 1 2) fun k =>
        if port.getLsbD 0 then
          { k with baseCount := setHalf x.flipflop v k.baseCount, curCount := setHalf x.flipflop v k.curCount, tc := false }
        else { k with baseAddr := setHalf x.flipflop v k.baseAddr, curAddr := setHalf x.flipflop v k.curAddr, tc := false }).DropoutOk := by
      refine h.modify ?_
      split <;> exact h _
    exact half
  · split
    · exact h
    · exact h.modify (h _)
    · exact h.modify (h _)
    · exact h.modify (h _)
    · exact h
    · exact h.map fun c => Nat.zero_le c.dropout
    · exact h.map fun c => c.dropout.le_refl
    · intro d
      rcases bitVec2_cases d with rfl | rfl | rfl | rfl
      · exact h 0
      · exact h 1
      · exact h 2
      · exact h 3

theorem Dma.DropoutOk.read {x : Dma} (h : x.DropoutOk) (request : Bool) (port : BitVec 4) : (x.read request port).2.DropoutOk := by
  unfold Dma.read
  simp only
  split
  · exact h
  · split
    · exact h.map fun c => c.dropout.le_refl
    · exact h
    · exact h

/-! ### The three ranges together -/

/-- The ranges of `DeviceInv`, of memory and the devices alone. -/
structure Sys.DevicesOk (y : Sys) : Prop where
  vectorBase : y.pic.vectorBase &&& 7 = 0
  dropout : y.dma.DropoutOk
  resetPoll : y.fdc.resetPoll ≤ 4

theorem deviceInv_iff (s : State) : DeviceInv s ↔ s.sys.DevicesOk :=
  ⟨fun ⟨base, dropout, poll⟩ => ⟨base, dropout, poll⟩, fun ⟨base, dropout, poll⟩ => ⟨base, dropout, poll⟩⟩

/-! ### The FDC's pending reset results (R302) -/

theorem Sys.DevicesOk.setPic {y : Sys} (h : y.DevicesOk) {p : Pic} (k : p.vectorBase = y.pic.vectorBase) :
    Sys.DevicesOk { y with pic := p } := ⟨k ▸ h.vectorBase, h.dropout, h.resetPoll⟩

theorem Sys.DevicesOk.setFdc {y : Sys} (h : y.DevicesOk) {f : Fdc} (k : f.resetPoll ≤ 4) : Sys.DevicesOk { y with fdc := f } :=
  ⟨h.vectorBase, h.dropout, k⟩

theorem Sys.DevicesOk.keepFdc {y : Sys} (h : y.DevicesOk) {f : Fdc} (k : f.resetPoll = y.fdc.resetPoll := by rfl) :
    Sys.DevicesOk { y with fdc := f } := h.setFdc (k.trans_le h.resetPoll)

theorem Sys.DevicesOk.setDma {y : Sys} (h : y.DevicesOk) {x : Dma} (k : x.DropoutOk) : Sys.DevicesOk { y with dma := x } :=
  ⟨h.vectorBase, k, h.resetPoll⟩

section
variable {y : Sys} (h : y.DevicesOk)
include h

theorem Sys.DevicesOk.updateIrq : y.fdcUpdateIrq.DevicesOk := by
  unfold Sys.fdcUpdateIrq
  simp only
  split
  · exact h
  · exact h.setPic (Pic.setIrq_vectorBase ..)

theorem Sys.DevicesOk.setInt (b : Bool) : (y.fdcSetInt b).DevicesOk := h.keepFdc.updateIrq

theorem Sys.DevicesOk.drawByte : y.drawByte.2.DevicesOk := ⟨h.vectorBase, h.dropout, h.resetPoll⟩

theorem Sys.DevicesOk.report (r : Report) : (y.report r).DevicesOk := ⟨h.vectorBase, h.dropout, h.resetPoll⟩

theorem Sys.DevicesOk.writeDor (v : Byte) : (y.fdcWriteDor v).DevicesOk := by
  unfold Sys.fdcWriteDor
  simp only
  split
  · exact (h.setFdc (Nat.zero_le 4)).updateIrq
  · split
    · exact (h.setFdc (Nat.le_refl 4)).updateIrq
    · exact h.keepFdc.updateIrq

theorem Sys.DevicesOk.finishWith (d : BitVec 2) (bytes : List Byte) : (y.fdcFinishWith d bytes).DevicesOk :=
  h.keepFdc.setInt true

theorem Sys.DevicesOk.finish (op : FdcOp) (ic : BitVec 2) (st1 st2 : Byte) : (y.fdcFinish op ic st1 st2).DevicesOk :=
  h.finishWith _ _

theorem Sys.DevicesOk.senseInterrupt : y.fdcSenseInterrupt.DevicesOk := by
  have lowered := h.setInt false
  unfold Sys.fdcSenseInterrupt
  simp only
  split
  · exact lowered.setFdc ((Nat.sub_le _ 1).trans lowered.resetPoll)
  · split
    · exact lowered.keepFdc
    · exact lowered.keepFdc

theorem Sys.DevicesOk.seekEnd (d : BitVec 2) (st : Byte) : (y.fdcSeekEnd d st).DevicesOk := h.keepFdc.setInt true

theorem Sys.DevicesOk.seek (d : BitVec 2) (hd : Bool) (ncn : Byte) : (y.fdcSeek d hd ncn).DevicesOk := by
  unfold Sys.fdcSeek
  simp only
  split
  · exact h.keepFdc.seekEnd d _
  · exact h.keepFdc.seekEnd d _

theorem Sys.DevicesOk.recalibrate (d : BitVec 2) : (y.fdcRecalibrate d).DevicesOk := h.keepFdc.seekEnd d _

theorem Sys.DevicesOk.startOperation (kind : OpKind) : (y.fdcStartOperation kind).DevicesOk := by
  unfold Sys.fdcStartOperation
  simp only
  split
  · exact h.keepFdc
  · split
    · exact h.keepFdc.finish _ _ _ _
    · split
      · exact h.keepFdc.finish _ _ _ _
      · split
        · exact h.keepFdc.finish _ _ _ _
        · exact h.keepFdc

theorem Sys.DevicesOk.dispatch : y.fdcDispatch.DevicesOk := by
  have cleared : Sys.DevicesOk { y with fdc := { y.fdc with resetPoll := 0 } } := h.setFdc (Nat.zero_le 4)
  unfold Sys.fdcDispatch
  simp only
  split
  · exact h.senseInterrupt
  · split
    · exact cleared.keepFdc
    · exact cleared.keepFdc
    · exact cleared.recalibrate _
    · exact cleared.seek _ _ _
    · exact cleared.startOperation _
    · exact cleared.startOperation _
    · exact cleared.startOperation _
    · exact cleared.startOperation _
    · exact cleared.startOperation _
    · exact cleared.keepFdc

theorem Sys.DevicesOk.writeData (v : Byte) : (y.fdcWriteData v).DevicesOk := by
  unfold Sys.fdcWriteData
  split
  · have received := (h.setInt false).setFdc (f := { (y.fdcSetInt false).fdc with
      cmdFifo := [v], cmdLen := commandBytes (v.extractLsb' 0 5) }) (h.setInt false).resetPoll
    simp only
    split
    · exact received.dispatch
    · exact received.keepFdc
  · have received := h.setFdc (f := { y.fdc with cmdFifo := y.fdc.cmdFifo ++ [v] }) h.resetPoll
    simp only
    split
    · exact received.dispatch
    · exact received
  · exact h.report _
  · exact h.report _
  · exact h.report _

theorem Sys.DevicesOk.readData : y.fdcReadData.2.DevicesOk := by
  unfold Sys.fdcReadData
  split
  · rename_i v rest _ _
    have read := h.setFdc (f := { y.fdc with resFifo := rest, resRead := y.fdc.resRead + 1 }) h.resetPoll
    have lowered : (if y.fdc.resRead + 1 = 1 then
        Sys.fdcSetInt false { y with fdc := { y.fdc with resFifo := rest, resRead := y.fdc.resRead + 1 } }
      else { y with fdc := { y.fdc with resFifo := rest, resRead := y.fdc.resRead + 1 } }).DevicesOk := by
      split
      · exact read.setInt false
      · exact read
    simp only
    split
    · exact lowered.keepFdc
    · exact lowered
  · exact h.drawByte

/-! ### One operation tick (R313, R315, R316) -/

theorem Sys.DevicesOk.dmaWrite (c : Config) (n : BitVec 2) (v : Byte) : (y.dmaWrite c n v).DevicesOk := by
  unfold Sys.dmaWrite
  simp only
  split <;> exact ⟨h.vectorBase, h.dropout.advance n, h.resetPoll⟩

theorem Sys.DevicesOk.readByte (c : Config) (a : Phys) : (y.readByte c a).2.DevicesOk := by
  unfold Sys.readByte
  split
  · exact h
  · exact h.drawByte

theorem Sys.DevicesOk.dmaRead (c : Config) (n : BitVec 2) : (y.dmaRead c n).2.DevicesOk := by
  unfold Sys.dmaRead
  simp only
  split
  · exact h.drawByte.setDma (h.drawByte.dropout.advance n)
  · exact (h.readByte c _).setDma ((h.readByte c _).dropout.advance n)

theorem Sys.DevicesOk.firstTick (op : FdcOp) : (y.fdcFirstTick op).DevicesOk := by
  unfold Sys.fdcFirstTick
  simp only
  split
  · exact h.keepFdc.keepFdc.finish _ _ _ _
  · exact h.keepFdc

theorem Sys.DevicesOk.afterByte (op : FdcOp) (tc : Bool) : (y.fdcAfterByte op tc).DevicesOk := by
  unfold Sys.fdcAfterByte
  extract_lets counted heads moved stored
  have kept : stored.DevicesOk := h.keepFdc
  split
  · clear_value stored
    split
    · exact kept.finish _ _ _ _
    · split
      · exact kept.keepFdc.finish _ _ _ _
      · split
        · exact kept.keepFdc
        · exact kept.keepFdc.finish _ _ _ _
  · split
    · exact h.finish _ _ _ _
    · exact h.keepFdc

theorem Sys.DevicesOk.transferTick (c : Config) (op : FdcOp) : (y.fdcTransferTick c op).1.DevicesOk := by
  unfold Sys.fdcTransferTick
  simp only
  split
  · exact h
  · split
    · exact h.keepFdc.finish _ _ _ _
    · refine Sys.DevicesOk.afterByte ?_ _ _
      split
      · exact (h.dmaRead c 2).keepFdc
      · exact h.dmaWrite c 2 _

theorem Sys.DevicesOk.formatTick (c : Config) (op : FdcOp) : (y.fdcFormatTick c op).1.DevicesOk := by
  unfold Sys.fdcFormatTick
  extract_lets go read _ _ serviced
  have kept : serviced.DevicesOk := by
    unfold serviced
    split
    · exact (h.dmaRead c 2).keepFdc
    · exact h
  clear_value serviced
  split
  · exact kept.keepFdc.finishWith _ _
  · exact kept

theorem Sys.DevicesOk.opTick (c : Config) (op : FdcOp) : (y.fdcOpTick c op).1.DevicesOk := by
  have transfer : (if op.started then y.fdcTransferTick c op else (y.fdcFirstTick op, false)).1.DevicesOk := by
    split
    · exact h.transferTick c op
    · exact h.firstTick op
  unfold Sys.fdcOpTick
  split
  · exact h.finish _ _ _ _
  · split
    · exact h.formatTick c op
    · exact h.keepFdc
  · exact transfer
  · exact transfer
  · exact transfer

theorem Sys.DevicesOk.fdcStep (c : Config) : (y.fdcStep c).1.DevicesOk := by
  unfold Sys.fdcStep
  split
  · split
    · exact h
    · rename_i op _ _ _
      have ticked := h.opTick c op
      simp only
      split
      · exact ticked
      · exact ticked.setDma (ticked.dropout.tick 2)
  · exact h

/-! ### Every operation keeps the ranges -/

theorem Sys.DevicesOk.crtcWrite (c : Config) (k : BitVec 4) (v : Byte) : (y.crtcWrite c k v).DevicesOk := by
  unfold Sys.crtcWrite
  simp only
  split
  · split
    · split
      · exact ⟨h.vectorBase, h.dropout, h.resetPoll⟩
      · exact h.report _
    · exact ⟨h.vectorBase, h.dropout, h.resetPoll⟩
  · split <;> exact ⟨h.vectorBase, h.dropout, h.resetPoll⟩

theorem Sys.DevicesOk.crtcRead (k : BitVec 4) : (y.crtcRead k).2.DevicesOk := by
  unfold Sys.crtcRead
  split
  · split
    · exact h
    · exact h.drawByte
  · split
    · exact h.drawByte
    · exact h.drawByte

theorem Sys.DevicesOk.portRead (c : Config) (port : Word) : (y.portRead c port).2.DevicesOk := by
  unfold Sys.portRead
  split
  · rename_i p _
    have read := h.setDma (h.dropout.read y.fdc.dmaRequest p)
    simp only
    split
    · exact read
    · exact read.drawByte
  · exact h.setPic (Pic.read20_vectorBase y.pic)
  · exact h
  · exact h
  · exact h.crtcRead _
  · unfold Sys.fdcRead
    split
    · exact h
    · exact h.readData
    · exact h.drawByte
  · exact h.drawByte

theorem Sys.DevicesOk.portWrite (c : Config) (port : Word) (v : Byte) : (y.portWrite c port v).DevicesOk := by
  unfold Sys.portWrite
  split
  · exact h.setDma (h.dropout.write _ v)
  · exact h.setPic (Pic.write20_vectorBase v y.pic)
  · rcases Pic.write21_vectorBase v y.pic with kept | written
    · exact h.setPic kept
    · refine ⟨?_, h.dropout, h.resetPoll⟩
      rw [written, BitVec.and_assoc]
      exact BitVec.and_zero
  · exact h.setDma h.dropout
  · exact h.crtcWrite c _ v
  · unfold Sys.fdcWrite
    split
    · exact h.writeDor v
    · exact h.writeData v
    · exact h
  · exact h

theorem Sys.DevicesOk.envIrq (i : BitVec 3) (level : Bool) : (envIrq i level y).DevicesOk := by
  unfold Machine.envIrq
  split
  · exact h
  · exact h.setPic (Pic.setIrq_vectorBase ..)

end

/-- Dots that the spec leaves open are draws (R291, R292). -/
theorem Sys.drawDots_draws (w : Nat) (y : Sys) : ∃ d, (Sys.drawDots w y).2 = { y with drawCtr := d } := by
  induction w generalizing y with
  | zero => exact ⟨y.drawCtr, rfl⟩
  | succ w ih =>
    obtain ⟨d, drawn⟩ := ih y.drawByte.2
    exact ⟨d, drawn⟩

theorem Sys.activeDots_draws (c : Config) (y : Sys) : ∃ d, (y.activeDots c).2 = { y with drawCtr := d } := by
  have same : ∃ d, y = { y with drawCtr := d } := ⟨y.drawCtr, rfl⟩
  unfold Sys.activeDots
  simp only
  split
  · exact same
  · split
    · exact same
    · split
      · exact same
      · split
        · exact Sys.drawDots_draws _ y
        · split <;> exact same

theorem Sys.borderDots_draws (c : Config) (y : Sys) : ∃ d, (y.borderDots c).2 = { y with drawCtr := d } := by
  unfold Sys.borderDots
  simp only
  split
  · exact ⟨y.drawCtr, rfl⟩
  · split
    · exact Sys.drawDots_draws _ y
    · exact ⟨y.drawCtr, rfl⟩

theorem Sys.dots_draws (c : Config) (y : Sys) : ∃ d, (y.dots c).2 = { y with drawCtr := d } := by
  unfold Sys.dots
  simp only
  split
  · exact ⟨y.drawCtr, rfl⟩
  · split
    · exact Sys.activeDots_draws c y
    · exact Sys.borderDots_draws c y

theorem Sys.DevicesOk.crtcStep {y : Sys} (h : y.DevicesOk) (c : Config) (cycle : Nat) : (y.crtcStep c cycle).DevicesOk := by
  obtain ⟨d, drawn⟩ := Sys.dots_draws c y
  have dots : (y.dots c).2.DevicesOk := drawn ▸ ⟨h.vectorBase, h.dropout, h.resetPoll⟩
  exact ⟨dots.vectorBase, dots.dropout, dots.resetPoll⟩

theorem Fdc.mount_resetPoll (c : Config) (d : BitVec 2) (size : Nat) (bytes : List Host.Cell) (wp : Bool) (f : Fdc) :
    (f.mount c d size bytes wp).resetPoll = f.resetPoll := by
  unfold Fdc.mount Fdc.insert
  split
  · rfl
  · split
    · split <;> rfl
    · rfl

theorem Fdc.eject_resetPoll (d : BitVec 2) (f : Fdc) : (f.eject d).resetPoll = f.resetPoll := by
  unfold Fdc.eject
  split <;> rfl

theorem Fdc.setWriteProtect_resetPoll (d : BitVec 2) (wp : Bool) (f : Fdc) : (f.setWriteProtect d wp).resetPoll = f.resetPoll := by
  unfold Fdc.setWriteProtect
  split <;> rfl

theorem SysOp.keeps_devicesOk {y z : Sys} (op : SysOp y z) (h : y.DevicesOk) : z.DevicesOk := by
  cases op with
  | draw | writeByte | tag | report => exact ⟨h.vectorBase, h.dropout, h.resetPoll⟩
  | portRead c port => exact h.portRead c port
  | portWrite c port v => exact h.portWrite c port v
  | fdcStep c => exact h.fdcStep c
  | crtcStep c cycle => exact h.crtcStep c cycle
  | envIrq i level => exact h.envIrq i level
  | inta answer => exact h.setPic (Pic.inta_vectorBase answer)
  | mount => exact h.keepFdc (Fdc.mount_resetPoll ..)
  | eject => exact h.keepFdc (Fdc.eject_resetPoll ..)
  | protect => exact h.keepFdc (Fdc.setWriteProtect_resetPoll ..)

/-- Settles O58: a step is a run of the operations on memory and the devices, and each of them keeps the three ranges. -/
theorem stepKeepsDeviceInv : Obligations.StepKeepsDeviceInv := by
  unfold Obligations.StepKeepsDeviceInv
  intro s t inv e
  rw [deviceInv_iff] at inv ⊢
  exact (step_sysRun e).keeps (fun _ _ => SysOp.keeps_devicesOk) inv

end Sys2Proof.Machine

namespace Sys2Proof.Machine

/-! ### One bit of a byte -/

theorem getLsbD_one_shiftLeft (i j : BitVec 3) : ((1 : Byte) <<< i.toNat).getLsbD j.toNat = decide (j = i) := by
  have hi : i.toNat < 8 := i.isLt
  show (BitVec.twoPow 8 i.toNat).getLsbD j.toNat = _
  rw [BitVec.getLsbD_twoPow, decide_eq_true hi, Bool.true_and, decide_eq_decide, BitVec.toNat_inj]
  exact eq_comm

theorem bitOf_setBit (v : Byte) (i j : BitVec 3) (b : Bool) :
    bitOf (setBit v i.toNat b) j.toNat = if j = i then b else bitOf v j.toNat := by
  have hj : j.toNat < 8 := j.isLt
  unfold setBit bitOf
  cases b with
  | true =>
    rw [if_pos rfl, BitVec.getLsbD_or, getLsbD_one_shiftLeft]
    by_cases e : j = i <;> simp [e]
  | false =>
    rw [if_neg Bool.false_ne_true, BitVec.getLsbD_and, BitVec.getLsbD_not, getLsbD_one_shiftLeft]
    by_cases e : j = i <;> simp [e, hj]

/-! ### The priority order (R243) -/

theorem Pic.rank_order (p : Pic) (k : BitVec 3) : p.rank (p.lowest + 1 + k) = k.toNat := by
  unfold Pic.rank
  congr 1
  ring

theorem Pic.rank_injective (p : Pic) {i j : BitVec 3} (h : p.rank i = p.rank j) : i = j := by
  unfold Pic.rank at h
  have := BitVec.eq_of_toNat_eq h
  simpa using this

theorem mem_irLevels (k : BitVec 3) : k ∈ irLevels := by
  revert k
  decide

theorem Pic.mem_order (p : Pic) (i : BitVec 3) : i ∈ p.order := by
  refine List.mem_map.mpr ⟨i - p.lowest - 1, mem_irLevels _, ?_⟩
  ring

/-- The order goes from the smallest rank to the largest. -/
theorem Pic.order_pairwise (p : Pic) : p.order.Pairwise fun i j => p.rank i < p.rank j := by
  refine List.pairwise_map.mpr ?_
  simp only [Pic.rank_order]
  decide

/-- The first level of the order that meets a condition is the one of smallest rank that does. -/
theorem Pic.find?_order_iff (p : Pic) (c : BitVec 3 → Bool) (r : BitVec 3) :
    p.order.find? c = some r ↔ c r = true ∧ ∀ j, c j = true → p.rank r ≤ p.rank j := by
  have first {r : BitVec 3} (h : p.order.find? c = some r) : c r = true ∧ ∀ j, c j = true → p.rank r ≤ p.rank j := by
    obtain ⟨meets, before, after, split, none⟩ := List.find?_eq_some_iff_append.mp h
    refine ⟨meets, fun j hj => ?_⟩
    have sorted := p.order_pairwise
    have mem := p.mem_order j
    rw [split] at sorted mem
    rcases List.mem_append.mp mem with early | late
    · exact absurd hj (by simpa using none j early)
    · rcases List.mem_cons.mp late with rfl | late
      · exact Nat.le_refl _
      · exact (List.rel_of_pairwise_cons (List.pairwise_append.mp sorted).2.1 late).le
  refine ⟨first, fun ⟨meets, least⟩ => ?_⟩
  cases h : p.order.find? c with
  | none => exact absurd meets (List.find?_eq_none.mp h r (p.mem_order r))
  | some q =>
    obtain ⟨found, smallest⟩ := first h
    rw [p.rank_injective (Nat.le_antisymm (smallest r meets) (least q found))]

theorem Pic.best_iff (p : Pic) (r : BitVec 3) :
    p.best = some r ↔ p.permitted r = true ∧ ∀ j, p.permitted j = true → p.rank r ≤ p.rank j :=
  p.find?_order_iff p.permitted r

theorem Pic.best_eq_none_iff (p : Pic) : p.best = none ↔ ∀ j, p.permitted j = false := by
  unfold Pic.best
  rw [List.find?_eq_none]
  exact ⟨fun h j => Bool.eq_false_iff.mpr (h j (p.mem_order j)), fun h j _ => Bool.eq_false_iff.mp (h j)⟩

/-! ### The acknowledge (R245, R246) -/

/-- In special mask mode and outside it a level in service is not permitted (R243). -/
theorem Pic.permitted_of_inService {p : Pic} {r : BitVec 3} (h : bitOf p.isr r.toNat = true) : p.permitted r = false := by
  have here : (irLevels.all fun j => !(bitOf p.isr j.toNat && decide (p.rank j ≤ p.rank r))) = false :=
    List.all_eq_false.mpr ⟨r, mem_irLevels r, by simp [h]⟩
  unfold Pic.permitted
  rw [h, here]
  simp

theorem Pic.ack_isr (p : Pic) (r : BitVec 3) (h : p.aeoi = false) : (p.ack r).isr = setBit p.isr r.toNat true := by
  unfold Pic.ack
  cases l : p.ltim <;> simp [h]

theorem Pic.ack_irr (p : Pic) (r : BitVec 3) (h : p.ltim = false) : (p.ack r).irr = setBit p.irr r.toNat false := by
  unfold Pic.ack
  simp only [h, Bool.false_eq_true, if_false]
  split
  · rfl
  · split <;> rfl

theorem Pic.ack_kept (p : Pic) (r : BitVec 3) : (p.ack r).imr = p.imr ∧ (p.ack r).lines = p.lines := by
  unfold Pic.ack
  extract_lets q
  have kept : q.imr = p.imr ∧ q.lines = p.lines := by unfold q; split <;> exact ⟨rfl, rfl⟩
  clear_value q
  split
  · exact kept
  · split <;> exact kept

theorem Pic.inta_of_best_none {p : Pic} (upm : p.upm = true) (h : p.best = none) : p.inta = some (p.vectorBase + 7, p) := by
  simp [Pic.inta, upm, h]

theorem Pic.inta_of_best {p : Pic} (upm : p.upm = true) {r : BitVec 3} (h : p.best = some r) :
    p.inta = some (p.vectorBase + r.zeroExtend 8, p.ack r) := by
  simp [Pic.inta, upm, h]

/-- Settles O51: the resolver takes the first level of an order sorted by rank, and a level in service is never permitted. -/
theorem picAcknowledge : Obligations.PicAcknowledge := by
  unfold Obligations.PicAcknowledge
  intro p
  refine ⟨p.best_iff, p.best_eq_none_iff, Pic.inta_of_best_none, fun upm r best => ⟨_, Pic.inta_of_best upm best, fun edge i => ?_,
    fun noAeoi => ⟨fun i => ?_, Pic.permitted_of_inService ?_⟩, (p.ack_kept r).1, (p.ack_kept r).2, Pic.ack_vectorBase r p⟩⟩
  · rw [Pic.ack_irr p r edge, bitOf_setBit]
    by_cases e : i = r <;> simp [e]
  · rw [Pic.ack_isr p r noAeoi, bitOf_setBit]
    by_cases e : i = r <;> simp [e]
  · rw [Pic.ack_isr p r noAeoi, bitOf_setBit, if_pos rfl]

/-! ### Initialisation and the end of an interrupt (R247, R249) -/

theorem portWrite_20 (c : Config) (v : Byte) (y : Sys) : y.portWrite c 0x20 v = { y with pic := y.pic.write20 v } := rfl

theorem portWrite_21 (c : Config) (v : Byte) (y : Sys) : y.portWrite c 0x21 v = { y with pic := y.pic.write21 v } := rfl

theorem Pic.write20_nonSpecificEoi {p : Pic} {h : BitVec 3} (serving : p.highestInService = some h) :
    p.write20 0x20 = { p with isr := setBit p.isr h.toNat false } := by
  show p.ocw2 0x20 = _
  have eoi : p.ocw2 0x20 = match p.highestInService with
    | none => p
    | some h => { p with isr := setBit p.isr h.toNat false } := rfl
  rw [eoi, serving]

/-- Settles O52: ICW1 13h announces ICW2 and ICW4 and no ICW3, and the level that the end of an interrupt clears is the first in
service of the priority order. -/
theorem picInitAndEoi : Obligations.PicInitAndEoi := by
  unfold Obligations.PicInitAndEoi
  refine fun c y => ⟨fun v => ?_, fun h inService least => ?_⟩
  · rw [portWrite_20, portWrite_21, portWrite_21]
    exact ⟨rfl, rfl, rfl, rfl, rfl, rfl, rfl, rfl, rfl⟩
  · have serving : y.pic.highestInService = some h := (y.pic.find?_order_iff _ h).mpr ⟨inService, least⟩
    simp only [portWrite_20, Pic.write20_nonSpecificEoi serving, bitOf_setBit]
    refine ⟨trivial, fun i => ?_⟩
    by_cases e : i = h <;> simp [e]

/-! ### The flag instructions (R209 to R213) -/

/-- Settles O41: each byte decodes to its instruction, whose meaning is one update of FLAGS. -/
theorem flagInstructions : Obligations.FlagInstructions := by
  unfold Obligations.FlagInstructions
  exact ⟨fun bs => ⟨rfl, rfl, rfl, rfl, rfl⟩, fun s => ⟨rfl, rfl, rfl, rfl, rfl⟩⟩

end Sys2Proof.Machine

namespace Sys2Proof.Machine

/-! ### The registers of the 6845 (R270, R271) -/

/-- The low bits of a byte, extended again, are the byte under a mask. -/
theorem zeroExtend_truncate (v : Byte) {n : Nat} (h : n ≤ 8) :
    (v.truncate n).zeroExtend 8 = v &&& BitVec.ofNat 8 (2 ^ n - 1) := by
  have fits : 2 ^ n ≤ 2 ^ 8 := Nat.pow_le_pow_right (by decide) h
  have pos : 0 < 2 ^ n := Nat.two_pow_pos n
  apply BitVec.eq_of_toNat_eq
  rw [BitVec.toNat_and, BitVec.toNat_ofNat, Nat.mod_eq_of_lt (by omega : 2 ^ n - 1 < 2 ^ 8), Nat.and_two_pow_sub_one_eq_mod,
    BitVec.zeroExtend, BitVec.toNat_setWidth, BitVec.truncate, BitVec.toNat_setWidth]
  exact Nat.mod_eq_of_lt ((Nat.mod_lt _ pos).trans_le fits)

/-- CR0 to CR17 in order, each in a byte. -/
def CrtcRegs.values (r : CrtcRegs) : List Byte := (List.range 18).map fun k => r.value (BitVec.ofNat 5 k)

theorem CrtcRegs.value_eq (r : CrtcRegs) (j : BitVec 5) : r.value j = r.values.getD j.toNat 0 := by
  by_cases h : j.toNat < 18
  · simp [CrtcRegs.values, h]
  · rw [List.getD_eq_default _ _ (by simpa [CrtcRegs.values] using h)]
    unfold CrtcRegs.value
    split
    case h_19 => rfl
    all_goals omega

/-- Registers 0 to 15 are written, each at its width, and no other is (R270, R271). -/
theorem CrtcRegs.write_spec (i : BitVec 5) (v : Byte) (r : CrtcRegs) :
    (16 ≤ i.toNat ∧ r.write i v = none) ∨
      i.toNat < 16 ∧ ∃ q, r.write i v = some q ∧ q.values = r.values.set i.toNat (v &&& crtcMask i) := by
  have eight : v &&& 0xFF = v := BitVec.and_allOnes
  have seven : v &&& 0x7F = (v.truncate 7).zeroExtend 8 := (zeroExtend_truncate v (n := 7) (by decide)).symm
  have six : v &&& 0x3F = (v.truncate 6).zeroExtend 8 := (zeroExtend_truncate v (n := 6) (by decide)).symm
  have five : v &&& 0x1F = (v.truncate 5).zeroExtend 8 := (zeroExtend_truncate v (n := 5) (by decide)).symm
  have two : v &&& 0x03 = (v.truncate 2).zeroExtend 8 := (zeroExtend_truncate v (n := 2) (by decide)).symm
  unfold CrtcRegs.write
  split
  case h_17 =>
    simp only [imp_false] at *
    exact .inl ⟨by omega, trivial⟩
  all_goals
    rename_i n
    refine .inr ⟨by omega, _, rfl, ?_⟩
    simp only [crtcMask, n, eight, seven, six, five, two]
    rfl

theorem CrtcRegs.read_eq (i : BitVec 5) (r : CrtcRegs) : r.read i = if 14 ≤ i ∧ i ≤ 17 then r.value i else 0 := by
  simp only [BitVec.le_def]
  unfold CrtcRegs.read
  split
  case h_5 =>
    simp only [imp_false] at *
    rw [if_neg]
    rintro ⟨low, high⟩
    have low : 14 ≤ i.toNat := low
    have high : i.toNat ≤ 17 := high
    omega
  all_goals
    rename_i n
    rw [if_pos (by rw [n]; decide)]
    unfold CrtcRegs.value
    rw [n]
    rfl

theorem toNat_append_eq {n m : Nat} (a : BitVec n) (b : BitVec m) : (a ++ b).toNat = a.toNat * 2 ^ m + b.toNat := by
  rw [BitVec.toNat_append, ← Nat.shiftLeft_add_eq_or_of_lt b.isLt, Nat.shiftLeft_eq]

theorem CrtcRegs.startAddress_toNat (r : CrtcRegs) : r.startAddress.toNat = (r.value 12).toNat * 256 + (r.value 13).toNat := by
  have high : (r.value 12).toNat = r.startHigh.toNat := by
    exact BitVec.toNat_setWidth_of_le (by decide)
  rw [high]
  exact toNat_append_eq r.startHigh r.startLow

theorem CrtcRegs.cursorAddress_toNat (r : CrtcRegs) : r.cursorAddress.toNat = (r.value 14).toNat * 256 + (r.value 15).toNat := by
  have high : (r.value 14).toNat = r.cursorHigh.toNat := BitVec.toNat_setWidth_of_le (by decide)
  rw [high]
  exact toNat_append_eq r.cursorHigh r.cursorLow

/-- The first port of the adapter that is present (R269). -/
def videoBase (c : Config) : Word := match c.videoAdapter with | .cga => 0x3D0 | .mda => 0x3B0

theorem portOwner_videoBase (c : Config) :
    portOwner c (videoBase c + 4) = .video 4 ∧ portOwner c (videoBase c + 5) = .video 5 := by
  unfold portOwner videoBase
  cases c.videoAdapter <;> exact ⟨rfl, rfl⟩

theorem portWrite_crtcIndex (c : Config) (v : Byte) (y : Sys) :
    y.portWrite c (videoBase c + 4) v = { y with crtc := { y.crtc with index := v.truncate 5 } } := by
  unfold Sys.portWrite
  rw [(portOwner_videoBase c).1]
  rfl

theorem portWrite_crtcData (c : Config) (v : Byte) (y : Sys) :
    y.portWrite c (videoBase c + 5) v =
      match y.crtc.regs.write y.crtc.index v with
      | some r => { y with crtc := { y.crtc with regs := r } }
      | none => y.report (.crtcWrite y.crtc.index) := by
  unfold Sys.portWrite
  rw [(portOwner_videoBase c).2]
  rfl

theorem portRead_crtcData (c : Config) (y : Sys) : (y.portRead c (videoBase c + 5)).1 = y.crtc.regs.read y.crtc.index := by
  unfold Sys.portRead
  rw [(portOwner_videoBase c).2]
  rfl

/-- The values after a write of a register (R270, R271). -/
theorem CrtcRegs.value_of_written {i : BitVec 5} {v : Byte} {r q : CrtcRegs}
    (h : q.values = r.values.set i.toNat (v &&& crtcMask i)) (small : i.toNat < 16) (j : BitVec 5) :
    q.value j = if j = i then v &&& crtcMask i else r.value j := by
  have inside : i.toNat < r.values.length := Nat.lt_trans small (by decide : 16 < 18)
  rw [CrtcRegs.value_eq, CrtcRegs.value_eq r, h, List.getD_eq_getElem?_getD, List.getD_eq_getElem?_getD, List.getElem?_set]
  by_cases e : j = i
  · simp [e, inside]
  · have apart : i.toNat ≠ j.toNat := fun k => e (BitVec.eq_of_toNat_eq k.symm)
    simp [e, apart]

/-- Settles O55: the index port stores five bits of the byte, and the data port is `write_spec` and `read_eq` of the register they
select. -/
theorem crtcRegisterAccess : Obligations.CrtcRegisterAccess := by
  unfold Obligations.CrtcRegisterAccess
  intro c y i v
  extract_lets base a b idx
  have port : base = videoBase c := rfl
  clear_value base
  subst port
  have index : a = { y with crtc := { y.crtc with index := idx } } := portWrite_crtcIndex c i y
  have data : b = _ := portWrite_crtcData c v a
  rw [portRead_crtcData, CrtcRegs.read_eq]
  clear_value a b
  subst index
  have addresses := And.intro b.crtc.regs.startAddress_toNat b.crtc.regs.cursorAddress_toNat
  rcases CrtcRegs.write_spec idx v y.crtc.regs with ⟨high, refused⟩ | ⟨low, q, written, values⟩
  · simp only [refused] at data
    subst data
    exact ⟨rfl, rfl, rfl, fun _ _ => rfl, fun small => absurd high (Nat.not_le.mpr small), fun _ => ⟨rfl, rfl⟩, rfl, addresses⟩
  · simp only [written] at data
    subst data
    have value := CrtcRegs.value_of_written values low
    exact ⟨rfl, rfl, rfl, fun j other => (value j).trans (if_neg other), fun _ => ⟨(value idx).trans (if_pos rfl), rfl⟩,
      fun large => absurd large (Nat.not_le.mpr low), rfl, addresses⟩

end Sys2Proof.Machine

namespace Sys2Proof.Machine

/-! ### One serviced byte (R264) -/

/-- The address after a byte, in the direction of the mode (R257, R264). -/
def DmaChannel.nextAddr (k : DmaChannel) : Word := if k.decrement then k.curAddr - 1 else k.curAddr + 1

/-- A count that does not underflow. -/
theorem DmaChannel.advance_of_count {k : DmaChannel} (h : k.curCount ≠ 0) :
    k.advance = { k with curAddr := k.nextAddr, curCount := k.curCount - 1, tc := false, dropout := dmaDropout } :=
  if_neg (by bv_omega)

/-- A count that underflows: the terminal count, and the channel reloaded or masked. -/
theorem DmaChannel.advance_of_zero {k : DmaChannel} (h : k.curCount = 0) :
    k.advance =
      if k.autoInit then
        { k with curAddr := k.baseAddr, curCount := k.baseCount, tc := true, tcStatus := true, dropout := dmaDropout }
      else { k with curAddr := k.nextAddr, curCount := 0xFFFF, tc := true, tcStatus := true, mask := true, dropout := dmaDropout } := by
  have wrap : k.curCount - 1 = 0xFFFF := by bv_omega
  unfold DmaChannel.advance
  rw [wrap, if_pos rfl]
  rfl

theorem DmaChannel.advance_spec (k : DmaChannel) :
    let t := k.advance
    t.dropout = dmaDropout ∧ t.mode = k.mode ∧ t.baseAddr = k.baseAddr ∧ t.baseCount = k.baseCount ∧
      t.tc = decide (k.curCount = 0) ∧
      (k.curCount ≠ 0 ∨ k.autoInit = false → t.curAddr = k.nextAddr) ∧
      (k.curCount ≠ 0 → t.curCount.toNat + 1 = k.curCount.toNat ∧ t.mask = k.mask ∧ t.tcStatus = k.tcStatus) ∧
      (k.curCount = 0 → t.tcStatus = true ∧
        (k.autoInit = true → t.curAddr = k.baseAddr ∧ t.curCount = k.baseCount ∧ t.mask = k.mask) ∧
        (k.autoInit = false → t.mask = true ∧ t.curCount = 0xFFFF)) := by
  by_cases zero : k.curCount = 0
  · rw [DmaChannel.advance_of_zero zero]
    cases auto : k.autoInit <;> simp [zero]
  · rw [DmaChannel.advance_of_count zero]
    have down : (k.curCount - 1).toNat + 1 = k.curCount.toNat := by bv_omega
    exact ⟨rfl, rfl, rfl, rfl, (decide_eq_false zero).symm, fun _ => rfl, fun _ => ⟨down, rfl, rfl⟩, fun h => absurd h zero⟩

theorem Dma.address_toNat (x : Dma) (c : BitVec 2) :
    (x.address c).toNat = (x.page c).toNat * 65536 + (x.ch.get c).curAddr.toNat := toNat_append_eq (x.page c) (x.ch.get c).curAddr

theorem Sys.dmaWrite_mem (cfg : Config) (c : BitVec 2) (v : Byte) (y : Sys) :
    (y.dmaWrite cfg c v).mem = if (y.dma.ch.get c).transferType = 0 then y.mem else poke cfg y.mem (y.dma.address c) v := by
  unfold Sys.dmaWrite
  simp only
  split <;> rfl

theorem Sys.dmaWrite_dma (cfg : Config) (c : BitVec 2) (v : Byte) (y : Sys) :
    (y.dmaWrite cfg c v).dma = y.dma.modify c DmaChannel.advance := by
  unfold Sys.dmaWrite
  simp only
  split <;> rfl

theorem Sys.readByte_keeps (cfg : Config) (a : Phys) (y : Sys) :
    (y.readByte cfg a).2.mem = y.mem ∧ (y.readByte cfg a).2.dma = y.dma ∧
      ∀ b, peek cfg y.mem a = some b → (y.readByte cfg a).1 = b := by
  unfold Sys.readByte
  cases peek cfg y.mem a with
  | none => exact ⟨rfl, rfl, fun b h => nomatch h⟩
  | some v => exact ⟨rfl, rfl, fun b h => Option.some.inj h⟩

theorem Sys.dmaRead_spec (cfg : Config) (c : BitVec 2) (y : Sys) :
    (y.dmaRead cfg c).2.mem = y.mem ∧ (y.dmaRead cfg c).2.dma = y.dma.modify c DmaChannel.advance ∧
      ((y.dma.ch.get c).transferType ≠ 0 → ∀ b, peek cfg y.mem (y.dma.address c) = some b → (y.dmaRead cfg c).1 = b) := by
  obtain ⟨mem, dma, byte⟩ := y.readByte_keeps cfg (y.dma.address c)
  unfold Sys.dmaRead
  by_cases verify : (y.dma.ch.get c).transferType = 0
  · simp only [verify, if_true]
    exact ⟨rfl, rfl, fun h => absurd rfl h⟩
  · simp only [verify, if_false]
    exact ⟨mem, by rw [dma], fun _ => byte⟩

/-! ### The address and count ports (R255, R256) -/

/-- The half that the byte pointer selects, of the base and the current register of an address or a count port. -/
def DmaChannel.load (count hi : Bool) (v : Byte) (k : DmaChannel) : DmaChannel :=
  if count then { k with baseCount := setHalf hi v k.baseCount, curCount := setHalf hi v k.curCount, tc := false }
  else { k with baseAddr := setHalf hi v k.baseAddr, curAddr := setHalf hi v k.curAddr, tc := false }

theorem Dma.write_register {p : BitVec 4} (h : p < 8) (v : Byte) (x : Dma) :
    x.write p v = { x.modify (p.extractLsb' 1 2) (DmaChannel.load (p.getLsbD 0) x.flipflop v) with flipflop := !x.flipflop } :=
  if_pos h

theorem Dma.read_register {p : BitVec 4} (h : p < 8) (request : Bool) (x : Dma) :
    x.read request p =
      (some (getHalf x.flipflop (if p.getLsbD 0 then (x.ch.get (p.extractLsb' 1 2)).curCount else (x.ch.get (p.extractLsb' 1 2)).curAddr)),
        { x with flipflop := !x.flipflop }) :=
  if_pos h

/-- Two halves loaded one after the other, low byte first. -/
theorem DmaChannel.load_load (count : Bool) (lo hi : Byte) (k : DmaChannel) :
    (k.load count false lo).load count true hi =
      if count then { k with baseCount := wordOf lo hi, curCount := wordOf lo hi, tc := false }
      else { k with baseAddr := wordOf lo hi, curAddr := wordOf lo hi, tc := false } := by
  cases count <;> simp [DmaChannel.load, setHalf]

theorem portOwner_dma (cfg : Config) {port : Word} (h : port.toNat < 0x10) : portOwner cfg port = .dma (port.truncate 4) := if_pos h

theorem portWrite_dma (cfg : Config) {port : Word} (h : port.toNat < 0x10) (v : Byte) (y : Sys) :
    y.portWrite cfg port v = { y with dma := y.dma.write (port.truncate 4) v } := by
  unfold Sys.portWrite
  rw [portOwner_dma cfg h]

/-- A channel port of the 16-bit port space: its number, its channel and its kind. -/
theorem truncate_channelPort {port : Word} (h : port.toNat < 8) :
    (port.truncate 4 : BitVec 4) < 8 ∧ (port.truncate 4 : BitVec 4).extractLsb' 1 2 = port.extractLsb' 1 2 ∧
      (port.truncate 4 : BitVec 4).getLsbD 0 = port.getLsbD 0 := by
  refine ⟨?_, ?_, ?_⟩
  · rw [BitVec.lt_def, BitVec.truncate, BitVec.toNat_setWidth]
    exact (Nat.mod_le _ _).trans_lt h
  · apply BitVec.eq_of_getLsbD_eq
    intro i hi
    simp [hi, show 1 + i < 4 by omega]
  · simp

/-- What the two bytes written to a channel port leave, the byte pointer cleared before them (R255, R256). -/
theorem Dma.write_write_register {p : BitVec 4} (h : p < 8) (any lo hi : Byte) (x : Dma) :
    let c : BitVec 2 := p.extractLsb' 1 2
    let z := ((x.write 12 any).write p lo).write p hi
    z.flipflop = false ∧
      ∀ d, z.ch.get d =
        if d = c then ((x.ch.get c).load (p.getLsbD 0) false lo).load (p.getLsbD 0) true hi else x.ch.get d := by
  have cleared : x.write 12 any = { x with flipflop := false } := rfl
  rw [cleared, Dma.write_register h, Dma.write_register h]
  refine ⟨rfl, fun d => ?_⟩
  simp only [Dma.modify, Quad.get_set, if_true, Bool.not_false]
  split <;> rfl

/-- Two reads of a channel port, the byte pointer cleared before them, give the current register's halves (R256). -/
theorem portRead_portRead_register (cfg : Config) {port : Word} (h : port.toNat < 8) {y : Sys} (pointer : y.dma.flipflop = false) :
    let k := y.dma.ch.get (port.extractLsb' 1 2)
    let register := if port.getLsbD 0 then k.curCount else k.curAddr
    (y.portRead cfg port).1 = loByte register ∧ ((y.portRead cfg port).2.portRead cfg port).1 = hiByte register := by
  obtain ⟨low, channel, kind⟩ := truncate_channelPort h
  have read (z : Sys) : z.portRead cfg port =
      (getHalf z.dma.flipflop (if port.getLsbD 0 then (z.dma.ch.get (port.extractLsb' 1 2)).curCount
        else (z.dma.ch.get (port.extractLsb' 1 2)).curAddr), { z with dma := { z.dma with flipflop := !z.dma.flipflop } }) := by
    unfold Sys.portRead
    rw [portOwner_dma cfg (by omega)]
    simp only [Dma.read_register low, channel, kind]
  simp only [read, pointer]
  exact ⟨rfl, rfl⟩

/-! ### The mode, mask and page ports (R257, R258, R260, R261) -/

theorem portOwner_page (cfg : Config) {port : Word} (low : 0x80 ≤ port.toNat) (high : port.toNat < 0x90) :
    portOwner cfg port = .page port.toNat := by
  unfold portOwner
  simp only
  rw [if_neg (by omega), if_neg (by omega), if_neg (by omega), if_pos (by simp [low, high])]

/-- A page port holds what is written, and is the page of the channel that it belongs to (R261). -/
theorem Dma.page_writePage (c : BitVec 2) (v : Byte) (x : Dma) : (x.writePage (pagePortOf c) v).page c = v.truncate 4 := by
  unfold Dma.page Dma.writePage
  rw [Memory.get_set, if_pos rfl]

/-- Settles O53: what a serviced byte does to its channel, and what each port does to the channel it names. -/
theorem dmaTransfersAndRegisters : Obligations.DmaTransfersAndRegisters := by
  unfold Obligations.DmaTransfersAndRegisters
  refine ⟨DmaChannel.advance_spec, fun cfg y => ⟨fun c v => ?_, fun port lo hi any h => ?_, fun v => ?_⟩⟩
  · obtain ⟨mem, dma, byte⟩ := y.dmaRead_spec cfg c
    have written := y.dmaWrite_dma cfg c v
    refine ⟨y.dma.address_toNat c, y.dmaWrite_mem cfg c v, mem, byte, written, dma, ?_, fun d other => ?_⟩
    · rw [written, Dma.modify_get, if_pos rfl]
    · rw [written, Dma.modify_get, if_neg other]
  · obtain ⟨low, channel, kind⟩ := truncate_channelPort h
    intro c z r1 r2
    have loaded : z.dma = ((y.dma.write 12 any).write (port.truncate 4) lo).write (port.truncate 4) hi := by
      unfold z
      rw [portWrite_dma cfg (by omega), portWrite_dma cfg (by omega), portWrite_dma cfg (by decide)]
      rfl
    obtain ⟨pointer, channels⟩ := Dma.write_write_register low any lo hi y.dma
    simp only [← loaded, channel, kind, DmaChannel.load_load] at pointer channels
    obtain ⟨first, second⟩ := portRead_portRead_register cfg h pointer
    have here := (channels c).trans (if_pos rfl)
    have read : (if port.getLsbD 0 then (z.dma.ch.get c).curCount else (z.dma.ch.get c).curAddr) = wordOf lo hi := by
      rw [here]
      cases port.getLsbD 0 <;> rfl
    refine ⟨fun even => ?_, fun odd => ?_, fun d other => (channels d).trans (if_neg other), ?_, ?_⟩
    · rw [here, even]
      exact ⟨rfl, rfl⟩
    · rw [here, odd]
      exact ⟨rfl, rfl⟩
    · exact first.trans (read ▸ loByte_wordOf lo hi)
    · exact second.trans (read ▸ hiByte_wordOf lo hi)
  · intro c mode single
    have setMode : mode.dma = y.dma.modify c fun k => { k with mode := v.extractLsb' 2 6, tc := false } := rfl
    have setMask : single.dma = y.dma.modify c fun k => { k with mask := bitOf v 2 } := rfl
    have one {f : DmaChannel → DmaChannel} : (y.dma.modify c f).ch.get c = f (y.dma.ch.get c) := (Dma.modify_get ..).trans (if_pos rfl)
    have others {f : DmaChannel → DmaChannel} (d : BitVec 2) (h : d ≠ c) : (y.dma.modify c f).ch.get d = y.dma.ch.get d :=
      (Dma.modify_get ..).trans (if_neg h)
    rw [setMode, setMask]
    refine ⟨⟨congrArg DmaChannel.mode one, others⟩, ⟨congrArg DmaChannel.mask one, others⟩,
      fun d => congrArg DmaChannel.mask (Quad.get_map _ y.dma.ch d), fun d => ?_, fun port from80 to8F => ?_,
      Dma.page_writePage 0 v y.dma, Dma.page_writePage 1 v y.dma, Dma.page_writePage 2 v y.dma, Dma.page_writePage 3 v y.dma⟩
    · rcases bitVec2_cases d with rfl | rfl | rfl | rfl <;> rfl
    · unfold Sys.portWrite Sys.portRead
      rw [portOwner_page cfg from80 to8F]
      exact (Memory.get_set ..).trans (if_pos rfl)

end Sys2Proof.Machine

namespace Sys2Proof.Machine

/-! ### The FDC's interrupt line (R318) -/

theorem Pic.setIrq_lines (i : BitVec 3) (level : Bool) (p : Pic) : (p.setIrq i level).lines = setBit p.lines i.toNat level := by
  unfold Pic.setIrq
  simp only
  split
  · rfl
  · split
    · split <;> rfl
    · rfl

@[simp] theorem Sys.fdcUpdateIrq_fdc (y : Sys) : y.fdcUpdateIrq.fdc = y.fdc := by
  unfold Sys.fdcUpdateIrq
  simp only
  split <;> rfl

/-- IRQ 6 is the interrupt output under bit 3 of the DOR. -/
theorem Sys.fdcUpdateIrq_line (y : Sys) : bitOf y.fdcUpdateIrq.pic.lines 6 = (y.fdc.intOut && bitOf y.fdc.dor 3) := by
  unfold Sys.fdcUpdateIrq
  extract_lets level
  split
  · assumption
  · simp only [Pic.setIrq_lines]
    exact (bitOf_setBit y.pic.lines 6 6 level).trans (if_pos rfl)

@[simp] theorem Sys.fdcSetInt_fdc (b : Bool) (y : Sys) : (y.fdcSetInt b).fdc = { y.fdc with intOut := b } :=
  Sys.fdcUpdateIrq_fdc _

theorem Sys.fdcSetInt_line (b : Bool) (y : Sys) : bitOf (y.fdcSetInt b).pic.lines 6 = (b && bitOf y.fdc.dor 3) :=
  Sys.fdcUpdateIrq_line _

/-! ### Ports 3F2h, 3F4h and 3F5h (R297) -/

theorem portOwner_fdc (c : Config) :
    portOwner c 0x3F2 = .fdc 2 ∧ portOwner c 0x3F4 = .fdc 4 ∧ portOwner c 0x3F5 = .fdc 5 := by
  unfold portOwner
  cases c.videoAdapter <;> exact ⟨rfl, rfl, rfl⟩

theorem portWrite_dor (c : Config) (v : Byte) (y : Sys) : y.portWrite c 0x3F2 v = y.fdcWriteDor v := by
  unfold Sys.portWrite
  rw [(portOwner_fdc c).1]
  rfl

theorem portRead_msr (c : Config) (y : Sys) : (y.portRead c 0x3F4).1 = y.fdc.msr := by
  unfold Sys.portRead
  rw [(portOwner_fdc c).2.1]
  rfl

theorem portWrite_fdcData (c : Config) (v : Byte) (y : Sys) : y.portWrite c 0x3F5 v = y.fdcWriteData v := by
  unfold Sys.portWrite
  rw [(portOwner_fdc c).2.2]
  rfl

theorem portRead_fdcData (c : Config) (y : Sys) : y.portRead c 0x3F5 = y.fdcReadData := by
  unfold Sys.portRead
  rw [(portOwner_fdc c).2.2]
  rfl

theorem Fdc.msr_of_idle {f : Fdc} (h : f.phase = .idle) : f.msr = 0x80 := by
  unfold Fdc.msr
  rw [h]

/-! ### Reset (R302) -/

/-- A byte with bit 2 = 0 holds the FDC in reset. -/
theorem Sys.fdcWriteDor_reset {v : Byte} (h : bitOf v 2 = false) (y : Sys) :
    (y.fdcWriteDor v).fdc = { y.fdc with dor := v }.enterReset ∧ bitOf (y.fdcWriteDor v).pic.lines 6 = false := by
  unfold Sys.fdcWriteDor
  simp only [h, Bool.not_false, if_true]
  exact ⟨Sys.fdcUpdateIrq_fdc _, Sys.fdcUpdateIrq_line _⟩

/-- A byte with bits 2 and 3 = 1 releases an FDC in reset, with its interrupt. -/
theorem Sys.fdcWriteDor_release {w : Byte} (run : bitOf w 2 = true) (irq : bitOf w 3 = true) {y : Sys} (held : y.fdc.phase = .reset) :
    (y.fdcWriteDor w).fdc = { y.fdc with dor := w }.leaveReset ∧ bitOf (y.fdcWriteDor w).pic.lines 6 = true := by
  unfold Sys.fdcWriteDor
  simp only [run, held, beq_self_eq_true, Bool.or_true, Bool.not_true, Bool.false_eq_true, if_false, if_true]
  exact ⟨Sys.fdcUpdateIrq_fdc _, (Sys.fdcUpdateIrq_line _).trans irq⟩

/-! ### Sense Interrupt (R307, R308, R310) -/

/-- The drive of the next reset result (R310). -/
def Fdc.pollDrive (f : Fdc) : BitVec 2 := BitVec.ofNat 2 (4 - f.resetPoll)

/-- While reset results are pending, the answer is the next one's. -/
theorem Sys.fdcSenseInterrupt_reset {y : Sys} (pending : 0 < y.fdc.resetPoll) :
    y.fdcSenseInterrupt.fdc =
      { y.fdc with
        intOut := false, resetPoll := y.fdc.resetPoll - 1,
        pendingInt := if y.fdc.resetPoll = 1 then false else y.fdc.pendingInt,
        resFifo := [st0 3 false y.fdc.pollDrive, (y.fdc.drives.get y.fdc.pollDrive).cyl], resRead := 0, phase := .result } := by
  unfold Sys.fdcSenseInterrupt
  simp only [Sys.fdcSetInt_fdc, pending, if_true]
  rfl

/-- The command is one byte, dispatched at once (R306, R309). -/
theorem Sys.fdcWriteData_sense {y : Sys} (idle : y.fdc.phase = .idle) (pending : 0 < y.fdc.resetPoll) :
    (y.fdcWriteData 0x08).fdc =
      { y.fdc with
        intOut := false, cmdFifo := [0x08], cmdLen := 1, resetPoll := y.fdc.resetPoll - 1,
        pendingInt := if y.fdc.resetPoll = 1 then false else y.fdc.pendingInt,
        resFifo := [st0 3 false y.fdc.pollDrive, (y.fdc.drives.get y.fdc.pollDrive).cyl], resRead := 0, phase := .result } := by
  let z : Sys := { y.fdcSetInt false with fdc := { (y.fdcSetInt false).fdc with cmdFifo := [0x08], cmdLen := 1 } }
  have dispatched : y.fdcWriteData 0x08 = z.fdcSenseInterrupt := by
    unfold Sys.fdcWriteData
    rw [idle]
    rfl
  have received : z.fdc = { y.fdc with intOut := false, cmdFifo := [0x08], cmdLen := 1 } := by
    simp only [z, Sys.fdcSetInt_fdc]
  rw [dispatched, Sys.fdcSenseInterrupt_reset (by rw [received]; exact pending), received]
  rfl

/-- The first of two result bytes lowers the interrupt. -/
theorem Sys.fdcReadData_first {y : Sys} {a b : Byte} (phase : y.fdc.phase = .result) (fifo : y.fdc.resFifo = [a, b])
    (none : y.fdc.resRead = 0) :
    y.fdcReadData = (a, Sys.fdcSetInt false { y with fdc := { y.fdc with resFifo := [b], resRead := 1 } }) := by
  unfold Sys.fdcReadData
  rw [phase, fifo]
  simp [none]

/-- The last result byte leaves the FDC idle. -/
theorem Sys.fdcReadData_last {y : Sys} {b : Byte} (phase : y.fdc.phase = .result) (fifo : y.fdc.resFifo = [b])
    (one : y.fdc.resRead = 1) :
    y.fdcReadData = (b, { y with fdc := { y.fdc with resFifo := [], resRead := 0, phase := .idle } }) := by
  unfold Sys.fdcReadData
  rw [phase, fifo]
  simp [one]

/-- Sense Interrupt, its byte written and its two result bytes read. -/
def Sys.senseInterrupt (c : Config) (y : Sys) : Byte × Byte × Sys :=
  let r1 := (y.portWrite c 0x3F5 0x08).portRead c 0x3F5
  let r2 := r1.2.portRead c 0x3F5
  (r1.1, r2.1, r2.2)

/-- An idle FDC with reset results pending: how many, and its drives. -/
structure Sys.Polling (n : Nat) (drives : Quad Drive) (y : Sys) : Prop where
  idle : y.fdc.phase = .idle
  resetPoll : y.fdc.resetPoll = n
  drives : y.fdc.drives = drives

/-- The command with reset results pending: the next one's two bytes are there to be read, and one fewer is pending. -/
theorem Sys.Polling.fdcWriteData {n : Nat} {drives : Quad Drive} {y : Sys} (h : y.Polling (n + 1) drives) :
    let d : BitVec 2 := BitVec.ofNat 2 (4 - (n + 1))
    let f := (y.fdcWriteData 0x08).fdc
    f.phase = .result ∧ f.resFifo = [st0 3 false d, (drives.get d).cyl] ∧ f.resRead = 0 ∧ f.resetPoll = n ∧ f.drives = drives ∧
      (n = 0 → f.pendingInt = false) := by
  obtain ⟨idle, poll, rfl⟩ := h
  rw [Sys.fdcWriteData_sense idle (by omega)]
  rw [Fdc.pollDrive, poll]
  exact ⟨rfl, rfl, rfl, rfl, rfl, fun last => if_pos (congrArg (· + 1) last)⟩

/-- Sense Interrupt with reset results pending answers the next one's drive and its cylinder, and leaves one fewer (R302, R310). -/
theorem Sys.Polling.senseInterrupt {n : Nat} {drives : Quad Drive} {y : Sys} (h : y.Polling (n + 1) drives) (c : Config) :
    let d : BitVec 2 := BitVec.ofNat 2 (4 - (n + 1))
    let r := y.senseInterrupt c
    (r.1, r.2.1) = (st0 3 false d, (drives.get d).cyl) ∧ r.2.2.Polling n drives ∧ bitOf r.2.2.pic.lines 6 = false ∧
      (n = 0 → r.2.2.fdc.pendingInt = false) := by
  obtain ⟨phase, fifo, read, poll, drives, last⟩ := h.fdcWriteData
  unfold Sys.senseInterrupt
  simp only [portWrite_fdcData, portRead_fdcData]
  generalize y.fdcWriteData 0x08 = w at *
  rw [Sys.fdcReadData_first phase fifo read]
  rw [Sys.fdcReadData_last (by rw [Sys.fdcSetInt_fdc]; exact phase) (by rw [Sys.fdcSetInt_fdc]) (by rw [Sys.fdcSetInt_fdc])]
  simp only [Sys.fdcSetInt_fdc]
  exact ⟨trivial, ⟨rfl, poll, drives⟩, Sys.fdcSetInt_line false _, last⟩

/-- Settles O54: the reset leaves four results pending, and each Sense Interrupt answers one of them. -/
theorem fdcResetPolling : Obligations.FdcResetPolling := by
  unfold Obligations.FdcResetPolling
  intro c y v w hold run irq
  extract_lets a b sense status s0 s1 s2 s3
  have msr (z : Sys) : status z = z.fdc.msr := portRead_msr c z
  have atHold : a = y.fdcWriteDor v := portWrite_dor c v y
  have atRelease : b = a.fdcWriteDor w := portWrite_dor c w a
  obtain ⟨held, low⟩ := y.fdcWriteDor_reset hold
  rw [← atHold] at held low
  obtain ⟨released, high⟩ := Sys.fdcWriteDor_release run irq (y := a) (by rw [held]; rfl)
  rw [← atRelease] at released high
  have four : b.Polling 4 y.fdc.drives := ⟨by rw [released]; rfl, by rw [released]; rfl, by rw [released, held]; rfl⟩
  obtain ⟨answer0, three, lowered, -⟩ := four.senseInterrupt c
  obtain ⟨answer1, two, -⟩ := three.senseInterrupt c
  obtain ⟨answer2, one, -⟩ := two.senseInterrupt c
  obtain ⟨answer3, done, -, none⟩ := one.senseInterrupt c
  refine ⟨?_, by rw [held]; rfl, by rw [held]; rfl, low, ?_, by rw [released]; rfl, high, answer0, answer1, answer2, answer3, lowered,
    none rfl, ?_⟩
  · rw [msr, held]
    rfl
  · exact (msr b).trans (Fdc.msr_of_idle four.idle)
  · exact (msr _).trans (Fdc.msr_of_idle done.idle)

end Sys2Proof.Machine

namespace Sys2Proof.Machine

/-! ### The byte arrays (R39, R293, R298) -/

/-- Every drive's image is in canonical form. -/
def Fdc.ImagesOk (f : Fdc) : Prop := ∀ d, (f.drives.get d).image.wf = true

theorem Fdc.ImagesOk.modifyDrive {f : Fdc} (h : f.ImagesOk) {d : BitVec 2} {g : Drive → Drive}
    (k : (g (f.drives.get d)).image.wf = true) : (f.modifyDrive d g).ImagesOk := by
  intro e
  show ((f.drives.set d (g (f.drives.get d))).get e).image.wf = true
  rw [Quad.get_set]
  split
  · exact k
  · exact h e

theorem Fdc.ImagesOk.keepImage {f : Fdc} (h : f.ImagesOk) (d : BitVec 2) {g : Drive → Drive}
    (k : ∀ v, (g v).image = v.image := by intro; rfl) : (f.modifyDrive d g).ImagesOk :=
  h.modifyDrive ((congrArg Memory.wf (k _)).trans (h d))

theorem Fdc.ImagesOk.mount {f : Fdc} (h : f.ImagesOk) (c : Config) (d : BitVec 2) (size : Nat) (bytes : List Host.Cell) (wp : Bool) :
    (f.mount c d size bytes wp).ImagesOk := by
  unfold Fdc.mount Fdc.insert
  split
  · exact h
  · split
    · split
      · exact h
      · exact h.modifyDrive (Memory.wf_ofCells size bytes)
    · exact h

theorem Fdc.ImagesOk.eject {f : Fdc} (h : f.ImagesOk) (d : BitVec 2) : (f.eject d).ImagesOk := by
  unfold Fdc.eject
  split
  · exact h
  · exact h.keepImage d

theorem Fdc.ImagesOk.setWriteProtect {f : Fdc} (h : f.ImagesOk) (d : BitVec 2) (wp : Bool) : (f.setWriteProtect d wp).ImagesOk := by
  unfold Fdc.setWriteProtect
  split
  · exact h
  · exact h.keepImage d

/-- The arrays of `MemInv`, of memory and the devices alone. -/
structure Sys.ArraysOk (y : Sys) : Prop where
  mem : y.mem.wf = true
  pagePorts : y.dma.pagePorts.wf = true
  front : y.crtc.front.wf = true
  back : y.crtc.back.wf = true
  images : y.fdc.ImagesOk

theorem memInv_iff (s : State) : MemInv s ↔ s.sys.ArraysOk :=
  ⟨fun ⟨mem, page, front, back, images⟩ => ⟨mem, page, front, back, images⟩,
    fun ⟨mem, page, front, back, images⟩ => ⟨mem, page, front, back, images⟩⟩

section
variable {y : Sys} (h : y.ArraysOk)
include h

/-- Only the drives of the FDC hold arrays: another change of the FDC, or one of the PIC, of the reports and the like, keeps them. -/
theorem Sys.ArraysOk.keep {z : Sys} (mem : z.mem = y.mem := by rfl) (page : z.dma.pagePorts = y.dma.pagePorts := by rfl)
    (front : z.crtc.front = y.crtc.front := by rfl) (back : z.crtc.back = y.crtc.back := by rfl)
    (drives : z.fdc.drives = y.fdc.drives := by rfl) : z.ArraysOk :=
  ⟨mem ▸ h.mem, page ▸ h.pagePorts, front ▸ h.front, back ▸ h.back, fun d => drives ▸ h.images d⟩

theorem Sys.ArraysOk.setFdc {f : Fdc} (k : f.ImagesOk) : Sys.ArraysOk { y with fdc := f } :=
  ⟨h.mem, h.pagePorts, h.front, h.back, k⟩

theorem Sys.ArraysOk.keepFdc {f : Fdc} (k : f.drives = y.fdc.drives := by rfl) : Sys.ArraysOk { y with fdc := f } :=
  h.keep (drives := k)

/-! ### The FDC's registers and commands (R302 to R318) -/

theorem Sys.ArraysOk.updateIrq : y.fdcUpdateIrq.ArraysOk := by
  unfold Sys.fdcUpdateIrq
  simp only
  split
  · exact h
  · exact h.keep

theorem Sys.ArraysOk.setInt (b : Bool) : (y.fdcSetInt b).ArraysOk :=
  Sys.ArraysOk.updateIrq (y := { y with fdc := { y.fdc with intOut := b } }) h.keep

theorem Sys.ArraysOk.writeDor (v : Byte) : (y.fdcWriteDor v).ArraysOk := by
  unfold Sys.fdcWriteDor
  simp only
  split
  · exact h.keepFdc.updateIrq
  · split
    · exact h.keepFdc.updateIrq
    · exact h.keepFdc.updateIrq

theorem Sys.ArraysOk.finishWith (d : BitVec 2) (bytes : List Byte) : (y.fdcFinishWith d bytes).ArraysOk :=
  h.keepFdc.setInt true

theorem Sys.ArraysOk.finish (op : FdcOp) (ic : BitVec 2) (st1 st2 : Byte) : (y.fdcFinish op ic st1 st2).ArraysOk :=
  h.finishWith _ _

theorem Sys.ArraysOk.senseInterrupt : y.fdcSenseInterrupt.ArraysOk := by
  have lowered := h.setInt false
  unfold Sys.fdcSenseInterrupt
  simp only
  split
  · exact lowered.keep
  · split <;> exact lowered.keep

theorem Sys.ArraysOk.seekEnd (d : BitVec 2) (st : Byte) : (y.fdcSeekEnd d st).ArraysOk := h.keepFdc.setInt true

theorem Sys.ArraysOk.seek (d : BitVec 2) (hd : Bool) (ncn : Byte) : (y.fdcSeek d hd ncn).ArraysOk := by
  unfold Sys.fdcSeek
  simp only
  split
  · exact h.keepFdc.seekEnd d _
  · have moved := h.images.keepImage d (g := fun v => { v with cyl := ncn, head := bit8 hd, sector := 1 })
    exact (h.setFdc moved).keepFdc.seekEnd d _

theorem Sys.ArraysOk.recalibrate (d : BitVec 2) : (y.fdcRecalibrate d).ArraysOk := by
  have moved := h.images.keepImage d (g := fun v => { v with cyl := 0, head := 0, sector := 1 })
  exact (h.setFdc moved).keepFdc.seekEnd d _

theorem Sys.ArraysOk.startOperation (kind : OpKind) : (y.fdcStartOperation kind).ArraysOk := by
  have entered (op : Option FdcOp) (bad : Bool) (e : FdcError) :
      Sys.ArraysOk { y with fdc := { y.fdc with op := op, phase := .operation, badSeek := bad, lastError := e } } := h.keep
  unfold Sys.fdcStartOperation
  simp only
  split
  · exact entered ..
  · split
    · exact (entered ..).finish _ _ _ _
    · split
      · exact (entered ..).finish _ _ _ _
      · split
        · exact (entered ..).finish _ _ _ _
        · exact h.keep

theorem Sys.ArraysOk.dispatch : y.fdcDispatch.ArraysOk := by
  have cleared : Sys.ArraysOk { y with fdc := { y.fdc with resetPoll := 0 } } := h.keep
  unfold Sys.fdcDispatch
  simp only
  split
  · exact h.senseInterrupt
  · split
    · exact cleared.keep
    · exact cleared.keep
    · exact cleared.recalibrate _
    · exact cleared.seek _ _ _
    · exact cleared.startOperation _
    · exact cleared.startOperation _
    · exact cleared.startOperation _
    · exact cleared.startOperation _
    · exact cleared.startOperation _
    · exact cleared.keep

theorem Sys.ArraysOk.writeData (v : Byte) : (y.fdcWriteData v).ArraysOk := by
  unfold Sys.fdcWriteData
  split
  · simp only
    split
    · exact (h.setInt false).keepFdc.dispatch
    · exact (h.setInt false).keep
  · simp only
    split
    · exact h.keepFdc.dispatch
    · exact h.keep
  · exact h.keep
  · exact h.keep
  · exact h.keep

theorem Sys.ArraysOk.readData : y.fdcReadData.2.ArraysOk := by
  unfold Sys.fdcReadData
  split
  · rename_i v rest _ _
    have lowered : (if y.fdc.resRead + 1 = 1 then
        Sys.fdcSetInt false { y with fdc := { y.fdc with resFifo := rest, resRead := y.fdc.resRead + 1 } }
      else { y with fdc := { y.fdc with resFifo := rest, resRead := y.fdc.resRead + 1 } }).ArraysOk := by
      split
      · exact h.keepFdc.setInt false
      · exact h.keep
    simp only
    split
    · exact lowered.keep
    · exact lowered
  · exact h.keep

/-! ### One operation tick (R313, R315, R316) -/

theorem Sys.ArraysOk.writeByte (c : Config) (a : Phys) (v : Byte) : (y.writeByte c a v).ArraysOk :=
  ⟨poke_wf h.mem a v, h.pagePorts, h.front, h.back, h.images⟩

theorem Sys.ArraysOk.dmaWrite (c : Config) (n : BitVec 2) (v : Byte) : (y.dmaWrite c n v).ArraysOk := by
  unfold Sys.dmaWrite
  simp only
  split
  · exact h.keep
  · exact (h.writeByte c _ v).keep

theorem Sys.ArraysOk.readByte (c : Config) (a : Phys) : (y.readByte c a).2.ArraysOk := by
  unfold Sys.readByte
  split
  · exact h
  · exact h.keep

theorem Sys.ArraysOk.dmaRead (c : Config) (n : BitVec 2) : (y.dmaRead c n).2.ArraysOk := by
  unfold Sys.dmaRead
  simp only
  split
  · exact h.keep
  · exact (h.readByte c _).keep

theorem Sys.ArraysOk.firstTick (op : FdcOp) : (y.fdcFirstTick op).ArraysOk := by
  unfold Sys.fdcFirstTick
  simp only
  split
  · exact h.keepFdc.keepFdc.finish _ _ _ _
  · exact h.keep

theorem Sys.ArraysOk.afterByte (op : FdcOp) (tc : Bool) : (y.fdcAfterByte op tc).ArraysOk := by
  unfold Sys.fdcAfterByte
  extract_lets counted heads moved stored
  have kept : stored.ArraysOk := h.setFdc (h.images.keepImage _)
  split
  · clear_value stored
    split
    · exact kept.finish _ _ _ _
    · split
      · exact kept.keepFdc.finish _ _ _ _
      · split
        · exact kept.keep
        · exact kept.keepFdc.finish _ _ _ _
  · split
    · exact h.finish _ _ _ _
    · exact h.keep

theorem Sys.ArraysOk.transferTick (c : Config) (op : FdcOp) : (y.fdcTransferTick c op).1.ArraysOk := by
  unfold Sys.fdcTransferTick
  simp only
  split
  · exact h
  · split
    · exact h.keepFdc.finish _ _ _ _
    · refine Sys.ArraysOk.afterByte ?_ _ _
      split
      · exact (h.dmaRead c 2).setFdc ((h.dmaRead c 2).images.modifyDrive (Memory.wf_set ((h.dmaRead c 2).images _) _ _))
      · exact h.dmaWrite c 2 _

theorem Sys.ArraysOk.formatTick (c : Config) (op : FdcOp) : (y.fdcFormatTick c op).1.ArraysOk := by
  unfold Sys.fdcFormatTick
  extract_lets go read _ _ serviced
  have kept : serviced.ArraysOk := by
    unfold serviced
    split
    · exact (h.dmaRead c 2).keep
    · exact h
  clear_value serviced
  split
  · exact kept.keepFdc.finishWith _ _
  · exact kept

theorem Sys.ArraysOk.opTick (c : Config) (op : FdcOp) : (y.fdcOpTick c op).1.ArraysOk := by
  have transfer : (if op.started then y.fdcTransferTick c op else (y.fdcFirstTick op, false)).1.ArraysOk := by
    split
    · exact h.transferTick c op
    · exact h.firstTick op
  unfold Sys.fdcOpTick
  split
  · exact h.finish _ _ _ _
  · split
    · exact h.formatTick c op
    · exact h.keep
  · exact transfer
  · exact transfer
  · exact transfer

theorem Sys.ArraysOk.fdcStep (c : Config) : (y.fdcStep c).1.ArraysOk := by
  unfold Sys.fdcStep
  split
  · split
    · exact h
    · rename_i op _ _ _
      have ticked := h.opTick c op
      simp only
      split
      · exact ticked
      · exact ticked.keep
  · exact h

/-! ### The ports of the other devices -/

theorem Sys.ArraysOk.crtcWrite (c : Config) (k : BitVec 4) (v : Byte) : (y.crtcWrite c k v).ArraysOk := by
  unfold Sys.crtcWrite
  simp only
  split
  · split
    · split <;> exact h.keep
    · exact h.keep
  · split <;> exact h.keep

theorem Sys.ArraysOk.crtcRead (k : BitVec 4) : (y.crtcRead k).2.ArraysOk := by
  unfold Sys.crtcRead
  split
  · split
    · exact h
    · exact h.keep
  · split <;> exact h.keep

end

theorem Dma.modify_pagePorts (c : BitVec 2) (f : DmaChannel → DmaChannel) (x : Dma) : (x.modify c f).pagePorts = x.pagePorts := rfl

/-- No register of the controller is a page port (R255, R261). -/
theorem Dma.write_pagePorts (port : BitVec 4) (v : Byte) (x : Dma) : (x.write port v).pagePorts = x.pagePorts := by
  unfold Dma.write
  simp only
  split
  · rfl
  · split <;> rfl

theorem Dma.read_pagePorts (request : Bool) (port : BitVec 4) (x : Dma) : (x.read request port).2.pagePorts = x.pagePorts := by
  unfold Dma.read
  simp only
  split
  · rfl
  · split <;> rfl

section
variable {y : Sys} (h : y.ArraysOk)
include h

theorem Sys.ArraysOk.portRead (c : Config) (port : Word) : (y.portRead c port).2.ArraysOk := by
  unfold Sys.portRead
  split
  · rename_i p _
    have read : Sys.ArraysOk { y with dma := (y.dma.read y.fdc.dmaRequest p).2 } := h.keep rfl (Dma.read_pagePorts ..)
    simp only
    split
    · exact read
    · exact read.keep
  · exact h.keep
  · exact h
  · exact h
  · exact h.crtcRead _
  · unfold Sys.fdcRead
    split
    · exact h
    · exact h.readData
    · exact h.keep
  · exact h.keep

theorem Sys.ArraysOk.portWrite (c : Config) (port : Word) (v : Byte) : (y.portWrite c port v).ArraysOk := by
  unfold Sys.portWrite
  split
  · exact h.keep rfl (Dma.write_pagePorts ..)
  · exact h.keep
  · exact h.keep
  · exact ⟨h.mem, Memory.wf_set h.pagePorts _ v, h.front, h.back, h.images⟩
  · exact h.crtcWrite c _ v
  · unfold Sys.fdcWrite
    split
    · exact h.writeDor v
    · exact h.writeData v
    · exact h
  · exact h

theorem Sys.ArraysOk.envIrq (i : BitVec 3) (level : Bool) : (envIrq i level y).ArraysOk := by
  unfold Machine.envIrq
  split
  · exact h
  · exact h.keep

end

/-! ### The framebuffers (R282, R293) -/

theorem putDots_wf (c : Config) (dots : List Byte) {fb : Memory} (h : fb.wf = true) (x y : Nat) : (putDots c fb x y dots).wf = true := by
  induction dots generalizing fb x with
  | nil => exact h
  | cons v vs ih =>
    refine ih ?_ _
    split
    · exact Memory.wf_set h _ v
    · exact h

/-- A change of the video card keeps its two framebuffers, or exchanges them (R282). -/
def Crtc.SameFrames (c d : Crtc) : Prop := d.front = c.front ∧ d.back = c.back ∨ d.front = c.back ∧ d.back = c.front

theorem Crtc.verticalEdges_frames (c : Crtc) : c.verticalEdges.front = c.front ∧ c.verticalEdges.back = c.back := by
  unfold Crtc.verticalEdges
  simp only
  split <;> split <;> exact ⟨rfl, rfl⟩

theorem Crtc.newFrame_frames (c : Crtc) : c.newFrame.front = c.front ∧ c.newFrame.back = c.back := Crtc.verticalEdges_frames _

theorem Crtc.verticalChecks_frames (c : Crtc) : c.verticalChecks.front = c.front ∧ c.verticalChecks.back = c.back := by
  have edges := c.verticalEdges_frames
  unfold Crtc.verticalChecks
  simp only
  generalize c.verticalEdges = d at edges ⊢
  split
  · split
    · exact ⟨(Crtc.newFrame_frames _).1.trans edges.1, (Crtc.newFrame_frames _).2.trans edges.2⟩
    · exact edges
  · exact edges

theorem Crtc.rowStep_frames (c : Crtc) : c.rowStep.front = c.front ∧ c.rowStep.back = c.back := by
  unfold Crtc.rowStep
  simp only
  split
  · split
    · exact Crtc.newFrame_frames _
    · exact ⟨rfl, rfl⟩
  · split
    · exact Crtc.verticalChecks_frames _
    · exact ⟨rfl, rfl⟩

theorem Crtc.hblankStep_frames (cfg : Config) (cycle : Nat) (c : Crtc) : c.SameFrames (c.hblankStep cfg cycle) := by
  unfold Crtc.hblankStep
  simp only
  split
  · exact .inl ⟨rfl, rfl⟩
  · split
    · split
      · split
        · split
          · exact .inr ⟨rfl, rfl⟩
          · exact .inl ⟨rfl, rfl⟩
        · exact .inl ⟨rfl, rfl⟩
      · exact .inl ⟨rfl, rfl⟩
    · exact .inl ⟨rfl, rfl⟩

theorem Crtc.advance_frames (cfg : Config) (cycle : Nat) (c : Crtc) : c.SameFrames (c.advance cfg cycle) := by
  unfold Crtc.advance
  extract_lets n counted ended stepped
  have same : ended.front = c.front ∧ ended.back = c.back := by
    unfold ended
    split <;> exact ⟨rfl, rfl⟩
  have frames : c.SameFrames stepped := by
    have := ended.hblankStep_frames cfg cycle
    unfold Crtc.SameFrames at this
    rwa [same.1, same.2] at this
  split
  · have := stepped.rowStep_frames
    unfold Crtc.SameFrames
    rwa [this.1, this.2]
  · exact frames

theorem Sys.ArraysOk.drawChar {y : Sys} (h : y.ArraysOk) (c : Config) : (y.drawChar c).ArraysOk := by
  obtain ⟨d, drawn⟩ := Sys.dots_draws c y
  have dots : (y.dots c).2.ArraysOk := drawn ▸ h.keep
  exact ⟨dots.mem, dots.pagePorts, dots.front, putDots_wf c _ dots.back _ _, dots.images⟩

theorem Sys.ArraysOk.crtcStep {y : Sys} (h : y.ArraysOk) (c : Config) (cycle : Nat) : (y.crtcStep c cycle).ArraysOk := by
  have drawn := h.drawChar c
  unfold Sys.crtcStep
  simp only
  generalize y.drawChar c = z at drawn ⊢
  rcases z.crtc.advance_frames c cycle with ⟨front, back⟩ | ⟨front, back⟩
  · exact drawn.keep rfl rfl front back
  · exact ⟨drawn.mem, drawn.pagePorts, front ▸ drawn.back, back ▸ drawn.front, drawn.images⟩

theorem SysOp.keeps_arraysOk {y z : Sys} (op : SysOp y z) (h : y.ArraysOk) : z.ArraysOk := by
  cases op with
  | draw | tag | report | inta => exact h.keep
  | writeByte c a v => exact h.writeByte c a v
  | portRead c port => exact h.portRead c port
  | portWrite c port v => exact h.portWrite c port v
  | fdcStep c => exact h.fdcStep c
  | crtcStep c cycle => exact h.crtcStep c cycle
  | envIrq i level => exact h.envIrq i level
  | mount c d size bytes wp => exact h.setFdc (h.images.mount c d size bytes wp)
  | eject d => exact h.setFdc (h.images.eject d)
  | protect d wp => exact h.setFdc (h.images.setWriteProtect d wp)

/-- Settles O57: a step is a run of the operations on memory and the devices, and each of them writes an array by its own rule. -/
theorem stepKeepsMemInv : Obligations.StepKeepsMemInv := by
  unfold Obligations.StepKeepsMemInv
  intro s t inv e
  rw [memInv_iff] at inv ⊢
  exact (step_sysRun e).keeps (fun _ _ => SysOp.keeps_arraysOk) inv

end Sys2Proof.Machine

namespace Sys2Proof.Machine

/-! ### Room in the queue (R29, R63, R64) -/

/-- The queue, with the bytes of a code fetch in flight, is within its capacity. -/
def State.QueueFits (s : State) : Prop := s.biu.queue.length + (if s.biu.fetching then fetchWidth s else 0) ≤ s.cfg.queueMax

theorem State.QueueFits.length_le {s : State} (h : s.QueueFits) : s.biu.queue.length ≤ s.cfg.queueMax := (Nat.le_add_right ..).trans h

/-- While a fetch is in flight there is room for its bytes. -/
theorem State.QueueFits.room {s : State} (h : s.QueueFits) (f : s.biu.fetching = true) :
    s.biu.queue.length + fetchWidth s ≤ s.cfg.queueMax := by
  simpa [State.QueueFits, f] using h

theorem State.QueueFits.of_not_fetching {s : State} (h : s.biu.queue.length ≤ s.cfg.queueMax) (f : s.biu.fetching = false) :
    s.QueueFits := by
  simpa [State.QueueFits, f] using h

/-- A change of the bus unit that keeps PC and the queue, and has room for the fetch that is in flight after it. -/
theorem State.QueueFits.of_biu {s : State} (h : s.QueueFits) {b : Biu} (pc : b.pc = s.biu.pc) (queue : b.queue = s.biu.queue)
    (room : b.fetching = true → s.biu.queue.length + fetchWidth s ≤ s.cfg.queueMax) : State.QueueFits { s with biu := b } := by
  have width : fetchWidth { s with biu := b } = fetchWidth s := by simp [fetchWidth, pc]
  unfold State.QueueFits
  rw [width]
  show b.queue.length + _ ≤ _
  rw [queue]
  split
  · exact room ‹_›
  · exact h.length_le

theorem State.QueueFits.keeps {s : State} (h : s.QueueFits) {b : Biu} (k : s.biu.Keeps b) : State.QueueFits { s with biu := b } :=
  h.of_biu k.pc k.queue fun f => h.room (k.fetching ▸ f)

theorem pushFetched_fits {s : State} (room : s.biu.queue.length + fetchWidth s ≤ s.cfg.queueMax) : (pushFetched s).QueueFits := by
  obtain ⟨only, length, idle⟩ := pushFetched_spec s
  refine .of_not_fetching ?_ (by simp [Biu.fetching, idle])
  rwa [length, only.cfg]

theorem finishFetch_fits {s : State} (h : s.QueueFits) : (finishFetch s).QueueFits := by
  have k := Biu.endCycle_keeps s.cfg s.biu
  unfold finishFetch
  split
  · exact pushFetched_fits ((h.keeps k).room (k.fetching.trans ‹_›))
  · exact h

theorem codeFetch_fits {s : State} (h : s.QueueFits) (room : s.biu.queue.length + fetchWidth s ≤ s.cfg.queueMax) :
    (codeFetch s).QueueFits := by
  obtain ⟨pc, queue, -⟩ := Biu.startFetch_spec s.cfg (fetchStart s) s.biu
  refine finishFetch_fits ?_
  split
  · exact h
  · exact h.of_biu pc queue fun _ => room

/-- The prefetcher steps only where there is room (R63). -/
theorem prefetchEnabled_room {s : State} (h : prefetchEnabled s = true) : s.biu.queue.length + fetchWidth s ≤ s.cfg.queueMax := by
  simp only [prefetchEnabled, Bool.and_eq_true, decide_eq_true_eq] at h
  exact h.2

theorem prefetchStep_fits {s : State} (h : s.QueueFits) : (prefetchStep s).QueueFits := by
  unfold prefetchStep
  split
  · exact codeFetch_fits h (prefetchEnabled_room ‹_›)
  · exact h

theorem planFetch_fits (n : Nat) {s : State} (h : s.QueueFits) : (planFetch n s).QueueFits := by
  unfold planFetch
  split
  · exact h.of_biu rfl rfl nofun
  · exact h

/-- A fetch that starts at a tick does so where there is room for its bytes. -/
theorem tickBiu_room {s : State} (h : s.QueueFits) (f : (tickBiu s).fetching = true) :
    s.biu.queue.length + fetchWidth s ≤ s.cfg.queueMax := by
  unfold tickBiu at f
  split at f
  · split at f
    · exact prefetchEnabled_room ‹_›
    · have k := Biu.advance_keeps s.cfg none { s.biu with fetchState := .idle }
      exact absurd (k.fetching.symm.trans f) (by simp [Biu.fetching])
  · exact h.room ((Biu.advance_keeps s.cfg none s.biu).fetching ▸ f)

theorem tick_fits (mcPc : Option Nat) {s : State} (h : s.QueueFits) : (tick mcPc s).QueueFits := by
  obtain ⟨pc, queue, -⟩ := tickBiu_keeps s
  have moved : State.QueueFits { s with biu := { tickBiu s with mcPc := mcPc.getD (tickBiu s).mcPc } } :=
    h.of_biu pc queue (tickBiu_room h)
  unfold tick
  simp only
  split
  · rename_i pushes
    exact pushFetched_fits (moved.room (Bool.and_eq_true _ _ ▸ pushes).1)
  · exact moved

theorem clockTick_fits (c : ClockIn) {s : State} (h : s.QueueFits) : (clockTick c s).QueueFits := by
  unfold clockTick
  refine tick_fits _ ?_
  split
  · exact planFetch_fits _ h
  · exact h

theorem midStep_fits {s : State} (h : s.QueueFits) (t : MidTurn) : (midStep s t).QueueFits := by
  cases t with
  | prefetch => exact prefetchStep_fits h
  | fdc =>
    show (fdcTurn s).QueueFits
    unfold fdcTurn
    simp only
    split <;> exact h
  | crtc => exact h
  | clock c => exact clockTick_fits c h
  | host a => cases a <;> exact h

/-! ### What the execution unit's operations keep of the CPU -/

/-- The parts of a state that `CpuInv` speaks of. -/
structure CpuStage where
  queueFits : Prop
  prefixes : Prefixes
  fault : Option Fault
  phase : EuPhase
  inRep : Bool
  repMnemonic : Option Instr
  halted : Bool
  history : List HistoryEntry
  callStack : List CallKind

def State.stage (s : State) : CpuStage :=
  ⟨s.QueueFits, s.eu.prefixes, s.eu.fault, s.eu.phase, s.eu.inRep, s.eu.repMnemonic, s.eu.halted, s.host.history, s.host.callStack⟩

/-- The queue stays within its capacity, the call stack within its bound, and everything else is the same. -/
structure CpuStage.Keeps (a b : CpuStage) : Prop where
  queueFits : a.queueFits → b.queueFits
  prefixes : b.prefixes = a.prefixes
  fault : b.fault = a.fault
  phase : b.phase = a.phase
  inRep : b.inRep = a.inRep
  repMnemonic : b.repMnemonic = a.repMnemonic
  halted : b.halted = a.halted
  history : b.history = a.history
  callStack : a.callStack.length ≤ 128 → b.callStack.length ≤ 128

/-- Stated of two states, so that a change of their other parts is no change. -/
abbrev CpuKept (s t : State) : Prop := s.stage.Keeps t.stage

theorem CpuStage.Keeps.refl (a : CpuStage) : a.Keeps a := ⟨id, rfl, rfl, rfl, rfl, rfl, rfl, rfl, id⟩

theorem CpuStage.Keeps.trans {a b c : CpuStage} (h : a.Keeps b) (k : b.Keeps c) : a.Keeps c :=
  ⟨k.queueFits ∘ h.queueFits, k.prefixes.trans h.prefixes, k.fault.trans h.fault, k.phase.trans h.phase, k.inRep.trans h.inRep,
    k.repMnemonic.trans h.repMnemonic, k.halted.trans h.halted, k.history.trans h.history, k.callStack ∘ h.callStack⟩

theorem BusOnly.cpuKept {s t : State} (h : BusOnly s t) (k : s.QueueFits → t.QueueFits) : CpuKept s t := by
  obtain ⟨_, _, eu⟩ := h.eu
  refine ⟨k, ?_, ?_, ?_, ?_, ?_, ?_, h.history, fun c => ?_⟩
  case refine_7 => exact (congrArg List.length h.callStack).trans_le c
  all_goals simp only [State.stage, eu]

theorem FetchOnly.cpuKept {s t : State} (h : FetchOnly s t) (k : s.QueueFits → t.QueueFits) : CpuKept s t := h.busOnly.cpuKept k

/-- A change of the bus unit by its clock. -/
theorem Biu.Keeps.cpuKept {s : State} {b : Biu} (k : s.biu.Keeps b) : CpuKept s { s with biu := b } :=
  (FetchOnly.ofBiu s k.pc k.queue).cpuKept fun h => h.keeps k

theorem finishFetch_cpuKept (s : State) : CpuKept s (finishFetch s) := (finishFetch_fetchOnly s).cpuKept finishFetch_fits

theorem idleTick_cpuKept (s : State) : CpuKept s (idleTick s) := (idleTick_fetchOnly s).cpuKept (tick_fits none)

theorem midStep_cpuKept (s : State) (t : MidTurn) : CpuKept s (midStep s t) := (midStep_busOnly s t).cpuKept fun h => midStep_fits h t

theorem foldl_midStep_cpuKept (b : List MidTurn) (s : State) : CpuKept s (b.foldl midStep s) := by
  induction b generalizing s with
  | nil => exact .refl _
  | cons t b ih => exact (midStep_cpuKept s t).trans (ih _)

theorem busGap_cpuKept (s : State) : CpuKept s (busGap s) := by
  unfold busGap
  split
  · exact .refl _
  · rename_i b rest _
    exact foldl_midStep_cpuKept b { s with interleave := rest }

theorem busCycle_cpuKept (st : BusStatus) (a : Phys) (s : State) : CpuKept s (busCycle st a s) :=
  (finishFetch_cpuKept s).trans (Biu.euCycle_keeps ..).cpuKept

theorem beginBus_cpuKept (st : BusStatus) (a : Phys) (s : State) : CpuKept s (beginBus st a s) :=
  (busGap_cpuKept s).trans (busCycle_cpuKept st a _)

theorem haltCycle_cpuKept (s : State) : CpuKept s (haltCycle s) :=
  ((busGap_cpuKept s).trans (finishFetch_cpuKept _)).trans (busCycle_cpuKept _ _ _)

theorem intaCycles_cpuKept (s : State) : CpuKept s (intaCycles s) :=
  (finishFetch_cpuKept s).trans ((Biu.euCycle_keeps ..).trans (Biu.euCycle_keeps ..)).cpuKept

theorem noteAccess_cpuKept (a : Phys) (s : State) : CpuKept s (noteAccess a s) := by
  unfold noteAccess
  split <;> exact .refl _

theorem readCell_cpuKept (a : Phys) (s : State) : CpuKept s (readCell a s).2 := noteAccess_cpuKept a s

theorem writeCell_cpuKept (a : Phys) (v : Byte) (s : State) : CpuKept s (writeCell a v s) := noteAccess_cpuKept a s

theorem busRead_cpuKept (a : Phys) (s : State) : CpuKept s (busRead a s).2 := (beginBus_cpuKept _ a s).trans (readCell_cpuKept a _)

theorem busWrite_cpuKept (a : Phys) (v : Byte) (s : State) : CpuKept s (busWrite a v s) :=
  (beginBus_cpuKept _ a s).trans (writeCell_cpuKept a v _)

theorem busReadWord_cpuKept (a b : Phys) (s : State) : CpuKept s (busReadWord a b s).2 := by
  refine (busRead_cpuKept a s).trans ?_
  unfold busReadWord
  simp only
  split
  · exact readCell_cpuKept b _
  · exact busRead_cpuKept b _

theorem busWriteWord_cpuKept (a b : Phys) (v : Word) (s : State) : CpuKept s (busWriteWord a b v s) := by
  refine (busWrite_cpuKept a (loByte v) s).trans ?_
  unfold busWriteWord
  simp only
  split
  · exact writeCell_cpuKept b _ _
  · exact busWrite_cpuKept b _ _

theorem segRead_cpuKept (w : Width) (seg off : Word) (s : State) : CpuKept s (segRead w seg off s).2 := by
  cases w
  · exact busRead_cpuKept _ s
  · exact busReadWord_cpuKept _ _ s

theorem segWrite_cpuKept (w : Width) (seg off : Word) (v : Val w) (s : State) : CpuKept s (segWrite w seg off v s) := by
  cases w
  · exact busWrite_cpuKept _ v s
  · exact busWriteWord_cpuKept _ _ v s

theorem rmRead_cpuKept (w : Width) (rm : Rm) (s : State) : CpuKept s (rmRead w rm s).2 := by
  cases rm with
  | reg r => exact .refl _
  | mem m => exact segRead_cpuKept w _ _ s

theorem rmWrite_cpuKept (w : Width) (rm : Rm) (v : Val w) (s : State) : CpuKept s (rmWrite w rm v s) := by
  cases rm with
  | reg r => exact .refl _
  | mem m => exact segWrite_cpuKept w _ _ v s

theorem readFar_cpuKept (m : MemOp) (s : State) : CpuKept s (readFar m s).2.2 :=
  (segRead_cpuKept .word _ _ s).trans (segRead_cpuKept .word _ _ _)

theorem push_cpuKept (v : Word) (s : State) : CpuKept s (push v s) :=
  segWrite_cpuKept .word s.sregs.ss (s.regs.sp - 2) v (setSp (s.regs.sp - 2) s)

theorem pop_cpuKept (s : State) : CpuKept s (pop s).2 := segRead_cpuKept .word _ _ s

theorem suspendFetch_cpuKept (s : State) : CpuKept s (suspendFetch s) :=
  (suspendFetch_fetchOnly s).cpuKept fun h => State.QueueFits.of_biu (finishFetch_fits h) rfl rfl nofun

/-- A flush empties the queue (R66). -/
theorem queueFlush_cpuKept (v : Word) (s : State) : CpuKept s (queueFlush v s) :=
  ⟨fun _ => .of_not_fetching (Nat.zero_le _) rfl, rfl, rfl, rfl, rfl, rfl, rfl, rfl, id⟩

theorem setIp_cpuKept (v : Word) (s : State) : CpuKept s (setIp v s) := (suspendFetch_cpuKept s).trans (queueFlush_cpuKept v _)

theorem setCsIp_cpuKept (seg off : Word) (s : State) : CpuKept s (setCsIp seg off s) := by
  have flushed := queueFlush_cpuKept off { suspendFetch s with sregs := { (suspendFetch s).sregs with cs := seg } }
  exact (suspendFetch_cpuKept s).trans flushed

theorem pushCall_cpuKept (k : CallKind) (s : State) : CpuKept s (pushCall k s) := by
  refine ⟨id, rfl, rfl, rfl, rfl, rfl, rfl, rfl, fun _ => ?_⟩
  exact (List.length_take_le 128 _)

theorem popCall_cpuKept (s : State) : CpuKept s (popCall s) := by
  refine ⟨id, rfl, rfl, rfl, rfl, rfl, rfl, rfl, fun h => ?_⟩
  exact (List.length_tail.trans_le (Nat.sub_le _ 1)).trans h

end Sys2Proof.Machine

namespace Sys2Proof.Machine

/-! ### Operand forms -/

theorem aluToRm_cpuKept {op : AluOp} (h : ∀ w a b s, CpuKept s (op w a b s).2) (wb : Bool) (w : Width) (rm : Rm) (b : Val w)
    (s : State) : CpuKept s (aluToRm op wb w rm b s) := by
  have computed := (rmRead_cpuKept w rm s).trans (h w (rmRead w rm s).1 b _)
  cases wb with
  | false => exact computed
  | true => exact computed.trans (rmWrite_cpuKept w rm _ _)

theorem aluForm_cpuKept {op : AluOp} (h : ∀ w a b s, CpuKept s (op w a b s).2) (wb : Bool) (f : AluForm) (s : State) :
    CpuKept s (aluForm op wb f s) := by
  have toReg (w : Width) (r : Reg) := aluToRm_cpuKept h wb w (.reg r)
  cases f with
  | rmReg d w rm r =>
    cases d with
    | toRm => exact aluToRm_cpuKept h wb w rm _ s
    | toReg => exact (rmRead_cpuKept w rm s).trans (toReg w r _ _)
  | acc i => cases i <;> exact toReg _ .r0 _ s
  | rmImm alt rm i => cases i <;> exact aluToRm_cpuKept h wb _ rm _ s
  | rmImm8s rm i => exact aluToRm_cpuKept h wb .word rm _ s

theorem testForm_cpuKept {op : AluOp} (h : ∀ w a b s, CpuKept s (op w a b s).2) (f : TestForm) (s : State) :
    CpuKept s (testForm op f s) := by
  rw [testForm_eq]
  exact aluToRm_cpuKept h false _ _ _ s

theorem unaryRm_cpuKept {op : UnaryOp} (h : ∀ w a s, CpuKept s (op w a s).2) (w : Width) (rm : Rm) (s : State) :
    CpuKept s (unaryRm op w rm s) :=
  ((rmRead_cpuKept w rm s).trans (h w _ _)).trans (rmWrite_cpuKept w rm _ _)

theorem incForm_cpuKept {op : UnaryOp} (h : ∀ w a s, CpuKept s (op w a s).2) (f : IncForm) (s : State) :
    CpuKept s (incForm op f s) := by
  cases f with
  | reg r => exact unaryRm_cpuKept h .word (.reg r) s
  | rm w m => exact unaryRm_cpuKept h w m s

theorem shiftFlags_cpuKept (n : Nat) (cf of_ : Bool) (s : State) : CpuKept s (shiftFlags n cf of_ s) := by
  unfold shiftFlags
  split <;> exact .refl _

theorem shiftRm_cpuKept (step : ShiftOp) {after : (w : Width) → Val w → State → State} (h : ∀ w v s, CpuKept s (after w v s))
    (w : Width) (c : ShiftCount) (rm : Rm) (s : State) : CpuKept s (shiftRm step after w c rm s) := by
  refine (rmRead_cpuKept w rm s).trans ?_
  unfold shiftRm
  simp only
  split
  · exact .refl _
  · exact ((rmWrite_cpuKept w rm _ _).trans (shiftFlags_cpuKept _ _ _ _)).trans (h w _ _)

theorem branchIf_cpuKept (c : Bool) (rel : Byte) (s : State) : CpuKept s (branchIf c rel s) := by
  cases c
  · exact .refl _
  · exact setIp_cpuKept _ s

theorem ioReadByte_cpuKept (port : Word) (s : State) : NextMeets (fun r => CpuKept s r.2) (ioReadByte port s) := by
  unfold ioReadByte
  split
  · trivial
  · exact beginBus_cpuKept .ioRead _ s

theorem ioWriteByte_cpuKept (port : Word) (v : Byte) (s : State) : NextMeets (CpuKept s) (ioWriteByte port v s) := by
  unfold ioWriteByte
  split
  · trivial
  · exact beginBus_cpuKept .ioWrite _ s

theorem ioRead_cpuKept (w : Width) (port : Word) (s : State) : NextMeets (fun r => CpuKept s r.2) (ioRead w port s) := by
  cases w
  · exact ioReadByte_cpuKept port s
  · exact (ioReadByte_cpuKept port s).andThen fun lo h => (ioReadByte_cpuKept (port + 1) lo.2).andThen fun _ k => h.trans k

theorem ioWrite_cpuKept (w : Width) (port : Word) (v : Val w) (s : State) : NextMeets (CpuKept s) (ioWrite w port v s) := by
  cases w
  · exact ioWriteByte_cpuKept port v s
  · exact (ioWriteByte_cpuKept port _ s).andThen fun t h => (ioWriteByte_cpuKept (port + 1) _ t).mono fun _ k => h.trans k

theorem mulBy_cpuKept (w : Width) (v : Val w) (s : State) : CpuKept s (mulBy w v s) := by
  cases w <;> exact .refl _

theorem imulBy_cpuKept (w : Width) (v : Val w) (s : State) : CpuKept s (imulBy w v s) := by
  cases w <;> exact .refl _

theorem setQuotient_cpuKept (w : Width) (q m : Val w) (s : State) : CpuKept s (setQuotient w q m s) := by
  cases w <;> exact .refl _

theorem execPushRm_cpuKept (alt : Bool) (rm : Rm) (s : State) : NextMeets (CpuKept s) (execPushRm alt rm s) := by
  have read := rmRead_cpuKept .word rm s
  unfold execPushRm
  simp only
  generalize rmRead .word rm s = v at read ⊢
  split
  · exact read.trans (push_cpuKept _ (drawBit v.2).2)
  · exact read.trans (push_cpuKept v.1 v.2)

theorem execSetmo_cpuKept (w : Width) (c : ShiftCount) (rm : Rm) (s : State) : NextMeets (CpuKept s) (execSetmo w c rm s) := by
  have read := rmRead_cpuKept w rm s
  unfold execSetmo
  simp only
  split
  · exact read
  · exact read.trans (rmWrite_cpuKept w rm _ _)

/-! ### Transfers of control -/

theorem farCall_cpuKept (seg off ret : Word) (s : State) : CpuKept s (farCall seg off ret s) :=
  (((push_cpuKept s.sregs.cs s).trans (push_cpuKept ret _)).trans (setCsIp_cpuKept seg off _)).trans (pushCall_cpuKept .callFar _)

theorem execCallRm_cpuKept (rm : Rm) (s : State) : NextMeets (CpuKept s) (execCallRm rm s) := by
  have read := (suspendFetch_cpuKept s).trans (rmRead_cpuKept .word rm _)
  unfold execCallRm
  simp only
  generalize rmRead .word rm (suspendFetch s) = t at read ⊢
  exact ((read.trans (push_cpuKept (ip s) t.2)).trans (setIp_cpuKept t.1 _)).trans (pushCall_cpuKept .call _)

theorem retNear_cpuKept (n : Word) (s : State) : CpuKept s (retNear n s) := by
  have popped := (suspendFetch_cpuKept s).trans (pop_cpuKept _)
  unfold retNear
  simp only
  generalize pop (suspendFetch s) = t at popped ⊢
  have set : CpuKept s (setSp (t.2.regs.sp + n) t.2) := popped
  exact (set.trans (setIp_cpuKept t.1 _)).trans (popCall_cpuKept _)

theorem retFar_cpuKept (n : Word) (s : State) : CpuKept s (retFar n s) := by
  have popped := (suspendFetch_cpuKept s).trans ((pop_cpuKept _).trans (pop_cpuKept _))
  unfold retFar
  simp only
  generalize pop (suspendFetch s) = o at popped ⊢
  generalize pop o.2 = c at popped ⊢
  have set : CpuKept s (setSp (c.2.regs.sp + n) c.2) := popped
  exact (set.trans (setCsIp_cpuKept c.1 o.1 _)).trans (popCall_cpuKept _)

theorem returnFromInterrupt_cpuKept (s : State) : CpuKept s (returnFromInterrupt s) := by
  have popped := (suspendFetch_cpuKept s).trans ((pop_cpuKept _).trans ((pop_cpuKept _).trans (pop_cpuKept _)))
  unfold returnFromInterrupt
  simp only
  generalize pop (suspendFetch s) = o at popped ⊢
  generalize pop o.2 = c at popped ⊢
  generalize pop c.2 = f at popped ⊢
  have set : CpuKept s (setFlags (Flags.ofWord f.1) (setCsIp c.1 o.1 f.2)) := popped.trans (setCsIp_cpuKept c.1 o.1 f.2)
  exact set.trans (popCall_cpuKept _)

/-! ### The invariant within an instruction -/

/-- `CpuInv` between the parts of an instruction: the CPU is not halted, and the phase is any. -/
structure ExecInv (s : State) : Prop where
  queue : s.QueueFits
  prefixes : s.eu.prefixes.count ≤ maxPrefixes + (if s.eu.fault = none then 0 else 1)
  awake : s.eu.halted = false
  repeating : s.eu.phase = .repeating →
    repPrefixed s = true ∧ s.eu.inRep = true ∧ ∃ i, s.eu.repMnemonic = some i ∧ isString i = true
  history : s.host.history.length ≤ 32
  callStack : s.host.callStack.length ≤ 128

theorem CpuInv.execInv {s : State} (h : CpuInv s) (awake : s.eu.halted = false) : ExecInv s :=
  ⟨h.queue, h.prefixes, awake, h.repeating, h.history, h.callStack⟩

/-- Outside the execute phase it is `CpuInv`. -/
theorem ExecInv.cpuInv {s : State} (h : ExecInv s) (phase : s.eu.phase = .start ∨ s.eu.phase = .prefixed ∨ s.eu.phase = .repeating) :
    CpuInv s :=
  ⟨h.queue, h.prefixes, fun halted => absurd halted (by simp [h.awake]), phase, h.repeating, h.history, h.callStack⟩

theorem CpuStage.Keeps.execInv {s t : State} (k : CpuKept s t) (h : ExecInv s) : ExecInv t := by
  have eu : t.eu.prefixes = s.eu.prefixes ∧ t.eu.fault = s.eu.fault ∧ t.eu.phase = s.eu.phase ∧ t.eu.inRep = s.eu.inRep ∧
      t.eu.repMnemonic = s.eu.repMnemonic ∧ t.eu.halted = s.eu.halted :=
    ⟨k.prefixes, k.fault, k.phase, k.inRep, k.repMnemonic, k.halted⟩
  obtain ⟨prefixes, fault, phase, inRep, mnemonic, halted⟩ := eu
  refine ⟨k.queueFits h.queue, ?_, halted.trans h.awake, ?_, (congrArg List.length k.history).trans_le h.history,
    k.callStack h.callStack⟩
  · rw [prefixes, fault]
    exact h.prefixes
  · unfold repPrefixed
    rw [prefixes, phase, inRep, mnemonic]
    exact h.repeating

/-- The phase changes to one that is no repetition. -/
theorem ExecInv.setPhase {s : State} (h : ExecInv s) {p : EuPhase} (k : p ≠ .repeating) : ExecInv (setPhase p s) :=
  ⟨h.queue, h.prefixes, h.awake, fun e => absurd e k, h.history, h.callStack⟩

theorem ExecInv.clearRep {s : State} (h : ExecInv s) (k : s.eu.phase ≠ .repeating) : ExecInv (clearRep s) :=
  ⟨h.queue, h.prefixes, h.awake, fun e => absurd e k, h.history, h.callStack⟩

/-- An interrupt is entered in the phase in which it comes, outside a repetition. -/
abbrev EntersKept (s t : State) : Prop := ExecInv t ∧ t.eu.phase = s.eu.phase

theorem pushFrame_cpuKept (ret : Word) (s : State) : CpuKept s (pushFrame ret s) := by
  refine (push_cpuKept s.flags.toWord s).trans ?_
  unfold pushFrame
  simp only
  generalize push s.flags.toWord s = t
  exact (push_cpuKept t.sregs.cs (setFlags { t.flags with if_ := false, tf := false } t)).trans (push_cpuKept ret _)

theorem loadVector_cpuKept (n : Byte) (s : State) : CpuKept s (loadVector n s) :=
  ((busReadWord_cpuKept _ _ s).trans (busReadWord_cpuKept _ _ _)).trans (setCsIp_cpuKept _ _ _)

theorem enterInterrupt_execInv {s : State} (h : ExecInv s) (p : s.eu.phase ≠ .repeating) (n : Byte) (ret : Word) :
    NextMeets (EntersKept s) (enterInterrupt n ret s) := by
  have entered := (((suspendFetch_cpuKept s).trans (pushFrame_cpuKept ret _)).trans (loadVector_cpuKept n _)).trans
    (pushCall_cpuKept .interrupt _)
  unfold enterInterrupt
  split
  · trivial
  · simp only
    generalize pushCall .interrupt (loadVector n (pushFrame ret (suspendFetch s))) = t at entered ⊢
    have phase : t.eu.phase = s.eu.phase := entered.phase
    have inv := (entered.execInv h).clearRep (phase ▸ p)
    exact ⟨⟨inv.queue, inv.prefixes, rfl, inv.repeating, inv.history, inv.callStack⟩, phase⟩

theorem takeInterrupt_execInv {s : State} (h : ExecInv s) (p : s.eu.phase ≠ .repeating) (ret : Word) :
    NextMeets (EntersKept s) (takeInterrupt ret s) := by
  unfold takeInterrupt
  split
  · exact enterInterrupt_execInv (s := { s with eu := { s.eu with nmiLatch := false } })
      ⟨h.queue, h.prefixes, h.awake, h.repeating, h.history, h.callStack⟩ p 2 ret
  · split
    · trivial
    · rename_i r _
      have cycles := intaCycles_cpuKept s
      simp only
      generalize intaCycles s = t at cycles ⊢
      have phase : t.eu.phase = s.eu.phase := cycles.phase
      have acknowledged : ExecInv { t with sys := { t.sys with pic := r.2 } } :=
        CpuStage.Keeps.execInv (t := { t with sys := _ }) cycles h
      exact (enterInterrupt_execInv acknowledged (phase ▸ p) r.1 ret).mono fun _ k => ⟨k.1, k.2.trans phase⟩

theorem divideError_execInv {s : State} (h : ExecInv s) (p : s.eu.phase ≠ .repeating) : NextMeets ExecInv (divideError s) := by
  have reported : CpuKept s { s with sys := s.sys.report (.divideError (ip s)) } := .refl _
  exact (enterInterrupt_execInv (reported.execInv h) p 0 (ip s)).mono fun _ => And.left

end Sys2Proof.Machine

namespace Sys2Proof.Machine

/-! ### String instructions (R97, R183, R185) -/

theorem StringPrimitive.cpuKept {once : State → State} (h : StringPrimitive once) (s : State) : CpuKept s (once s) := by
  cases h with
  | movs w => exact (segRead_cpuKept w _ _ s).trans (segWrite_cpuKept w _ _ _ _)
  | cmps w => exact (segRead_cpuKept w _ _ s).trans (segRead_cpuKept w _ _ _)
  | scas w => exact segRead_cpuKept w _ _ s
  | lods w => exact segRead_cpuKept w _ _ s
  | stos w => exact segWrite_cpuKept w _ _ _ s

/-- What a repetition records of itself (R97). -/
abbrev RepRecord (s : State) : Prop :=
  repPrefixed s = true ∧ s.eu.inRep = true ∧ ∃ i, s.eu.repMnemonic = some i ∧ isString i = true

theorem CpuStage.Keeps.repRecord {s t : State} (k : CpuKept s t) (h : RepRecord s) : RepRecord t := by
  have prefixes : t.eu.prefixes = s.eu.prefixes := k.prefixes
  have inRep : t.eu.inRep = s.eu.inRep := k.inRep
  have mnemonic : t.eu.repMnemonic = s.eu.repMnemonic := k.repMnemonic
  unfold RepRecord repPrefixed
  rw [prefixes, inRep, mnemonic]
  exact h

theorem ExecInv.endRep {s : State} (h : ExecInv s) : ExecInv (endRep s) :=
  ⟨h.queue, h.prefixes, h.awake, nofun, h.history, h.callStack⟩

theorem betweenIterations_execInv {s : State} (h : ExecInv s) (r : RepRecord s) : NextMeets ExecInv (betweenIterations s) := by
  have gap := busGap_cpuKept s
  have inv := gap.execInv h
  have record := gap.repRecord r
  unfold betweenIterations
  simp only
  generalize busGap s = t at inv record ⊢
  have stopped : ExecInv (Machine.setPhase .start (Machine.clearRep t)) :=
    ⟨inv.queue, inv.prefixes, inv.awake, nofun, inv.history, inv.callStack⟩
  split
  · exact (takeInterrupt_execInv stopped nofun _).mono fun _ => And.left
  · exact ⟨inv.queue, inv.prefixes, inv.awake, fun _ => record, inv.history, inv.callStack⟩

theorem repIterate_execInv {once : State → State} (primitive : StringPrimitive once) (c : Bool) {s : State} (h : ExecInv s)
    (r : RepRecord s) : NextMeets ExecInv (repIterate c once s) := by
  have kept : CpuKept s (setCx ((once s).regs.cx - 1) (once s)) := primitive.cpuKept s
  have inv := kept.execInv h
  have record := kept.repRecord r
  unfold repIterate
  simp only
  generalize setCx _ (once s) = t at inv record ⊢
  split
  · exact inv.endRep
  · exact betweenIterations_execInv inv record

theorem exec_string_execInv {i : Instr} (string : isString i = true) {s : State} (h : ExecInv s) : NextMeets ExecInv (exec i s) := by
  obtain ⟨once, primitive, meaning⟩ := exec_string string
  rw [meaning]
  cases prefixed : repPrefixed s with
  | false =>
    rw [execString_unprefixed prefixed]
    exact (primitive.cpuKept s).execInv h
  | true =>
    have record : RepRecord (beginRep i (isCompare i) s) := ⟨prefixed, rfl, i, rfl, string⟩
    have begun : ExecInv (beginRep i (isCompare i) s) := ⟨h.queue, h.prefixes, h.awake, fun _ => record, h.history, h.callStack⟩
    by_cases cx : s.regs.cx = 0
    · rw [execString_done prefixed cx]
      exact begun.endRep
    · rw [execString_iterates prefixed cx]
      exact repIterate_execInv primitive _ begun record

/-! ### Prefixes, HLT, and the instructions that may enter an interrupt -/

/-- The fifth prefix byte is counted with its fault held (R82). -/
theorem addPrefix_execInv (f : Prefixes → Prefixes) {s : State} (h : ExecInv s) (count : s.eu.prefixes.count ≤ maxPrefixes) :
    NextMeets ExecInv (addPrefix f s) := by
  have ticked := idleTick_cpuKept
    { s with eu := { s.eu with prefixes := { f s.eu.prefixes with count := s.eu.prefixes.count + 1 }, phase := .prefixed } }
  unfold addPrefix
  simp only
  generalize idleTick _ = t at ticked ⊢
  have prefixes : t.eu.prefixes.count = s.eu.prefixes.count + 1 := congrArg Prefixes.count ticked.prefixes
  have history : t.host.history.length ≤ 32 := (congrArg List.length ticked.history).trans_le h.history
  have phase : t.eu.phase = .prefixed := ticked.phase
  have queue : t.QueueFits := ticked.queueFits h.queue
  have awake : t.eu.halted = false := ticked.halted.trans h.awake
  split
  · refine ⟨queue, ?_, awake, nofun, history, ticked.callStack h.callStack⟩
    exact prefixes.trans_le (Nat.add_le_add_right count 1)
  · refine ⟨queue, ?_, awake, fun e => by simp [phase] at e, history, ticked.callStack h.callStack⟩
    exact (prefixes.trans_le (Nat.le_of_not_lt ‹_›)).trans (Nat.le_add_right ..)

theorem execHlt_execInv {s : State} (h : ExecInv s) : NextMeets ExecInv (execHlt s) := by
  have suspended := (haltCycle_cpuKept s).trans (suspendFetch_cpuKept _)
  unfold execHlt
  split
  · trivial
  · exact (suspended.execInv h).setPhase nofun

theorem drawBit_cpuKept (s : State) : CpuKept s (drawBit s).2 := .refl _

theorem drawSzap_cpuKept (s : State) : CpuKept s (drawSzap s) :=
  ((drawBit_cpuKept s).trans (drawBit_cpuKept _)).trans ((drawBit_cpuKept _).trans (drawBit_cpuKept _))

theorem drawCo_cpuKept (s : State) : CpuKept s (drawCo s) := (drawBit_cpuKept s).trans (drawBit_cpuKept _)

section
variable {s : State} (h : ExecInv s)
include h

theorem execMul_execInv (w : Width) (rm : Rm) : NextMeets ExecInv (execMul w rm s) := by
  unfold execMul
  split
  · trivial
  · exact ((rmRead_cpuKept w rm s).trans (mulBy_cpuKept w _ _)).execInv h

theorem execImul_execInv (w : Width) (rm : Rm) : NextMeets ExecInv (execImul w rm s) := by
  unfold execImul
  split
  · trivial
  · exact ((rmRead_cpuKept w rm s).trans (imulBy_cpuKept w _ _)).execInv h

variable (p : s.eu.phase ≠ .repeating)
include p

/-- A divisor is read, then there is a divide error or the quotient is written. -/
theorem divide_execInv (w : Width) (rm : Rm) {c : Prop} [Decidable c] {q m : Val w} :
    NextMeets ExecInv (if c then divideError (rmRead w rm s).2
      else .next (setQuotient w q m (drawCo (drawSzap (rmRead w rm s).2)))) := by
  have read := rmRead_cpuKept w rm s
  generalize rmRead w rm s = v at read ⊢
  have phase : v.2.eu.phase = s.eu.phase := read.phase
  split
  · exact divideError_execInv (read.execInv h) (phase ▸ p)
  · exact (((read.trans (drawSzap_cpuKept v.2)).trans (drawCo_cpuKept _)).trans (setQuotient_cpuKept w q m _)).execInv h

theorem execDiv_execInv (w : Width) (rm : Rm) : NextMeets ExecInv (execDiv w rm s) := by
  unfold execDiv
  split
  · trivial
  · exact divide_execInv h p w rm

theorem execIdiv_execInv (w : Width) (rm : Rm) : NextMeets ExecInv (execIdiv w rm s) := by
  unfold execIdiv
  split
  · trivial
  · exact divide_execInv h p w rm

theorem execAam_execInv (i : Byte) : NextMeets ExecInv (execAam i s) := by
  unfold execAam
  split
  · exact divideError_execInv h p
  · exact CpuStage.Keeps.execInv (s := s) (.refl _) h

theorem execInto_execInv : NextMeets ExecInv (execInto s) := by
  unfold execInto
  split
  · exact (enterInterrupt_execInv h p 4 (ip s)).mono fun _ => And.left
  · exact h

/-! ### The meaning of an instruction -/

/-- The meaning of an instruction, begun outside a repetition with no fifth prefix byte counted, keeps the invariant. -/
theorem exec_execInv (count : s.eu.prefixes.count ≤ maxPrefixes) (i : Instr) : NextMeets ExecInv (exec i s) := by
  have kept {r : Res State} (k : NextMeets (CpuKept s) r) : NextMeets ExecInv r := k.mono fun _ k => k.execInv h
  have next {t : State} (k : CpuKept s t) : NextMeets ExecInv (.next t) := k.execInv h
  cases i with
  | segEs | segCs | segSs | segDs | lock | repne | rep | wait => exact addPrefix_execInv _ h count
  | movRmReg d w rm r =>
    cases d with
    | toRm => exact next (rmWrite_cpuKept w rm _ s)
    | toReg => exact next (rmRead_cpuKept w rm s)
  | movFromSreg rm => exact next (rmWrite_cpuKept .word rm _ s)
  | movToSreg sr rm => exact next (rmRead_cpuKept .word rm s)
  | movMoffs store w off =>
    cases store with
    | false => exact next (segRead_cpuKept w _ off s)
    | true => exact next (segWrite_cpuKept w _ off _ s)
  | movRegImm r v => cases v <;> exact next (.refl _)
  | movRmImm ext rm v => cases v <;> exact next (rmWrite_cpuKept _ rm _ s)
  | pushReg r => exact exec_pushReg r s ▸ next (push_cpuKept _ s)
  | pushSreg | pushf => exact next (push_cpuKept _ s)
  | pushRm alt rm => exact kept (execPushRm_cpuKept alt rm s)
  | popReg | popSreg | popf => exact next (pop_cpuKept s)
  | popRm ext rm => exact next ((pop_cpuKept s).trans (rmWrite_cpuKept .word rm _ _))
  | xchgRm w rm => exact next ((rmRead_cpuKept w rm s).trans (rmWrite_cpuKept w rm _ _))
  | inp w p => exact kept ((ioRead_cpuKept w _ s).andThen fun _ k => k)
  | out w p => exact kept (ioWrite_cpuKept w _ _ s)
  | xlat => exact next (segRead_cpuKept .byte _ _ s)
  | lds r m | les r m => exact next (readFar_cpuKept m s)
  | xchgAx | lea | lahf | sahf | cbw | cwd | salc | clc | stc | cmc | cld | std | cli | nop => exact next (.refl _)
  | add f | adc f | sub f | sbb f | and f | or f | xor f =>
    refine next (aluForm_cpuKept ?_ true f s)
    exact fun _ _ _ _ => .refl _
  | cmp f =>
    refine next (aluForm_cpuKept ?_ false f s)
    exact fun _ _ _ _ => .refl _
  | test f =>
    refine next (testForm_cpuKept ?_ f s)
    exact fun _ _ _ _ => .refl _
  | inc f | dec f =>
    refine next (incForm_cpuKept ?_ f s)
    exact fun _ _ _ => .refl _
  | neg w rm | not w rm =>
    refine next (unaryRm_cpuKept ?_ w rm s)
    exact fun _ _ _ => .refl _
  | mul w rm => exact execMul_execInv h w rm
  | imul w rm => exact execImul_execInv h w rm
  | div w rm => exact execDiv_execInv h p w rm
  | idiv w rm => exact execIdiv_execInv h p w rm
  | daa | das | aaa | aas | aad => exact next (.refl _)
  | aam v => exact execAam_execInv h p v
  | rol w c rm | ror w c rm | rcl w c rm | rcr w c rm | shl w c rm | shr w c rm | sar w c rm =>
    refine next (shiftRm_cpuKept _ ?_ w c rm s)
    exact fun _ _ _ => .refl _
  | setmo w c rm => exact kept (execSetmo_cpuKept w c rm s)
  | movsb | movsw | cmpsb | cmpsw | scasb | scasw | lodsb | lodsw | stosb | stosw => exact exec_string_execInv rfl h
  | jmpShort | jmpNear => exact next (setIp_cpuKept _ s)
  | jmpFar off seg => exact next (setCsIp_cpuKept seg off s)
  | jmpRm rm => exact next (((suspendFetch_cpuKept s).trans (rmRead_cpuKept .word rm _)).trans (setIp_cpuKept _ _))
  | jmpMem m => exact next (((suspendFetch_cpuKept s).trans (readFar_cpuKept m _)).trans (setCsIp_cpuKept _ _ _))
  | callNear rel =>
    have pushed := (suspendFetch_cpuKept s).trans (push_cpuKept (ip s) _)
    exact next ((pushed.trans (setIp_cpuKept (ip s + rel) _)).trans (pushCall_cpuKept .call _))
  | callFar off seg => exact next ((suspendFetch_cpuKept s).trans (farCall_cpuKept seg off _ _))
  | callRm rm => exact kept (execCallRm_cpuKept rm s)
  | callMem m => exact next (((suspendFetch_cpuKept s).trans (readFar_cpuKept m _)).trans (farCall_cpuKept _ _ _ _))
  | ret | retImm => exact next (retNear_cpuKept _ s)
  | retf | retfImm => exact next (retFar_cpuKept _ s)
  | jo _ rel | jno _ rel | jb _ rel | jae _ rel | je _ rel | jne _ rel | jbe _ rel | ja _ rel | js _ rel | jns _ rel | jp _ rel
  | jnp _ rel | jl _ rel | jge _ rel | jle _ rel | jg _ rel | jcxz rel => exact next (branchIf_cpuKept _ rel s)
  | loop rel | loope rel | loopne rel => exact next (branchIf_cpuKept _ rel (decCx s))
  | int3 | int => exact (enterInterrupt_execInv h p _ _).mono fun _ => And.left
  | into => exact execInto_execInv h p
  | iret => exact next (returnFromInterrupt_cpuKept s)
  | sti => exact exec_sti s ▸ next (.refl _)
  | hlt => exact execHlt_execInv h
  | esc op ext rm => exact next (rmRead_cpuKept .word rm s)
  | popCs | movSregHigh | movCs | leaRegister | lesRegister | ldsRegister | fe2 | fe3 | fe4 | fe5 | fe6 | fe7 | callRegisterFar
  | jmpRegisterFar => trivial

end

/-! ### The instruction boundary (R95, R341) -/

theorem completeInsn_execInv {s : State} (h : ExecInv s) : ExecInv (completeInsn s) := by
  refine ⟨h.queue, h.prefixes, h.awake, nofun, ?_, h.callStack⟩
  unfold completeInsn
  simp only
  split
  · exact List.length_take_le 32 _
  · exact h.history

/-- A CPU that halts stands at an instruction's start (R216). -/
theorem enterHalt_cpuInv {s : State} (h : ExecInv s) (start : s.eu.phase = .start) : CpuInv (enterHalt s) :=
  ⟨h.queue, h.prefixes, fun _ => start, .inl start, h.repeating, h.history, h.callStack⟩

theorem boundary_cpuInv {s : State} (h : ExecInv s) : NextMeets CpuInv (boundary s) := by
  have done := completeInsn_execInv h
  have start : (completeInsn s).eu.phase = .start := rfl
  unfold boundary
  simp only
  generalize completeInsn s = t at done start ⊢
  have outside : t.eu.phase ≠ .repeating := by simp [start]
  have entered {r : Res State} (k : NextMeets (EntersKept t) r) : NextMeets CpuInv r :=
    k.mono fun _ k => k.1.cpuInv (.inl (k.2.trans start))
  have ended (hlt : Bool) {t : State} (done : ExecInv t) (start : t.eu.phase = .start) : CpuInv (if hlt then enterHalt t else t) := by
    split
    · exact enterHalt_cpuInv done start
    · exact done.cpuInv (.inl start)
  split
  · exact ended _ ⟨done.queue, done.prefixes, done.awake, done.repeating, done.history, done.callStack⟩ start
  · split
    · exact entered (takeInterrupt_execInv done outside _)
    · split
      · exact entered (enterInterrupt_execInv done outside 1 _)
      · exact ended _ done start

theorem finishInsn_cpuInv {s : State} (h : ExecInv s) : NextMeets CpuInv (finishInsn s) := by
  have ended : NextMeets CpuInv (boundary (busGap s)) := boundary_cpuInv ((busGap_cpuKept s).execInv h)
  unfold finishInsn
  split
  · exact ended
  · exact ended
  · exact h.cpuInv (.inl ‹_›)
  · exact h.cpuInv (.inr (.inl ‹_›))
  · exact h.cpuInv (.inr (.inr ‹_›))

theorem execFinish_cpuInv {i : Instr} {s : State} (h : NextMeets ExecInv (exec i s)) : NextMeets CpuInv (andThen (exec i s) finishInsn) :=
  h.andThen fun _ => finishInsn_cpuInv

/-! ### Decoding (R65, R82) -/

/-- Resuming a suspended fetch (R67) puts none in flight. -/
theorem fetching_resumed (b : Biu) :
    Biu.fetching { b with fetchState := if b.fetchState == .suspended then .idle else b.fetchState } = b.fetching := by
  rw [Bool.eq_iff_iff, Biu.fetching_iff, Biu.fetching_iff]
  cases b.fetchState <;> simp

/-- One code fetch fits into an empty queue (R29, R64). -/
theorem fetchWidth_le (s : State) : fetchWidth s ≤ s.cfg.queueMax := by
  unfold fetchWidth Config.queueMax
  split
  · decide
  · split <;> decide

theorem fillQueue_cpuKept (s : State) : CpuKept s (fillQueue s) := by
  unfold fillQueue
  split
  · refine (busGap_cpuKept s).trans ?_
    simp only
    generalize busGap s = t
    split
    · rename_i empty
      have resumed : FetchOnly t { t with biu := { t.biu with
          fetchState := if t.biu.fetchState == .suspended then .idle else t.biu.fetchState } } := .ofBiu t rfl rfl
      refine (resumed.trans (codeFetch_fetchOnly _)).cpuKept fun h => codeFetch_fits ?_ ?_
      · exact h.of_biu rfl rfl fun f => h.room (fetching_resumed t.biu ▸ f)
      · exact (congrArg (List.length · + _) empty).trans_le ((Nat.zero_add _).trans_le (fetchWidth_le _))
    · exact .refl _
  · exact .refl _

theorem awaitByte_cpuKept (s : State) : CpuKept s (awaitByte s) := by
  unfold awaitByte
  split
  · exact idleTick_cpuKept s
  · exact .refl _

/-- A byte is consumed: the queue is shorter. -/
theorem fetchByte_cpuKept (s : State) : CpuKept s (fetchByte s).2 := by
  have filled := (fillQueue_cpuKept s).trans (awaitByte_cpuKept _)
  unfold fetchByte
  simp only
  generalize awaitByte (fillQueue s) = t at filled ⊢
  split
  · rename_i b q queue
    refine filled.trans ⟨fun h => ?_, rfl, rfl, rfl, rfl, rfl, rfl, rfl, id⟩
    have shorter : q.length ≤ t.biu.queue.length := by simp [queue]
    exact (Nat.add_le_add_right shorter _).trans h
  · exact filled

theorem fetchInstr_cpuKept (n : Nat) (acc : List Byte) (s : State) : CpuKept s (fetchInstr n acc s).2.2 := by
  induction n generalizing acc s with
  | zero => exact .refl _
  | succ n ih =>
    unfold fetchInstr
    simp only
    split
    · exact fetchByte_cpuKept s
    · exact (fetchByte_cpuKept s).trans (ih _ _)

/-- A decode ends with the fault held, or in the execute phase of the instruction decoded. -/
theorem decodeNext_execInv {s : State} (h : ExecInv s) (count : s.eu.prefixes.count ≤ maxPrefixes) :
    ExecInv (decodeNext s).2 ∧ ((decodeNext s).1 = none → (decodeNext s).2.eu.phase = .start) ∧
      ((decodeNext s).1 ≠ none → (decodeNext s).2.eu.phase = .executing ∧ (decodeNext s).2.eu.prefixes.count ≤ maxPrefixes) := by
  have fetched := fetchInstr_cpuKept maxUnprefixed [] s
  unfold decodeNext
  simp only
  generalize fetchInstr maxUnprefixed [] s = r at fetched ⊢
  have inv := fetched.execInv h
  have within : r.2.2.eu.prefixes.count ≤ maxPrefixes := (congrArg Prefixes.count fetched.prefixes).trans_le count
  have failed : ExecInv (holdFault (.instructionDecodeError s.eu.insnStart) r.2.2) :=
    ⟨inv.queue, within.trans (Nat.le_add_right ..), inv.awake, nofun, inv.history, inv.callStack⟩
  split
  · exact ⟨failed, fun _ => rfl, absurd rfl⟩
  · split
    · exact ⟨failed, fun _ => rfl, absurd rfl⟩
    · exact ⟨⟨inv.queue, inv.prefixes, inv.awake, nofun, inv.history, inv.callStack⟩, nofun, fun _ => ⟨rfl, within⟩⟩

theorem decodeExec_cpuInv {s : State} (h : ExecInv s) (count : s.eu.prefixes.count ≤ maxPrefixes) :
    NextMeets CpuInv (decodeExec s) := by
  obtain ⟨inv, failed, decoded⟩ := decodeNext_execInv h count
  unfold decodeExec
  simp only
  split
  · rename_i none
    exact inv.cpuInv (.inl (failed none))
  · rename_i i some
    obtain ⟨executing, within⟩ := decoded (by simp [some])
    exact execFinish_cpuInv (exec_execInv inv (by simp [executing]) within i)

/-! ### The step (R81, R216, R322) -/

theorem wakeStep_cpuInv {s : State} (h : CpuInv s) (start : s.eu.phase = .start) : NextMeets CpuInv (wakeStep s) := by
  have woken : ExecInv { s with eu := { s.eu with halted := false, haltReported := false } } :=
    ⟨h.queue, h.prefixes, rfl, h.repeating, h.history, h.callStack⟩
  have ran := (Biu.run_keeps s.cfg s.cfg.haltResume s.biu).cpuKept
    (s := { s with eu := { s.eu with halted := false, haltReported := false } })
  have inv := ran.execInv woken
  have outside : s.eu.phase ≠ .repeating := by simp [start]
  exact (takeInterrupt_execInv inv outside (ip s)).mono fun _ k => k.1.cpuInv (.inl (k.2.trans start))

theorem euStep_cpuInv {s : State} (h : CpuInv s) (free : s.eu.fault = none) : NextMeets CpuInv (euStep s) := by
  have count : s.eu.prefixes.count ≤ maxPrefixes := by simpa [free] using h.prefixes
  unfold euStep
  split
  · exact wakeStep_cpuInv h (h.halted ‹_›)
  · have inv := h.execInv (Bool.eq_false_iff.mpr ‹_›)
    split
    case h_4 => exact decodeExec_cpuInv inv count
    case h_5 repeating =>
      obtain ⟨-, -, i, mnemonic, string⟩ := h.repeating repeating
      unfold repeatExec
      rw [mnemonic]
      exact execFinish_cpuInv (exec_string_execInv string inv)
    all_goals
      rename_i phase
      have begun : ExecInv (beginInsn s) :=
        ⟨inv.queue, Nat.zero_le _, inv.awake, fun e => absurd (phase.symm.trans e) nofun, inv.history, inv.callStack⟩
      exact decodeExec_cpuInv begun (Nat.zero_le _)

theorem agentStep_cpuKept (u : Turn) (s : State) : CpuKept s (agentStep u s) := by
  cases u with
  | eu => exact .refl _
  | prefetch => exact midStep_cpuKept s .prefetch
  | fdc => exact midStep_cpuKept s .fdc
  | crtc => exact midStep_cpuKept s .crtc
  | clock c => exact midStep_cpuKept s (.clock c)
  | host a => exact midStep_cpuKept s (.host a)

theorem CpuStage.Keeps.cpuInv {s t : State} (k : CpuKept s t) (h : CpuInv s) : CpuInv t := by
  have eu : t.eu.prefixes = s.eu.prefixes ∧ t.eu.fault = s.eu.fault ∧ t.eu.phase = s.eu.phase ∧ t.eu.halted = s.eu.halted :=
    ⟨k.prefixes, k.fault, k.phase, k.halted⟩
  obtain ⟨prefixes, fault, phase, halted⟩ := eu
  refine ⟨k.queueFits h.queue, ?_, ?_, ?_, fun e => k.repRecord (h.repeating (phase ▸ e)),
    (congrArg List.length k.history).trans_le h.history, k.callStack h.callStack⟩
  · rw [prefixes, fault]
    exact h.prefixes
  · rw [halted, phase]
    exact h.halted
  · rw [phase]
    exact h.phase

/-- The agenda is no part of the invariant. -/
theorem CpuInv.withAgenda {s : State} (h : CpuInv s) (rest : List Turn) : CpuInv { s with agenda := rest } :=
  CpuStage.Keeps.cpuInv (s := s) (.refl _) h

/-- Settles O56: the invariant is kept by each agent's step, the execution unit's being one of the cases of `euStep`, in which it is
`ExecInv` from the decode to the boundary. -/
theorem stepKeepsCpuInv : Obligations.StepKeepsCpuInv := by
  unfold Obligations.StepKeepsCpuInv
  intro s t inv e
  rcases step_cases s with ⟨free, rest, h⟩ | ⟨u, rest, -, h⟩ | ⟨rest, h⟩ | ⟨g, -, h⟩ <;> rw [h] at e
  · exact (euStep_cpuInv (inv.withAgenda rest) free).next e
  · cases e
    exact (agentStep_cpuKept u { s with agenda := rest }).cpuInv (inv.withAgenda rest)
  · cases e
    exact inv.withAgenda rest
  · cases e

end Sys2Proof.Machine

namespace Sys2Proof

/-! ### The fields of an opcode byte and of a ModRM byte (R100, R101, R105) -/

@[simp] theorem Reg.toBits_ofBits (b : BitVec 3) : (Reg.ofBits b).toBits = b := by
  revert b
  decide

@[simp] theorem Reg.ofBits_toBits (r : Reg) : Reg.ofBits r.toBits = r := by cases r <;> rfl

@[simp] theorem Base.ofReg_toReg (b : Base) : Base.ofReg b.toReg = b := by cases b <;> rfl

@[simp] theorem Base.toReg_ofReg (r : Reg) : (Base.ofReg r).toReg = r := by cases r <;> rfl

/-- An opcode byte is its bits 7:3 and its bits 2:0. -/
theorem opByte_fields (op : Byte) : op = opByte (8 * (op.extractLsb' 3 5).toNat + (Reg.ofBits (op.extractLsb' 0 3)).num) := by
  revert op
  decide

/-- A ModRM byte is its three fields. -/
theorem modrmByte_fields (m : Byte) : modrmByte (modField m) (Reg.ofBits (regField m)) (Reg.ofBits (rmField m)) = m := by
  revert m
  decide

theorem fields_modrmByte (mode : BitVec 2) (r rm : Reg) :
    modField (modrmByte mode r rm) = mode ∧ regField (modrmByte mode r rm) = r.toBits ∧
      rmField (modrmByte mode r rm) = rm.toBits := by
  unfold modrmByte
  generalize r.toBits = a
  generalize rm.toBits = b
  revert mode a b
  decide

/-! ### The parts of an instruction, encoded and read (R102, R106) -/

theorem takeWord_encodeWord (v : Word) (rest : List Byte) : takeWord (encodeWord v ++ rest) = some (v, rest) := by
  simp [encodeWord, takeWord]

theorem takeImm_encodeImm (i : Imm) (rest : List Byte) : takeImm i.width (encodeImm i ++ rest) = some (i, rest) := by
  cases i with
  | byte v => rfl
  | word v => simp [Imm.width, encodeImm, takeImm, takeWord_encodeWord]

/-- What a ModRM byte of given fields reads as. -/
theorem parseModrm_modrmByte (mode : BitVec 2) (r rm : Reg) (bs : List Byte) :
    parseModrm (modrmByte mode r rm :: bs) = (parseRm mode rm bs).map fun p => (r, p.1, p.2) := by
  obtain ⟨hmode, hreg, hrm⟩ := fields_modrmByte mode r rm
  simp [parseModrm, hmode, hreg, hrm]

theorem parseModrm_encodeRm {rm : Rm} (h : rm.wellFormed = true) (r : Reg) (rest : List Byte) :
    parseModrm (encodeRm r rm ++ rest) = some (r, rm, rest) := by
  match rm with
  | .reg q => exact parseModrm_modrmByte 3 r q rest
  | .mem (.base b) =>
    refine (parseModrm_modrmByte 0 r b.toReg rest).trans ?_
    cases b with
    | bp => cases h
    | _ => rfl
  | .mem (.disp8 b d) =>
    refine (parseModrm_modrmByte 1 r b.toReg (d :: rest)).trans ?_
    simp [parseRm, takeByte]
  | .mem (.disp16 b d) =>
    refine (parseModrm_modrmByte 2 r b.toReg (encodeWord d ++ rest)).trans ?_
    simp [parseRm, takeWord_encodeWord]
  | .mem (.direct a) =>
    refine (parseModrm_modrmByte 0 r .r6 (encodeWord a ++ rest)).trans ?_
    simp [parseRm, takeWord_encodeWord]

/-! What a format builds from the parts of an encoding. -/

theorem parseModrm_map {β : Type} {rm : Rm} (h : rm.wellFormed = true) (r : Reg) (rest : List Byte) (g : Reg × Rm × List Byte → β) :
    (parseModrm (encodeRm r rm ++ rest)).map g = some (g (r, rm, rest)) := by
  rw [parseModrm_encodeRm h, Option.map_some]

theorem parseModrm_bind {β : Type} {rm : Rm} (h : rm.wellFormed = true) (r : Reg) (tail rest : List Byte)
    (g : Reg × Rm × List Byte → Option β) : (parseModrm ((encodeRm r rm ++ tail) ++ rest)).bind g = g (r, rm, tail ++ rest) := by
  rw [List.append_assoc, parseModrm_encodeRm h, Option.bind_some]

theorem parseModrm_bind_end {β : Type} {rm : Rm} (h : rm.wellFormed = true) (r : Reg) (rest : List Byte)
    (g : Reg × Rm × List Byte → Option β) : (parseModrm (encodeRm r rm ++ rest)).bind g = g (r, rm, rest) := by
  rw [parseModrm_encodeRm h, Option.bind_some]

theorem takeWord_map {β : Type} (v : Word) (rest : List Byte) (g : Word × List Byte → β) :
    (takeWord (encodeWord v ++ rest)).map g = some (g (v, rest)) := by
  rw [takeWord_encodeWord, Option.map_some]

theorem takeImm_map {β : Type} (i : Imm) (rest : List Byte) (g : Imm × List Byte → β) :
    (takeImm i.width (encodeImm i ++ rest)).map g = some (g (i, rest)) := by
  rw [takeImm_encodeImm, Option.map_some]

theorem takeFar_bind {β : Type} (v u : Word) (rest : List Byte) (g : Word → Word × List Byte → β) :
    ((takeWord ((encodeWord v ++ encodeWord u) ++ rest)).bind fun p => (takeWord p.2).map (g p.1)) = some (g v (u, rest)) := by
  rw [List.append_assoc, takeWord_encodeWord]
  exact takeWord_map u rest _

/-! ### Families of instructions, encoded and read (R109, R138) -/

theorem decode_encodeAlu (k : Reg) {f : AluForm} (h : f.wellFormed = true) (rest : List Byte) :
    decode (encodeAlu k f ++ rest) = some (aluInstr k f, rest) := by
  cases f with
  | rmReg d w rm r => cases k <;> cases d <;> cases w <;> exact parseModrm_map h r rest _
  | acc i =>
    have imm := takeImm_map i rest fun p => (aluInstr k (.acc p.1), p.2)
    simp only [encodeAlu]
    generalize i.width = w at imm ⊢
    cases w <;> cases k <;> exact imm
  | rmImm alt rm i =>
    simp only [AluForm.wellFormed, Bool.and_eq_true] at h
    obtain ⟨hrm, hi⟩ := h
    have imm := takeImm_map i rest fun p => (aluInstr k (.rmImm alt rm p.1), p.2)
    simp only [encodeAlu]
    cases alt with
    | false =>
      generalize i.width = w at imm ⊢
      cases w <;> exact (parseModrm_bind hrm k (encodeImm i) rest _).trans imm
    | true =>
      have byte : i.width = .byte := by
        cases i with
        | byte v => rfl
        | word v => cases hi
      rw [byte] at imm ⊢
      exact (parseModrm_bind hrm k (encodeImm i) rest _).trans imm
  | rmImm8s rm i => exact parseModrm_bind h k [i] rest _

theorem decode_encodeInc (k : Reg) (hk : k = .r0 ∨ k = .r1) {f : IncForm} (h : f.wellFormed = true) (rest : List Byte) :
    decode (encodeInc k f ++ rest) = some (if k = .r0 then .inc f else .dec f, rest) := by
  cases f with
  | reg r => rcases hk with rfl | rfl <;> cases r <;> rfl
  | rm w rm => rcases hk with rfl | rfl <;> cases w <;> exact parseModrm_map h _ rest _

theorem decode_encodeShift (k : Reg) (w : Width) (c : ShiftCount) {rm : Rm} (h : rm.wellFormed = true) (rest : List Byte) :
    decode (encodeShift k w c rm ++ rest) = some (shiftInstr w c k rm, rest) := by
  cases c <;> cases w <;> exact parseModrm_map h k rest _

theorem decode_encodeTest {f : TestForm} (h : f.wellFormed = true) (rest : List Byte) :
    decode (encodeTest f ++ rest) = some (.test f, rest) := by
  cases f with
  | rmReg w rm r => cases w <;> exact parseModrm_map h r rest _
  | acc i =>
    have imm := takeImm_map i rest fun p => (Instr.test (.acc p.1), p.2)
    simp only [encodeTest]
    generalize i.width = w at imm ⊢
    cases w <;> exact imm
  | rmImm alt rm i =>
    have imm := takeImm_map i rest fun p => (Instr.test (.rmImm alt rm p.1), p.2)
    simp only [encodeTest]
    generalize i.width = w at imm ⊢
    cases w <;> cases alt <;> exact (parseModrm_bind h _ (encodeImm i) rest _).trans imm

/-! ### Every instruction -/

/-- Settles O1: each constructor's bytes lead the decoder to its own format, which reads back the parts encoded. -/
theorem decodeOfEncode : Obligations.DecodeOfEncode := by
  unfold Obligations.DecodeOfEncode
  intro i rest h
  cases i with
  | segEs | segCs | segSs | segDs | repne | rep | wait | pushf | popf | xlat | lahf | sahf
  | daa | das | aaa | aas | aam | aad | cbw | cwd | salc
  | movsb | movsw | cmpsb | cmpsw | scasb | scasw | lodsb | lodsw | stosb | stosw | jmpShort | loop | loope | loopne | jcxz
  | int3 | int | into | iret | clc | stc | cmc | cld | std | cli | sti | hlt | nop | popCs => rfl
  | lock alt | ret alt | retf alt | jo alt | jno alt | jb alt | jae alt | je alt | jne alt | jbe alt | ja alt | js alt | jns alt
  | jp alt | jnp alt | jl alt | jge alt | jle alt | jg alt => cases alt <;> rfl
  | movRmReg d w rm r => cases d <;> cases w <;> exact parseModrm_map h r rest _
  | movFromSreg rm sr => cases sr <;> exact parseModrm_map h _ rest _
  | movToSreg sr rm =>
    simp only [Instr.wellFormed, Bool.and_eq_true] at h
    obtain ⟨hsr, hrm⟩ := h
    cases sr with
    | cs => cases hsr
    | es | ss | ds => exact parseModrm_map hrm _ rest _
  | movMoffs store w off =>
    have word := takeWord_map off rest fun p => (Instr.movMoffs store w p.1, p.2)
    cases store <;> cases w <;> exact word
  | movRegImm r i =>
    have imm := takeImm_map i rest fun p => (Instr.movRegImm r p.1, p.2)
    simp only [encode]
    generalize i.width = w at imm ⊢
    cases w <;> cases r <;> exact imm
  | movRmImm ext rm i =>
    have imm := takeImm_map i rest fun p => (Instr.movRmImm ext rm p.1, p.2)
    simp only [encode]
    generalize i.width = w at imm ⊢
    cases w <;> exact (parseModrm_bind h ext (encodeImm i) rest _).trans imm
  | pushReg r | popReg r => cases r <;> rfl
  | xchgAx r =>
    cases r with
    | r0 => cases h
    | _ => rfl
  | pushSreg sr => cases sr <;> rfl
  | popSreg sr =>
    cases sr with
    | cs => cases h
    | es | ss | ds => rfl
  | pushRm alt rm => cases alt <;> exact parseModrm_map h _ rest _
  | popRm ext rm => exact parseModrm_map h ext rest _
  | xchgRm w rm r => cases w <;> exact parseModrm_map h r rest _
  | inp w p | out w p => cases w <;> cases p <;> rfl
  | lea r m | lds r m | les r m => exact parseModrm_map (rm := .mem m) h r rest _
  | add f => exact decode_encodeAlu .r0 h rest
  | or f => exact decode_encodeAlu .r1 h rest
  | adc f => exact decode_encodeAlu .r2 h rest
  | sbb f => exact decode_encodeAlu .r3 h rest
  | and f => exact decode_encodeAlu .r4 h rest
  | sub f => exact decode_encodeAlu .r5 h rest
  | xor f => exact decode_encodeAlu .r6 h rest
  | cmp f => exact decode_encodeAlu .r7 h rest
  | inc f => exact decode_encodeInc .r0 (.inl rfl) h rest
  | dec f => exact decode_encodeInc .r1 (.inr rfl) h rest
  | not w rm => cases w <;> exact parseModrm_bind_end h .r2 rest _
  | neg w rm => cases w <;> exact parseModrm_bind_end h .r3 rest _
  | mul w rm => cases w <;> exact parseModrm_bind_end h .r4 rest _
  | imul w rm => cases w <;> exact parseModrm_bind_end h .r5 rest _
  | div w rm => cases w <;> exact parseModrm_bind_end h .r6 rest _
  | idiv w rm => cases w <;> exact parseModrm_bind_end h .r7 rest _
  | test f => exact decode_encodeTest h rest
  | rol w c rm => exact decode_encodeShift .r0 w c h rest
  | ror w c rm => exact decode_encodeShift .r1 w c h rest
  | rcl w c rm => exact decode_encodeShift .r2 w c h rest
  | rcr w c rm => exact decode_encodeShift .r3 w c h rest
  | shl w c rm => exact decode_encodeShift .r4 w c h rest
  | shr w c rm => exact decode_encodeShift .r5 w c h rest
  | setmo w c rm => exact decode_encodeShift .r6 w c h rest
  | sar w c rm => exact decode_encodeShift .r7 w c h rest
  | jmpNear rel => exact takeWord_map rel rest fun p => (Instr.jmpNear p.1, p.2)
  | callNear rel => exact takeWord_map rel rest fun p => (Instr.callNear p.1, p.2)
  | jmpFar off seg => exact takeFar_bind off seg rest fun v p => (Instr.jmpFar v p.1, p.2)
  | callFar off seg => exact takeFar_bind off seg rest fun v p => (Instr.callFar v p.1, p.2)
  | retImm alt n =>
    have word := takeWord_map n rest fun p => (Instr.retImm alt p.1, p.2)
    cases alt <;> exact word
  | retfImm alt n =>
    have word := takeWord_map n rest fun p => (Instr.retfImm alt p.1, p.2)
    cases alt <;> exact word
  | esc op ext rm => cases op <;> exact parseModrm_map h ext rest _
  | jmpRm rm | callRm rm | movCs rm | fe2 rm | fe3 rm | fe4 rm | fe5 rm | fe6 rm | fe7 rm =>
    exact parseModrm_map h _ rest _
  | jmpMem m | callMem m => exact parseModrm_map (rm := .mem m) h _ rest _
  | movSregHigh d n rm =>
    have high := parseModrm_map h (Reg.ofBits ((1 : BitVec 1) ++ n)) rest fun p =>
      ((match d with | .toRm => movFromSregInstr p.1 p.2.1 | .toReg => movToSregInstr p.1 p.2.1), p.2.2)
    rcases Machine.bitVec2_cases n with rfl | rfl | rfl | rfl <;> cases d <;> exact high
  | leaRegister r rm | lesRegister r rm | ldsRegister r rm => exact parseModrm_map (rm := .reg rm) rfl r rest _
  | callRegisterFar rm | jmpRegisterFar rm => exact parseModrm_map (rm := .reg rm) rfl _ rest _

end Sys2Proof

namespace Sys2Proof

open Machine (wordOf_loByte_hiByte bitVec2_cases)

/-! ### What a reader takes from the bytes (R101, R102, R106) -/

theorem encodeWord_wordOf (lo hi : Byte) : encodeWord (wordOf lo hi) = [lo, hi] := by
  simp [encodeWord]

theorem takeByte_eq_some {bs rest : List Byte} {b : Byte} : takeByte bs = some (b, rest) ↔ bs = b :: rest := by
  cases bs <;> simp [takeByte]

theorem takeWord_eq_some {bs rest : List Byte} {v : Word} : takeWord bs = some (v, rest) ↔ bs = encodeWord v ++ rest := by
  constructor
  · intro h
    match bs with
    | lo :: hi :: tail =>
      obtain ⟨rfl, rfl⟩ : wordOf lo hi = v ∧ tail = rest := by simpa [takeWord] using h
      rw [encodeWord_wordOf]
      rfl
  · rintro rfl
    exact takeWord_encodeWord v rest

theorem takeImm_eq_some {w : Width} {bs rest : List Byte} {i : Imm} :
    takeImm w bs = some (i, rest) ↔ i.width = w ∧ bs = encodeImm i ++ rest := by
  constructor
  · intro h
    cases w with
    | byte =>
      obtain ⟨b, hb, rfl⟩ : ∃ b, takeByte bs = some (b, rest) ∧ .byte b = i := by simpa [takeImm] using h
      exact ⟨rfl, takeByte_eq_some.1 hb⟩
    | word =>
      obtain ⟨v, hv, rfl⟩ : ∃ v, takeWord bs = some (v, rest) ∧ .word v = i := by simpa [takeImm] using h
      exact ⟨rfl, takeWord_eq_some.1 hv⟩
  · rintro ⟨rfl, rfl⟩
    exact takeImm_encodeImm i rest

theorem takeWord_of_length {bs : List Byte} (h : 2 ≤ bs.length) :
    ∃ v rest, takeWord bs = some (v, rest) ∧ rest.length + 2 = bs.length := by
  match bs with
  | lo :: hi :: rest => exact ⟨_, rest, rfl, rfl⟩

theorem takeImm_of_length {w : Width} {bs : List Byte} (h : 2 ≤ bs.length) :
    ∃ i rest, takeImm w bs = some (i, rest) ∧ rest.length + (w.bit + 1) = bs.length := by
  match bs, w with
  | lo :: hi :: rest, .byte => exact ⟨.byte lo, hi :: rest, rfl, rfl⟩
  | lo :: hi :: rest, .word => exact ⟨.word (wordOf lo hi), rest, rfl, rfl⟩

theorem parseRm_eq_some {mode : BitVec 2} {q : Reg} {bs rest : List Byte} {rm : Rm} (h : parseRm mode q bs = some (rm, rest)) (r : Reg) :
    rm.wellFormed = true ∧ modrmByte mode r q :: bs = encodeRm r rm ++ rest := by
  rcases bitVec2_cases mode with rfl | rfl | rfl | rfl
  · cases q
    case r6 =>
      obtain ⟨a, ha, rfl⟩ : ∃ a, takeWord bs = some (a, rest) ∧ .mem (.direct a) = rm := by simpa [parseRm] using h
      rw [takeWord_eq_some.1 ha]
      exact ⟨rfl, rfl⟩
    all_goals
      obtain ⟨rfl, rfl⟩ := Prod.mk.inj (Option.some.inj h)
      exact ⟨rfl, rfl⟩
  · obtain ⟨d, hd, rfl⟩ : ∃ d, takeByte bs = some (d, rest) ∧ .mem (.disp8 (Base.ofReg q) d) = rm := by simpa [parseRm] using h
    rw [takeByte_eq_some.1 hd]
    exact ⟨rfl, by simp [encodeRm, encodeMem]⟩
  · obtain ⟨d, hd, rfl⟩ : ∃ d, takeWord bs = some (d, rest) ∧ .mem (.disp16 (Base.ofReg q) d) = rm := by simpa [parseRm] using h
    rw [takeWord_eq_some.1 hd]
    exact ⟨rfl, by simp [encodeRm, encodeMem]⟩
  · obtain ⟨rfl, rfl⟩ := Prod.mk.inj (Option.some.inj h)
    exact ⟨rfl, rfl⟩

theorem parseModrm_eq_some {bs rest : List Byte} {r : Reg} {rm : Rm} (h : parseModrm bs = some (r, rm, rest)) :
    rm.wellFormed = true ∧ bs = encodeRm r rm ++ rest := by
  cases bs with
  | nil => cases h
  | cons m tail =>
    obtain ⟨hrm, rfl⟩ : parseRm (modField m) (Reg.ofBits (rmField m)) tail = some (rm, rest) ∧ Reg.ofBits (regField m) = r := by
      simpa [parseModrm, and_comm, and_assoc] using h
    simpa only [modrmByte_fields] using parseRm_eq_some hrm (Reg.ofBits (regField m))

theorem parseRm_of_length (mode : BitVec 2) (q : BitVec 3) {bs : List Byte} (h : 2 ≤ bs.length) :
    ∃ rm rest, parseRm mode (Reg.ofBits q) bs = some (rm, rest) ∧
      rest.length + (match mode.toNat with | 0 => if q = 6 then 2 else 0 | 1 => 1 | 2 => 2 | _ => 0) = bs.length := by
  match bs with
  | b :: c :: bs =>
    generalize hr : Reg.ofBits q = r
    obtain rfl : q = r.toBits := by rw [← hr, Reg.toBits_ofBits]
    rcases bitVec2_cases mode with rfl | rfl | rfl | rfl <;> cases r <;> exact ⟨_, _, rfl, rfl⟩

theorem parseModrm_of_length (m : Byte) {bs : List Byte} (h : 2 ≤ bs.length) :
    ∃ rm rest, parseModrm (m :: bs) = some (Reg.ofBits (regField m), rm, rest) ∧ rest.length + dispLength m = bs.length := by
  obtain ⟨rm, rest, hrm, hlen⟩ := parseRm_of_length (modField m) (rmField m) h
  exact ⟨rm, rest, by simp [parseModrm, hrm], hlen⟩

theorem dispLength_le (m : Byte) : dispLength m ≤ 2 := by
  unfold dispLength
  split
  · split <;> omega
  all_goals omega

/-! ### The formats of R98 -/

/-- What is read after the opcode byte `op` from `bs` is a well-formed instruction whose encoding is the bytes read, and six bytes are
enough for the length that R99 gives. -/
structure Reads (op : Byte) (bs : List Byte) (r : Option (Instr × List Byte)) : Prop where
  encoded : ∀ i rest, r = some (i, rest) → i.wellFormed = true ∧ op :: bs = encode i ++ rest
  length : ∀ m ms, bs = m :: ms → 4 ≤ ms.length → ∃ i rest, r = some (i, rest) ∧ rest.length + insnLength op m = ms.length + 2

/-- `i` is well formed and has the bytes `bs`. -/
def HasBytes (i : Instr) (bs : List Byte) : Prop := i.wellFormed = true ∧ encode i = bs

theorem insnLength_plain {op : Byte} {n : Nat} (fmt : opcodeFormat op = (n, false)) (m : Byte) : insnLength op m = n := by
  simp [insnLength, fmt]

section
variable {op : Byte} {bs : List Byte}

theorem reads_plain {i : Instr} (fmt : opcodeFormat op = (1, false)) (h : HasBytes i [op]) : Reads op bs (plain bs i) where
  encoded := by
    rintro _ _ ⟨⟩
    exact ⟨h.1, by rw [h.2]; rfl⟩
  length := by
    rintro m ms rfl -
    exact ⟨i, m :: ms, rfl, by rw [insnLength_plain fmt]; rfl⟩

theorem reads_withByte {f : Byte → Instr} (fmt : opcodeFormat op = (2, false)) (h : ∀ b, HasBytes (f b) [op, b]) :
    Reads op bs (withByte bs f) where
  encoded := by
    intro i rest e
    obtain ⟨b, hb, rfl⟩ : ∃ b, takeByte bs = some (b, rest) ∧ f b = i := by simpa [withByte] using e
    exact ⟨(h b).1, by rw [(h b).2, takeByte_eq_some.1 hb]; rfl⟩
  length := by
    rintro m ms rfl -
    exact ⟨f m, ms, rfl, by rw [insnLength_plain fmt]⟩

theorem reads_withWord {f : Word → Instr} (fmt : opcodeFormat op = (3, false)) (h : ∀ v, HasBytes (f v) (op :: encodeWord v)) :
    Reads op bs (withWord bs f) where
  encoded := by
    intro i rest e
    obtain ⟨v, hv, rfl⟩ : ∃ v, takeWord bs = some (v, rest) ∧ f v = i := by simpa [withWord] using e
    exact ⟨(h v).1, by rw [(h v).2, takeWord_eq_some.1 hv]; rfl⟩
  length := by
    rintro m ms rfl enough
    obtain ⟨v, rest, hv, hlen⟩ := takeWord_of_length (bs := m :: ms) (by simp only [List.length_cons]; omega)
    rw [List.length_cons] at hlen
    exact ⟨f v, rest, by simp [withWord, hv], by rw [insnLength_plain fmt]; omega⟩

theorem reads_withImm {w : Width} {f : Imm → Instr} (fmt : opcodeFormat op = (2 + w.bit, false))
    (h : ∀ i, i.width = w → HasBytes (f i) (op :: encodeImm i)) : Reads op bs (withImm w bs f) where
  encoded := by
    intro i rest e
    obtain ⟨v, hv, rfl⟩ : ∃ v, takeImm w bs = some (v, rest) ∧ f v = i := by simpa [withImm] using e
    obtain ⟨hw, rfl⟩ := takeImm_eq_some.1 hv
    exact ⟨(h v hw).1, by rw [(h v hw).2]; rfl⟩
  length := by
    rintro m ms rfl enough
    obtain ⟨v, rest, hv, hlen⟩ := takeImm_of_length (w := w) (bs := m :: ms) (by simp only [List.length_cons]; omega)
    rw [List.length_cons] at hlen
    exact ⟨f v, rest, by simp [withImm, hv], by rw [insnLength_plain fmt]; omega⟩

theorem reads_withFar {f : Word → Word → Instr} (fmt : opcodeFormat op = (5, false))
    (h : ∀ v u, HasBytes (f v u) (op :: (encodeWord v ++ encodeWord u))) : Reads op bs (withFar bs f) where
  encoded := by
    intro i rest e
    obtain ⟨v, tail, hv, u, hu, rfl⟩ :
        ∃ v tail, takeWord bs = some (v, tail) ∧ ∃ u, takeWord tail = some (u, rest) ∧ f v u = i := by
      simpa [withFar, Option.bind_eq_some_iff] using e
    refine ⟨(h v u).1, ?_⟩
    rw [(h v u).2, takeWord_eq_some.1 hv, takeWord_eq_some.1 hu]
    simp
  length := by
    rintro m ms rfl enough
    obtain ⟨v, tail, hv, hlen⟩ := takeWord_of_length (bs := m :: ms) (by simp only [List.length_cons]; omega)
    rw [List.length_cons] at hlen
    obtain ⟨u, rest, hu, hlen'⟩ := takeWord_of_length (bs := tail) (by omega)
    exact ⟨f v u, rest, by simp [withFar, hv, hu], by rw [insnLength_plain fmt]; omega⟩

/-- A format that goes on after the ModRM byte and its displacement. -/
theorem reads_modrm {g : Reg × Rm × List Byte → Option (Instr × List Byte)}
    (encoded : ∀ r rm tail i rest, rm.wellFormed = true → g (r, rm, tail) = some (i, rest) →
      ∃ mid, HasBytes i (op :: (encodeRm r rm ++ mid)) ∧ tail = mid ++ rest)
    (length : ∀ m rm tail, 2 ≤ tail.length → ∃ i rest, g (Reg.ofBits (regField m), rm, tail) = some (i, rest) ∧
      rest.length + insnLength op m = tail.length + dispLength m + 2) : Reads op bs ((parseModrm bs).bind g) where
  encoded := by
    intro i rest e
    obtain ⟨⟨r, rm, tail⟩, hp, hg⟩ := Option.bind_eq_some_iff.1 e
    obtain ⟨hrm, rfl⟩ := parseModrm_eq_some hp
    obtain ⟨mid, ⟨hwf, henc⟩, rfl⟩ := encoded r rm tail i rest hrm hg
    exact ⟨hwf, by rw [henc]; simp⟩
  length := by
    rintro m ms rfl enough
    obtain ⟨rm, tail, hp, hlen⟩ := parseModrm_of_length m (bs := ms) (by omega)
    have short := dispLength_le m
    obtain ⟨i, rest, hg, hlen'⟩ := length m rm tail (by omega)
    exact ⟨i, rest, by rw [hp, Option.bind_some, hg], by omega⟩

theorem insnLength_modrm {n : Nat} (fmt : opcodeFormat op = (n, true)) (unary : op ≠ 0xF6 ∧ op ≠ 0xF7) (m : Byte) :
    insnLength op m = n + dispLength m := by
  simp only [insnLength, fmt, if_neg unary.1, if_neg unary.2, ite_self, if_true, Nat.add_zero]

theorem reads_withModrm {f : Reg → Rm → Instr} (fmt : opcodeFormat op = (2, true)) (unary : op ≠ 0xF6 ∧ op ≠ 0xF7)
    (h : ∀ r rm, rm.wellFormed = true → HasBytes (f r rm) (op :: encodeRm r rm)) : Reads op bs (withModrm bs f) := by
  unfold withModrm
  rw [Option.map_eq_bind]
  refine reads_modrm ?_ ?_
  · rintro r rm tail i rest hrm ⟨⟩
    exact ⟨[], by simpa using h r rm hrm, rfl⟩
  · intro m rm tail _
    exact ⟨_, tail, rfl, by rw [insnLength_modrm fmt unary]; omega⟩

theorem reads_withModrmImm {w : Width} {f : Reg → Rm → Imm → Instr} (fmt : opcodeFormat op = (3 + w.bit, true))
    (unary : op ≠ 0xF6 ∧ op ≠ 0xF7)
    (h : ∀ r rm i, rm.wellFormed = true → i.width = w → HasBytes (f r rm i) (op :: (encodeRm r rm ++ encodeImm i))) :
    Reads op bs (withModrmImm w bs f) := by
  refine reads_modrm ?_ ?_
  · intro r rm tail i rest hrm e
    obtain ⟨v, hv, rfl⟩ : ∃ v, takeImm w tail = some (v, rest) ∧ f r rm v = i := by simpa using e
    obtain ⟨hw, rfl⟩ := takeImm_eq_some.1 hv
    exact ⟨encodeImm v, h r rm v hrm hw, rfl⟩
  · intro m rm tail enough
    obtain ⟨v, rest, hv, hlen⟩ := takeImm_of_length (w := w) enough
    exact ⟨_, rest, by simp only [hv]; rfl, by rw [insnLength_modrm fmt unary]; omega⟩

/-- 83h, whose immediate byte is extended (R109). -/
theorem reads_aluImm8s : Reads 0x83 bs
    ((parseModrm bs).bind fun p => (takeByte p.2.2).map fun q => (aluInstr p.1 (.rmImm8s p.2.1 q.1), q.2)) := by
  refine reads_modrm ?_ ?_
  · intro r rm tail i rest hrm e
    obtain ⟨b, hb, rfl⟩ : ∃ b, takeByte tail = some (b, rest) ∧ aluInstr r (.rmImm8s rm b) = i := by simpa using e
    exact ⟨[b], by cases r <;> exact ⟨hrm, rfl⟩, takeByte_eq_some.1 hb⟩
  · intro m rm tail enough
    cases tail with
    | nil => simp at enough
    | cons b rest => exact ⟨_, rest, rfl, by rw [insnLength_modrm (n := 3) rfl (by decide), List.length_cons]; omega⟩

/-- The opcode of F6h and F7h by its width. -/
theorem opcodeFormat_unary (w : Width) : opcodeFormat (opByte (0xF6 + w.bit)) = (2, true) := by cases w <;> rfl

theorem insnLength_unary (w : Width) (m : Byte) : insnLength (opByte (0xF6 + w.bit)) m =
    2 + dispLength m + (if (Reg.ofBits (regField m)).num < 2 then w.bit + 1 else 0) := by
  simp only [insnLength, opcodeFormat_unary, Reg.num, Reg.toBits_ofBits]
  cases w <;> rfl

theorem reads_unaryInstr (w : Width) : Reads (opByte (0xF6 + w.bit)) bs (unaryInstr w bs) := by
  refine reads_modrm ?_ ?_
  · intro r rm tail i rest hrm e
    cases r with
    | r0 =>
      obtain ⟨v, hv, rfl⟩ : ∃ v, takeImm w tail = some (v, rest) ∧ .test (.rmImm false rm v) = i := by simpa using e
      obtain ⟨rfl, rfl⟩ := takeImm_eq_some.1 hv
      exact ⟨encodeImm v, ⟨hrm, rfl⟩, rfl⟩
    | r1 =>
      obtain ⟨v, hv, rfl⟩ : ∃ v, takeImm w tail = some (v, rest) ∧ .test (.rmImm true rm v) = i := by simpa using e
      obtain ⟨rfl, rfl⟩ := takeImm_eq_some.1 hv
      exact ⟨encodeImm v, ⟨hrm, rfl⟩, rfl⟩
    | r2 | r3 | r4 | r5 | r6 | r7 =>
      obtain ⟨rfl, rfl⟩ := Prod.mk.inj (Option.some.inj e)
      exact ⟨[], ⟨hrm, by rw [List.append_nil]; rfl⟩, rfl⟩
  · intro m rm tail enough
    rw [insnLength_unary]
    generalize Reg.ofBits (regField m) = r
    obtain ⟨v, rest, hv, hlen⟩ := takeImm_of_length (w := w) enough
    cases r with
    | r0 => exact ⟨.test (.rmImm false rm v), rest, by simp [hv], by simp [Reg.num, Reg.toBits]; omega⟩
    | r1 => exact ⟨.test (.rmImm true rm v), rest, by simp [hv], by simp [Reg.num, Reg.toBits]; omega⟩
    | r2 | r3 | r4 | r5 | r6 | r7 => exact ⟨_, tail, rfl, by simp [Reg.num, Reg.toBits]; omega⟩

/-! ### The opcode map, block by block (R111) -/

theorem aluInstr_hasBytes (k : Reg) {f : AluForm} (h : f.wellFormed = true) : HasBytes (aluInstr k f) (encodeAlu k f) := by
  cases k <;> exact ⟨h, rfl⟩

theorem opcodeFormat_alu (k : Reg) : (∀ d w, opcodeFormat (opByte (8 * k.num + 2 * Dir.bit d + Width.bit w)) = (2, true) ∧
      opByte (8 * k.num + 2 * Dir.bit d + Width.bit w) ≠ 0xF6 ∧ opByte (8 * k.num + 2 * Dir.bit d + Width.bit w) ≠ 0xF7) ∧
    (∀ w, opcodeFormat (opByte (8 * k.num + 4 + Width.bit w)) = (2 + w.bit, false)) ∧
    opcodeFormat (opByte (8 * k.num + 6)) = (1, false) ∧ opcodeFormat (opByte (8 * k.num + 7)) = (1, false) := by
  refine ⟨fun d w => ?_, fun w => ?_, ?_, ?_⟩
  · cases k <;> cases d <;> cases w <;> decide
  · cases k <;> cases w <;> rfl
  · cases k <;> rfl
  · cases k <;> rfl

theorem reads_aluRmReg (k : Reg) (d : Dir) (w : Width) : Reads (opByte (8 * k.num + 2 * d.bit + w.bit)) bs
    (withModrm bs fun r rm => aluInstr k (.rmReg d w rm r)) := by
  obtain ⟨rmReg, -⟩ := opcodeFormat_alu k
  exact reads_withModrm (rmReg d w).1 (rmReg d w).2 fun r rm h => aluInstr_hasBytes k (f := .rmReg d w rm r) h

theorem reads_aluAcc (k : Reg) (w : Width) : Reads (opByte (8 * k.num + 4 + w.bit)) bs (withImm w bs fun i => aluInstr k (.acc i)) := by
  obtain ⟨-, acc, -⟩ := opcodeFormat_alu k
  refine reads_withImm (acc w) ?_
  rintro i rfl
  exact aluInstr_hasBytes k (f := .acc i) rfl

theorem reads_aluBlock (k lo : Reg) {x6 x7 : Instr} (h6 : HasBytes x6 [opByte (8 * k.num + 6)])
    (h7 : HasBytes x7 [opByte (8 * k.num + 7)]) : Reads (opByte (8 * k.num + lo.num)) bs (aluBlock k lo x6 x7 bs) := by
  obtain ⟨-, -, fmt6, fmt7⟩ := opcodeFormat_alu k
  cases lo with
  | r0 => exact reads_aluRmReg k .toRm .byte
  | r1 => exact reads_aluRmReg k .toRm .word
  | r2 => exact reads_aluRmReg k .toReg .byte
  | r3 => exact reads_aluRmReg k .toReg .word
  | r4 => exact reads_aluAcc k .byte
  | r5 => exact reads_aluAcc k .word
  | r6 => exact reads_plain fmt6 h6
  | r7 => exact reads_plain fmt7 h7

theorem reads_incDecReg (lo : Reg) : Reads (opByte (8 * 8 + lo.num)) bs (plain bs (.inc (.reg lo))) ∧
    Reads (opByte (8 * 9 + lo.num)) bs (plain bs (.dec (.reg lo))) := by
  constructor <;> cases lo <;> exact reads_plain rfl ⟨rfl, rfl⟩

theorem reads_pushPopReg (lo : Reg) : Reads (opByte (8 * 10 + lo.num)) bs (plain bs (.pushReg lo)) ∧
    Reads (opByte (8 * 11 + lo.num)) bs (plain bs (.popReg lo)) := by
  constructor <;> cases lo <;> exact reads_plain rfl ⟨rfl, rfl⟩

theorem reads_jcc (hi alt : Bool) (lo : Reg) :
    Reads (opByte (8 * ((if alt then 12 else 14) + (if hi then 1 else 0)) + lo.num)) bs (withByte bs (jccInstr hi lo alt)) := by
  cases alt <;> cases hi <;> cases lo <;> exact reads_withByte rfl fun b => ⟨rfl, rfl⟩

theorem reads_block80 (lo : Reg) : Reads (opByte (8 * 16 + lo.num)) bs (block80 lo bs) := by
  cases lo <;> dsimp only [block80]
  case r0 | r2 =>
    refine reads_withModrmImm (w := .byte) rfl (by decide) fun k rm i hrm hi => ?_
    cases i <;> cases hi
    cases k <;> exact ⟨by simp [AluForm.wellFormed, Instr.wellFormed, aluInstr, hrm], rfl⟩
  case r1 =>
    refine reads_withModrmImm (w := .word) rfl (by decide) fun k rm i hrm hi => ?_
    cases i <;> cases hi
    cases k <;> exact ⟨by simp [AluForm.wellFormed, Instr.wellFormed, aluInstr, hrm], rfl⟩
  case r3 => exact reads_aluImm8s
  case r4 | r5 | r6 | r7 => exact reads_withModrm rfl (by decide) fun r rm h => ⟨h, rfl⟩

theorem reads_block88 (lo : Reg) : Reads (opByte (8 * 17 + lo.num)) bs (block88 lo bs) := by
  cases lo <;> dsimp only [block88]
  case r0 | r1 | r2 | r3 | r7 => exact reads_withModrm rfl (by decide) fun r rm h => ⟨h, rfl⟩
  case r4 | r6 => exact reads_withModrm rfl (by decide) fun r rm h => by cases r <;> exact ⟨h, rfl⟩
  case r5 => exact reads_withModrm rfl (by decide) fun r rm h => by cases rm <;> exact ⟨h, rfl⟩

theorem reads_block90 (lo : Reg) : Reads (opByte (8 * 18 + lo.num)) bs (block90 lo bs) := by
  cases lo <;> exact reads_plain rfl ⟨rfl, rfl⟩

theorem reads_block98 (lo : Reg) : Reads (opByte (8 * 19 + lo.num)) bs (block98 lo bs) := by
  cases lo <;> dsimp only [block98]
  case r2 => exact reads_withFar rfl fun v u => ⟨rfl, rfl⟩
  case r0 | r1 | r3 | r4 | r5 | r6 | r7 => exact reads_plain rfl ⟨rfl, rfl⟩

theorem reads_blockA0 (lo : Reg) : Reads (opByte (8 * 20 + lo.num)) bs (blockA0 lo bs) := by
  cases lo <;> dsimp only [blockA0]
  case r0 | r1 | r2 | r3 => exact reads_withWord rfl fun v => ⟨rfl, rfl⟩
  case r4 | r5 | r6 | r7 => exact reads_plain rfl ⟨rfl, rfl⟩

theorem reads_blockA8 (lo : Reg) : Reads (opByte (8 * 21 + lo.num)) bs (blockA8 lo bs) := by
  cases lo <;> dsimp only [blockA8]
  case r0 | r1 => exact reads_withImm rfl fun i hi => ⟨rfl, by cases i <;> cases hi; rfl⟩
  case r2 | r3 | r4 | r5 | r6 | r7 => exact reads_plain rfl ⟨rfl, rfl⟩

theorem reads_movRegImm (lo : Reg) : Reads (opByte (8 * 22 + lo.num)) bs (withImm .byte bs (.movRegImm lo)) ∧
    Reads (opByte (8 * 23 + lo.num)) bs (withImm .word bs (.movRegImm lo)) := by
  constructor <;> cases lo <;> exact reads_withImm rfl fun i hi => ⟨rfl, by cases i <;> cases hi; rfl⟩

theorem reads_blockC0 (lo : Reg) : Reads (opByte (8 * 24 + lo.num)) bs (blockC0 lo bs) := by
  cases lo <;> dsimp only [blockC0]
  case r0 | r2 => exact reads_withWord rfl fun v => ⟨rfl, rfl⟩
  case r1 | r3 => exact reads_plain rfl ⟨rfl, rfl⟩
  case r4 | r5 => exact reads_withModrm rfl (by decide) fun r rm h => by cases rm <;> exact ⟨h, rfl⟩
  case r6 | r7 => exact reads_withModrmImm rfl (by decide) fun r rm i h hi => ⟨h, by cases i <;> cases hi; rfl⟩

theorem reads_blockC8 (lo : Reg) : Reads (opByte (8 * 25 + lo.num)) bs (blockC8 lo bs) := by
  cases lo <;> dsimp only [blockC8]
  case r0 | r2 => exact reads_withWord rfl fun v => ⟨rfl, rfl⟩
  case r5 => exact reads_withByte rfl fun b => ⟨rfl, rfl⟩
  case r1 | r3 | r4 | r6 | r7 => exact reads_plain rfl ⟨rfl, rfl⟩

theorem reads_blockD0 (lo : Reg) : Reads (opByte (8 * 26 + lo.num)) bs (blockD0 lo bs) := by
  cases lo <;> dsimp only [blockD0]
  case r0 | r1 | r2 | r3 => exact reads_withModrm rfl (by decide) fun r rm h => by cases r <;> exact ⟨h, rfl⟩
  case r4 | r5 => exact reads_withByte rfl fun b => ⟨rfl, rfl⟩
  case r6 | r7 => exact reads_plain rfl ⟨rfl, rfl⟩

theorem reads_esc (lo : Reg) : Reads (opByte (8 * 27 + lo.num)) bs (withModrm bs (.esc lo)) := by
  cases lo <;> exact reads_withModrm rfl (by decide) fun r rm h => ⟨h, rfl⟩

theorem reads_blockE0 (lo : Reg) : Reads (opByte (8 * 28 + lo.num)) bs (blockE0 lo bs) := by
  cases lo <;> dsimp only [blockE0] <;> exact reads_withByte rfl fun b => ⟨rfl, rfl⟩

theorem reads_blockE8 (lo : Reg) : Reads (opByte (8 * 29 + lo.num)) bs (blockE8 lo bs) := by
  cases lo <;> dsimp only [blockE8]
  case r0 | r1 => exact reads_withWord rfl fun v => ⟨rfl, rfl⟩
  case r2 => exact reads_withFar rfl fun v u => ⟨rfl, rfl⟩
  case r3 => exact reads_withByte rfl fun b => ⟨rfl, rfl⟩
  case r4 | r5 | r6 | r7 => exact reads_plain rfl ⟨rfl, rfl⟩

theorem reads_blockF0 (lo : Reg) : Reads (opByte (8 * 30 + lo.num)) bs (blockF0 lo bs) := by
  cases lo <;> dsimp only [blockF0]
  case r6 => exact reads_unaryInstr .byte
  case r7 => exact reads_unaryInstr .word
  case r0 | r1 | r2 | r3 | r4 | r5 => exact reads_plain rfl ⟨rfl, rfl⟩

theorem groupFF_hasBytes (k : Reg) {rm : Rm} (h : rm.wellFormed = true) : HasBytes (groupFF k rm) (0xFF :: encodeRm k rm) := by
  cases k with
  | r3 | r5 => cases rm <;> exact ⟨h, rfl⟩
  | r0 | r1 | r2 | r4 | r6 | r7 => exact ⟨h, rfl⟩

theorem reads_blockF8 (lo : Reg) : Reads (opByte (8 * 31 + lo.num)) bs (blockF8 lo bs) := by
  cases lo <;> dsimp only [blockF8]
  case r6 => exact reads_withModrm rfl (by decide) fun r rm h => by cases r <;> exact ⟨h, rfl⟩
  case r7 => exact reads_withModrm rfl (by decide) fun r rm h => groupFF_hasBytes r h
  case r0 | r1 | r2 | r3 | r4 | r5 => exact reads_plain rfl ⟨rfl, rfl⟩

end

theorem reads_decodeOpcode (op : Byte) (bs : List Byte) : Reads op bs (decodeOpcode op bs) := by
  have fields := opByte_fields op
  have bound := (op.extractLsb' 3 5).isLt
  unfold decodeOpcode
  generalize (op.extractLsb' 3 5).toNat = n at fields bound ⊢
  generalize Reg.ofBits (op.extractLsb' 0 3) = lo at fields ⊢
  subst fields
  dsimp only
  split
  · exact reads_aluBlock .r0 lo ⟨rfl, rfl⟩ ⟨rfl, rfl⟩
  · exact reads_aluBlock .r1 lo ⟨rfl, rfl⟩ ⟨rfl, rfl⟩
  · exact reads_aluBlock .r2 lo ⟨rfl, rfl⟩ ⟨rfl, rfl⟩
  · exact reads_aluBlock .r3 lo ⟨rfl, rfl⟩ ⟨rfl, rfl⟩
  · exact reads_aluBlock .r4 lo ⟨rfl, rfl⟩ ⟨rfl, rfl⟩
  · exact reads_aluBlock .r5 lo ⟨rfl, rfl⟩ ⟨rfl, rfl⟩
  · exact reads_aluBlock .r6 lo ⟨rfl, rfl⟩ ⟨rfl, rfl⟩
  · exact reads_aluBlock .r7 lo ⟨rfl, rfl⟩ ⟨rfl, rfl⟩
  · exact (reads_incDecReg lo).1
  · exact (reads_incDecReg lo).2
  · exact (reads_pushPopReg lo).1
  · exact (reads_pushPopReg lo).2
  · exact reads_jcc false true lo
  · exact reads_jcc true true lo
  · exact reads_jcc false false lo
  · exact reads_jcc true false lo
  · exact reads_block80 lo
  · exact reads_block88 lo
  · exact reads_block90 lo
  · exact reads_block98 lo
  · exact reads_blockA0 lo
  · exact reads_blockA8 lo
  · exact (reads_movRegImm lo).1
  · exact (reads_movRegImm lo).2
  · exact reads_blockC0 lo
  · exact reads_blockC8 lo
  · exact reads_blockD0 lo
  · exact reads_esc lo
  · exact reads_blockE0 lo
  · exact reads_blockE8 lo
  · exact reads_blockF0 lo
  · obtain rfl : n = 31 := by
      simp only [imp_false] at *
      omega
    exact reads_blockF8 lo

/-- Settles O2: each format's instruction is well formed and its bytes are the opcode byte and those the format reads. -/
theorem encodeOfDecode : Obligations.EncodeOfDecode := by
  unfold Obligations.EncodeOfDecode
  intro bs rest i h
  cases bs with
  | nil => cases h
  | cons op bs => exact (reads_decodeOpcode op bs).encoded i rest h

/-- Settles O3: each format takes the length that R99 gives, and six bytes hold every format. -/
theorem decodeLength : Obligations.DecodeLength := by
  unfold Obligations.DecodeLength
  intro op m bs enough
  exact (reads_decodeOpcode op (m :: bs)).length m bs rfl enough

/-- Settles O4: the decoder evaluated on the twelve words. -/
theorem specWordsDecode : Obligations.SpecWordsDecode := by
  unfold Obligations.SpecWordsDecode
  exact ⟨rfl, rfl, rfl, rfl, rfl, rfl, rfl, rfl, rfl, rfl, rfl, rfl⟩

end Sys2Proof

namespace Sys2Proof.Machine

/-! ### The encodings that R113 refuses -/

/-- Every state refuses `i`. -/
def Refused (i : Instr) : Prop := ∀ s, ∃ r, exec i s = .refused r

theorem parseModrm_register {m : Byte} (h : modField m = 3) (bs : List Byte) :
    parseModrm (m :: bs) = some (Reg.ofBits (regField m), .reg (Reg.ofBits (rmField m)), bs) := by
  simp [parseModrm, parseRm, h]

section
variable {m : Byte} {bs : List Byte} {f : Reg → Rm → Instr}

theorem withModrm_refused (enough : 4 ≤ bs.length) (h : ∀ rm, Refused (f (Reg.ofBits (regField m)) rm)) :
    ∃ i rest, withModrm (m :: bs) f = some (i, rest) ∧ Refused i := by
  obtain ⟨rm, rest, hp, -⟩ := parseModrm_of_length m (bs := bs) (by omega)
  exact ⟨_, rest, by rw [withModrm, hp, Option.map_some], h rm⟩

theorem withModrm_register_refused (hmode : modField m = 3) (h : ∀ q, Refused (f (Reg.ofBits (regField m)) (.reg q))) :
    ∃ i rest, withModrm (m :: bs) f = some (i, rest) ∧ Refused i :=
  ⟨_, bs, by rw [withModrm, parseModrm_register hmode, Option.map_some], h _⟩

end

theorem movFromSregInstr_refused {b : BitVec 3} (h : 4 ≤ b.toNat) (rm : Rm) : Refused (movFromSregInstr (Reg.ofBits b) rm) := by
  intro s
  obtain ⟨r, rfl⟩ : ∃ r : Reg, b = r.toBits := ⟨_, (Reg.toBits_ofBits b).symm⟩
  cases r with
  | r0 | r1 | r2 | r3 => exact absurd h (by decide)
  | r4 | r5 | r6 | r7 => exact ⟨_, rfl⟩

theorem movToSregInstr_refused {b : BitVec 3} (h : 4 ≤ b.toNat ∨ b = 1) (rm : Rm) : Refused (movToSregInstr (Reg.ofBits b) rm) := by
  intro s
  obtain ⟨r, rfl⟩ : ∃ r : Reg, b = r.toBits := ⟨_, (Reg.toBits_ofBits b).symm⟩
  cases r with
  | r0 | r2 | r3 => exact absurd h (by decide)
  | r1 | r4 | r5 | r6 | r7 => exact ⟨_, rfl⟩

theorem incDecByte_refused {b : BitVec 3} (h : 2 ≤ b.toNat) (rm : Rm) : Refused (incDecByte (Reg.ofBits b) rm) := by
  intro s
  obtain ⟨r, rfl⟩ : ∃ r : Reg, b = r.toBits := ⟨_, (Reg.toBits_ofBits b).symm⟩
  cases r with
  | r0 | r1 => exact absurd h (by decide)
  | r2 | r3 | r4 | r5 | r6 | r7 => exact ⟨_, rfl⟩

theorem groupFF_register_refused {b : BitVec 3} (h : b = 3 ∨ b = 5) (q : Reg) : Refused (groupFF (Reg.ofBits b) (.reg q)) := by
  rcases h with rfl | rfl <;> exact fun s => ⟨_, rfl⟩

/-- Settles O43: the group and ModRM fields select the instruction, and its meaning is the refusal. -/
theorem refusedEncodings : Obligations.RefusedEncodings := by
  unfold Obligations.RefusedEncodings
  constructor
  · rintro op m bs enough (rfl | ⟨rfl, h⟩ | ⟨rfl, h⟩ | ⟨rfl | rfl | rfl, h⟩ | ⟨rfl, h⟩ | ⟨rfl, h, hmode⟩)
    · exact ⟨.popCs, m :: bs, rfl, fun s => ⟨_, rfl⟩⟩
    · exact withModrm_refused enough (movFromSregInstr_refused h)
    · exact withModrm_refused enough (movToSregInstr_refused h)
    · exact withModrm_register_refused (f := fun r rm => match rm with | .reg q => .leaRegister r q | .mem m => .lea r m) h
        fun q s => ⟨_, rfl⟩
    · exact withModrm_register_refused (f := fun r rm => match rm with | .reg q => .lesRegister r q | .mem m => .les r m) h
        fun q s => ⟨_, rfl⟩
    · exact withModrm_register_refused (f := fun r rm => match rm with | .reg q => .ldsRegister r q | .mem m => .lds r m) h
        fun q s => ⟨_, rfl⟩
    · exact withModrm_refused enough (incDecByte_refused h)
    · exact withModrm_register_refused hmode (groupFF_register_refused h)
  · intro s d n rm r q
    exact ⟨rfl, rfl, rfl, rfl, rfl, rfl, rfl, rfl, rfl, rfl, rfl, rfl, rfl, rfl⟩

/-! ### FLAGS as a word, and through AH (R26, R136, R137) -/

/-- The bits that a write of FLAGS keeps, and the bits it forces. -/
theorem flagBits_getLsbD {j : Nat} (hj : j < 16) :
    (0xF002 : Word).getLsbD j = decide (j = 1 ∨ 12 ≤ j) ∧
      (0x0FD5 : Word).getLsbD j = decide (j ≠ 1 ∧ j ≠ 3 ∧ j ≠ 5 ∧ j < 12) ∧
      (0xF02A : Word).getLsbD j = decide (j = 1 ∨ j = 3 ∨ j = 5 ∨ 12 ≤ j) := by
  revert hj
  revert j
  decide

/-- Settles O44: FLAGS bit by bit, each place a flag's own or forced. -/
theorem flagsWordForced : Obligations.FlagsWordForced := by
  unfold Obligations.FlagsWordForced
  refine ⟨fun v => ?_, fun f => ⟨Flags.ofWord_toWord f, ?_⟩⟩
  · refine BitVec.eq_of_getLsbD_eq fun j hj => ?_
    obtain ⟨forced, kept, -⟩ := flagBits_getLsbD hj
    rw [Flags.toWord_getLsbD _ hj, BitVec.getLsbD_or, BitVec.getLsbD_and, forced, kept]
    interval_cases j <;> simp [Flags.ofWord]
  · refine BitVec.eq_of_getLsbD_eq fun j hj => ?_
    obtain ⟨forced, -, reserved⟩ := flagBits_getLsbD hj
    rw [BitVec.getLsbD_and, Flags.toWord_getLsbD _ hj, forced, reserved]
    interval_cases j <;> simp

theorem loByte_getLsbD (v : Word) {j : Nat} (hj : j < 8) : (loByte v).getLsbD j = v.getLsbD j := by
  simp [loByte, BitVec.truncate, hj]

/-- Settles O16: LAHF writes AH with the low byte of FLAGS, SAHF writes five flags. -/
theorem flagsThroughAh : Obligations.FlagsThroughAh := by
  unfold Obligations.FlagsThroughAh
  intro s
  refine ⟨⟨_, rfl, ?_, setReg_dataStep .byte .r4 (loByte s.flags.toWord) s⟩, ⟨_, rfl, ⟨rfl, rfl, rfl, rfl, rfl⟩, ?_⟩⟩
  · have ah : (setReg .byte .r4 (loByte s.flags.toWord) s).regs.get8 .r4 = loByte s.flags.toWord := getReg_setReg .byte .r4 _ s
    rw [ah]
    simp (disch := decide) only [loByte_getLsbD, Flags.toWord_getLsbD]
    simp
  · refine setFlags_dataStep fun n hn => ?_
    cases n with
    | of_ | tf | if_ | df => rfl
    | sf | zf | af | pf | cf => exact absurd (by decide) hn

/-! ### XLAT, LEA, LDS and LES (R132 to R135) -/

/-- LDS and LES: a register and a segment register from the two words of a far pointer. -/
theorem loadPointer {s : State} (q : s.Quiet) (sr : SReg) (r : Reg) (m : MemOp) :
    let t := setSreg sr (readFar m s).2.1 (setReg .word r (readFar m s).1 (readFar m s).2.2)
    t.regs.get16 r = heldVal .word (memSeg m s) (ea m s) s ∧
      t.sregs = s.sregs.set sr (heldNext .word (memSeg m s) (ea m s) (memSeg m s) (ea m s + 2) s) ∧ t.eu = s.eu ∧
      Frame [.word r] [] [] s t ∧ FallsThrough s t := by
  intro t
  obtain ⟨off, seg, mem, bus⟩ := readFar_quiet q m
  obtain ⟨frame, units, falls⟩ := (bus.dataStep mem).trans (setReg_dataStep .word r (readFar m s).1 _)
  refine ⟨(getReg_setReg .word r _ _).trans off, ?_, units.eu, frame.trans (setSreg_frame sr _ _), falls.pc, falls.queue,
    falls.suspended⟩
  exact (congrArg (SRegs.set sr _) bus.sregs).trans (congrArg (s.sregs.set sr) seg)

/-- Settles O15: each form is one write of its destination, after at most one read of memory. -/
theorem tableAndPointerLoads : Obligations.TableAndPointerLoads := by
  unfold Obligations.TableAndPointerLoads
  intro s q
  refine ⟨⟨_, rfl, setReg_segRead q .byte _ _ .r0⟩, fun r m => ⟨?_, ?_, ?_⟩⟩
  · exact ⟨_, rfl, getReg_setReg .word r (ea m s) s, rfl, setReg_dataStep .word r (ea m s) s⟩
  · exact ⟨_, rfl, loadPointer q .ds r m⟩
  · exact ⟨_, rfl, loadPointer q .es r m⟩

end Sys2Proof.Machine

namespace Sys2Proof.Machine

/-! ### The memory map (R48, R51) -/

theorem peek_eq_none {c : Config} {m : Memory} {a : Phys} : peek c m a = none ↔ cellOf c a = none := by
  simp [peek]

theorem poke_of_unpopulated {c : Config} {a : Phys} (h : cellOf c a = none) (m : Memory) (v : Byte) : poke c m a v = m := by
  simp [poke, h]

/-- A byte written to a writable cell is read at every address that names the cell. -/
theorem peek_poke_of_cell {c : Config} {a b : Phys} {k : Nat} (ha : cellOf c a = some (k, true)) (hb : cellOf c b = some (k, true))
    (m : Memory) (v : Byte) : peek c (poke c m a v) b = some v := by
  simp [peek_poke, ha, hb]

theorem cellOf_ram {c : Config} {a : Phys} (h : a.toNat < c.ramSize) (h' : a.toNat < 0xA0000) : cellOf c a = some (a.toNat, true) :=
  if_pos (lt_min h h')

theorem cellOf_rom {c : Config} {a : Phys} (h : 0xF0000 ≤ a.toNat) : cellOf c a = some (a.toNat, false) := by
  have notRam : ¬ a.toNat < min c.ramSize 0xA0000 := by omega
  simp only [cellOf, if_neg notRam, if_pos h]

theorem cellOf_cga {c : Config} {a : Phys} (hc : c.videoAdapter = .cga) (h : 0xB8000 ≤ a.toNat) (h' : a.toNat < 0xC0000) :
    cellOf c a = some (0xB8000 + a.toNat % 0x4000, true) := by
  have notRam : ¬ a.toNat < min c.ramSize 0xA0000 := by omega
  have notRom : ¬ 0xF0000 ≤ a.toNat := by omega
  simp [cellOf, notRam, notRom, hc, h, h']

theorem cellOf_mda {c : Config} {a : Phys} (hc : c.videoAdapter = .mda) (h : 0xB0000 ≤ a.toNat) (h' : a.toNat < 0xB8000) :
    cellOf c a = some (0xB0000 + a.toNat % 0x2000, true) := by
  have notRam : ¬ a.toNat < min c.ramSize 0xA0000 := by omega
  have notRom : ¬ 0xF0000 ≤ a.toNat := by omega
  simp [cellOf, notRam, notRom, hc, h, h']

/-- The ranges that no memory answers in. -/
theorem cellOf_eq_none {c : Config} {a : Phys} : cellOf c a = none ↔
    (min c.ramSize 0xA0000 ≤ a.toNat ∧ a.toNat < 0xB0000) ∨ (0xC0000 ≤ a.toNat ∧ a.toNat < 0xF0000) ∨
      (c.videoAdapter = .cga ∧ 0xB0000 ≤ a.toNat ∧ a.toNat < 0xB8000) ∨
        (c.videoAdapter = .mda ∧ 0xB8000 ≤ a.toNat ∧ a.toNat < 0xC0000) := by
  by_cases ram : a.toNat < min c.ramSize 0xA0000
  · rw [cellOf_ram (lt_of_lt_of_le ram (min_le_left ..)) (lt_of_lt_of_le ram (min_le_right ..))]
    simp only [reduceCtorEq, false_iff]
    omega
  by_cases rom : 0xF0000 ≤ a.toNat
  · rw [cellOf_rom rom]
    simp only [reduceCtorEq, false_iff]
    omega
  cases hc : c.videoAdapter with
  | mda =>
    simp only [cellOf, if_neg ram, if_neg rom, hc, Bool.and_eq_true, decide_eq_true_eq, reduceCtorEq]
    split <;> simp <;> omega
  | cga =>
    simp only [cellOf, if_neg ram, if_neg rom, hc, Bool.and_eq_true, decide_eq_true_eq, reduceCtorEq]
    split <;> simp <;> omega

/-- Settles O46: each range's cells, and a write seen through them. -/
theorem memoryMap : Obligations.MemoryMap := by
  unfold Obligations.MemoryMap
  intro c m a b v n
  refine ⟨fun rom => ?_, peek_eq_none.trans cellOf_eq_none, fun none => poke_of_unpopulated (peek_eq_none.1 none) m v,
    fun low ram => ?_, fun apart => ?_, fun cga la ha lb hb same => ?_, fun mda la ha lb hb same => ?_⟩
  · simp [poke, peek, cellOf_rom rom]
  · exact peek_poke_of_cell (cellOf_ram low ram) (cellOf_ram low ram) m v
  · exact peek_poke_of_not_sameCell fun ⟨p, hb, ha⟩ => apart ⟨p, ha, hb⟩
  · exact peek_poke_of_cell (cellOf_cga cga la ha) (same ▸ cellOf_cga cga lb hb) m v
  · exact peek_poke_of_cell (cellOf_mda mda la ha) (same ▸ cellOf_mda mda lb hb) m v

/-! ### Reset (R37, R325, R326) -/

/-- Settles O47: the CPU's reset values, read field by field. -/
theorem cpuResetState : Obligations.CpuResetState := by
  unfold Obligations.CpuResetState
  intro s t
  have ip : ip t = s.cfg.resetIp := BitVec.sub_zero _
  have flags : Flags.reset.toWord = 0xF002 := by decide
  exact ⟨rfl, rfl, rfl, rfl, ip, flags, rfl, rfl, rfl, rfl, rfl, rfl, rfl, rfl, rfl, rfl, rfl, rfl, rfl, rfl, rfl, rfl, rfl,
    rfl, rfl, rfl, rfl, rfl, rfl⟩

theorem reset_cpuInv : CpuInv State.reset where
  queue := by decide
  prefixes := by decide
  halted := by decide
  phase := .inl rfl
  repeating := fun h => by cases h
  history := by decide
  callStack := by decide

theorem reset_memInv : MemInv State.reset where
  mem := by decide
  pagePorts := by decide
  front := by decide
  back := by decide
  images := by decide

theorem reset_deviceInv : DeviceInv State.reset where
  vectorBase := by decide
  dropout := by decide
  resetPoll := by decide

/-- Settles O48: the power-on values, read field by field, and the three invariants of them. -/
theorem resetState : Obligations.ResetState := by
  unfold Obligations.ResetState
  intro s
  have masked : ∀ c, (s.sys.dma.ch.get c).mask = true ∧ (s.sys.dma.ch.get c).tc = false := by decide
  exact ⟨rfl, by decide, by decide, rfl, rfl, rfl, rfl, rfl, rfl, rfl, rfl, rfl, rfl, rfl, rfl, masked, reset_cpuInv, reset_memInv,
    reset_deviceInv⟩

end Sys2Proof.Machine

namespace Sys2Proof.Machine

/-! ### Jumps (R107, R187 to R191, R200) -/

theorem suspendFetch_kept (s : State) : Frame [] [] [] s (suspendFetch s) ∧ UnitsKept s (suspendFetch s) :=
  (suspendFetch_fetchOnly s).frame fun _ => suspendFetch_planned s

/-- Once fetching is suspended, a read of the bus leaves everything that a frame names (R67). -/
theorem suspendedRead_kept {s t : State} (bus : QuietBus (suspendFetch s) t) (mem : t.sys.mem = (suspendFetch s).sys.mem) :
    Frame [] [] [] s t ∧ UnitsKept s t :=
  have ⟨frame, units⟩ := suspendFetch_kept s
  have ⟨frame', units', _⟩ := bus.dataStep mem
  ⟨frame.trans frame', units.trans units'⟩

theorem heldVal_suspendFetch {s : State} (q : s.Quiet) (m : MemOp) :
    heldVal .word (memSeg m (suspendFetch s)) (ea m (suspendFetch s)) (suspendFetch s) = heldVal .word (memSeg m s) (ea m s) s := by
  rw [suspendFetch_quiet q.2]
  rfl

/-- A conditional jump jumps where `c` holds and leaves the state where it does not (R200). -/
abbrev Branches (rel : Byte) (s : State) (i : Instr) (c : Prop) : Prop :=
  ∃ t, exec i s = .next t ∧ (c → JumpedTo (ip s + rel.signExtend 16) t ∧ Frame [] [] [] s t ∧ UnitsKept s t) ∧ (¬ c → t = s)

theorem branches_of_exec {rel : Byte} {s : State} {i : Instr} {b : Bool} {c : Prop} (run : exec i s = .next (branchIf b rel s))
    (h : b = true ↔ c) : Branches rel s i c := by
  refine ⟨_, run, fun yes => ?_, fun no => ?_⟩
  · rw [h.mpr yes]
    exact setIp_spec _ s
  · rw [Bool.eq_false_iff.mpr (mt h.mp no)]
    rfl

/-- The sixteen conditions of R107. -/
theorem conditionalJumps (s : State) (alt : Bool) (rel : Byte) :
    let f := s.flags
    let branches := Branches rel s
    branches (.jo alt rel) (f.of_ = true) ∧ branches (.jno alt rel) (f.of_ = false) ∧ branches (.jb alt rel) (f.cf = true) ∧
      branches (.jae alt rel) (f.cf = false) ∧ branches (.je alt rel) (f.zf = true) ∧ branches (.jne alt rel) (f.zf = false) ∧
      branches (.jbe alt rel) (f.cf = true ∨ f.zf = true) ∧ branches (.ja alt rel) (f.cf = false ∧ f.zf = false) ∧
      branches (.js alt rel) (f.sf = true) ∧ branches (.jns alt rel) (f.sf = false) ∧ branches (.jp alt rel) (f.pf = true) ∧
      branches (.jnp alt rel) (f.pf = false) ∧ branches (.jl alt rel) (f.sf ≠ f.of_) ∧ branches (.jge alt rel) (f.sf = f.of_) ∧
      branches (.jle alt rel) (f.zf = true ∨ f.sf ≠ f.of_) ∧ branches (.jg alt rel) (f.zf = false ∧ f.sf = f.of_) := by
  refine ⟨branches_of_exec rfl ?_, branches_of_exec rfl ?_, branches_of_exec rfl ?_, branches_of_exec rfl ?_, branches_of_exec rfl ?_,
    branches_of_exec rfl ?_, branches_of_exec rfl ?_, branches_of_exec rfl ?_, branches_of_exec rfl ?_, branches_of_exec rfl ?_,
    branches_of_exec rfl ?_, branches_of_exec rfl ?_, branches_of_exec rfl ?_, branches_of_exec rfl ?_, branches_of_exec rfl ?_,
    branches_of_exec rfl ?_⟩ <;> simp [condO, condB, condE, condBe, condS, condP, condL, condLe]

/-- Settles O34: the unconditional jumps are one transfer, after the reads of an indirect one; the conditional ones are R107's table. -/
theorem jumps : Obligations.Jumps := by
  unfold Obligations.Jumps
  refine ⟨fun s q => ⟨fun rel => ⟨_, rfl, setIp_spec _ s⟩, fun rel => ⟨_, rfl, setIp_spec _ s⟩, fun off seg => ?_, fun rm => ?_,
    fun m => ?_⟩, conditionalJumps⟩
  · obtain ⟨jumped, frame, sregs, eu, -⟩ := setCsIp_spec seg off s
    exact ⟨_, rfl, jumped, sregs, eu, frame⟩
  · obtain ⟨val, mem, bus⟩ := rmRead_quiet (suspendFetch_isQuiet q) .word rm
    obtain ⟨frame, units⟩ := suspendedRead_kept bus mem
    obtain ⟨jumped, frame', units'⟩ := setIp_spec (rmRead .word rm (suspendFetch s)).1 (rmRead .word rm (suspendFetch s)).2
    exact ⟨_, rfl, (val.trans (rmVal_suspendFetch q rm)) ▸ jumped, frame.trans frame', units.trans units'⟩
  · obtain ⟨off, seg, mem, bus⟩ := readFar_quiet (suspendFetch_isQuiet q) m
    obtain ⟨frame, units⟩ := suspendedRead_kept bus mem
    obtain ⟨jumped, frame', sregs, eu, -⟩ := setCsIp_spec (readFar m (suspendFetch s)).2.1 (readFar m (suspendFetch s)).1
      (readFar m (suspendFetch s)).2.2
    refine ⟨_, rfl, off.trans (heldVal_suspendFetch q m) ▸ jumped, ?_, eu.trans units.eu, frame.trans frame'⟩
    rw [sregs, units.sregs, seg, suspendFetch_quiet q.2]
    rfl

end Sys2Proof.Machine

namespace Sys2Proof.Machine

/-! ### No port writes memory (R53, R54) -/

section
variable (y : Sys)

@[simp] theorem Sys.fdcUpdateIrq_mem : y.fdcUpdateIrq.mem = y.mem := by
  unfold Sys.fdcUpdateIrq
  simp only
  split <;> rfl

@[simp] theorem Sys.fdcSetInt_mem (b : Bool) : (y.fdcSetInt b).mem = y.mem := Sys.fdcUpdateIrq_mem _

@[simp] theorem Sys.fdcFinish_mem (op : FdcOp) (ic : BitVec 2) (st1 st2 : Byte) : (y.fdcFinish op ic st1 st2).mem = y.mem :=
  Sys.fdcSetInt_mem _ true

@[simp] theorem Sys.fdcSeekEnd_mem (d : BitVec 2) (st : Byte) : (y.fdcSeekEnd d st).mem = y.mem := Sys.fdcSetInt_mem _ true

theorem Sys.fdcWriteDor_mem (v : Byte) : (y.fdcWriteDor v).mem = y.mem := by
  unfold Sys.fdcWriteDor
  simp only
  split
  · simp
  · split <;> simp

theorem Sys.fdcSenseInterrupt_mem : y.fdcSenseInterrupt.mem = y.mem := by
  unfold Sys.fdcSenseInterrupt
  simp only
  split
  · simp
  · split <;> simp

theorem Sys.fdcSeek_mem (d : BitVec 2) (hd : Bool) (ncn : Byte) : (y.fdcSeek d hd ncn).mem = y.mem := by
  unfold Sys.fdcSeek
  simp only
  split <;> simp

theorem Sys.fdcStartOperation_mem (kind : OpKind) : (y.fdcStartOperation kind).mem = y.mem := by
  unfold Sys.fdcStartOperation
  simp only
  split
  · rfl
  · split
    · exact Sys.fdcFinish_mem _ _ _ _ _
    · split
      · exact Sys.fdcFinish_mem _ _ _ _ _
      · split
        · exact Sys.fdcFinish_mem _ _ _ _ _
        · rfl

theorem Sys.fdcDispatch_mem : y.fdcDispatch.mem = y.mem := by
  unfold Sys.fdcDispatch
  simp only
  split
  · exact Sys.fdcSenseInterrupt_mem y
  · split
    · rfl
    · rfl
    · exact Sys.fdcSeekEnd_mem _ _ _
    · exact Sys.fdcSeek_mem _ _ _ _
    · exact Sys.fdcStartOperation_mem _ _
    · exact Sys.fdcStartOperation_mem _ _
    · exact Sys.fdcStartOperation_mem _ _
    · exact Sys.fdcStartOperation_mem _ _
    · exact Sys.fdcStartOperation_mem _ _
    · rfl

theorem Sys.fdcWriteData_mem (v : Byte) : (y.fdcWriteData v).mem = y.mem := by
  unfold Sys.fdcWriteData
  split
  · simp only
    split
    · exact (Sys.fdcDispatch_mem _).trans (Sys.fdcSetInt_mem y false)
    · exact Sys.fdcSetInt_mem y false
  · simp only
    split
    · exact Sys.fdcDispatch_mem _
    · rfl
  · rfl
  · rfl
  · rfl

theorem Sys.fdcReadData_mem : y.fdcReadData.2.mem = y.mem := by
  unfold Sys.fdcReadData
  split
  · simp only
    split <;> split <;> simp
  · rfl

theorem Sys.crtcWrite_mem (c : Config) (k : BitVec 4) (v : Byte) : (y.crtcWrite c k v).mem = y.mem := by
  unfold Sys.crtcWrite
  simp only
  split
  · split
    · split <;> rfl
    · rfl
  · split <;> rfl

theorem Sys.crtcRead_mem (k : BitVec 4) : (y.crtcRead k).2.mem = y.mem := by
  unfold Sys.crtcRead
  split
  · split <;> rfl
  · split <;> rfl

theorem Sys.portRead_mem (c : Config) (port : Word) : (y.portRead c port).2.mem = y.mem := by
  unfold Sys.portRead
  split
  · simp only
    split <;> rfl
  · rfl
  · rfl
  · rfl
  · exact Sys.crtcRead_mem y _
  · unfold Sys.fdcRead
    split
    · rfl
    · exact Sys.fdcReadData_mem y
    · rfl
  · rfl

theorem Sys.portWrite_mem (c : Config) (port : Word) (v : Byte) : (y.portWrite c port v).mem = y.mem := by
  unfold Sys.portWrite
  split
  · rfl
  · rfl
  · rfl
  · rfl
  · exact Sys.crtcWrite_mem y c _ v
  · unfold Sys.fdcWrite
    split
    · exact Sys.fdcWriteDor_mem y v
    · exact Sys.fdcWriteData_mem y v
    · rfl
  · rfl

end

/-! ### Port transactions (R52, R54) -/

/-- What a port instruction keeps, but for the registers `rs`. -/
abbrev PortKept (rs : List RegPart) (s t : State) : Prop :=
  RegsKept rs s t ∧ t.flags = s.flags ∧ t.sys.mem = s.sys.mem ∧ t.cfg = s.cfg ∧ UnitsKept s t ∧ FallsThrough s t

/-- A port transaction: the devices have answered, and memory and the CPU are as they were. -/
structure PortOnly (s t : State) : Prop where
  quiet : t.Quiet
  regs : t.regs = s.regs
  flags : t.flags = s.flags
  mem : t.sys.mem = s.sys.mem
  cfg : t.cfg = s.cfg
  units : UnitsKept s t
  falls : FallsThrough s t

theorem PortOnly.trans {s t u : State} (h : PortOnly s t) (k : PortOnly t u) : PortOnly s u :=
  ⟨k.quiet, k.regs.trans h.regs, k.flags.trans h.flags, k.mem.trans h.mem, k.cfg.trans h.cfg, h.units.trans k.units,
    h.falls.trans k.falls⟩

theorem PortOnly.kept {s t : State} (h : PortOnly s t) : PortKept [] s t :=
  ⟨RegsKept.of_eq h.regs, h.flags, h.mem, h.cfg, h.units, h.falls⟩

theorem PortOnly.setReg {s t : State} (h : PortOnly s t) (w : Width) (r : Reg) (v : Val w) :
    PortKept [regPart w r] s (setReg w r v t) := by
  obtain ⟨frame, units, falls⟩ := setReg_dataStep w r v t
  exact ⟨(RegsKept.of_eq h.regs).trans frame.regs, h.flags, h.mem, h.cfg, h.units.trans units, h.falls.trans falls⟩

/-- One bus transaction and the device's rule. -/
theorem portOnly_beginBus {s : State} (q : s.Quiet) (st : BusStatus) (a : Phys) {y : Sys} (mem : y.mem = s.sys.mem) :
    PortOnly s { beginBus st a s with sys := y } := by
  have bus := beginBus_quietBus q st a
  obtain ⟨interleave, planned⟩ := bus.quiet q
  obtain ⟨-, units, falls⟩ := bus.dataStep (by rw [beginBus_mem q])
  exact ⟨⟨interleave, planned⟩, bus.regs, bus.flags, mem, bus.cfg, { units with }, { falls with }⟩

theorem ioReadByte_quiet {s : State} (q : s.Quiet) {port : Word} (low : port.toNat < 0x400) :
    ∃ t, ioReadByte port s = .next ((s.sys.portRead s.cfg port).1, t) ∧ t.sys = (s.sys.portRead s.cfg port).2 ∧ PortOnly s t := by
  refine ⟨{ beginBus .ioRead (port.zeroExtend 20) s with sys := (s.sys.portRead s.cfg port).2 }, ?_, rfl,
    portOnly_beginBus q _ _ (Sys.portRead_mem ..)⟩
  simp only [ioReadByte, if_neg (Nat.not_le.mpr low), beginBus_mem q, (beginBus_quietBus q _ _).cfg]

theorem ioWriteByte_quiet {s : State} (q : s.Quiet) {port : Word} (low : port.toNat < 0x400) (v : Byte) :
    ∃ t, ioWriteByte port v s = .next t ∧ t.sys = s.sys.portWrite s.cfg port v ∧ PortOnly s t := by
  refine ⟨{ beginBus .ioWrite (port.zeroExtend 20) s with sys := s.sys.portWrite s.cfg port v }, ?_, rfl,
    portOnly_beginBus q _ _ (Sys.portWrite_mem ..)⟩
  simp only [ioWriteByte, if_neg (Nat.not_le.mpr low), beginBus_mem q, (beginBus_quietBus q _ _).cfg]

theorem port_succ {port : Word} (low : port.toNat + 1 < 0x400) : port.toNat < 0x400 ∧ (port + 1).toNat < 0x400 := by
  bv_omega

theorem ioReadWord_quiet {s : State} (q : s.Quiet) {port : Word} (low : port.toNat + 1 < 0x400) :
    let lo := s.sys.portRead s.cfg port
    let hi := lo.2.portRead s.cfg (port + 1)
    ∃ t, ioRead .word port s = .next ((wordOf lo.1 hi.1 : Word), t) ∧ t.sys = hi.2 ∧ PortOnly s t := by
  intro lo hi
  obtain ⟨t, first, sys, kept⟩ := ioReadByte_quiet q (port_succ low).1
  obtain ⟨u, second, sys', kept'⟩ := ioReadByte_quiet kept.quiet (port_succ low).2
  rw [sys, kept.cfg] at second sys'
  refine ⟨u, ?_, sys', kept.trans kept'⟩
  simp only [ioRead, first, andThen, second]
  rfl

theorem ioWriteWord_quiet {s : State} (q : s.Quiet) {port : Word} (low : port.toNat + 1 < 0x400) (v : Word) :
    ∃ t, ioWrite .word port v s = .next t ∧
      t.sys = (s.sys.portWrite s.cfg port (loByte v)).portWrite s.cfg (port + 1) (hiByte v) ∧ PortOnly s t := by
  obtain ⟨t, first, sys, kept⟩ := ioWriteByte_quiet q (port_succ low).1 (loByte v)
  obtain ⟨u, second, sys', kept'⟩ := ioWriteByte_quiet kept.quiet (port_succ low).2 (hiByte v)
  rw [sys, kept.cfg] at sys'
  refine ⟨u, ?_, sys', kept.trans kept'⟩
  simp only [ioWrite, first, andThen, second]

/-! ### Who owns a port (R53) -/

section
variable {c : Config} {port : Word}

theorem portOwner_video (h : (c.videoAdapter = .cga ∧ 0x3D0 ≤ port.toNat ∧ port.toNat < 0x3E0) ∨
    (c.videoAdapter = .mda ∧ 0x3B0 ≤ port.toNat ∧ port.toNat < 0x3C0)) : portOwner c port = .video (port.truncate 4) := by
  unfold portOwner
  simp only
  rcases h with ⟨adapter, low, high⟩ | ⟨adapter, low, high⟩
  · rw [if_neg (by omega), if_neg (by omega), if_neg (by omega), if_neg (by simp; omega), if_neg (by simp [adapter]),
      if_pos (by simp [adapter, low, high])]
  · rw [if_neg (by omega), if_neg (by omega), if_neg (by omega), if_neg (by simp; omega), if_pos (by simp [adapter, low, high])]

theorem portOwner_fdcRange (low : 0x3F0 ≤ port.toNat) (high : port.toNat < 0x3F8) : portOwner c port = .fdc (port.truncate 3) := by
  unfold portOwner
  simp only
  rw [if_neg (by omega), if_neg (by omega), if_neg (by omega), if_neg (by simp; omega), if_neg (by simp; omega),
    if_neg (by simp; omega), if_pos (by simp [low, high])]

theorem portOwner_none (dma : 0x10 ≤ port.toNat) (pic0 : port.toNat ≠ 0x20) (pic1 : port.toNat ≠ 0x21)
    (page : port.toNat < 0x80 ∨ 0x90 ≤ port.toNat)
    (video : ¬ ((c.videoAdapter = .cga ∧ 0x3D0 ≤ port.toNat ∧ port.toNat < 0x3E0) ∨
      (c.videoAdapter = .mda ∧ 0x3B0 ≤ port.toNat ∧ port.toNat < 0x3C0))) (fdc : port.toNat < 0x3F0 ∨ 0x3F8 ≤ port.toNat) :
    portOwner c port = .none := by
  unfold portOwner
  simp only
  rw [if_neg (by omega), if_neg pic0, if_neg pic1, if_neg (by simp; omega), if_neg (fun m => video (.inr (by simpa [and_comm] using m))),
    if_neg (fun m => video (.inl (by simpa [and_comm] using m))), if_neg (by simp; omega)]

end

/-- The ports at 00h to 0Fh are the DMA controller's registers (R53, R255). -/
theorem portRead_dma (c : Config) {port : Word} (h : port.toNat < 0x10) (y : Sys) :
    let d := y.dma.read y.fdc.dmaRequest (port.truncate 4)
    (∀ b, d.1 = some b → y.portRead c port = (b, { y with dma := d.2 })) ∧
      (d.1 = none → y.portRead c port = Sys.drawByte { y with dma := d.2 }) := by
  intro d
  unfold Sys.portRead
  rw [portOwner_dma c h]
  constructor
  · intro b e
    simp only [d] at e ⊢
    rw [e]
  · intro e
    simp only [d] at e ⊢
    rw [e]

/-- Settles O13: a byte is one transaction, a word two; then the owner of each port. -/
theorem portTransfers : Obligations.PortTransfers := by
  unfold Obligations.PortTransfers
  constructor
  · intro s p q port kept
    refine ⟨fun low => ⟨?_, ?_⟩, fun low => ⟨?_, ?_⟩⟩
    · obtain ⟨t, run, sys, only⟩ := ioReadByte_quiet q low
      refine ⟨setReg .byte .r0 (s.sys.portRead s.cfg port).1 t, ?_, getReg_setReg .byte .r0 _ t, sys, only.setReg .byte .r0 _⟩
      exact congrArg (andThen · fun v => .next (setReg .byte .r0 v.1 v.2)) run
    · exact (ioWriteByte_quiet q low (s.regs.get8 .r0)).imp fun t ⟨run, sys, only⟩ => ⟨run, sys, only.kept⟩
    · obtain ⟨t, run, sys, only⟩ := ioReadWord_quiet q low
      refine ⟨setReg .word .r0 _ t, ?_, ⟨getReg_setReg .word .r0 _ t, sys⟩, only.setReg .word .r0 _⟩
      exact congrArg (andThen · fun v => .next (setReg .word .r0 v.1 v.2)) run
    · exact (ioWriteWord_quiet q low s.regs.ax).imp fun t ⟨run, sys, only⟩ => ⟨run, sys, only.kept⟩
  · intro c y port v n r w video
    refine ⟨fun dma => ⟨portRead_dma c dma y, portWrite_dma c dma v y⟩, fun pic0 => ?_, fun pic1 => ?_, fun low high => ?_,
      fun adapter => ?_, fun low high => ?_, fun dma pic0 pic1 page novideo fdc _ => ?_⟩
    · obtain rfl : port = 0x20 := BitVec.eq_of_toNat_eq pic0
      exact ⟨rfl, rfl⟩
    · obtain rfl : port = 0x21 := BitVec.eq_of_toNat_eq pic1
      exact ⟨rfl, rfl⟩
    · simp only [r, w, Sys.portRead, Sys.portWrite, portOwner_page c low high]
      exact ⟨rfl, rfl⟩
    · simp only [r, w, Sys.portRead, Sys.portWrite, portOwner_video adapter, and_self]
    · simp only [r, w, Sys.portRead, Sys.portWrite, portOwner_fdcRange low high, and_self]
    · simp only [r, w, Sys.portRead, Sys.portWrite, portOwner_none dma pic0 pic1 page novideo fdc, and_self]

end Sys2Proof.Machine

namespace Sys2Proof.Machine

/-! ### Ports at and above 0400h (R54) -/

theorem ioReadByte_refused {port : Word} (high : 0x400 ≤ port.toNat) (s : State) : ioReadByte port s = .refused .portAbove3FF :=
  if_pos high

theorem ioWriteByte_refused {port : Word} (high : 0x400 ≤ port.toNat) (v : Byte) (s : State) :
    ioWriteByte port v s = .refused .portAbove3FF := if_pos high

theorem ioReadByte_low {port : Word} (low : ¬ 0x400 ≤ port.toNat) (s : State) : ∃ r, ioReadByte port s = .next r := ⟨_, if_neg low⟩

theorem ioWriteByte_low {port : Word} (low : ¬ 0x400 ≤ port.toNat) (v : Byte) (s : State) : ∃ t, ioWriteByte port v s = .next t :=
  ⟨_, if_neg low⟩

theorem port_succ_high {port : Word} (low : ¬ 0x400 ≤ port.toNat) (high : 0x400 ≤ port.toNat + 1) : 0x400 ≤ (port + 1).toNat := by
  bv_omega

theorem ioRead_refused {w : Width} {port : Word} (high : 0x400 ≤ port.toNat ∨ (w = .word ∧ 0x400 ≤ port.toNat + 1)) (s : State) :
    ioRead w port s = .refused .portAbove3FF := by
  cases w with
  | byte => exact ioReadByte_refused (high.resolve_right fun h => by cases h.1) s
  | word =>
    by_cases first : 0x400 ≤ port.toNat
    · simp only [ioRead, ioReadByte_refused first, andThen]
    · obtain ⟨r, run⟩ := ioReadByte_low first s
      simp only [ioRead, run, andThen, ioReadByte_refused (port_succ_high first (high.resolve_left first).2)]

theorem ioWrite_refused {w : Width} {port : Word} (high : 0x400 ≤ port.toNat ∨ (w = .word ∧ 0x400 ≤ port.toNat + 1)) (v : Val w)
    (s : State) : ioWrite w port v s = .refused .portAbove3FF := by
  cases w with
  | byte => exact ioWriteByte_refused (high.resolve_right fun h => by cases h.1) v s
  | word =>
    by_cases first : 0x400 ≤ port.toNat
    · simp only [ioWrite, ioWriteByte_refused first, andThen]
    · obtain ⟨t, run⟩ := ioWriteByte_low first (loByte v) s
      simp only [ioWrite, run, andThen, ioWriteByte_refused (port_succ_high first (high.resolve_left first).2)]

/-! ### A frame that overlaps its vector (R226) -/

theorem frameOverlapsVector_congr {s t : State} (sregs : t.sregs = s.sregs) (regs : t.regs = s.regs) (n : Byte) :
    frameOverlapsVector n t = frameOverlapsVector n s := by
  rw [frameOverlapsVector, frameOverlapsVector, sregs, regs]

/-- An entry from a state with the segment registers and the registers of one whose frame overlaps. -/
theorem enterInterrupt_refused {n : Byte} {s t : State} (h : frameOverlapsVector n s = true) (sregs : t.sregs = s.sregs)
    (regs : t.regs = s.regs) (ret : Word) : enterInterrupt n ret t = .refused .frameOverlapsVector := by
  rw [enterInterrupt, frameOverlapsVector_congr sregs regs, if_pos h]

theorem takeInterrupt_nmi_refused {s : State} (ret : Word) (nmi : s.eu.nmiLatch = true) (h : frameOverlapsVector 2 s = true) :
    takeInterrupt ret s = .refused .frameOverlapsVector := by
  rw [takeInterrupt, if_pos nmi]
  exact enterInterrupt_refused h (t := { s with eu := { s.eu with nmiLatch := false } }) rfl rfl ret

theorem takeInterrupt_intr_refused {s : State} (ret : Word) {v : Byte} {p : Pic} (nmi : s.eu.nmiLatch = false)
    (answer : s.sys.pic.inta = some (v, p)) (h : frameOverlapsVector v s = true) :
    takeInterrupt ret s = .refused .frameOverlapsVector := by
  simp only [takeInterrupt, nmi, Bool.false_eq_true, if_false, answer]
  have fetch := intaCycles_fetchOnly s
  generalize intaCycles s = t at fetch ⊢
  exact enterInterrupt_refused h (t := { t with sys := { t.sys with pic := p } }) fetch.sregs fetch.regs ret

/-! ### A divide error whose frame overlaps vector 0 (R225, R226) -/

section
variable {s : State} (overlaps : frameOverlapsVector 0 s = true) (q : s.Quiet) (rep : repPrefixed s = false) (w : Width) (rm : Rm)
include overlaps

theorem divideError_refused {u : State} (bus : QuietBus s u) : divideError u = .refused .frameOverlapsVector :=
  enterInterrupt_refused overlaps (t := { u with sys := u.sys.report (.divideError (ip u)) }) bus.sregs bus.regs _

include q rep

theorem exec_div_refused (err : (rmVal w rm s).toNat = 0 ∨ 2 ^ w.bits * (rmVal w rm s).toNat ≤ (dividend w s).toNat) :
    exec (.div w rm) s = .refused .frameOverlapsVector := by
  obtain ⟨u, read, bus, -⟩ := rmRead_eq q w rm
  have bad : (rmVal w rm s).toNat = 0 ∨ 2 ^ w.bits ≤ (dividend w s).toNat / (rmVal w rm s).toNat :=
    Decidable.or_iff_not_imp_left.mpr fun nonzero =>
      (Nat.le_div_iff_mul_le (Nat.pos_of_ne_zero nonzero)).mpr (err.resolve_left nonzero)
  simp only [exec, execDiv, rep, read, dividend_congr bus.regs, Bool.false_eq_true, if_false, Bool.or_eq_true,
    decide_eq_true_eq, if_pos bad]
  exact divideError_refused overlaps bus

theorem exec_idiv_refused (err : (rmVal w rm s).toInt = 0 ∨ (dividend w s).toInt.tdiv (rmVal w rm s).toInt ≤ -2 ^ (w.bits - 1) ∨
      2 ^ (w.bits - 1) ≤ (dividend w s).toInt.tdiv (rmVal w rm s).toInt) : exec (.idiv w rm) s = .refused .frameOverlapsVector := by
  obtain ⟨u, read, bus, -⟩ := rmRead_eq q w rm
  have bad : ((rmVal w rm s).toInt = 0 ∨ 2 ^ (w.bits - 1) - 1 < (dividend w s).toInt.tdiv (rmVal w rm s).toInt) ∨
      (dividend w s).toInt.tdiv (rmVal w rm s).toInt < -(2 ^ (w.bits - 1) - 1) := by omega
  simp only [exec, execIdiv, rep, read, dividend_congr bus.regs, Bool.false_eq_true, if_false, Bool.or_eq_true,
    decide_eq_true_eq, if_pos bad]
  exact divideError_refused overlaps bus

end

/-! ### The acknowledge of a PIC in MCS-80/85 mode (R245) -/

theorem takeInterrupt_mcs80 {s : State} (nmi : s.eu.nmiLatch = false) (mcs80 : s.sys.pic.upm = false) (ret : Word) :
    takeInterrupt ret s = .refused .intaMcs80 := by
  have none : s.sys.pic.inta = none := by simp [Pic.inta, mcs80]
  simp [takeInterrupt, nmi, none]

theorem boundary_mcs80 {s : State} (nmi : s.eu.nmiLatch = false) (mcs80 : s.sys.pic.upm = false) (inhibit : s.eu.intInhibit = false)
    (intr : intrPending s = true) : boundary s = .refused .intaMcs80 := by
  have pending : intrPending (completeInsn s) = true := intr
  have free : (completeInsn s).eu.intInhibit = false := inhibit
  simp only [boundary, free, pending, Bool.or_true, Bool.false_eq_true, if_false, if_true]
  exact takeInterrupt_mcs80 (s := completeInsn s) nmi mcs80 _

/-- Settles O14: each form's first check, or the entry of the interrupt that it raises. -/
theorem refusedForms : Obligations.RefusedForms := by
  unfold Obligations.RefusedForms
  intro s
  refine ⟨fun w p high => ⟨?_, ioWrite_refused high _ s⟩, fun rep w rm i mem => ?_, fun tf => if_pos tf,
    fun n h => enterInterrupt_refused h rfl rfl _, fun h => enterInterrupt_refused h rfl rfl _, fun h overflow => ?_,
    fun h => divideError_refused h (QuietBus.refl s),
    fun h q rep rm => ?_, fun ret => takeInterrupt_nmi_refused ret, fun ret v p => takeInterrupt_intr_refused ret,
    fun nmi mcs80 => ⟨takeInterrupt_mcs80 nmi mcs80, fun q ended inhibit intr => ?_, fun agenda free halted intr => ?_⟩⟩
  · exact congrArg (andThen · fun v => .next (setReg w .r0 v.1 v.2)) (ioRead_refused high s)
  · simp only [List.mem_cons, List.not_mem_nil, or_false] at mem
    rcases mem with rfl | rfl | rfl | rfl <;> exact if_pos rep
  · rw [exec_into, if_pos overflow]
    exact enterInterrupt_refused h rfl rfl _
  · have div := exec_div_refused h q rep .word rm
    have idiv := exec_idiv_refused h q rep .word rm
    rw [dividend_word_toNat] at div
    rw [dividend_word_toInt] at idiv
    exact ⟨exec_div_refused h q rep .byte rm, div, exec_idiv_refused h q rep .byte rm, idiv⟩
  · rw [finishInsn_ended q ended]
    exact boundary_mcs80 nmi mcs80 inhibit intr
  · rw [step_wakes halted agenda free (.inr intr)]
    exact takeInterrupt_mcs80 (s := awakened s) nmi mcs80 _

end Sys2Proof.Machine

namespace Sys2Proof.Machine

/-! ### A code fetch keeps the instruction stream (R59, R63) -/

/-- What a code fetch leaves where no other agent steps: every byte of the instruction stream that memory or the queue holds. -/
structure StreamKept (s t : State) : Prop where
  fetch : FetchOnly s t
  bytes : ∀ k b, streamByte s k = some b → streamByte t k = some b

theorem StreamKept.refl (s : State) : StreamKept s s := ⟨FetchOnly.refl s, fun _ _ => id⟩

theorem StreamKept.trans {s t u : State} (h : StreamKept s t) (k : StreamKept t u) : StreamKept s u :=
  ⟨h.fetch.trans k.fetch, fun n b e => k.bytes n b (h.bytes n b e)⟩

/-- A change of the bus unit that keeps PC and the queue keeps the stream. -/
theorem streamKept_ofBiu (s : State) {b : Biu} (pc : b.pc = s.biu.pc) (queue : b.queue = s.biu.queue) :
    StreamKept s { s with biu := b } := by
  refine ⟨FetchOnly.ofBiu s pc queue, fun k v h => ?_⟩
  rw [← h]
  simp only [streamByte, pc, queue]

/-- A byte of the stream behind the queue is memory's, counted from PC. -/
theorem streamByte_behind {s : State} {k : Nat} (h : s.biu.queue.length ≤ k) :
    streamByte s k = peek s.cfg s.sys.mem (phys s.sregs.cs (s.biu.pc + BitVec.ofNat 16 (k - s.biu.queue.length))) :=
  if_neg (Nat.not_lt.mpr h)

theorem streamByte_queued {s : State} {k : Nat} (h : k < s.biu.queue.length) : streamByte s k = s.biu.queue[k]? := if_pos h

/-- One byte of a code fetch moves from memory to the end of the queue. -/
theorem streamKept_codeFetchByte (s : State) : StreamKept s (codeFetchBytes 1 s) := by
  refine ⟨codeFetchBytes_fetchOnly 1 s, fun k b h => ?_⟩
  rcases Nat.lt_trichotomy k s.biu.queue.length with queued | rfl | behind
  · rw [streamByte_queued queued] at h
    rw [streamByte_queued (by rw [codeFetchBytes_length]; omega), ← h]
    exact List.getElem?_append_left queued
  · rw [streamByte_behind (Nat.le_refl _), Nat.sub_self, show s.biu.pc + BitVec.ofNat 16 0 = s.biu.pc from BitVec.add_zero _] at h
    rw [streamByte_queued (by rw [codeFetchBytes_length]; omega)]
    simp [codeFetchBytes, readByte_spec, heldByte, h]
  · have next : s.biu.pc + BitVec.ofNat 16 (k - s.biu.queue.length) =
        s.biu.pc + 1 + BitVec.ofNat 16 (k - (s.biu.queue.length + 1)) := by
      rw [show k - s.biu.queue.length = 1 + (k - (s.biu.queue.length + 1)) by omega, BitVec.ofNat_add, BitVec.add_assoc]
      rfl
    rw [streamByte_behind (Nat.le_of_lt behind), next] at h
    rw [streamByte_behind (by rw [codeFetchBytes_length]; omega), codeFetchBytes_length, ← h]
    simp only [codeFetchBytes, readByte_spec]

theorem streamKept_codeFetchBytes (n : Nat) (s : State) : StreamKept s (codeFetchBytes n s) := by
  induction n generalizing s with
  | zero => exact StreamKept.refl s
  | succ n ih => exact (streamKept_codeFetchByte s).trans (ih _)

theorem fetchWidth_pos (s : State) : 0 < fetchWidth s := by
  unfold fetchWidth
  split
  · decide
  · split <;> decide

/-- A code fetch keeps the stream and brings the queue a byte. -/
theorem codeFetch_stream {s : State} (notFetching : s.biu.fetching = false) :
    StreamKept s (codeFetch s) ∧ (codeFetch s).biu.planned = false ∧ (codeFetch s).biu.queue ≠ [] := by
  obtain ⟨pc, queue, fetching⟩ := Biu.startFetch_spec s.cfg (fetchStart s) s.biu
  have ended := Biu.endCycle_keeps s.cfg (s.biu.startFetch s.cfg (fetchStart s))
  have started : codeFetch s = pushFetched { s with biu := (s.biu.startFetch s.cfg (fetchStart s)).endCycle s.cfg } := by
    simp [codeFetch, finishFetch, notFetching, fetching]
  rw [started]
  refine ⟨((streamKept_ofBiu s (ended.pc.trans pc) (ended.queue.trans queue)).trans (streamKept_codeFetchBytes _ _)).trans
    (streamKept_ofBiu _ rfl rfl), rfl, fun empty => ?_⟩
  have grown := (pushFetched_spec { s with biu := (s.biu.startFetch s.cfg (fetchStart s)).endCycle s.cfg }).2.1
  rw [empty] at grown
  have := fetchWidth_pos { s with biu := (s.biu.startFetch s.cfg (fetchStart s)).endCycle s.cfg }
  simp only [List.length_nil] at grown
  omega

/-- The execution unit's wait for a byte resumes a suspended fetch (R67). -/
def resumeFetch (s : State) : State :=
  { s with biu := { s.biu with fetchState := if s.biu.fetchState == .suspended then .idle else s.biu.fetchState } }

theorem resumeFetch_fetching {s : State} (h : s.biu.fetching = false) : (resumeFetch s).biu.fetching = false := by
  by_cases suspended : s.biu.fetchState = .suspended
  · simp [resumeFetch, Biu.fetching, suspended]
  · simpa [resumeFetch, Biu.fetching, suspended] using h

theorem fillQueue_of_empty {s : State} (q : s.Quiet) (empty : s.biu.queue = []) : fillQueue s = codeFetch (resumeFetch s) := by
  unfold fillQueue
  simp only [busGap_quiet q, empty, resumeFetch]

theorem fillQueue_of_queued {s : State} (queued : s.biu.queue ≠ []) : fillQueue s = s := by
  unfold fillQueue
  split
  · exact absurd ‹_› queued
  · rfl

/-- Waiting for a byte fetches one where the queue is empty (R65). -/
theorem fillQueue_stream {s : State} (q : s.Quiet) :
    StreamKept s (fillQueue s) ∧ (fillQueue s).Quiet ∧ (fillQueue s).biu.queue ≠ [] := by
  by_cases empty : s.biu.queue = []
  · have notFetching : s.biu.fetching = false := (Bool.or_eq_false_iff.1 q.2).1
    have resumed : StreamKept s (resumeFetch s) := streamKept_ofBiu s rfl rfl
    obtain ⟨fetched, planned, nonempty⟩ := codeFetch_stream (resumeFetch_fetching notFetching)
    rw [fillQueue_of_empty q empty]
    exact ⟨resumed.trans fetched, ⟨fetched.fetch.interleave.trans q.1, planned⟩, nonempty⟩
  · rw [fillQueue_of_queued empty]
    exact ⟨StreamKept.refl s, q, empty⟩

theorem awaitByte_stream {s : State} (q : s.Quiet) :
    StreamKept s (awaitByte s) ∧ (awaitByte s).Quiet ∧ (awaitByte s).biu.queue = s.biu.queue := by
  unfold awaitByte
  split
  · have keeps := Biu.advance_keeps s.cfg none s.biu
    rw [idleTick_quiet q.2]
    exact ⟨streamKept_ofBiu s keeps.pc keeps.queue, ⟨q.1, keeps.planned q.2⟩, keeps.queue⟩
  · exact ⟨StreamKept.refl s, q, rfl⟩

/-! ### Consuming the bytes of the stream (R65, R82) -/

/-- `n` bytes of the stream have been consumed: IP is `n` further, and the rest is as it was. -/
structure Consumed (n : Nat) (s t : State) : Prop where
  quiet : t.Quiet
  cfg : t.cfg = s.cfg
  regs : t.regs = s.regs
  sregs : t.sregs = s.sregs
  flags : t.flags = s.flags
  eu : t.eu = s.eu
  mem : t.sys.mem = s.sys.mem
  ip : ip t = ip s + BitVec.ofNat 16 n
  bytes : ∀ k b, streamByte s (n + k) = some b → streamByte t k = some b

theorem Consumed.trans {m n : Nat} {s t u : State} (h : Consumed m s t) (k : Consumed n t u) : Consumed (m + n) s u where
  quiet := k.quiet
  cfg := k.cfg.trans h.cfg
  regs := k.regs.trans h.regs
  sregs := k.sregs.trans h.sregs
  flags := k.flags.trans h.flags
  eu := k.eu.trans h.eu
  mem := k.mem.trans h.mem
  ip := by rw [k.ip, h.ip, BitVec.ofNat_add, BitVec.add_assoc]
  bytes := fun j b e => k.bytes j b (h.bytes (n + j) b (by rwa [← Nat.add_assoc]))

theorem StreamKept.consumed {s t : State} (h : StreamKept s t) (q : t.Quiet) : Consumed 0 s t where
  quiet := q
  cfg := h.fetch.cfg
  regs := h.fetch.regs
  sregs := h.fetch.sregs
  flags := h.fetch.flags
  eu := h.fetch.eu
  mem := by
    obtain ⟨d, sys⟩ := h.fetch.sys
    rw [sys]
  ip := by simp [h.fetch.ip]
  bytes := fun k b e => h.bytes k b (by rwa [Nat.zero_add] at e)

/-- The head of the queue is taken. -/
theorem consumed_pop {s : State} (q : s.Quiet) {b : Byte} {rest : List Byte} (queue : s.biu.queue = b :: rest) :
    Consumed 1 s { s with biu := { s.biu with queue := rest } } where
  quiet := q
  cfg := rfl
  regs := rfl
  sregs := rfl
  flags := rfl
  eu := rfl
  mem := rfl
  ip := by
    simp only [Sys2Proof.Machine.ip, queue, List.length_cons, BitVec.ofNat_add]
    bv_omega
  bytes := by
    intro k v e
    simp only [streamByte, queue, List.length_cons] at e ⊢
    by_cases queued : k < rest.length
    · rw [if_pos (by omega), Nat.add_comm 1 k, List.getElem?_cons_succ] at e
      rwa [if_pos queued]
    · rw [if_neg (by omega), show 1 + k - (rest.length + 1) = k - rest.length by omega] at e
      rwa [if_neg queued]

theorem fetchByte_stream {s : State} (q : s.Quiet) {b : Byte} (next : streamByte s 0 = some b) :
    ∃ t, fetchByte s = (b, t) ∧ Consumed 1 s t := by
  obtain ⟨filled, quiet, nonempty⟩ := fillQueue_stream q
  obtain ⟨waited, quiet', queue⟩ := awaitByte_stream quiet
  have kept := filled.trans waited
  obtain ⟨v, rest, ready⟩ := List.exists_cons_of_ne_nil (queue ▸ nonempty)
  have head := kept.bytes 0 b next
  rw [streamByte_queued (by rw [ready]; exact Nat.succ_pos _), ready] at head
  obtain rfl : v = b := Option.some.inj head
  refine ⟨_, ?_, (kept.consumed quiet').trans (consumed_pop quiet' ready)⟩
  simp only [fetchByte, ready]

/-- The decoder does not answer before the whole of an encoding has been read. -/
theorem decode_prefix_none {i : Instr} (h : i.wellFormed = true) {taken tail : List Byte} (whole : encode i = taken ++ tail)
    (more : tail ≠ []) : decode taken = none := by
  cases early : decode taken with
  | none => rfl
  | some p =>
    obtain ⟨j, rest⟩ := p
    obtain ⟨wf, taken'⟩ := encodeOfDecode taken rest j early
    have asJ := decodeOfEncode j (rest ++ tail) wf
    have asI := decodeOfEncode i [] h
    rw [List.append_nil, whole, taken', List.append_assoc, asJ] at asI
    exact absurd (List.append_eq_nil_iff.1 (Prod.mk.inj (Option.some.inj asI)).2).2 more

/-- The decoder takes the rest of an encoding from the stream, and answers its instruction. -/
theorem fetchInstr_stream {i : Instr} (h : i.wellFormed = true) (fuel : Nat) {s : State} (q : s.Quiet) {taken tail : List Byte}
    (whole : encode i = taken ++ tail) (more : tail ≠ []) (enough : tail.length ≤ fuel) (stream : StreamAt s tail) :
    ∃ t, fetchInstr fuel taken s = (some i, encode i, t) ∧ Consumed tail.length s t := by
  induction fuel generalizing s taken tail with
  | zero => exact absurd (List.length_eq_zero_iff.1 (Nat.le_zero.1 enough)) more
  | succ fuel ih =>
    obtain ⟨b, tail, rfl⟩ := List.exists_cons_of_ne_nil more
    obtain ⟨t, fetched, one⟩ := fetchByte_stream q (stream 0 (Nat.succ_pos _))
    have whole' : encode i = (taken ++ [b]) ++ tail := by rw [whole, List.append_assoc]; rfl
    by_cases last : tail = []
    · subst last
      have decoded : decode (taken ++ [b]) = some (i, []) := by
        rw [← List.append_nil (taken ++ [b]), ← whole', ← List.append_nil (encode i)]
        exact decodeOfEncode i [] h
      refine ⟨t, ?_, one⟩
      simp only [fetchInstr, fetched, decoded, whole', List.append_nil]
    · have stream' : StreamAt t tail := fun k hk => by
        rw [List.getElem?_eq_getElem hk]
        refine one.bytes k _ ?_
        rw [stream (1 + k) (by rw [List.length_cons]; omega), Nat.add_comm 1 k, List.getElem?_cons_succ, List.getElem?_eq_getElem hk]
      obtain ⟨u, rest, consumed⟩ := ih one.quiet whole' last (Nat.le_of_succ_le_succ enough) stream'
      refine ⟨u, ?_, ?_⟩
      · simp only [fetchInstr, fetched, decode_prefix_none h whole' last]
        exact rest
      · rw [List.length_cons, Nat.add_comm]
        exact one.trans consumed

/-- The longest format with its displacement and immediate (R99). -/
theorem insnLength_le (op m : Byte) : insnLength op m ≤ maxUnprefixed := by
  have short := dispLength_le m
  have format : ∀ op : Byte, (opcodeFormat op).1 + (if (opcodeFormat op).2 then 2 else 0) +
      (if op = 0xF6 then 1 else if op = 0xF7 then 2 else 0) ≤ maxUnprefixed := by decide
  have longest := format op
  unfold insnLength
  simp only
  generalize (if op = 0xF6 then 1 else if op = 0xF7 then 2 else 0) = test at longest ⊢
  have immediate : (if (regField m).toNat < 2 then test else 0) ≤ test := by split <;> omega
  generalize (opcodeFormat op).2 = modrm at longest ⊢
  cases modrm <;> simp only [if_true, if_false, Bool.false_eq_true] at longest ⊢ <;> omega

/-- An encoding has its opcode byte, and at most the longest length of R99. -/
theorem encode_length {i : Instr} (h : i.wellFormed = true) : encode i ≠ [] ∧ (encode i).length ≤ maxUnprefixed := by
  have decoded := decodeOfEncode i [0, 0, 0, 0, 0] h
  cases bytes : encode i with
  | nil =>
    have alone := decodeOfEncode i [] h
    rw [bytes] at alone
    cases alone
  | cons op tail =>
    obtain ⟨m, bs, more⟩ : ∃ m bs, tail ++ [0, 0, 0, 0, 0] = m :: bs := by cases tail <;> exact ⟨_, _, rfl⟩
    have total : tail.length + 5 = bs.length + 1 := by simpa using congrArg List.length more
    rw [bytes, List.cons_append, more] at decoded
    obtain ⟨j, rest, again, length⟩ := decodeLength op m bs (by omega)
    rw [decoded] at again
    obtain ⟨-, rfl⟩ := Prod.mk.inj (Option.some.inj again)
    have := insnLength_le op m
    simp only [List.length_cons, List.length_nil] at length ⊢
    exact ⟨List.cons_ne_nil _ _, by omega⟩

/-- A peek answers the instruction whose encoding stands next in the stream (R88). -/
theorem peekFrom_stream {s : State} {i : Instr} (h : i.wellFormed = true) (stream : StreamAt s (encode i)) {p : Prefixes}
    (limit : p.count + (encode i).length ≤ maxInsnLen) (opcode : ∀ b ∈ (encode i).head?, prefixByte b = none) (cs start : Word) :
    peekFrom cs start p (streamBytes maxInsnLen s) =
      .insn (Decoded.ofBytes cs start p (encode i) (p.count + (encode i).length) i) := by
  obtain ⟨rest, read⟩ := streamBytes_of_streamAt stream (Nat.le_of_add_left_le limit)
  obtain ⟨b, tail, bytes⟩ := List.exists_cons_of_ne_nil (encode_length h).1
  have decoded := decodeOfEncode i rest h
  rw [bytes] at decoded limit opcode ⊢
  rw [← read, bytes]
  exact peekFrom_decode (opcode b rfl) decoded rfl limit

/-- Settles O6: the bytes of the encoding are consumed one by one, and the peek reads the same. -/
theorem fetchConsumesStream : Obligations.FetchConsumesStream := by
  unfold Obligations.FetchConsumesStream
  intro s i q wf stream limit
  obtain ⟨nonempty, short⟩ := encode_length wf
  obtain ⟨t, fetched, consumed⟩ := fetchInstr_stream wf maxUnprefixed q (List.nil_append _).symm nonempty short stream
  have size : (ip t - s.eu.insnStart).toNat = (ip s - s.eu.insnStart).toNat + (encode i).length := by
    rw [consumed.ip]
    unfold maxInsnLen at limit
    bv_omega
  have decoded : decodeNext s = (some i, { t with eu := { t.eu with
      decoded := some (decodedRecord i (encode i) t), phase := .executing } }) := by
    simp only [decodeNext, fetched, if_neg (Nat.not_lt.mpr (size.trans_le limit))]
  have prefixes : t.eu.prefixes = s.eu.prefixes := congrArg Eu.prefixes consumed.eu
  refine ⟨_, decoded, consumed.quiet, consumed.ip, consumed.regs, consumed.sregs, consumed.flags, consumed.mem, consumed.cfg, rfl,
    prefixes, fun start opcode => ?_⟩
  rw [start] at size limit
  have record : decodedRecord i (encode i) t =
      Decoded.ofBytes s.sregs.cs s.eu.insnStart s.eu.prefixes (encode i) (s.eu.prefixes.count + (encode i).length) i := by
    rw [← size, decodedRecord, consumed.sregs, consumed.eu]
  rw [record]
  exact ⟨_, rfl, rfl, rfl, peekFrom_stream wf stream limit opcode _ _⟩

end Sys2Proof.Machine
